-- ==== Sys2Proof/Word.lean ====
section
/-! DEFINITION. The word types of the machine and their plainest facts (00_scope R7, R9): bytes, 16-bit
words, 24-bit physical addresses, and the two data widths an operand can have. -/

namespace Sys2Proof

/-- BYTE data, 8 bits (R7). -/
abbrev Byte := BitVec 8

/-- WORD data, 16 bits, the width of every GPR, of IP and of every SFR (R6 `XLEN`). -/
abbrev Word := BitVec 16

/-- A physical address of the 16 MByte space (R6 `ADDR_BITS`, R70). -/
abbrev Addr := BitVec 24

/-- The number of a GPR of the current bank: word GPR R0..R15, or byte GPR RL0, RH0, ..., RL7, RH7. -/
abbrev RegNo := BitVec 4

/-- The data type of an operand access: BYTE or WORD (R7, R78). -/
inductive Width where
  | byte
  | word
  deriving DecidableEq, Repr

/-- The number of bits of a data type. -/
abbrev Width.bits : Width → Nat
  | .byte => 8
  | .word => 16

/-- The step of an auto-modified pointer: 1 for byte operations, 2 for word operations (R95). -/
def Width.delta : Width → Word
  | .byte => 1
  | .word => 2

end Sys2Proof
end

