-- ==== Sys2Proof/Syntax.lean ====
section
/-! DEFINITION. The instructions: one constructor for each of the 230 forms of spec/opcode_table.json
(30_encoding R161), 84 mnemonics. A constructor's name is the mnemonic in lower case followed, where a
mnemonic has several forms, by its operand kinds (00_scope R14, R15): Rw, Rb, Reg, Mem, Data<n>, Ind for
[Rw], IndInc for [Rw+], IndDec for [-Rw], Disp for [Rw+#data16]. Operands stand in the order of the
syntax column, destination first. The insignificant byte xx of the #data8 forms (R140) is not kept. -/

namespace Sys2Proof

/-- The sixteen condition codes, in the order of their codes 0H to FH (R150). -/
inductive Cond where
  | uc | net | z | nz | v | nv | n | nn | c | nc | sgt | sle | slt | sge | ugt | ule
  deriving DecidableEq, Repr

/-- An instruction with its operands. Register numbers `n`, `m` are R0..R15 or RL0..RH7 (R135); `p` is
the pointer R0..R3 of the forms that accept only those (R136); `r` is an 8-bit `reg`, `qq`/`zz` a `bitoff`,
`q`/`z` a bit position; `a` is the 16-bit `mem` or `caddr`; `count` is the length 1..4 of a sequence (R141). -/
inductive Instr where
  /-- `ADD Rwn, Rwm`, format `00 nm` (R200) -/
  | addRwRw (n : RegNo) (m : RegNo)
  /-- `ADDB Rbn, Rbm`, format `01 nm` (R201) -/
  | addbRbRb (n : RegNo) (m : RegNo)
  /-- `ADD reg, mem`, format `02 RR MM MM` (R200) -/
  | addRegMem (r : Byte) (a : Word)
  /-- `ADDB reg, mem`, format `03 RR MM MM` (R201) -/
  | addbRegMem (r : Byte) (a : Word)
  /-- `ADD mem, reg`, format `04 RR MM MM` (R200) -/
  | addMemReg (a : Word) (r : Byte)
  /-- `ADDB mem, reg`, format `05 RR MM MM` (R201) -/
  | addbMemReg (a : Word) (r : Byte)
  /-- `ADD reg, #data16`, format `06 RR ## ##` (R200) -/
  | addRegData16 (r : Byte) (d : Word)
  /-- `ADDB reg, #data8`, format `07 RR ## xx` (R201) -/
  | addbRegData8 (r : Byte) (d : Byte)
  /-- `ADD Rwn, #data3`, format `08 n:0###` (R200) -/
  | addRwData3 (n : RegNo) (d : BitVec 3)
  /-- `ADD Rwn, [Rwi]`, format `08 n:10ii` (R200) -/
  | addRwInd (n : RegNo) (p : RegNo)
  /-- `ADD Rwn, [Rwi+]`, format `08 n:11ii` (R200) -/
  | addRwIndInc (n : RegNo) (p : RegNo)
  /-- `ADDB Rbn, #data3`, format `09 n:0###` (R201) -/
  | addbRbData3 (n : RegNo) (d : BitVec 3)
  /-- `ADDB Rbn, [Rwi]`, format `09 n:10ii` (R201) -/
  | addbRbInd (n : RegNo) (p : RegNo)
  /-- `ADDB Rbn, [Rwi+]`, format `09 n:11ii` (R201) -/
  | addbRbIndInc (n : RegNo) (p : RegNo)
  /-- `BFLDL bitoffQ, #mask8, #data8`, format `0A QQ @@ ##` (R269) -/
  | bfldl (qq : Byte) (mask : Byte) (d : Byte)
  /-- `MUL Rwn, Rwm`, format `0B nm` (R210) -/
  | mul (n : RegNo) (m : RegNo)
  /-- `ROL Rwn, Rwm`, format `0C nm` (R312) -/
  | rolRwRw (n : RegNo) (m : RegNo)
  /-- `JMPR cc, rel`, format `cD rr` (R385) -/
  | jmpr (cc : Cond) (rel : Byte)
  /-- `BCLR bitaddrQ.q`, format `qE QQ` (R260) -/
  | bclr (qq : Byte) (q : BitVec 4)
  /-- `BSET bitaddrQ.q`, format `qF QQ` (R261) -/
  | bset (qq : Byte) (q : BitVec 4)
  /-- `ADDC Rwn, Rwm`, format `10 nm` (R202) -/
  | addcRwRw (n : RegNo) (m : RegNo)
  /-- `ADDCB Rbn, Rbm`, format `11 nm` (R203) -/
  | addcbRbRb (n : RegNo) (m : RegNo)
  /-- `ADDC reg, mem`, format `12 RR MM MM` (R202) -/
  | addcRegMem (r : Byte) (a : Word)
  /-- `ADDCB reg, mem`, format `13 RR MM MM` (R203) -/
  | addcbRegMem (r : Byte) (a : Word)
  /-- `ADDC mem, reg`, format `14 RR MM MM` (R202) -/
  | addcMemReg (a : Word) (r : Byte)
  /-- `ADDCB mem, reg`, format `15 RR MM MM` (R203) -/
  | addcbMemReg (a : Word) (r : Byte)
  /-- `ADDC reg, #data16`, format `16 RR ## ##` (R202) -/
  | addcRegData16 (r : Byte) (d : Word)
  /-- `ADDCB reg, #data8`, format `17 RR ## xx` (R203) -/
  | addcbRegData8 (r : Byte) (d : Byte)
  /-- `ADDC Rwn, #data3`, format `18 n:0###` (R202) -/
  | addcRwData3 (n : RegNo) (d : BitVec 3)
  /-- `ADDC Rwn, [Rwi]`, format `18 n:10ii` (R202) -/
  | addcRwInd (n : RegNo) (p : RegNo)
  /-- `ADDC Rwn, [Rwi+]`, format `18 n:11ii` (R202) -/
  | addcRwIndInc (n : RegNo) (p : RegNo)
  /-- `ADDCB Rbn, #data3`, format `19 n:0###` (R203) -/
  | addcbRbData3 (n : RegNo) (d : BitVec 3)
  /-- `ADDCB Rbn, [Rwi]`, format `19 n:10ii` (R203) -/
  | addcbRbInd (n : RegNo) (p : RegNo)
  /-- `ADDCB Rbn, [Rwi+]`, format `19 n:11ii` (R203) -/
  | addcbRbIndInc (n : RegNo) (p : RegNo)
  /-- `BFLDH bitoffQ, #mask8, #data8`, format `1A QQ ## @@` (R268) -/
  | bfldh (qq : Byte) (mask : Byte) (d : Byte)
  /-- `MULU Rwn, Rwm`, format `1B nm` (R211) -/
  | mulu (n : RegNo) (m : RegNo)
  /-- `ROL Rwn, #data4`, format `1C #n` (R312) -/
  | rolRwData4 (n : RegNo) (d : BitVec 4)
  /-- `SUB Rwn, Rwm`, format `20 nm` (R204) -/
  | subRwRw (n : RegNo) (m : RegNo)
  /-- `SUBB Rbn, Rbm`, format `21 nm` (R205) -/
  | subbRbRb (n : RegNo) (m : RegNo)
  /-- `SUB reg, mem`, format `22 RR MM MM` (R204) -/
  | subRegMem (r : Byte) (a : Word)
  /-- `SUBB reg, mem`, format `23 RR MM MM` (R205) -/
  | subbRegMem (r : Byte) (a : Word)
  /-- `SUB mem, reg`, format `24 RR MM MM` (R204) -/
  | subMemReg (a : Word) (r : Byte)
  /-- `SUBB mem, reg`, format `25 RR MM MM` (R205) -/
  | subbMemReg (a : Word) (r : Byte)
  /-- `SUB reg, #data16`, format `26 RR ## ##` (R204) -/
  | subRegData16 (r : Byte) (d : Word)
  /-- `SUBB reg, #data8`, format `27 RR ## xx` (R205) -/
  | subbRegData8 (r : Byte) (d : Byte)
  /-- `SUB Rwn, #data3`, format `28 n:0###` (R204) -/
  | subRwData3 (n : RegNo) (d : BitVec 3)
  /-- `SUB Rwn, [Rwi]`, format `28 n:10ii` (R204) -/
  | subRwInd (n : RegNo) (p : RegNo)
  /-- `SUB Rwn, [Rwi+]`, format `28 n:11ii` (R204) -/
  | subRwIndInc (n : RegNo) (p : RegNo)
  /-- `SUBB Rbn, #data3`, format `29 n:0###` (R205) -/
  | subbRbData3 (n : RegNo) (d : BitVec 3)
  /-- `SUBB Rbn, [Rwi]`, format `29 n:10ii` (R205) -/
  | subbRbInd (n : RegNo) (p : RegNo)
  /-- `SUBB Rbn, [Rwi+]`, format `29 n:11ii` (R205) -/
  | subbRbIndInc (n : RegNo) (p : RegNo)
  /-- `BCMP bitaddrZ.z, bitaddrQ.q`, format `2A QQ ZZ qz` (R267) -/
  | bcmp (zz : Byte) (z : BitVec 4) (qq : Byte) (q : BitVec 4)
  /-- `PRIOR Rwn, Rwm`, format `2B nm` (R246) -/
  | prior (n : RegNo) (m : RegNo)
  /-- `ROR Rwn, Rwm`, format `2C nm` (R313) -/
  | rorRwRw (n : RegNo) (m : RegNo)
  /-- `SUBC Rwn, Rwm`, format `30 nm` (R206) -/
  | subcRwRw (n : RegNo) (m : RegNo)
  /-- `SUBCB Rbn, Rbm`, format `31 nm` (R207) -/
  | subcbRbRb (n : RegNo) (m : RegNo)
  /-- `SUBC reg, mem`, format `32 RR MM MM` (R206) -/
  | subcRegMem (r : Byte) (a : Word)
  /-- `SUBCB reg, mem`, format `33 RR MM MM` (R207) -/
  | subcbRegMem (r : Byte) (a : Word)
  /-- `SUBC mem, reg`, format `34 RR MM MM` (R206) -/
  | subcMemReg (a : Word) (r : Byte)
  /-- `SUBCB mem, reg`, format `35 RR MM MM` (R207) -/
  | subcbMemReg (a : Word) (r : Byte)
  /-- `SUBC reg, #data16`, format `36 RR ## ##` (R206) -/
  | subcRegData16 (r : Byte) (d : Word)
  /-- `SUBCB reg, #data8`, format `37 RR ## xx` (R207) -/
  | subcbRegData8 (r : Byte) (d : Byte)
  /-- `SUBC Rwn, #data3`, format `38 n:0###` (R206) -/
  | subcRwData3 (n : RegNo) (d : BitVec 3)
  /-- `SUBC Rwn, [Rwi]`, format `38 n:10ii` (R206) -/
  | subcRwInd (n : RegNo) (p : RegNo)
  /-- `SUBC Rwn, [Rwi+]`, format `38 n:11ii` (R206) -/
  | subcRwIndInc (n : RegNo) (p : RegNo)
  /-- `SUBCB Rbn, #data3`, format `39 n:0###` (R207) -/
  | subcbRbData3 (n : RegNo) (d : BitVec 3)
  /-- `SUBCB Rbn, [Rwi]`, format `39 n:10ii` (R207) -/
  | subcbRbInd (n : RegNo) (p : RegNo)
  /-- `SUBCB Rbn, [Rwi+]`, format `39 n:11ii` (R207) -/
  | subcbRbIndInc (n : RegNo) (p : RegNo)
  /-- `BMOVN bitaddrZ.z, bitaddrQ.q`, format `3A QQ ZZ qz` (R263) -/
  | bmovn (zz : Byte) (z : BitVec 4) (qq : Byte) (q : BitVec 4)
  /-- `ROR Rwn, #data4`, format `3C #n` (R313) -/
  | rorRwData4 (n : RegNo) (d : BitVec 4)
  /-- `CMP Rwn, Rwm`, format `40 nm` (R290) -/
  | cmpRwRw (n : RegNo) (m : RegNo)
  /-- `CMPB Rbn, Rbm`, format `41 nm` (R291) -/
  | cmpbRbRb (n : RegNo) (m : RegNo)
  /-- `CMP reg, mem`, format `42 RR MM MM` (R290) -/
  | cmpRegMem (r : Byte) (a : Word)
  /-- `CMPB reg, mem`, format `43 RR MM MM` (R291) -/
  | cmpbRegMem (r : Byte) (a : Word)
  /-- `CMP reg, #data16`, format `46 RR ## ##` (R290) -/
  | cmpRegData16 (r : Byte) (d : Word)
  /-- `CMPB reg, #data8`, format `47 RR ## xx` (R291) -/
  | cmpbRegData8 (r : Byte) (d : Byte)
  /-- `CMP Rwn, #data3`, format `48 n:0###` (R290) -/
  | cmpRwData3 (n : RegNo) (d : BitVec 3)
  /-- `CMP Rwn, [Rwi]`, format `48 n:10ii` (R290) -/
  | cmpRwInd (n : RegNo) (p : RegNo)
  /-- `CMP Rwn, [Rwi+]`, format `48 n:11ii` (R290) -/
  | cmpRwIndInc (n : RegNo) (p : RegNo)
  /-- `CMPB Rbn, #data3`, format `49 n:0###` (R291) -/
  | cmpbRbData3 (n : RegNo) (d : BitVec 3)
  /-- `CMPB Rbn, [Rwi]`, format `49 n:10ii` (R291) -/
  | cmpbRbInd (n : RegNo) (p : RegNo)
  /-- `CMPB Rbn, [Rwi+]`, format `49 n:11ii` (R291) -/
  | cmpbRbIndInc (n : RegNo) (p : RegNo)
  /-- `BMOV bitaddrZ.z, bitaddrQ.q`, format `4A QQ ZZ qz` (R262) -/
  | bmov (zz : Byte) (z : BitVec 4) (qq : Byte) (q : BitVec 4)
  /-- `DIV Rwn`, format `4B nn` (R212) -/
  | div (n : RegNo)
  /-- `SHL Rwn, Rwm`, format `4C nm` (R310) -/
  | shlRwRw (n : RegNo) (m : RegNo)
  /-- `XOR Rwn, Rwm`, format `50 nm` (R244) -/
  | xorRwRw (n : RegNo) (m : RegNo)
  /-- `XORB Rbn, Rbm`, format `51 nm` (R245) -/
  | xorbRbRb (n : RegNo) (m : RegNo)
  /-- `XOR reg, mem`, format `52 RR MM MM` (R244) -/
  | xorRegMem (r : Byte) (a : Word)
  /-- `XORB reg, mem`, format `53 RR MM MM` (R245) -/
  | xorbRegMem (r : Byte) (a : Word)
  /-- `XOR mem, reg`, format `54 RR MM MM` (R244) -/
  | xorMemReg (a : Word) (r : Byte)
  /-- `XORB mem, reg`, format `55 RR MM MM` (R245) -/
  | xorbMemReg (a : Word) (r : Byte)
  /-- `XOR reg, #data16`, format `56 RR ## ##` (R244) -/
  | xorRegData16 (r : Byte) (d : Word)
  /-- `XORB reg, #data8`, format `57 RR ## xx` (R245) -/
  | xorbRegData8 (r : Byte) (d : Byte)
  /-- `XOR Rwn, #data3`, format `58 n:0###` (R244) -/
  | xorRwData3 (n : RegNo) (d : BitVec 3)
  /-- `XOR Rwn, [Rwi]`, format `58 n:10ii` (R244) -/
  | xorRwInd (n : RegNo) (p : RegNo)
  /-- `XOR Rwn, [Rwi+]`, format `58 n:11ii` (R244) -/
  | xorRwIndInc (n : RegNo) (p : RegNo)
  /-- `XORB Rbn, #data3`, format `59 n:0###` (R245) -/
  | xorbRbData3 (n : RegNo) (d : BitVec 3)
  /-- `XORB Rbn, [Rwi]`, format `59 n:10ii` (R245) -/
  | xorbRbInd (n : RegNo) (p : RegNo)
  /-- `XORB Rbn, [Rwi+]`, format `59 n:11ii` (R245) -/
  | xorbRbIndInc (n : RegNo) (p : RegNo)
  /-- `BOR bitaddrZ.z, bitaddrQ.q`, format `5A QQ ZZ qz` (R265) -/
  | bor (zz : Byte) (z : BitVec 4) (qq : Byte) (q : BitVec 4)
  /-- `DIVU Rwn`, format `5B nn` (R215) -/
  | divu (n : RegNo)
  /-- `SHL Rwn, #data4`, format `5C #n` (R310) -/
  | shlRwData4 (n : RegNo) (d : BitVec 4)
  /-- `AND Rwn, Rwm`, format `60 nm` (R240) -/
  | andRwRw (n : RegNo) (m : RegNo)
  /-- `ANDB Rbn, Rbm`, format `61 nm` (R241) -/
  | andbRbRb (n : RegNo) (m : RegNo)
  /-- `AND reg, mem`, format `62 RR MM MM` (R240) -/
  | andRegMem (r : Byte) (a : Word)
  /-- `ANDB reg, mem`, format `63 RR MM MM` (R241) -/
  | andbRegMem (r : Byte) (a : Word)
  /-- `AND mem, reg`, format `64 RR MM MM` (R240) -/
  | andMemReg (a : Word) (r : Byte)
  /-- `ANDB mem, reg`, format `65 RR MM MM` (R241) -/
  | andbMemReg (a : Word) (r : Byte)
  /-- `AND reg, #data16`, format `66 RR ## ##` (R240) -/
  | andRegData16 (r : Byte) (d : Word)
  /-- `ANDB reg, #data8`, format `67 RR ## xx` (R241) -/
  | andbRegData8 (r : Byte) (d : Byte)
  /-- `AND Rwn, #data3`, format `68 n:0###` (R240) -/
  | andRwData3 (n : RegNo) (d : BitVec 3)
  /-- `AND Rwn, [Rwi]`, format `68 n:10ii` (R240) -/
  | andRwInd (n : RegNo) (p : RegNo)
  /-- `AND Rwn, [Rwi+]`, format `68 n:11ii` (R240) -/
  | andRwIndInc (n : RegNo) (p : RegNo)
  /-- `ANDB Rbn, #data3`, format `69 n:0###` (R241) -/
  | andbRbData3 (n : RegNo) (d : BitVec 3)
  /-- `ANDB Rbn, [Rwi]`, format `69 n:10ii` (R241) -/
  | andbRbInd (n : RegNo) (p : RegNo)
  /-- `ANDB Rbn, [Rwi+]`, format `69 n:11ii` (R241) -/
  | andbRbIndInc (n : RegNo) (p : RegNo)
  /-- `BAND bitaddrZ.z, bitaddrQ.q`, format `6A QQ ZZ qz` (R264) -/
  | band (zz : Byte) (z : BitVec 4) (qq : Byte) (q : BitVec 4)
  /-- `DIVL Rwn`, format `6B nn` (R213) -/
  | divl (n : RegNo)
  /-- `SHR Rwn, Rwm`, format `6C nm` (R311) -/
  | shrRwRw (n : RegNo) (m : RegNo)
  /-- `OR Rwn, Rwm`, format `70 nm` (R242) -/
  | orRwRw (n : RegNo) (m : RegNo)
  /-- `ORB Rbn, Rbm`, format `71 nm` (R243) -/
  | orbRbRb (n : RegNo) (m : RegNo)
  /-- `OR reg, mem`, format `72 RR MM MM` (R242) -/
  | orRegMem (r : Byte) (a : Word)
  /-- `ORB reg, mem`, format `73 RR MM MM` (R243) -/
  | orbRegMem (r : Byte) (a : Word)
  /-- `OR mem, reg`, format `74 RR MM MM` (R242) -/
  | orMemReg (a : Word) (r : Byte)
  /-- `ORB mem, reg`, format `75 RR MM MM` (R243) -/
  | orbMemReg (a : Word) (r : Byte)
  /-- `OR reg, #data16`, format `76 RR ## ##` (R242) -/
  | orRegData16 (r : Byte) (d : Word)
  /-- `ORB reg, #data8`, format `77 RR ## xx` (R243) -/
  | orbRegData8 (r : Byte) (d : Byte)
  /-- `OR Rwn, #data3`, format `78 n:0###` (R242) -/
  | orRwData3 (n : RegNo) (d : BitVec 3)
  /-- `OR Rwn, [Rwi]`, format `78 n:10ii` (R242) -/
  | orRwInd (n : RegNo) (p : RegNo)
  /-- `OR Rwn, [Rwi+]`, format `78 n:11ii` (R242) -/
  | orRwIndInc (n : RegNo) (p : RegNo)
  /-- `ORB Rbn, #data3`, format `79 n:0###` (R243) -/
  | orbRbData3 (n : RegNo) (d : BitVec 3)
  /-- `ORB Rbn, [Rwi]`, format `79 n:10ii` (R243) -/
  | orbRbInd (n : RegNo) (p : RegNo)
  /-- `ORB Rbn, [Rwi+]`, format `79 n:11ii` (R243) -/
  | orbRbIndInc (n : RegNo) (p : RegNo)
  /-- `BXOR bitaddrZ.z, bitaddrQ.q`, format `7A QQ ZZ qz` (R266) -/
  | bxor (zz : Byte) (z : BitVec 4) (qq : Byte) (q : BitVec 4)
  /-- `DIVLU Rwn`, format `7B nn` (R214) -/
  | divlu (n : RegNo)
  /-- `SHR Rwn, #data4`, format `7C #n` (R311) -/
  | shrRwData4 (n : RegNo) (d : BitVec 4)
  /-- `CMPI1 Rwn, #data4`, format `80 #n` (R294) -/
  | cmpi1RwData4 (n : RegNo) (d : BitVec 4)
  /-- `NEG Rwn`, format `81 n0` (R218) -/
  | neg (n : RegNo)
  /-- `CMPI1 Rwn, mem`, format `82 Fn MM MM` (R294) -/
  | cmpi1RwMem (n : RegNo) (a : Word)
  /-- `MOV [Rwn], mem`, format `84 0n MM MM` (R330) -/
  | movIndMem (n : RegNo) (a : Word)
  /-- `CMPI1 Rwn, #data16`, format `86 Fn ## ##` (R294) -/
  | cmpi1RwData16 (n : RegNo) (d : Word)
  /-- `IDLE`, format `87 78 87 87` (R431) -/
  | idle
  /-- `MOV [-Rwm], Rwn`, format `88 nm` (R330) -/
  | movIndDecRw (m : RegNo) (n : RegNo)
  /-- `MOVB [-Rwm], Rbn`, format `89 nm` (R331) -/
  | movbIndDecRb (m : RegNo) (n : RegNo)
  /-- `JB bitaddrQ.q, rel`, format `8A QQ rr q0` (R387) -/
  | jb (qq : Byte) (q : BitVec 4) (rel : Byte)
  /-- `CMPI2 Rwn, #data4`, format `90 #n` (R295) -/
  | cmpi2RwData4 (n : RegNo) (d : BitVec 4)
  /-- `CPL Rwn`, format `91 n0` (R216) -/
  | cpl (n : RegNo)
  /-- `CMPI2 Rwn, mem`, format `92 Fn MM MM` (R295) -/
  | cmpi2RwMem (n : RegNo) (a : Word)
  /-- `MOV mem, [Rwn]`, format `94 0n MM MM` (R330) -/
  | movMemInd (a : Word) (n : RegNo)
  /-- `CMPI2 Rwn, #data16`, format `96 Fn ## ##` (R295) -/
  | cmpi2RwData16 (n : RegNo) (d : Word)
  /-- `PWRDN`, format `97 68 97 97` (R432) -/
  | pwrdn
  /-- `MOV Rwn, [Rwm+]`, format `98 nm` (R330) -/
  | movRwIndInc (n : RegNo) (m : RegNo)
  /-- `MOVB Rbn, [Rwm+]`, format `99 nm` (R331) -/
  | movbRbIndInc (n : RegNo) (m : RegNo)
  /-- `JNB bitaddrQ.q, rel`, format `9A QQ rr q0` (R389) -/
  | jnb (qq : Byte) (q : BitVec 4) (rel : Byte)
  /-- `TRAP #trap7`, format `9B t:ttt0` (R396) -/
  | trap (t : BitVec 7)
  /-- `JMPI cc, [Rwn]`, format `9C cn` (R384) -/
  | jmpi (cc : Cond) (n : RegNo)
  /-- `CMPD1 Rwn, #data4`, format `A0 #n` (R292) -/
  | cmpd1RwData4 (n : RegNo) (d : BitVec 4)
  /-- `NEGB Rbn`, format `A1 n0` (R219) -/
  | negb (n : RegNo)
  /-- `CMPD1 Rwn, mem`, format `A2 Fn MM MM` (R292) -/
  | cmpd1RwMem (n : RegNo) (a : Word)
  /-- `MOVB [Rwn], mem`, format `A4 0n MM MM` (R331) -/
  | movbIndMem (n : RegNo) (a : Word)
  /-- `DISWDT`, format `A5 5A A5 A5` (R434) -/
  | diswdt
  /-- `CMPD1 Rwn, #data16`, format `A6 Fn ## ##` (R292) -/
  | cmpd1RwData16 (n : RegNo) (d : Word)
  /-- `SRVWDT`, format `A7 58 A7 A7` (R433) -/
  | srvwdt
  /-- `MOV Rwn, [Rwm]`, format `A8 nm` (R330) -/
  | movRwInd (n : RegNo) (m : RegNo)
  /-- `MOVB Rbn, [Rwm]`, format `A9 nm` (R331) -/
  | movbRbInd (n : RegNo) (m : RegNo)
  /-- `JBC bitaddrQ.q, rel`, format `AA QQ rr q0` (R388) -/
  | jbc (qq : Byte) (q : BitVec 4) (rel : Byte)
  /-- `CALLI cc, [Rwn]`, format `AB cn` (R392) -/
  | calli (cc : Cond) (n : RegNo)
  /-- `ASHR Rwn, Rwm`, format `AC nm` (R314) -/
  | ashrRwRw (n : RegNo) (m : RegNo)
  /-- `CMPD2 Rwn, #data4`, format `B0 #n` (R293) -/
  | cmpd2RwData4 (n : RegNo) (d : BitVec 4)
  /-- `CPLB Rbn`, format `B1 n0` (R217) -/
  | cplb (n : RegNo)
  /-- `CMPD2 Rwn, mem`, format `B2 Fn MM MM` (R293) -/
  | cmpd2RwMem (n : RegNo) (a : Word)
  /-- `MOVB mem, [Rwn]`, format `B4 0n MM MM` (R331) -/
  | movbMemInd (a : Word) (n : RegNo)
  /-- `EINIT`, format `B5 4A B5 B5` (R435) -/
  | einit
  /-- `CMPD2 Rwn, #data16`, format `B6 Fn ## ##` (R293) -/
  | cmpd2RwData16 (n : RegNo) (d : Word)
  /-- `SRST`, format `B7 48 B7 B7` (R430) -/
  | srst
  /-- `MOV [Rwm], Rwn`, format `B8 nm` (R330) -/
  | movIndRw (m : RegNo) (n : RegNo)
  /-- `MOVB [Rwm], Rbn`, format `B9 nm` (R331) -/
  | movbIndRb (m : RegNo) (n : RegNo)
  /-- `JNBS bitaddrQ.q, rel`, format `BA QQ rr q0` (R390) -/
  | jnbs (qq : Byte) (q : BitVec 4) (rel : Byte)
  /-- `CALLR rel`, format `BB rr` (R393) -/
  | callr (rel : Byte)
  /-- `ASHR Rwn, #data4`, format `BC #n` (R314) -/
  | ashrRwData4 (n : RegNo) (d : BitVec 4)
  /-- `MOVBZ Rwn, Rbm`, format `C0 mn` (R333) -/
  | movbzRwRb (n : RegNo) (m : RegNo)
  /-- `MOVBZ reg, mem`, format `C2 RR MM MM` (R333) -/
  | movbzRegMem (r : Byte) (a : Word)
  /-- `MOV [Rwm+#data16], Rwn`, format `C4 nm ## ##` (R330) -/
  | movDispRw (m : RegNo) (d : Word) (n : RegNo)
  /-- `MOVBZ mem, reg`, format `C5 RR MM MM` (R333) -/
  | movbzMemReg (a : Word) (r : Byte)
  /-- `SCXT reg, #data16`, format `C6 RR ## ##` (R462) -/
  | scxtRegData16 (r : Byte) (d : Word)
  /-- `MOV [Rwn], [Rwm]`, format `C8 nm` (R330) -/
  | movIndInd (n : RegNo) (m : RegNo)
  /-- `MOVB [Rwn], [Rwm]`, format `C9 nm` (R331) -/
  | movbIndInd (n : RegNo) (m : RegNo)
  /-- `CALLA cc, caddr`, format `CA c0 MM MM` (R391) -/
  | calla (cc : Cond) (a : Word)
  /-- `RET`, format `CB 00` (R420) -/
  | ret
  /-- `NOP`, format `CC 00` (R463) -/
  | nop
  /-- `MOVBS Rwn, Rbm`, format `D0 mn` (R332) -/
  | movbsRwRb (n : RegNo) (m : RegNo)
  /-- `ATOMIC #irang2`, format `D1 :00##-0` (R436) -/
  | atomic (count : Nat)
  /-- `EXTR #irang2`, format `D1 :10##-0` (R437) -/
  | extr (count : Nat)
  /-- `MOVBS reg, mem`, format `D2 RR MM MM` (R332) -/
  | movbsRegMem (r : Byte) (a : Word)
  /-- `MOV Rwn, [Rwm+#data16]`, format `D4 nm ## ##` (R330) -/
  | movRwDisp (n : RegNo) (m : RegNo) (d : Word)
  /-- `MOVBS mem, reg`, format `D5 RR MM MM` (R332) -/
  | movbsMemReg (a : Word) (r : Byte)
  /-- `SCXT reg, mem`, format `D6 RR MM MM` (R462) -/
  | scxtRegMem (r : Byte) (a : Word)
  /-- `EXTS #seg8, #irang2`, format `D7 :00##-0 ss 00` (R440) -/
  | extsSeg (seg : Byte) (count : Nat)
  /-- `EXTP #pag10, #irang2`, format `D7 :01##-0 pp 0:00pp` (R438) -/
  | extpPag (page : BitVec 10) (count : Nat)
  /-- `EXTSR #seg8, #irang2`, format `D7 :10##-0 SS 00` (R441) -/
  | extsrSeg (seg : Byte) (count : Nat)
  /-- `EXTPR #pag10, #irang2`, format `D7 :11##-0 pp 0:00pp` (R439) -/
  | extprPag (page : BitVec 10) (count : Nat)
  /-- `MOV [Rwn+], [Rwm]`, format `D8 nm` (R330) -/
  | movIndIncInd (n : RegNo) (m : RegNo)
  /-- `MOVB [Rwn+], [Rwm]`, format `D9 nm` (R331) -/
  | movbIndIncInd (n : RegNo) (m : RegNo)
  /-- `CALLS seg, caddr`, format `DA SS MM MM` (R394) -/
  | calls (seg : Byte) (a : Word)
  /-- `RETS`, format `DB 00` (R421) -/
  | rets
  /-- `EXTS Rwm, #irang2`, format `DC :00##-m` (R440) -/
  | extsRw (m : RegNo) (count : Nat)
  /-- `EXTP Rwm, #irang2`, format `DC :01##-m` (R438) -/
  | extpRw (m : RegNo) (count : Nat)
  /-- `EXTSR Rwm, #irang2`, format `DC :10##-m` (R441) -/
  | extsrRw (m : RegNo) (count : Nat)
  /-- `EXTPR Rwm, #irang2`, format `DC :11##-m` (R439) -/
  | extprRw (m : RegNo) (count : Nat)
  /-- `MOV Rwn, #data4`, format `E0 #n` (R330) -/
  | movRwData4 (n : RegNo) (d : BitVec 4)
  /-- `MOVB Rbn, #data4`, format `E1 #n` (R331) -/
  | movbRbData4 (n : RegNo) (d : BitVec 4)
  /-- `PCALL reg, caddr`, format `E2 RR MM MM` (R395) -/
  | pcall (r : Byte) (a : Word)
  /-- `MOVB [Rwm+#data16], Rbn`, format `E4 nm ## ##` (R331) -/
  | movbDispRb (m : RegNo) (d : Word) (n : RegNo)
  /-- `MOV reg, #data16`, format `E6 RR ## ##` (R330) -/
  | movRegData16 (r : Byte) (d : Word)
  /-- `MOVB reg, #data8`, format `E7 RR ## xx` (R331) -/
  | movbRegData8 (r : Byte) (d : Byte)
  /-- `MOV [Rwn], [Rwm+]`, format `E8 nm` (R330) -/
  | movIndIndInc (n : RegNo) (m : RegNo)
  /-- `MOVB [Rwn], [Rwm+]`, format `E9 nm` (R331) -/
  | movbIndIndInc (n : RegNo) (m : RegNo)
  /-- `JMPA cc, caddr`, format `EA c0 MM MM` (R383) -/
  | jmpa (cc : Cond) (a : Word)
  /-- `RETP reg`, format `EB RR` (R422) -/
  | retp (r : Byte)
  /-- `PUSH reg`, format `EC RR` (R461) -/
  | push (r : Byte)
  /-- `MOV Rwn, Rwm`, format `F0 nm` (R330) -/
  | movRwRw (n : RegNo) (m : RegNo)
  /-- `MOVB Rbn, Rbm`, format `F1 nm` (R331) -/
  | movbRbRb (n : RegNo) (m : RegNo)
  /-- `MOV reg, mem`, format `F2 RR MM MM` (R330) -/
  | movRegMem (r : Byte) (a : Word)
  /-- `MOVB reg, mem`, format `F3 RR MM MM` (R331) -/
  | movbRegMem (r : Byte) (a : Word)
  /-- `MOVB Rbn, [Rwm+#data16]`, format `F4 nm ## ##` (R331) -/
  | movbRbDisp (n : RegNo) (m : RegNo) (d : Word)
  /-- `MOV mem, reg`, format `F6 RR MM MM` (R330) -/
  | movMemReg (a : Word) (r : Byte)
  /-- `MOVB mem, reg`, format `F7 RR MM MM` (R331) -/
  | movbMemReg (a : Word) (r : Byte)
  /-- `JMPS seg, caddr`, format `FA SS MM MM` (R386) -/
  | jmps (seg : Byte) (a : Word)
  /-- `RETI`, format `FB 88` (R423) -/
  | reti
  /-- `POP reg`, format `FC RR` (R460) -/
  | pop (r : Byte)
  deriving DecidableEq, Repr

end Sys2Proof
end

