-- ==== Sys2Proof/Decode.lean ====
section
/-! DEFINITION. The decoder and the encoder (30_encoding R130 to R163).

Instruction bytes stand in address order B0 B1 B2 B3 (R130, R133). The decoder first looks at the low
nibble of B0, which is the column of the opcode map of R160, then at its high nibble, the row; `-` entries
are undefined opcodes (R162). It is total: every byte pattern gives an instruction or is refused by name. -/

namespace Sys2Proof

/-- Why bytes are no instruction. -/
inductive DecodeError where
  /-- fewer bytes than the instruction has (only for `decodeBytes`; the machine always has four) -/
  | truncated
  /-- B0 is one of the twenty undefined opcodes (R162) -/
  | undefinedOpcode
  /-- B0 is a protected instruction's, the other three bytes are not its pattern (R145) -/
  | protectedMismatch
  /-- B0 is defined, but a fixed field does not have the value its format gives (R144) -/
  | nonCanonical
  deriving DecidableEq, Repr

/-! ## Fields -/

/-- The left character of a format byte, bits 7..4 (R130). -/
def hiNib (b : Byte) : BitVec 4 := b.extractLsb' 4 4

/-- The right character of a format byte, bits 3..0 (R130). -/
def loNib (b : Byte) : BitVec 4 := b.extractLsb' 0 4

/-- Bits 7..0 of a word. -/
def lowByte (v : Word) : Byte := v.extractLsb' 0 8

/-- Bits 15..8 of a word. -/
def highByte (v : Word) : Byte := v.extractLsb' 8 8

/-- The 16-bit field of a double word instruction, low byte first (R140). -/
def wordOf (low high : Byte) : Word := high ++ low

/-- The condition code with number `k` (R150). -/
def condOf (k : BitVec 4) : Cond :=
  match k.toNat with
  | 0 => .uc | 1 => .net | 2 => .z | 3 => .nz | 4 => .v | 5 => .nv | 6 => .n | 7 => .nn
  | 8 => .c | 9 => .nc | 10 => .sgt | 11 => .sle | 12 => .slt | 13 => .sge | 14 => .ugt | _ => .ule

/-- The number of a condition code (R150). -/
def Cond.code : Cond → BitVec 4
  | .uc => 0 | .net => 1 | .z => 2 | .nz => 3 | .v => 4 | .nv => 5 | .n => 6 | .nn => 7
  | .c => 8 | .nc => 9 | .sgt => 10 | .sle => 11 | .slt => 12 | .sge => 13 | .ugt => 14 | .ule => 15

/-- The pointer number coded by the field `ii` (R136). -/
def pointerOf (ii : BitVec 2) : RegNo := ii.setWidth 4

/-- The field `ii` of a pointer R0..R3. -/
def pointerBits (p : RegNo) : BitVec 2 := p.setWidth 2

/-- The sequence length coded by `irang2`: the field plus 1 (R141). -/
def rangeOf (irang2 : BitVec 2) : Nat := irang2.toNat + 1

/-- The field `irang2` of a sequence length 1..4 (R141). -/
def rangeBits (count : Nat) : BitVec 2 := BitVec.ofNat 2 (count - 1)

/-- The number of bytes of the instruction with this opcode byte (R132). -/
def lengthOf (b0 : Byte) : Nat :=
  match (loNib b0).toNat with
  | 2 | 3 | 4 | 5 | 6 | 7 | 10 => 4
  | _ => 2

/-- The twenty undefined opcode bytes (R162). -/
def undefinedOpcodes : List Byte :=
  [0x3B, 0x44, 0x45, 0x83, 0x85, 0x8B, 0x8C, 0x93, 0x95, 0xA3, 0xB3, 0xC1, 0xC3, 0xC7, 0xD3, 0xE3, 0xE5,
    0xF5, 0xF8, 0xF9]

/-! ## Formats: how B1 (and B2, B3) hold the operands (R134) -/

/-- A decoded instruction or the reason there is none. -/
abbrev Decoded := Except DecodeError Instr

/-- `nm`: the left nibble is the first argument. -/
def fmtNM (f : RegNo → RegNo → Instr) (b1 : Byte) : Decoded := .ok (f (hiNib b1) (loNib b1))

/-- `mn` and `#n`: the right nibble is the first argument. -/
def fmtMN (f : RegNo → BitVec 4 → Instr) (b1 : Byte) : Decoded := .ok (f (loNib b1) (hiNib b1))

/-- `n0`: the right nibble is fixed to 0. -/
def fmtN0 (f : RegNo → Instr) (b1 : Byte) : Decoded :=
  if loNib b1 = 0 then .ok (f (hiNib b1)) else .error .nonCanonical

/-- `nn`: both nibbles hold the register number. -/
def fmtNN (f : RegNo → Instr) (b1 : Byte) : Decoded :=
  if hiNib b1 = loNib b1 then .ok (f (loNib b1)) else .error .nonCanonical

/-- `RR MM MM`, `RR ## ##` and `SS MM MM`: a byte and a 16-bit field. -/
def fmtRegWord (f : Byte → Word → Instr) (b1 b2 b3 : Byte) : Decoded := .ok (f b1 (wordOf b2 b3))

/-- `RR ## xx`: B3 is not significant (R140). -/
def fmtRegByte (f : Byte → Byte → Instr) (b1 b2 : Byte) : Decoded := .ok (f b1 b2)

/-- `n:0###`, `n:10ii`, `n:11ii`: the three forms of opcodes x8 and x9, x = 0..7 (R136). -/
def fmtShort (data : RegNo → BitVec 3 → Instr) (ind inc : RegNo → RegNo → Instr) (b1 : Byte) : Decoded :=
  if b1.getLsbD 3 = false then .ok (data (hiNib b1) (b1.extractLsb' 0 3))
  else if b1.getLsbD 2 = false then .ok (ind (hiNib b1) (pointerOf (b1.extractLsb' 0 2)))
  else .ok (inc (hiNib b1) (pointerOf (b1.extractLsb' 0 2)))

/-- `Fn` and `0n` before a 16-bit field: the left nibble is fixed. -/
def fmtFixedN (fixed : BitVec 4) (f : RegNo → Word → Instr) (b1 b2 b3 : Byte) : Decoded :=
  if hiNib b1 = fixed then .ok (f (loNib b1) (wordOf b2 b3)) else .error .nonCanonical

/-- `nm ## ##`. -/
def fmtNMWord (f : RegNo → RegNo → Word → Instr) (b1 b2 b3 : Byte) : Decoded :=
  .ok (f (hiNib b1) (loNib b1) (wordOf b2 b3))

/-- `QQ ZZ qz`, given to the constructor as Z.z, Q.q (42_bit R270). -/
def fmtBits (f : Byte → BitVec 4 → Byte → BitVec 4 → Instr) (b1 b2 b3 : Byte) : Decoded :=
  .ok (f b2 (loNib b3) b1 (hiNib b3))

/-- `QQ rr q0`: the right nibble of B3 is fixed to 0. -/
def fmtBitJump (f : Byte → BitVec 4 → Byte → Instr) (b1 b2 b3 : Byte) : Decoded :=
  if loNib b3 = 0 then .ok (f b1 (hiNib b3) b2) else .error .nonCanonical

/-- `c0 MM MM`: the right nibble of B1 is fixed to 0. -/
def fmtCond (f : Cond → Word → Instr) (b1 b2 b3 : Byte) : Decoded :=
  if loNib b1 = 0 then .ok (f (condOf (hiNib b1)) (wordOf b2 b3)) else .error .nonCanonical

/-- `cn`: a condition code and a register. -/
def fmtCondN (f : Cond → RegNo → Instr) (b1 : Byte) : Decoded := .ok (f (condOf (hiNib b1)) (loNib b1))

/-- A fixed second byte (RET, RETS, RETI, NOP). -/
def fmtFixed (fixed : Byte) (one : Instr) (b1 : Byte) : Decoded :=
  if b1 = fixed then .ok one else .error .nonCanonical

/-- The four fixed bytes of a protected instruction: B1 is the complement of B0, B2 and B3 repeat it (R145). -/
def fmtProtected (b0 : Byte) (one : Instr) (b1 b2 b3 : Byte) : Decoded :=
  if b1 = ~~~b0 ∧ b2 = b0 ∧ b3 = b0 then .ok one else .error .protectedMismatch

/-- `t:ttt0`: the trap number and a 0 (R141). -/
def fmtTrap (b1 : Byte) : Decoded :=
  if b1.getLsbD 0 = false then .ok (.trap (b1.extractLsb' 1 7)) else .error .nonCanonical

/-- Opcode D1: ATOMIC or EXTR by the two top bits of B1; the right nibble is fixed to 0 (R137). -/
def fmtAtomic (b1 : Byte) : Decoded :=
  if loNib b1 = 0 then
    match (b1.extractLsb' 6 2).toNat with
    | 0 => .ok (.atomic (rangeOf (b1.extractLsb' 4 2)))
    | 2 => .ok (.extr (rangeOf (b1.extractLsb' 4 2)))
    | _ => .error .nonCanonical
  else .error .nonCanonical

/-- Opcode D7: EXTS, EXTP, EXTSR or EXTPR with the segment or page in B2 and B3 (R137, R141). -/
def fmtExtImmediate (b1 b2 b3 : Byte) : Decoded :=
  if loNib b1 = 0 then
    match (b1.extractLsb' 6 2).toNat with
    | 0 => if b3 = 0 then .ok (.extsSeg b2 (rangeOf (b1.extractLsb' 4 2))) else .error .nonCanonical
    | 1 =>
      if b3.extractLsb' 2 6 = 0 then .ok (.extpPag (b3.extractLsb' 0 2 ++ b2) (rangeOf (b1.extractLsb' 4 2)))
      else .error .nonCanonical
    | 2 => if b3 = 0 then .ok (.extsrSeg b2 (rangeOf (b1.extractLsb' 4 2))) else .error .nonCanonical
    | _ =>
      if b3.extractLsb' 2 6 = 0 then .ok (.extprPag (b3.extractLsb' 0 2 ++ b2) (rangeOf (b1.extractLsb' 4 2)))
      else .error .nonCanonical
  else .error .nonCanonical

/-- Opcode DC: EXTS, EXTP, EXTSR or EXTPR with the segment or page in Rwm (R137). -/
def fmtExtRegister (b1 : Byte) : Decoded :=
  match (b1.extractLsb' 6 2).toNat with
  | 0 => .ok (.extsRw (loNib b1) (rangeOf (b1.extractLsb' 4 2)))
  | 1 => .ok (.extpRw (loNib b1) (rangeOf (b1.extractLsb' 4 2)))
  | 2 => .ok (.extsrRw (loNib b1) (rangeOf (b1.extractLsb' 4 2)))
  | _ => .ok (.extprRw (loNib b1) (rangeOf (b1.extractLsb' 4 2)))

/-! ## The opcode map, column by column (R160); the argument `row` is the high nibble of B0 -/

/-- Column 0: register with register, word. -/
def column0 (row : Nat) (b1 : Byte) : Decoded :=
  match row with
  | 0 => fmtNM .addRwRw b1
  | 1 => fmtNM .addcRwRw b1
  | 2 => fmtNM .subRwRw b1
  | 3 => fmtNM .subcRwRw b1
  | 4 => fmtNM .cmpRwRw b1
  | 5 => fmtNM .xorRwRw b1
  | 6 => fmtNM .andRwRw b1
  | 7 => fmtNM .orRwRw b1
  | 8 => fmtMN .cmpi1RwData4 b1
  | 9 => fmtMN .cmpi2RwData4 b1
  | 10 => fmtMN .cmpd1RwData4 b1
  | 11 => fmtMN .cmpd2RwData4 b1
  | 12 => fmtMN .movbzRwRb b1
  | 13 => fmtMN .movbsRwRb b1
  | 14 => fmtMN .movRwData4 b1
  | _ => fmtNM .movRwRw b1

/-- Column 1: register with register, byte; complements; ATOMIC and EXTR. -/
def column1 (row : Nat) (b1 : Byte) : Decoded :=
  match row with
  | 0 => fmtNM .addbRbRb b1
  | 1 => fmtNM .addcbRbRb b1
  | 2 => fmtNM .subbRbRb b1
  | 3 => fmtNM .subcbRbRb b1
  | 4 => fmtNM .cmpbRbRb b1
  | 5 => fmtNM .xorbRbRb b1
  | 6 => fmtNM .andbRbRb b1
  | 7 => fmtNM .orbRbRb b1
  | 8 => fmtN0 .neg b1
  | 9 => fmtN0 .cpl b1
  | 10 => fmtN0 .negb b1
  | 11 => fmtN0 .cplb b1
  | 12 => .error .undefinedOpcode
  | 13 => fmtAtomic b1
  | 14 => fmtMN .movbRbData4 b1
  | _ => fmtNM .movbRbRb b1

/-- Column 2: `reg, mem` and `Rwn, mem`, word. -/
def column2 (row : Nat) (b1 b2 b3 : Byte) : Decoded :=
  match row with
  | 0 => fmtRegWord .addRegMem b1 b2 b3
  | 1 => fmtRegWord .addcRegMem b1 b2 b3
  | 2 => fmtRegWord .subRegMem b1 b2 b3
  | 3 => fmtRegWord .subcRegMem b1 b2 b3
  | 4 => fmtRegWord .cmpRegMem b1 b2 b3
  | 5 => fmtRegWord .xorRegMem b1 b2 b3
  | 6 => fmtRegWord .andRegMem b1 b2 b3
  | 7 => fmtRegWord .orRegMem b1 b2 b3
  | 8 => fmtFixedN 0xF .cmpi1RwMem b1 b2 b3
  | 9 => fmtFixedN 0xF .cmpi2RwMem b1 b2 b3
  | 10 => fmtFixedN 0xF .cmpd1RwMem b1 b2 b3
  | 11 => fmtFixedN 0xF .cmpd2RwMem b1 b2 b3
  | 12 => fmtRegWord .movbzRegMem b1 b2 b3
  | 13 => fmtRegWord .movbsRegMem b1 b2 b3
  | 14 => fmtRegWord .pcall b1 b2 b3
  | _ => fmtRegWord .movRegMem b1 b2 b3

/-- Column 3: `reg, mem`, byte. -/
def column3 (row : Nat) (b1 b2 b3 : Byte) : Decoded :=
  match row with
  | 0 => fmtRegWord .addbRegMem b1 b2 b3
  | 1 => fmtRegWord .addcbRegMem b1 b2 b3
  | 2 => fmtRegWord .subbRegMem b1 b2 b3
  | 3 => fmtRegWord .subcbRegMem b1 b2 b3
  | 4 => fmtRegWord .cmpbRegMem b1 b2 b3
  | 5 => fmtRegWord .xorbRegMem b1 b2 b3
  | 6 => fmtRegWord .andbRegMem b1 b2 b3
  | 7 => fmtRegWord .orbRegMem b1 b2 b3
  | 8 => .error .undefinedOpcode
  | 9 => .error .undefinedOpcode
  | 10 => .error .undefinedOpcode
  | 11 => .error .undefinedOpcode
  | 12 => .error .undefinedOpcode
  | 13 => .error .undefinedOpcode
  | 14 => .error .undefinedOpcode
  | _ => fmtRegWord .movbRegMem b1 b2 b3

/-- Column 4: `mem, reg`, and the moves with `mem` and `[Rwn]` or a displacement. -/
def column4 (row : Nat) (b1 b2 b3 : Byte) : Decoded :=
  match row with
  | 0 => fmtRegWord (fun r a => .addMemReg a r) b1 b2 b3
  | 1 => fmtRegWord (fun r a => .addcMemReg a r) b1 b2 b3
  | 2 => fmtRegWord (fun r a => .subMemReg a r) b1 b2 b3
  | 3 => fmtRegWord (fun r a => .subcMemReg a r) b1 b2 b3
  | 4 => .error .undefinedOpcode
  | 5 => fmtRegWord (fun r a => .xorMemReg a r) b1 b2 b3
  | 6 => fmtRegWord (fun r a => .andMemReg a r) b1 b2 b3
  | 7 => fmtRegWord (fun r a => .orMemReg a r) b1 b2 b3
  | 8 => fmtFixedN 0 .movIndMem b1 b2 b3
  | 9 => fmtFixedN 0 (fun n a => .movMemInd a n) b1 b2 b3
  | 10 => fmtFixedN 0 .movbIndMem b1 b2 b3
  | 11 => fmtFixedN 0 (fun n a => .movbMemInd a n) b1 b2 b3
  | 12 => fmtNMWord (fun n m d => .movDispRw m d n) b1 b2 b3
  | 13 => fmtNMWord .movRwDisp b1 b2 b3
  | 14 => fmtNMWord (fun n m d => .movbDispRb m d n) b1 b2 b3
  | _ => fmtNMWord .movbRbDisp b1 b2 b3

/-- Column 5: `mem, reg`, byte; DISWDT and EINIT. -/
def column5 (row : Nat) (b1 b2 b3 : Byte) : Decoded :=
  match row with
  | 0 => fmtRegWord (fun r a => .addbMemReg a r) b1 b2 b3
  | 1 => fmtRegWord (fun r a => .addcbMemReg a r) b1 b2 b3
  | 2 => fmtRegWord (fun r a => .subbMemReg a r) b1 b2 b3
  | 3 => fmtRegWord (fun r a => .subcbMemReg a r) b1 b2 b3
  | 4 => .error .undefinedOpcode
  | 5 => fmtRegWord (fun r a => .xorbMemReg a r) b1 b2 b3
  | 6 => fmtRegWord (fun r a => .andbMemReg a r) b1 b2 b3
  | 7 => fmtRegWord (fun r a => .orbMemReg a r) b1 b2 b3
  | 8 => .error .undefinedOpcode
  | 9 => .error .undefinedOpcode
  | 10 => fmtProtected 0xA5 .diswdt b1 b2 b3
  | 11 => fmtProtected 0xB5 .einit b1 b2 b3
  | 12 => fmtRegWord (fun r a => .movbzMemReg a r) b1 b2 b3
  | 13 => fmtRegWord (fun r a => .movbsMemReg a r) b1 b2 b3
  | 14 => .error .undefinedOpcode
  | _ => .error .undefinedOpcode

/-- Column 6: `reg, #data16`. -/
def column6 (row : Nat) (b1 b2 b3 : Byte) : Decoded :=
  match row with
  | 0 => fmtRegWord .addRegData16 b1 b2 b3
  | 1 => fmtRegWord .addcRegData16 b1 b2 b3
  | 2 => fmtRegWord .subRegData16 b1 b2 b3
  | 3 => fmtRegWord .subcRegData16 b1 b2 b3
  | 4 => fmtRegWord .cmpRegData16 b1 b2 b3
  | 5 => fmtRegWord .xorRegData16 b1 b2 b3
  | 6 => fmtRegWord .andRegData16 b1 b2 b3
  | 7 => fmtRegWord .orRegData16 b1 b2 b3
  | 8 => fmtFixedN 0xF .cmpi1RwData16 b1 b2 b3
  | 9 => fmtFixedN 0xF .cmpi2RwData16 b1 b2 b3
  | 10 => fmtFixedN 0xF .cmpd1RwData16 b1 b2 b3
  | 11 => fmtFixedN 0xF .cmpd2RwData16 b1 b2 b3
  | 12 => fmtRegWord .scxtRegData16 b1 b2 b3
  | 13 => fmtRegWord .scxtRegMem b1 b2 b3
  | 14 => fmtRegWord .movRegData16 b1 b2 b3
  | _ => fmtRegWord (fun r a => .movMemReg a r) b1 b2 b3

/-- Column 7: `reg, #data8`; four protected instructions; EXTx with an immediate. -/
def column7 (row : Nat) (b1 b2 b3 : Byte) : Decoded :=
  match row with
  | 0 => fmtRegByte .addbRegData8 b1 b2
  | 1 => fmtRegByte .addcbRegData8 b1 b2
  | 2 => fmtRegByte .subbRegData8 b1 b2
  | 3 => fmtRegByte .subcbRegData8 b1 b2
  | 4 => fmtRegByte .cmpbRegData8 b1 b2
  | 5 => fmtRegByte .xorbRegData8 b1 b2
  | 6 => fmtRegByte .andbRegData8 b1 b2
  | 7 => fmtRegByte .orbRegData8 b1 b2
  | 8 => fmtProtected 0x87 .idle b1 b2 b3
  | 9 => fmtProtected 0x97 .pwrdn b1 b2 b3
  | 10 => fmtProtected 0xA7 .srvwdt b1 b2 b3
  | 11 => fmtProtected 0xB7 .srst b1 b2 b3
  | 12 => .error .undefinedOpcode
  | 13 => fmtExtImmediate b1 b2 b3
  | 14 => fmtRegByte .movbRegData8 b1 b2
  | _ => fmtRegWord (fun r a => .movbMemReg a r) b1 b2 b3

/-- Column 8: short immediates and indirect operands, word. -/
def column8 (row : Nat) (b1 : Byte) : Decoded :=
  match row with
  | 0 => fmtShort .addRwData3 .addRwInd .addRwIndInc b1
  | 1 => fmtShort .addcRwData3 .addcRwInd .addcRwIndInc b1
  | 2 => fmtShort .subRwData3 .subRwInd .subRwIndInc b1
  | 3 => fmtShort .subcRwData3 .subcRwInd .subcRwIndInc b1
  | 4 => fmtShort .cmpRwData3 .cmpRwInd .cmpRwIndInc b1
  | 5 => fmtShort .xorRwData3 .xorRwInd .xorRwIndInc b1
  | 6 => fmtShort .andRwData3 .andRwInd .andRwIndInc b1
  | 7 => fmtShort .orRwData3 .orRwInd .orRwIndInc b1
  | 8 => fmtNM (fun n m => .movIndDecRw m n) b1
  | 9 => fmtNM .movRwIndInc b1
  | 10 => fmtNM .movRwInd b1
  | 11 => fmtNM (fun n m => .movIndRw m n) b1
  | 12 => fmtNM .movIndInd b1
  | 13 => fmtNM .movIndIncInd b1
  | 14 => fmtNM .movIndIndInc b1
  | _ => .error .undefinedOpcode

/-- Column 9: short immediates and indirect operands, byte. -/
def column9 (row : Nat) (b1 : Byte) : Decoded :=
  match row with
  | 0 => fmtShort .addbRbData3 .addbRbInd .addbRbIndInc b1
  | 1 => fmtShort .addcbRbData3 .addcbRbInd .addcbRbIndInc b1
  | 2 => fmtShort .subbRbData3 .subbRbInd .subbRbIndInc b1
  | 3 => fmtShort .subcbRbData3 .subcbRbInd .subcbRbIndInc b1
  | 4 => fmtShort .cmpbRbData3 .cmpbRbInd .cmpbRbIndInc b1
  | 5 => fmtShort .xorbRbData3 .xorbRbInd .xorbRbIndInc b1
  | 6 => fmtShort .andbRbData3 .andbRbInd .andbRbIndInc b1
  | 7 => fmtShort .orbRbData3 .orbRbInd .orbRbIndInc b1
  | 8 => fmtNM (fun n m => .movbIndDecRb m n) b1
  | 9 => fmtNM .movbRbIndInc b1
  | 10 => fmtNM .movbRbInd b1
  | 11 => fmtNM (fun n m => .movbIndRb m n) b1
  | 12 => fmtNM .movbIndInd b1
  | 13 => fmtNM .movbIndIncInd b1
  | 14 => fmtNM .movbIndIndInc b1
  | _ => .error .undefinedOpcode

/-- Column A: bit operations, bit jumps and absolute branches. -/
def columnA (row : Nat) (b1 b2 b3 : Byte) : Decoded :=
  match row with
  | 0 => .ok (.bfldl b1 b2 b3)
  | 1 => .ok (.bfldh b1 b3 b2)
  | 2 => fmtBits .bcmp b1 b2 b3
  | 3 => fmtBits .bmovn b1 b2 b3
  | 4 => fmtBits .bmov b1 b2 b3
  | 5 => fmtBits .bor b1 b2 b3
  | 6 => fmtBits .band b1 b2 b3
  | 7 => fmtBits .bxor b1 b2 b3
  | 8 => fmtBitJump .jb b1 b2 b3
  | 9 => fmtBitJump .jnb b1 b2 b3
  | 10 => fmtBitJump .jbc b1 b2 b3
  | 11 => fmtBitJump .jnbs b1 b2 b3
  | 12 => fmtCond .calla b1 b2 b3
  | 13 => fmtRegWord .calls b1 b2 b3
  | 14 => fmtCond .jmpa b1 b2 b3
  | _ => fmtRegWord .jmps b1 b2 b3

/-- Column B: multiply, divide, PRIOR, TRAP, calls and returns. -/
def columnB (row : Nat) (b1 : Byte) : Decoded :=
  match row with
  | 0 => fmtNM .mul b1
  | 1 => fmtNM .mulu b1
  | 2 => fmtNM .prior b1
  | 3 => .error .undefinedOpcode
  | 4 => fmtNN .div b1
  | 5 => fmtNN .divu b1
  | 6 => fmtNN .divl b1
  | 7 => fmtNN .divlu b1
  | 8 => .error .undefinedOpcode
  | 9 => fmtTrap b1
  | 10 => fmtCondN .calli b1
  | 11 => .ok (.callr b1)
  | 12 => fmtFixed 0x00 .ret b1
  | 13 => fmtFixed 0x00 .rets b1
  | 14 => .ok (.retp b1)
  | _ => fmtFixed 0x88 .reti b1

/-- Column C: shifts, JMPI, NOP, EXTx with a register, PUSH and POP. -/
def columnC (row : Nat) (b1 : Byte) : Decoded :=
  match row with
  | 0 => fmtNM .rolRwRw b1
  | 1 => fmtMN .rolRwData4 b1
  | 2 => fmtNM .rorRwRw b1
  | 3 => fmtMN .rorRwData4 b1
  | 4 => fmtNM .shlRwRw b1
  | 5 => fmtMN .shlRwData4 b1
  | 6 => fmtNM .shrRwRw b1
  | 7 => fmtMN .shrRwData4 b1
  | 8 => .error .undefinedOpcode
  | 9 => fmtCondN .jmpi b1
  | 10 => fmtNM .ashrRwRw b1
  | 11 => fmtMN .ashrRwData4 b1
  | 12 => fmtFixed 0x00 .nop b1
  | 13 => fmtExtRegister b1
  | 14 => .ok (.push b1)
  | _ => .ok (.pop b1)

/-- The instruction whose bytes are B0 B1 B2 B3 (R131). For a two-byte instruction B2 and B3 do not matter.
In columns D, E and F the high nibble of B0 is an operand: a condition code or a bit position (R138, R139). -/
def decode (b0 b1 b2 b3 : Byte) : Decoded :=
  match (loNib b0).toNat with
  | 0 => column0 (hiNib b0).toNat b1
  | 1 => column1 (hiNib b0).toNat b1
  | 2 => column2 (hiNib b0).toNat b1 b2 b3
  | 3 => column3 (hiNib b0).toNat b1 b2 b3
  | 4 => column4 (hiNib b0).toNat b1 b2 b3
  | 5 => column5 (hiNib b0).toNat b1 b2 b3
  | 6 => column6 (hiNib b0).toNat b1 b2 b3
  | 7 => column7 (hiNib b0).toNat b1 b2 b3
  | 8 => column8 (hiNib b0).toNat b1
  | 9 => column9 (hiNib b0).toNat b1
  | 10 => columnA (hiNib b0).toNat b1 b2 b3
  | 11 => columnB (hiNib b0).toNat b1
  | 12 => columnC (hiNib b0).toNat b1
  | 13 => .ok (.jmpr (condOf (hiNib b0)) b1)
  | 14 => .ok (.bclr b1 (hiNib b0))
  | _ => .ok (.bset b1 (hiNib b0))

/-- The instruction at the head of a list of bytes, and the bytes after it (R130, R132). -/
def decodeBytes : List Byte → Except DecodeError (Instr × List Byte)
  | b0 :: b1 :: rest =>
    if lengthOf b0 = 4 then
      match rest with
      | b2 :: b3 :: rest => (decode b0 b1 b2 b3).map fun one => (one, rest)
      | _ => .error .truncated
    else (decode b0 b1 0 0).map fun one => (one, rest)
  | _ => .error .truncated

/-- The instruction in the table's numbering: bit 0 is the least significant bit of the first byte, bytes
in address order (R133, 20_memory R75). Bits at and above `nbits` are 0. -/
def decodeTableWord (nbits w : Nat) : Option Instr :=
  let bits := BitVec.ofNat 32 (w % 2 ^ nbits)
  match decode (bits.extractLsb' 0 8) (bits.extractLsb' 8 8) (bits.extractLsb' 16 8) (bits.extractLsb' 24 8) with
  | .ok one => some one
  | .error _ => none

/-! ## The encoder -/

/-- The bytes B0 B1 [B2 B3] of a well-formed instruction, written from the encoding column of R161. The
insignificant byte `xx` is written 00H (R140). -/
def encode : Instr → List Byte
  | .addRwRw n m => [0x00#8, n ++ m]
  | .addbRbRb n m => [0x01#8, n ++ m]
  | .addRegMem r a => [0x02#8, r, lowByte a, highByte a]
  | .addbRegMem r a => [0x03#8, r, lowByte a, highByte a]
  | .addMemReg a r => [0x04#8, r, lowByte a, highByte a]
  | .addbMemReg a r => [0x05#8, r, lowByte a, highByte a]
  | .addRegData16 r d => [0x06#8, r, lowByte d, highByte d]
  | .addbRegData8 r d => [0x07#8, r, d, 0x00#8]
  | .addRwData3 n d => [0x08#8, n ++ 0b0#1 ++ d]
  | .addRwInd n p => [0x08#8, n ++ 0b10#2 ++ pointerBits p]
  | .addRwIndInc n p => [0x08#8, n ++ 0b11#2 ++ pointerBits p]
  | .addbRbData3 n d => [0x09#8, n ++ 0b0#1 ++ d]
  | .addbRbInd n p => [0x09#8, n ++ 0b10#2 ++ pointerBits p]
  | .addbRbIndInc n p => [0x09#8, n ++ 0b11#2 ++ pointerBits p]
  | .bfldl qq mask d => [0x0A#8, qq, mask, d]
  | .mul n m => [0x0B#8, n ++ m]
  | .rolRwRw n m => [0x0C#8, n ++ m]
  | .jmpr cc rel => [cc.code ++ 0b1101#4, rel]
  | .bclr qq q => [q ++ 0b1110#4, qq]
  | .bset qq q => [q ++ 0b1111#4, qq]
  | .addcRwRw n m => [0x10#8, n ++ m]
  | .addcbRbRb n m => [0x11#8, n ++ m]
  | .addcRegMem r a => [0x12#8, r, lowByte a, highByte a]
  | .addcbRegMem r a => [0x13#8, r, lowByte a, highByte a]
  | .addcMemReg a r => [0x14#8, r, lowByte a, highByte a]
  | .addcbMemReg a r => [0x15#8, r, lowByte a, highByte a]
  | .addcRegData16 r d => [0x16#8, r, lowByte d, highByte d]
  | .addcbRegData8 r d => [0x17#8, r, d, 0x00#8]
  | .addcRwData3 n d => [0x18#8, n ++ 0b0#1 ++ d]
  | .addcRwInd n p => [0x18#8, n ++ 0b10#2 ++ pointerBits p]
  | .addcRwIndInc n p => [0x18#8, n ++ 0b11#2 ++ pointerBits p]
  | .addcbRbData3 n d => [0x19#8, n ++ 0b0#1 ++ d]
  | .addcbRbInd n p => [0x19#8, n ++ 0b10#2 ++ pointerBits p]
  | .addcbRbIndInc n p => [0x19#8, n ++ 0b11#2 ++ pointerBits p]
  | .bfldh qq mask d => [0x1A#8, qq, d, mask]
  | .mulu n m => [0x1B#8, n ++ m]
  | .rolRwData4 n d => [0x1C#8, d ++ n]
  | .subRwRw n m => [0x20#8, n ++ m]
  | .subbRbRb n m => [0x21#8, n ++ m]
  | .subRegMem r a => [0x22#8, r, lowByte a, highByte a]
  | .subbRegMem r a => [0x23#8, r, lowByte a, highByte a]
  | .subMemReg a r => [0x24#8, r, lowByte a, highByte a]
  | .subbMemReg a r => [0x25#8, r, lowByte a, highByte a]
  | .subRegData16 r d => [0x26#8, r, lowByte d, highByte d]
  | .subbRegData8 r d => [0x27#8, r, d, 0x00#8]
  | .subRwData3 n d => [0x28#8, n ++ 0b0#1 ++ d]
  | .subRwInd n p => [0x28#8, n ++ 0b10#2 ++ pointerBits p]
  | .subRwIndInc n p => [0x28#8, n ++ 0b11#2 ++ pointerBits p]
  | .subbRbData3 n d => [0x29#8, n ++ 0b0#1 ++ d]
  | .subbRbInd n p => [0x29#8, n ++ 0b10#2 ++ pointerBits p]
  | .subbRbIndInc n p => [0x29#8, n ++ 0b11#2 ++ pointerBits p]
  | .bcmp zz z qq q => [0x2A#8, qq, zz, q ++ z]
  | .prior n m => [0x2B#8, n ++ m]
  | .rorRwRw n m => [0x2C#8, n ++ m]
  | .subcRwRw n m => [0x30#8, n ++ m]
  | .subcbRbRb n m => [0x31#8, n ++ m]
  | .subcRegMem r a => [0x32#8, r, lowByte a, highByte a]
  | .subcbRegMem r a => [0x33#8, r, lowByte a, highByte a]
  | .subcMemReg a r => [0x34#8, r, lowByte a, highByte a]
  | .subcbMemReg a r => [0x35#8, r, lowByte a, highByte a]
  | .subcRegData16 r d => [0x36#8, r, lowByte d, highByte d]
  | .subcbRegData8 r d => [0x37#8, r, d, 0x00#8]
  | .subcRwData3 n d => [0x38#8, n ++ 0b0#1 ++ d]
  | .subcRwInd n p => [0x38#8, n ++ 0b10#2 ++ pointerBits p]
  | .subcRwIndInc n p => [0x38#8, n ++ 0b11#2 ++ pointerBits p]
  | .subcbRbData3 n d => [0x39#8, n ++ 0b0#1 ++ d]
  | .subcbRbInd n p => [0x39#8, n ++ 0b10#2 ++ pointerBits p]
  | .subcbRbIndInc n p => [0x39#8, n ++ 0b11#2 ++ pointerBits p]
  | .bmovn zz z qq q => [0x3A#8, qq, zz, q ++ z]
  | .rorRwData4 n d => [0x3C#8, d ++ n]
  | .cmpRwRw n m => [0x40#8, n ++ m]
  | .cmpbRbRb n m => [0x41#8, n ++ m]
  | .cmpRegMem r a => [0x42#8, r, lowByte a, highByte a]
  | .cmpbRegMem r a => [0x43#8, r, lowByte a, highByte a]
  | .cmpRegData16 r d => [0x46#8, r, lowByte d, highByte d]
  | .cmpbRegData8 r d => [0x47#8, r, d, 0x00#8]
  | .cmpRwData3 n d => [0x48#8, n ++ 0b0#1 ++ d]
  | .cmpRwInd n p => [0x48#8, n ++ 0b10#2 ++ pointerBits p]
  | .cmpRwIndInc n p => [0x48#8, n ++ 0b11#2 ++ pointerBits p]
  | .cmpbRbData3 n d => [0x49#8, n ++ 0b0#1 ++ d]
  | .cmpbRbInd n p => [0x49#8, n ++ 0b10#2 ++ pointerBits p]
  | .cmpbRbIndInc n p => [0x49#8, n ++ 0b11#2 ++ pointerBits p]
  | .bmov zz z qq q => [0x4A#8, qq, zz, q ++ z]
  | .div n => [0x4B#8, n ++ n]
  | .shlRwRw n m => [0x4C#8, n ++ m]
  | .xorRwRw n m => [0x50#8, n ++ m]
  | .xorbRbRb n m => [0x51#8, n ++ m]
  | .xorRegMem r a => [0x52#8, r, lowByte a, highByte a]
  | .xorbRegMem r a => [0x53#8, r, lowByte a, highByte a]
  | .xorMemReg a r => [0x54#8, r, lowByte a, highByte a]
  | .xorbMemReg a r => [0x55#8, r, lowByte a, highByte a]
  | .xorRegData16 r d => [0x56#8, r, lowByte d, highByte d]
  | .xorbRegData8 r d => [0x57#8, r, d, 0x00#8]
  | .xorRwData3 n d => [0x58#8, n ++ 0b0#1 ++ d]
  | .xorRwInd n p => [0x58#8, n ++ 0b10#2 ++ pointerBits p]
  | .xorRwIndInc n p => [0x58#8, n ++ 0b11#2 ++ pointerBits p]
  | .xorbRbData3 n d => [0x59#8, n ++ 0b0#1 ++ d]
  | .xorbRbInd n p => [0x59#8, n ++ 0b10#2 ++ pointerBits p]
  | .xorbRbIndInc n p => [0x59#8, n ++ 0b11#2 ++ pointerBits p]
  | .bor zz z qq q => [0x5A#8, qq, zz, q ++ z]
  | .divu n => [0x5B#8, n ++ n]
  | .shlRwData4 n d => [0x5C#8, d ++ n]
  | .andRwRw n m => [0x60#8, n ++ m]
  | .andbRbRb n m => [0x61#8, n ++ m]
  | .andRegMem r a => [0x62#8, r, lowByte a, highByte a]
  | .andbRegMem r a => [0x63#8, r, lowByte a, highByte a]
  | .andMemReg a r => [0x64#8, r, lowByte a, highByte a]
  | .andbMemReg a r => [0x65#8, r, lowByte a, highByte a]
  | .andRegData16 r d => [0x66#8, r, lowByte d, highByte d]
  | .andbRegData8 r d => [0x67#8, r, d, 0x00#8]
  | .andRwData3 n d => [0x68#8, n ++ 0b0#1 ++ d]
  | .andRwInd n p => [0x68#8, n ++ 0b10#2 ++ pointerBits p]
  | .andRwIndInc n p => [0x68#8, n ++ 0b11#2 ++ pointerBits p]
  | .andbRbData3 n d => [0x69#8, n ++ 0b0#1 ++ d]
  | .andbRbInd n p => [0x69#8, n ++ 0b10#2 ++ pointerBits p]
  | .andbRbIndInc n p => [0x69#8, n ++ 0b11#2 ++ pointerBits p]
  | .band zz z qq q => [0x6A#8, qq, zz, q ++ z]
  | .divl n => [0x6B#8, n ++ n]
  | .shrRwRw n m => [0x6C#8, n ++ m]
  | .orRwRw n m => [0x70#8, n ++ m]
  | .orbRbRb n m => [0x71#8, n ++ m]
  | .orRegMem r a => [0x72#8, r, lowByte a, highByte a]
  | .orbRegMem r a => [0x73#8, r, lowByte a, highByte a]
  | .orMemReg a r => [0x74#8, r, lowByte a, highByte a]
  | .orbMemReg a r => [0x75#8, r, lowByte a, highByte a]
  | .orRegData16 r d => [0x76#8, r, lowByte d, highByte d]
  | .orbRegData8 r d => [0x77#8, r, d, 0x00#8]
  | .orRwData3 n d => [0x78#8, n ++ 0b0#1 ++ d]
  | .orRwInd n p => [0x78#8, n ++ 0b10#2 ++ pointerBits p]
  | .orRwIndInc n p => [0x78#8, n ++ 0b11#2 ++ pointerBits p]
  | .orbRbData3 n d => [0x79#8, n ++ 0b0#1 ++ d]
  | .orbRbInd n p => [0x79#8, n ++ 0b10#2 ++ pointerBits p]
  | .orbRbIndInc n p => [0x79#8, n ++ 0b11#2 ++ pointerBits p]
  | .bxor zz z qq q => [0x7A#8, qq, zz, q ++ z]
  | .divlu n => [0x7B#8, n ++ n]
  | .shrRwData4 n d => [0x7C#8, d ++ n]
  | .cmpi1RwData4 n d => [0x80#8, d ++ n]
  | .neg n => [0x81#8, n ++ 0b0000#4]
  | .cmpi1RwMem n a => [0x82#8, 0b1111#4 ++ n, lowByte a, highByte a]
  | .movIndMem n a => [0x84#8, 0b0000#4 ++ n, lowByte a, highByte a]
  | .cmpi1RwData16 n d => [0x86#8, 0b1111#4 ++ n, lowByte d, highByte d]
  | .idle => [0x87#8, 0x78#8, 0x87#8, 0x87#8]
  | .movIndDecRw m n => [0x88#8, n ++ m]
  | .movbIndDecRb m n => [0x89#8, n ++ m]
  | .jb qq q rel => [0x8A#8, qq, rel, q ++ 0b0000#4]
  | .cmpi2RwData4 n d => [0x90#8, d ++ n]
  | .cpl n => [0x91#8, n ++ 0b0000#4]
  | .cmpi2RwMem n a => [0x92#8, 0b1111#4 ++ n, lowByte a, highByte a]
  | .movMemInd a n => [0x94#8, 0b0000#4 ++ n, lowByte a, highByte a]
  | .cmpi2RwData16 n d => [0x96#8, 0b1111#4 ++ n, lowByte d, highByte d]
  | .pwrdn => [0x97#8, 0x68#8, 0x97#8, 0x97#8]
  | .movRwIndInc n m => [0x98#8, n ++ m]
  | .movbRbIndInc n m => [0x99#8, n ++ m]
  | .jnb qq q rel => [0x9A#8, qq, rel, q ++ 0b0000#4]
  | .trap t => [0x9B#8, t ++ 0b0#1]
  | .jmpi cc n => [0x9C#8, cc.code ++ n]
  | .cmpd1RwData4 n d => [0xA0#8, d ++ n]
  | .negb n => [0xA1#8, n ++ 0b0000#4]
  | .cmpd1RwMem n a => [0xA2#8, 0b1111#4 ++ n, lowByte a, highByte a]
  | .movbIndMem n a => [0xA4#8, 0b0000#4 ++ n, lowByte a, highByte a]
  | .diswdt => [0xA5#8, 0x5A#8, 0xA5#8, 0xA5#8]
  | .cmpd1RwData16 n d => [0xA6#8, 0b1111#4 ++ n, lowByte d, highByte d]
  | .srvwdt => [0xA7#8, 0x58#8, 0xA7#8, 0xA7#8]
  | .movRwInd n m => [0xA8#8, n ++ m]
  | .movbRbInd n m => [0xA9#8, n ++ m]
  | .jbc qq q rel => [0xAA#8, qq, rel, q ++ 0b0000#4]
  | .calli cc n => [0xAB#8, cc.code ++ n]
  | .ashrRwRw n m => [0xAC#8, n ++ m]
  | .cmpd2RwData4 n d => [0xB0#8, d ++ n]
  | .cplb n => [0xB1#8, n ++ 0b0000#4]
  | .cmpd2RwMem n a => [0xB2#8, 0b1111#4 ++ n, lowByte a, highByte a]
  | .movbMemInd a n => [0xB4#8, 0b0000#4 ++ n, lowByte a, highByte a]
  | .einit => [0xB5#8, 0x4A#8, 0xB5#8, 0xB5#8]
  | .cmpd2RwData16 n d => [0xB6#8, 0b1111#4 ++ n, lowByte d, highByte d]
  | .srst => [0xB7#8, 0x48#8, 0xB7#8, 0xB7#8]
  | .movIndRw m n => [0xB8#8, n ++ m]
  | .movbIndRb m n => [0xB9#8, n ++ m]
  | .jnbs qq q rel => [0xBA#8, qq, rel, q ++ 0b0000#4]
  | .callr rel => [0xBB#8, rel]
  | .ashrRwData4 n d => [0xBC#8, d ++ n]
  | .movbzRwRb n m => [0xC0#8, m ++ n]
  | .movbzRegMem r a => [0xC2#8, r, lowByte a, highByte a]
  | .movDispRw m d n => [0xC4#8, n ++ m, lowByte d, highByte d]
  | .movbzMemReg a r => [0xC5#8, r, lowByte a, highByte a]
  | .scxtRegData16 r d => [0xC6#8, r, lowByte d, highByte d]
  | .movIndInd n m => [0xC8#8, n ++ m]
  | .movbIndInd n m => [0xC9#8, n ++ m]
  | .calla cc a => [0xCA#8, cc.code ++ 0b0000#4, lowByte a, highByte a]
  | .ret => [0xCB#8, 0x00#8]
  | .nop => [0xCC#8, 0x00#8]
  | .movbsRwRb n m => [0xD0#8, m ++ n]
  | .atomic count => [0xD1#8, 0b00#2 ++ rangeBits count ++ 0b0000#4]
  | .extr count => [0xD1#8, 0b10#2 ++ rangeBits count ++ 0b0000#4]
  | .movbsRegMem r a => [0xD2#8, r, lowByte a, highByte a]
  | .movRwDisp n m d => [0xD4#8, n ++ m, lowByte d, highByte d]
  | .movbsMemReg a r => [0xD5#8, r, lowByte a, highByte a]
  | .scxtRegMem r a => [0xD6#8, r, lowByte a, highByte a]
  | .extsSeg seg count => [0xD7#8, 0b00#2 ++ rangeBits count ++ 0b0000#4, seg, 0x00#8]
  | .extpPag page count => [0xD7#8, 0b01#2 ++ rangeBits count ++ 0b0000#4, page.setWidth 8, 0b000000#6 ++ page.extractLsb' 8 2]
  | .extsrSeg seg count => [0xD7#8, 0b10#2 ++ rangeBits count ++ 0b0000#4, seg, 0x00#8]
  | .extprPag page count => [0xD7#8, 0b11#2 ++ rangeBits count ++ 0b0000#4, page.setWidth 8, 0b000000#6 ++ page.extractLsb' 8 2]
  | .movIndIncInd n m => [0xD8#8, n ++ m]
  | .movbIndIncInd n m => [0xD9#8, n ++ m]
  | .calls seg a => [0xDA#8, seg, lowByte a, highByte a]
  | .rets => [0xDB#8, 0x00#8]
  | .extsRw m count => [0xDC#8, 0b00#2 ++ rangeBits count ++ m]
  | .extpRw m count => [0xDC#8, 0b01#2 ++ rangeBits count ++ m]
  | .extsrRw m count => [0xDC#8, 0b10#2 ++ rangeBits count ++ m]
  | .extprRw m count => [0xDC#8, 0b11#2 ++ rangeBits count ++ m]
  | .movRwData4 n d => [0xE0#8, d ++ n]
  | .movbRbData4 n d => [0xE1#8, d ++ n]
  | .pcall r a => [0xE2#8, r, lowByte a, highByte a]
  | .movbDispRb m d n => [0xE4#8, n ++ m, lowByte d, highByte d]
  | .movRegData16 r d => [0xE6#8, r, lowByte d, highByte d]
  | .movbRegData8 r d => [0xE7#8, r, d, 0x00#8]
  | .movIndIndInc n m => [0xE8#8, n ++ m]
  | .movbIndIndInc n m => [0xE9#8, n ++ m]
  | .jmpa cc a => [0xEA#8, cc.code ++ 0b0000#4, lowByte a, highByte a]
  | .retp r => [0xEB#8, r]
  | .push r => [0xEC#8, r]
  | .movRwRw n m => [0xF0#8, n ++ m]
  | .movbRbRb n m => [0xF1#8, n ++ m]
  | .movRegMem r a => [0xF2#8, r, lowByte a, highByte a]
  | .movbRegMem r a => [0xF3#8, r, lowByte a, highByte a]
  | .movbRbDisp n m d => [0xF4#8, n ++ m, lowByte d, highByte d]
  | .movMemReg a r => [0xF6#8, r, lowByte a, highByte a]
  | .movbMemReg a r => [0xF7#8, r, lowByte a, highByte a]
  | .jmps seg a => [0xFA#8, seg, lowByte a, highByte a]
  | .reti => [0xFB#8, 0x88#8]
  | .pop r => [0xFC#8, r]

end Sys2Proof
end

