-- ==== Sys2Proof/Config.lean ====
section
/-! DEFINITION. What an implementation fixes and the values the spec leaves open.

The C16x column of 00_scope R6 is the configuration modelled (log 31): HAS_EXT and HAS_ESFR are true, an
address has 24 bits, a segment number 8, a data page number 10. The platform's memory map is a value of
type `MemMap`; the machine carries one in its state, because R71 leaves it OPEN. -/

namespace Sys2Proof

/-- The values the spec does not determine (93 U6, U7, 20_memory R83): one arbitrary word for each draw.
It has no body, so nothing can be proved of any of its values (log 16, log 6, log 34). -/
opaque Config.freeWord : Nat → Word

/-- What a part of the address space is (20_memory R71, R72, R73; 92 D5, D6, D13). -/
inductive RegionKind where
  /-- readable and writable memory -/
  | ram
  /-- program memory: data writes to it are not allowed (D6) -/
  | rom
  /-- registers of a device the spec does not describe (R45, D13) -/
  | device
  /-- no memory at all -/
  | unmapped
  deriving DecidableEq, Repr

/-- One region of the platform's map: the bytes base, ..., base + size - 1. -/
structure Region where
  base : Nat
  size : Nat
  kind : RegionKind
  deriving DecidableEq, Repr

/-- The platform parameter MEM_MAP (R71): the first region that holds an address gives its kind. -/
abbrev MemMap := List Region

/-- The kind of the byte address `a` under a map; an address in no region is unmapped (D5). -/
def MemMap.kindAt : MemMap → Nat → RegionKind
  | [], _ => .unmapped
  | region :: rest, a =>
    if region.base ≤ a ∧ a < region.base + region.size then region.kind else MemMap.kindAt rest a

end Sys2Proof
end

