-- ==== Sys2Proof/Machine/Params.lean ====
section
/-! DEFINITION. The parameters of the spec with the values this model gives them (92_eei_decisions "Parameters
named by the spec"). PSW's address and reset value and the DPP reset values are the spec's own; the other SFR
addresses, bit positions and reset values are the family's, which the spec offers as defaults (log 3). -/

namespace Sys2Proof.Machine

/-! ## CPU registers (10_state R26 to R38, R45) -/

/-- The registers of the CPU that have an address. -/
inductive CpuReg where
  | psw | cp | sp | dpp0 | dpp1 | dpp2 | dpp3 | csp | mdl | mdh | mdc | syscon | tfr
  deriving DecidableEq, Repr

/-- Every CPU register that has an address. -/
def CpuReg.all : List CpuReg :=
  [.psw, .cp, .sp, .dpp0, .dpp1, .dpp2, .dpp3, .csp, .mdl, .mdh, .mdc, .syscon, .tfr]

/-- `SFR_ADDR` (R46): the physical address of a register's low byte. PSW's is the spec's own (R27). -/
def CpuReg.addr : CpuReg → Addr
  | .psw => 0x00FF10 | .cp => 0x00FE10 | .sp => 0x00FE12 | .csp => 0x00FE08
  | .dpp0 => 0x00FE00 | .dpp1 => 0x00FE02 | .dpp2 => 0x00FE04 | .dpp3 => 0x00FE06
  | .mdh => 0x00FE0C | .mdl => 0x00FE0E | .mdc => 0x00FF0E | .syscon => 0x00FF12 | .tfr => 0x00FFAC

/-- `RESET.x` (R46, 70_reset R600): the value of a register after reset. -/
def CpuReg.resetValue : CpuReg → Word
  | .dpp1 => 1 | .dpp2 => 2 | .dpp3 => 3
  | .cp => 0xFC00 | .sp => 0xFC00
  | .psw | .dpp0 | .csp | .mdl | .mdh | .mdc | .syscon | .tfr => 0

/-- What a register holds after the word `v` is written to it: bits 9..7 of PSW read as 0 (93 U3, log 13),
bits 15..12 of CP and SP are 1 and bit 0 is 0 (R32, R33, log 11), a DPP keeps ten bits and CSP eight (R34,
R26, log 12). The other registers keep the word. -/
def CpuReg.stored (r : CpuReg) (v : Word) : Word :=
  match r with
  | .psw => v &&& 0xFC7F
  | .cp | .sp => (v ||| 0xF000) &&& 0xFFFE
  | .dpp0 | .dpp1 | .dpp2 | .dpp3 => v &&& 0x03FF
  | .csp => v &&& 0x00FF
  | .mdl | .mdh | .mdc | .syscon | .tfr => v

/-- `RESET.IP` (R46): with `RESET.CSP` it gives the reset vector 00'0000H (70_reset R601). -/
def resetIp : Word := 0x0000

/-- `RESET.WDT` (R46). -/
def resetWdtCounter : Word := 0x0000

/-- The bit MDRIU of MDC, `MDRIU_BIT` = 4 (R36). -/
def mdriuMask : Word := 0x0010

/-- `SGTDIS_BIT` (R37). -/
def sgtdisBit : Nat := 11

/-- The highest CP whose bank stays below 00'FFFFH (R21, D10). -/
def highestBank : Word := 0xFFE0

/-! ## Address map and fetch (20_memory R71, R120) -/

/-- The memory map of the machine after reset (log 4, log 5): the ESFR area and the SFR area hold device
registers outside the spec wherever no CPU register lies (R45, D13); all else is memory. -/
def resetMemMap : MemMap :=
  [{ base := 0x00F000, size := 0x1E0, kind := .device }, { base := 0x00FE00, size := 0x1E0, kind := .device },
   { base := 0, size := 0x1000000, kind := .ram }]

/-- `FETCH_AHEAD_BYTES` (R120, D7). -/
def fetchAheadBytes : Nat := 8

/-- `WDT_RELOAD`, the preset high byte of the watchdog counter (60_exceptions R530). -/
def wdtReload : Byte := 0x00

/-! ## Hardware traps (60_exceptions R501, R510, R511; 93 U12) -/

/-- The hardware traps of R501 other than reset. -/
inductive HwTrap where
  | nmi | stkof | stkuf
  | undopc | prtflt | illopa | illina | illbus
  deriving DecidableEq, Repr

/-- `TRAP_TABLE`: the trap number, whose vector is 4 times the number. -/
def HwTrap.number : HwTrap → BitVec 7
  | .nmi => 0x02 | .stkof => 0x04 | .stkuf => 0x06
  | .undopc | .prtflt | .illopa | .illina | .illbus => 0x0A

/-- Class B traps; the others are class A (R501). -/
def HwTrap.classB : HwTrap → Bool
  | .nmi | .stkof | .stkuf => false
  | .undopc | .prtflt | .illopa | .illina | .illbus => true

/-- `TFR_LAYOUT`: the trap's flag in TFR (10_state R38). -/
def HwTrap.flag : HwTrap → Word
  | .nmi => 0x8000 | .stkof => 0x4000 | .stkuf => 0x2000
  | .undopc => 0x0080 | .prtflt => 0x0008 | .illopa => 0x0004 | .illina => 0x0002 | .illbus => 0x0001

/-- The class B trap flags of TFR (R38). -/
def classBFlags : Word := 0x008F

/-- `TRAP_ILVL`, the CPU priority level in a hardware trap routine (R510). -/
def trapIlvl : BitVec 4 := 15

end Sys2Proof.Machine
end

