-- ==== Sys2Proof/Machine/State.lean ====
section
/-! DEFINITION. The state of the machine (10_state R20), the reasons it stops, and the state after reset. -/

namespace Sys2Proof.Machine

/-- The DPP override of an EXTend sequence (10_state R40). -/
inductive Override where
  | none
  /-- EXTP, EXTPR: the 10-bit data page -/
  | page (p : BitVec 10)
  /-- EXTS, EXTSR: the 8-bit segment -/
  | seg (g : Byte)
  deriving DecidableEq, Repr

/-- The ATOMIC/EXTend sequence (R40): how many following instructions it still covers, whether interrupts,
PEC and class A traps are locked, the DPP override, and whether short addresses reach the ESFR area. -/
structure Sequence where
  count : Nat
  lock : Bool
  override : Override
  esfr : Bool
  deriving DecidableEq, Repr

/-- The watchdog (R41): running, may still be disabled, and its 16-bit counter. -/
structure Watchdog where
  enabled : Bool
  canDisable : Bool
  counter : Word
  deriving DecidableEq, Repr

/-- Whether instructions execute (R43). -/
inductive RunMode where
  | running | idle | powerdown
  deriving DecidableEq, Repr

/-- The recorded cause of the last reset (70_reset R600, R602). -/
inductive ResetCause where
  | hardware | software | watchdog
  deriving DecidableEq, Repr

/-- What the environment may offer between two instructions (60_exceptions R508, R520, R523, R530, R533). -/
inductive Event where
  /-- a standard interrupt request: its level and trap number (R520) -/
  | irq (level : BitVec 4) (number : BitVec 7)
  /-- a PEC transfer: a memory write by the environment, with the level of its request (R523) -/
  | pec (level : BitVec 4) (w : Width) (a : Addr) (v : Word)
  /-- the event of the non-maskable interrupt pin (R508) -/
  | nmi
  /-- the watchdog timer overflowed (R530) -/
  | wdtOverflow
  /-- an externally applied hardware reset (R533, R600) -/
  | hardwareReset
  deriving DecidableEq, Repr

/-- The machine's state. GPRs, code, data and the system stack are bytes of `mem` (R20, R21, R106). -/
structure State where
  /-- instruction pointer (R24) -/
  ip : Word
  /-- code segment pointer (R26) -/
  csp : Word
  /-- program status word (R27) -/
  psw : Word
  /-- context pointer (R32) -/
  cp : Word
  /-- system stack pointer (R33) -/
  sp : Word
  /-- data page pointer 0 (R34) -/
  dpp0 : Word
  /-- data page pointer 1 (R34) -/
  dpp1 : Word
  /-- data page pointer 2 (R34) -/
  dpp2 : Word
  /-- data page pointer 3 (R34) -/
  dpp3 : Word
  /-- low half of the multiply/divide register (R35) -/
  mdl : Word
  /-- high half of the multiply/divide register (R35) -/
  mdh : Word
  /-- multiply/divide control (R36) -/
  mdc : Word
  /-- system configuration (R37) -/
  syscon : Word
  /-- trap flags (R38) -/
  tfr : Word
  /-- ATOMIC/EXTend sequence (R40) -/
  seq : Sequence
  /-- watchdog (R41) -/
  wdt : Watchdog
  /-- EINIT has executed: RSTOUT is high (R42) -/
  initDone : Bool
  /-- running, idle or power down (R43) -/
  run : RunMode
  /-- cause of the last reset (70_reset R602) -/
  resetCause : ResetCause
  /-- the bytes of memory that are not zero, addresses strictly rising (R70; log 2) -/
  mem : List Host.Cell
  /-- the platform's MEM_MAP (20_memory R71; log 4) -/
  memMap : MemMap
  /-- the NMI pin is low (60_exceptions R508) -/
  nmiPinLow : Bool
  /-- what the environment is offering, oldest first (R520; log 20) -/
  pending : List Event
  /-- the model's own: address and length of the instruction at the last branch target (20_memory R120) -/
  branchTarget : Option (Addr × Nat)
  /-- the model's own: the number of free values drawn so far (log 34) -/
  free : Nat
  deriving DecidableEq, Repr

/-- Faults: the machine stops. All are safe: the spec gives the access no effect. -/
inductive Fault where
  /-- Raised by a data access or an instruction fetch at an address that no region of the map holds
  (20_memory R72, D5). Safe. -/
  | unmapped
  /-- Raised by a data write into program memory (20_memory R73, D6). Safe. -/
  | romWrite
  deriving DecidableEq, Repr

/-- Refusals: the program left what the spec specifies. All are safe: the machine stops. -/
inductive Refusal where
  /-- Raised by an arm of `exec` for an instruction that has no meaning yet; none does. Safe. -/
  | notModelled (mnemonic : String)
  /-- Raised by an access to a device register outside the spec (10_state R45, D13). Safe. -/
  | deviceRegister
  /-- Raised by the fetch of a defined opcode whose fixed fields differ from its format (30_encoding R144,
  D3). Safe. -/
  | nonCanonical
  /-- Raised by a GPR access while CP is above FFE0H (10_state R21, D10). Safe. -/
  | contextPointer
  /-- Raised by a data write to CSP's address (10_state R26). Safe. -/
  | cspWrite
  /-- Raised by a store into the next eight bytes of the instruction stream, or into the instruction at
  the last branch target (20_memory R120, D7). Safe. -/
  | storeAhead
  /-- Raised by a fetch, JMPS, CALLS or RETS with SGTDIS = 1 and a code segment other than 0 (46_jump_call
  R398, D17). Safe. -/
  | segmentation
  /-- Raised by RETI when the popped PSW has MULIP = 1 (47_return R423, D15). Safe. -/
  | mulip
  /-- Raised by a trap or interrupt entry, or a PEC transfer, that makes a word access at an odd address
  (60_exceptions R515, D25). Safe. -/
  | entryAccess
  deriving DecidableEq, Repr

/-- No sequence in progress: the standard condition (R40). -/
def Sequence.idle : Sequence := { count := 0, lock := false, override := .none, esfr := false }

/-- The watchdog after a reset (R41, R46). -/
def Watchdog.afterReset : Watchdog := { enabled := true, canDisable := true, counter := resetWdtCounter }

/-- The machine right after a power-on reset (10_state R46, 70_reset R600): the registers at their reset
values, no memory listed, no event offered. -/
def State.reset : State where
  ip := resetIp
  csp := CpuReg.csp.resetValue
  psw := CpuReg.psw.resetValue
  cp := CpuReg.cp.resetValue
  sp := CpuReg.sp.resetValue
  dpp0 := CpuReg.dpp0.resetValue
  dpp1 := CpuReg.dpp1.resetValue
  dpp2 := CpuReg.dpp2.resetValue
  dpp3 := CpuReg.dpp3.resetValue
  mdl := CpuReg.mdl.resetValue
  mdh := CpuReg.mdh.resetValue
  mdc := CpuReg.mdc.resetValue
  syscon := CpuReg.syscon.resetValue
  tfr := CpuReg.tfr.resetValue
  seq := Sequence.idle
  wdt := Watchdog.afterReset
  initDone := false
  run := .running
  resetCause := .hardware
  mem := []
  memMap := resetMemMap
  nmiPinLow := false
  pending := []
  branchTarget := none
  free := 0

end Sys2Proof.Machine
end

