-- ==== Sys2Proof/Machine/Flags.lean ====
section
/-! DEFINITION. The condition flags of PSW (10_state R28), the condition codes (30_encoding R150), and every
flag computation of the spec: sums and differences (00_scope R11), bitwise results (41 R247), moved values
(45 R334), shifts and rotates (44 R310 to R315), products and quotients (40 R210 to R215), bits (42 R260 to R267). -/

namespace Sys2Proof.Machine

/-! ## The flags in PSW -/

/-- The condition flags E, Z, V, C, N. -/
structure CondFlags where
  e : Bool
  z : Bool
  v : Bool
  c : Bool
  n : Bool
  deriving DecidableEq, Repr

/-- Bits 4..0 of PSW are E, Z, V, C, N (R27). -/
def flagsOf (psw : Word) : CondFlags where
  e := psw.getLsbD 4
  z := psw.getLsbD 3
  v := psw.getLsbD 2
  c := psw.getLsbD 1
  n := psw.getLsbD 0

/-- PSW with its condition flags replaced; every other bit stays. -/
def withFlags (psw : Word) (f : CondFlags) : Word :=
  psw.extractLsb' 5 11 ++
    (BitVec.ofBool f.e ++ BitVec.ofBool f.z ++ BitVec.ofBool f.v ++ BitVec.ofBool f.c ++ BitVec.ofBool f.n)

/-- The condition flags of the machine. -/
def State.flags (s : State) : CondFlags := flagsOf s.psw

/-- The machine with new condition flags. -/
def State.setFlags (s : State) (f : CondFlags) : State := { s with psw := withFlags s.psw f }

/-- `cond(c)` of R150. -/
def condHolds (cc : Cond) (f : CondFlags) : Bool :=
  match cc with
  | .uc => true
  | .net => !(f.z || f.e)
  | .z => f.z
  | .nz => !f.z
  | .v => f.v
  | .nv => !f.v
  | .n => f.n
  | .nn => !f.n
  | .c => f.c
  | .nc => !f.c
  | .sgt => !(f.z || (f.n != f.v))
  | .sle => f.z || (f.n != f.v)
  | .slt => f.n != f.v
  | .sge => !(f.n != f.v)
  | .ugt => !(f.z || f.c)
  | .ule => f.z || f.c

/-! ## Sums, differences and bitwise operations -/

/-- A result with its carry (or borrow) and arithmetic overflow. -/
structure ArithResult (bits : Nat) where
  value : BitVec bits
  carry : Bool
  overflow : Bool
  deriving DecidableEq, Repr

/-- An exact value that a signed number of `bits` bits cannot hold (R11). -/
def outOfRange (bits : Nat) (x : Int) : Bool := x < -(2 ^ (bits - 1) : Int) || (2 ^ (bits - 1) : Int) ≤ x

/-- `AddFlags` of R11: computed exactly, then narrowed. -/
def addExact {bits : Nat} (a b : BitVec bits) (cin : Bool) : ArithResult bits where
  value := BitVec.ofNat bits (a.toNat + b.toNat + cin.toNat)
  carry := 2 ^ bits ≤ a.toNat + b.toNat + cin.toNat
  overflow := outOfRange bits (a.toInt + b.toInt + cin.toNat)

/-- `SubFlags` of R11: the carry is a borrow. -/
def subExact {bits : Nat} (a b : BitVec bits) (bin : Bool) : ArithResult bits where
  value := BitVec.ofInt bits ((a.toNat : Int) - b.toNat - bin.toNat)
  carry := (a.toNat : Int) - b.toNat - bin.toNat < 0
  overflow := outOfRange bits (a.toInt - b.toInt - bin.toNat)

/-- `EFlag` of R11: the lowest negative number. -/
def isLowest {bits : Nat} (v : BitVec bits) : Bool := v == BitVec.intMin bits

/-- The two-operand operations of 40_arithmetic R220 that write a result. -/
inductive AluOp where
  | add | addc | sub | subc | and | or | xor
  deriving DecidableEq, Repr

/-- The flags of a bitwise result `r` with second operand `b` (R247). -/
def logicFlags {bits : Nat} (b r : BitVec bits) : CondFlags where
  e := isLowest b
  z := r == 0
  v := false
  c := false
  n := r.msb

/-- The flags of a sum or difference with second operand `b`; `zIn` is true or the old Z flag (R200, R202). -/
def arithFlags {bits : Nat} (b : BitVec bits) (r : ArithResult bits) (zIn : Bool) : CondFlags where
  e := isLowest b
  z := r.value == 0 && zIn
  v := r.overflow
  c := r.carry
  n := r.value.msb

/-- The result and the flags of a two-operand operation on `a` and `b`, given the flags before it
(R200 to R207, R240 to R247). -/
def AluOp.eval {bits : Nat} (op : AluOp) (a b : BitVec bits) (f : CondFlags) : BitVec bits × CondFlags :=
  match op with
  | .add => ((addExact a b false).value, arithFlags b (addExact a b false) true)
  | .addc => ((addExact a b f.c).value, arithFlags b (addExact a b f.c) f.z)
  | .sub => ((subExact a b false).value, arithFlags b (subExact a b false) true)
  | .subc => ((subExact a b f.c).value, arithFlags b (subExact a b f.c) f.z)
  | .and => (a &&& b, logicFlags b (a &&& b))
  | .or => (a ||| b, logicFlags b (a ||| b))
  | .xor => (a ^^^ b, logicFlags b (a ^^^ b))

/-- `Cmp` of 43_compare_loop R296. -/
def compareFlags {bits : Nat} (a b : BitVec bits) : CondFlags := arithFlags b (subExact a b false) true

/-- NEG: 0 minus the operand, with E from the operand (R218, R219). -/
def negEval {bits : Nat} (a : BitVec bits) : BitVec bits × CondFlags :=
  ((subExact 0 a false).value, arithFlags a (subExact 0 a false) true)

/-- CPL: the complement, with E from the operand (R216, R217). -/
def cplEval {bits : Nat} (a : BitVec bits) : BitVec bits × CondFlags := (~~~a, logicFlags a (~~~a))

/-! ## Moved values -/

/-- MOV, PUSH, POP, PCALL, RETP: E, Z and N from the value, V and C as they were (R330, R460). -/
def moveFlags {bits : Nat} (v : BitVec bits) (f : CondFlags) : CondFlags :=
  { f with e := isLowest v, z := v == 0, n := v.msb }

/-- MOVBS: as MOV, but E is always cleared (R332). -/
def moveSignedFlags {bits : Nat} (v : BitVec bits) (f : CondFlags) : CondFlags :=
  { f with e := false, z := v == 0, n := v.msb }

/-- MOVBZ: E and N are always cleared (R333). -/
def moveZeroFlags {bits : Nat} (v : BitVec bits) (f : CondFlags) : CondFlags :=
  { f with e := false, z := v == 0, n := false }

/-! ## Shifts, rotates and PRIOR -/

/-- The five shift and rotate instructions (44_shift_rotate). -/
inductive ShiftOp where
  | shl | shr | rol | ror | ashr
  deriving DecidableEq, Repr

/-- The word after a shift or rotate by `k` (closed forms of R310 to R314). -/
def ShiftOp.value (op : ShiftOp) (a : Word) (k : Nat) : Word :=
  match op with
  | .shl => a <<< k
  | .shr => a >>> k
  | .rol => if k = 0 then a else (a <<< k) ||| (a >>> (16 - k))
  | .ror => if k = 0 then a else (a >>> k) ||| (a <<< (16 - k))
  | .ashr => a.sshiftRight k

/-- The last bit shifted or rotated out; false for a count of zero (R310 to R314). -/
def ShiftOp.carry (op : ShiftOp) (a : Word) (k : Nat) : Bool :=
  match op with
  | .shl | .rol => decide (0 < k) && a.getLsbD (16 - k)
  | .shr | .ror | .ashr => decide (0 < k) && a.getLsbD (k - 1)

/-- The rounding flag: a 1 was shifted out before the last bit (R311, R313, R314); SHL and ROL clear V. -/
def ShiftOp.overflow (op : ShiftOp) (a : Word) (k : Nat) : Bool :=
  match op with
  | .shl | .rol => false
  | .shr | .ror | .ashr => decide (1 < k) && a.toNat % 2 ^ (k - 1) != 0

/-- The flags of a shift or rotate: E is always cleared (R315). -/
def ShiftOp.flags (op : ShiftOp) (a : Word) (k : Nat) : CondFlags where
  e := false
  z := op.value a k == 0
  v := op.overflow a k
  c := op.carry a k
  n := (op.value a k).msb

/-- The number of zero bits above the highest 1 among the bits k-1, ..., 0. -/
def leadingZeros (b : Word) : Nat → Nat
  | 0 => 0
  | k + 1 => if b.getLsbD k then 0 else leadingZeros b k + 1

/-- PRIOR: the shifts that normalize the operand, 0 for an operand of 0 (R246). -/
def priorValue (b : Word) : Word := if b = 0 then 0 else BitVec.ofNat 16 (leadingZeros b 16)

/-- The flags of PRIOR: Z for an operand of 0, all others cleared (R246). -/
def priorFlags (b : Word) : CondFlags := { e := false, z := b == 0, v := false, c := false, n := false }

/-! ## Products and quotients -/

/-- The 32-bit product of MUL (R210) and whether it does not fit a word. -/
def mulSigned (a b : Word) : BitVec 32 × Bool := (BitVec.ofInt 32 (a.toInt * b.toInt), outOfRange 16 (a.toInt * b.toInt))

/-- The 32-bit product of MULU (R211) and whether it does not fit a word. -/
def mulUnsigned (a b : Word) : BitVec 32 × Bool := (BitVec.ofNat 32 (a.toNat * b.toNat), 0xFFFF < a.toNat * b.toNat)

/-- The flags of a product: Z and N regard all 32 bits (R210). -/
def mulFlags (r : BitVec 32 × Bool) : CondFlags := { e := false, z := r.1 == 0, v := r.2, c := false, n := r.1.msb }

/-- What a division gives (R212 to R215, R224). -/
inductive Quotient where
  /-- the quotient and the remainder -/
  | result (q rem : Word)
  /-- V is set: "the result in MDH and MDL is not valid in this case" (93 U6) -/
  | invalid
  /-- the spec states neither the result nor V (93 U7) -/
  | unstated
  deriving DecidableEq, Repr

/-- A signed division, rounded toward zero (R224, D18): undefined for a divisor of 0 and for a quotient that
a word cannot hold (R213). -/
def divideSigned (x y : Int) : Quotient :=
  if y = 0 then .invalid
  else if outOfRange 16 (x.tdiv y) then .invalid
  else .result (BitVec.ofInt 16 (x.tdiv y)) (BitVec.ofInt 16 (x.tmod y))

/-- An unsigned division (R214, R215). -/
def divideUnsigned (x y : Nat) : Quotient :=
  if y = 0 then .invalid
  else if 0xFFFF < x / y then .invalid
  else .result (BitVec.ofNat 16 (x / y)) (BitVec.ofNat 16 (x % y))

/-- DIV: MDL by a word. For 8000H by FFFFH the spec states no result (R212, U7). -/
def divWord (mdl y : Word) : Quotient :=
  if mdl = 0x8000 ∧ y = 0xFFFF then .unstated else divideSigned mdl.toInt y.toInt

/-- DIVL: MD by a word (R213). -/
def divLong (mdh mdl y : Word) : Quotient := divideSigned (mdh ++ mdl : BitVec 32).toInt y.toInt

/-- DIVU: MDL by a word (R215). -/
def divWordUnsigned (mdl y : Word) : Quotient := divideUnsigned mdl.toNat y.toNat

/-- DIVLU: MD by a word (R214). -/
def divLongUnsigned (mdh mdl y : Word) : Quotient := divideUnsigned (mdh ++ mdl : BitVec 32).toNat y.toNat

/-- The flags of a defined quotient (R212, D19). -/
def divFlags (q : Word) : CondFlags := { e := false, z := q == 0, v := false, c := false, n := q.msb }

/-! ## Bits -/

/-- The two-operand bit instructions that write (42_bit R262 to R266). -/
inductive BitOp where
  | mov | movn | and | or | xor
  deriving DecidableEq, Repr

/-- The bit written, from the old destination bit `d` and the source bit `b`. -/
def BitOp.value (op : BitOp) (d b : Bool) : Bool :=
  match op with
  | .mov => b
  | .movn => !b
  | .and => d && b
  | .or => d || b
  | .xor => d ^^ b

/-- The flags `0 B̄ 0 0 B` of an examined bit (R260 to R263, 46_jump_call R388). -/
def examineFlags (b : Bool) : CondFlags := { e := false, z := !b, v := false, c := false, n := b }

/-- The flags `0 NOR OR AND XOR` of two bits (R264 to R267). -/
def pairFlags (d b : Bool) : CondFlags := { e := false, z := !(d || b), v := d || b, c := d && b, n := d ^^ b }

/-- The flags of a two-operand bit instruction, from the bits before it (R270). -/
def BitOp.flags (op : BitOp) (d b : Bool) : CondFlags :=
  match op with
  | .mov | .movn => examineFlags b
  | .and | .or | .xor => pairFlags d b

/-- The flags of BFLDH and BFLDL, from the word result (R268, R269). -/
def fieldFlags (r : Word) : CondFlags := { e := false, z := r == 0, v := false, c := false, n := r.msb }

end Sys2Proof.Machine
end

