-- ==== Sys2Proof/Machine/Memory.lean ====
section
/-! DEFINITION. The byte array of the machine (20_memory R70) as a list of (address, byte) cells in one
canonical form: addresses strictly rising and inside the address space, no cell that holds what an unlisted
byte reads as. -/

namespace Sys2Proof.Machine

/-- What a byte that nothing has written reads as. The spec leaves it open (10_state R46, 93 U8).
DESIGN CHOICE, unsafe (log 2). -/
def Memory.unwritten : Byte := 0x00

/-- The byte at an address. -/
def Memory.read : List Host.Cell → Nat → Byte
  | [], _ => Memory.unwritten
  | (b, v) :: rest, a => if a = b then v else Memory.read rest a

/-- The memory after the byte `v` is stored at `a`; canonical if the memory was. -/
def Memory.write : List Host.Cell → Nat → Byte → List Host.Cell
  | [], a, v => if v = Memory.unwritten then [] else [(a, v)]
  | (b, u) :: rest, a, v =>
    if a < b then
      if v = Memory.unwritten then (b, u) :: rest else (a, v) :: (b, u) :: rest
    else if a = b then
      if v = Memory.unwritten then rest else (a, v) :: rest
    else (b, u) :: Memory.write rest a v

/-- The addresses rise strictly from `low` on and stay inside the address space, and no cell holds the
unwritten value. -/
def Memory.wfFrom (low : Nat) : List Host.Cell → Bool
  | [] => true
  | (a, v) :: rest => low ≤ a && a < 2 ^ 24 && v != Memory.unwritten && Memory.wfFrom (a + 1) rest

/-- The canonical form. -/
def Memory.wf (mem : List Host.Cell) : Bool := Memory.wfFrom 0 mem

end Sys2Proof.Machine
end

