-- ==== Sys2Proof/Machine/Ops.lean ====
section
/-! DEFINITION. The named operations over registers and memory: CPU registers at their addresses (10_state
R45), the primitive accesses (20_memory R72, R73), GPRs, the DPP mechanism, bit operands, the system stack,
taken branches, ATOMIC/EXTend sequences, taking a trap or interrupt and returning from one (60_exceptions
R510, R514), and reset (70_reset R600). -/

namespace Sys2Proof.Machine

/-! ## Why an instruction does not complete -/

/-- What ends an instruction before its effects: a class B trap, a fault or a refusal. -/
inductive Stop where
  | trap (t : HwTrap)
  | fault (f : Fault)
  | refused (r : Refusal)
  deriving DecidableEq, Repr

/-- A part of an instruction: a value (and the state after it), or why the instruction stops. -/
abbrev Exec (α : Type) := Except Stop α

/-- Go on with `x` unless there is a reason to stop. -/
def unlessStop {α : Type} (stop : Option Stop) (x : α) : Exec α :=
  match stop with
  | some e => .error e
  | none => .ok x

/-! ## CPU registers at their addresses (R45) -/

/-- The address of the word that holds a byte. -/
def evenAddr (a : Addr) : Addr := a &&& 0xFFFFFE

/-- Whether an address is odd. -/
def isOdd (a : Addr) : Bool := a.getLsbD 0

/-- The CPU register whose word holds the byte at `a`, if there is one. -/
def cpuRegAt (a : Addr) : Option CpuReg := CpuReg.all.find? fun r => r.addr == evenAddr a

/-- The word a CPU register holds. -/
def getReg (s : State) : CpuReg → Word
  | .psw => s.psw | .cp => s.cp | .sp => s.sp | .csp => s.csp
  | .dpp0 => s.dpp0 | .dpp1 => s.dpp1 | .dpp2 => s.dpp2 | .dpp3 => s.dpp3
  | .mdl => s.mdl | .mdh => s.mdh | .mdc => s.mdc | .syscon => s.syscon | .tfr => s.tfr

/-- A word is written to a CPU register: it keeps what `CpuReg.stored` says, and a write to MDL or MDH sets
MDRIU (R36). -/
def setReg (r : CpuReg) (v : Word) (s : State) : State :=
  match r with
  | .psw => { s with psw := r.stored v }
  | .cp => { s with cp := r.stored v }
  | .sp => { s with sp := r.stored v }
  | .csp => { s with csp := r.stored v }
  | .dpp0 => { s with dpp0 := r.stored v }
  | .dpp1 => { s with dpp1 := r.stored v }
  | .dpp2 => { s with dpp2 := r.stored v }
  | .dpp3 => { s with dpp3 := r.stored v }
  | .mdl => { s with mdl := r.stored v, mdc := s.mdc ||| mdriuMask }
  | .mdh => { s with mdh := r.stored v, mdc := s.mdc ||| mdriuMask }
  | .mdc => { s with mdc := r.stored v }
  | .syscon => { s with syscon := r.stored v }
  | .tfr => { s with tfr := r.stored v }

/-- A byte is written to half of a CPU register. Through the even address the high byte is cleared (20_memory
R83); for PSW the other byte is cleared either way (10_state R30). The spec does not say what a write through
the odd address leaves in the low byte of another register: that byte is a free value (log 6). A byte GPR over a register
is written by `pokeByteGpr`. -/
def setRegByte (r : CpuReg) (odd : Bool) (v : Byte) (s : State) : State :=
  if odd then
    if r = .psw then setReg r (wordOf 0 v) s
    else setReg r (wordOf (lowByte (Config.freeWord s.free)) v) { s with free := s.free + 1 }
  else setReg r (wordOf v 0) s

/-! ## Bytes and words of the address space -/

/-- The byte at a physical address: half of a CPU register, or a byte of memory. -/
def peekByte (s : State) (a : Addr) : Byte :=
  match cpuRegAt a with
  | some r => if isOdd a then highByte (getReg s r) else lowByte (getReg s r)
  | none => Memory.read s.mem a.toNat

/-- The word at a physical address, low byte first (R74). -/
def peekWord (s : State) (a : Addr) : Word := wordOf (peekByte s a) (peekByte s (a + 1))

/-- The operand of a data type at a physical address. -/
def peek (s : State) (w : Width) (a : Addr) : BitVec w.bits :=
  match w with
  | .byte => peekByte s a
  | .word => peekWord s a

/-- The side effect of a data read at `a`: a read of MDL clears MDRIU (R36, R79). -/
def touch (a : Addr) (s : State) : State :=
  if cpuRegAt a = some .mdl then { s with mdc := s.mdc &&& ~~~mdriuMask } else s

/-- One byte is stored. -/
def pokeByte (a : Addr) (v : Byte) (s : State) : State :=
  match cpuRegAt a with
  | some r => setRegByte r (isOdd a) v s
  | none => { s with mem := Memory.write s.mem a.toNat v }

/-- A byte GPR is stored: it changes one byte only, and the other byte of its word is unchanged, also where the bank lies
over a CPU register (40_arithmetic R217, 93 U10). In PSW the other byte is cleared, by whatever mode (10_state R30). -/
def pokeByteGpr (a : Addr) (v : Byte) (s : State) : State :=
  match cpuRegAt a with
  | some r =>
    if r = .psw then pokeByte a v s
    else setReg r (if isOdd a then wordOf (lowByte (getReg s r)) v else wordOf v (highByte (getReg s r))) s
  | none => pokeByte a v s

/-- One word is stored, low byte first (R73, R74). -/
def pokeWord (a : Addr) (v : Word) (s : State) : State :=
  match cpuRegAt a with
  | some r => setReg r v s
  | none => { s with mem := Memory.write (Memory.write s.mem a.toNat (lowByte v)) (a + 1).toNat (highByte v) }

/-- An operand of a data type is stored. -/
def poke (w : Width) (a : Addr) (v : BitVec w.bits) (s : State) : State :=
  match w, v with
  | .byte, v => pokeByte a v s
  | .word, v => pokeWord a v s

/-- The bytes of an access. -/
def accessBytes (w : Width) (a : Addr) : List Addr :=
  match w with
  | .byte => [a]
  | .word => [a, a + 1]

/-! ## Which accesses take place -/

/-- A word access at an odd address (R76). -/
def misaligned (w : Width) (a : Addr) : Bool := w == .word && isOdd a

/-- The kind of the region in which an access at `a` lies (R71, R72). For a word that is the region of its even byte,
the `pa` of R72; the model's choice is not to look where the second byte lies (log 4). -/
def kindAt (s : State) (a : Addr) : RegionKind := s.memMap.kindAt a.toNat

/-- The physical address of a code offset in a segment (R110). -/
def codeAddr (segment : Byte) (offset : Word) : Addr := segment ++ offset

/-- The offset of an address in its segment. -/
def offsetOf (a : Addr) : Word := a.extractLsb' 0 16

/-- The segment of an address. -/
def segmentOf (a : Addr) : Byte := a.extractLsb' 16 8

/-- The byte at `a` is one of the `n` code bytes that start at the address `start`; offsets wrap in the segment. -/
def inCode (start : Addr) (n : Nat) (a : Addr) : Bool :=
  segmentOf a == segmentOf start && (offsetOf a - offsetOf start).toNat < n

/-- The byte at `a` may have been fetched already: it is one of the next eight bytes of the instruction
stream, or of the instruction at the last branch target (R120, D7). -/
def fetchedAhead (s : State) (a : Addr) : Bool :=
  inCode (codeAddr (lowByte s.csp) s.ip) fetchAheadBytes a ||
    match s.branchTarget with
    | some (start, n) => inCode start n a
    | none => false

/-- A store into code that may have been fetched already is refused, in memory and in a CPU register (R120, D7; that a
register's address can hold code is log 37). -/
def aheadStop (s : State) (w : Width) (a : Addr) : Option Stop :=
  if (accessBytes w a).any (fetchedAhead s) then some (.refused .storeAhead) else none

/-- Why a data read does not take place (R72, R76, R502): checked in this order. -/
def readStop (s : State) (w : Width) (a : Addr) : Option Stop :=
  if misaligned w a then some (.trap .illopa)
  else if (cpuRegAt a).isSome then none
  else
    match kindAt s a with
    | .ram | .rom => none
    | .device => some (.refused .deviceRegister)
    | .unmapped => some (.fault .unmapped)

/-- Why a data write does not take place (R73, R76, R120, 10_state R26): checked in this order. -/
def writeStop (s : State) (w : Width) (a : Addr) : Option Stop :=
  if misaligned w a then some (.trap .illopa)
  else
    match cpuRegAt a with
    | some .csp => some (.refused .cspWrite)
    | some _ => aheadStop s w a
    | none =>
      match kindAt s a with
      | .ram => aheadStop s w a
      | .rom => some (.fault .romWrite)
      | .device => some (.refused .deviceRegister)
      | .unmapped => some (.fault .unmapped)

/-- `MemRead` (R72): the value and the state after the read's side effect. -/
def readMem (w : Width) (a : Addr) (s : State) : Exec (BitVec w.bits × State) :=
  unlessStop (readStop s w a) (peek s w a, touch a s)

/-- `MemWrite` (R73). -/
def writeMem (w : Width) (a : Addr) (v : BitVec w.bits) (s : State) : Exec State :=
  unlessStop (writeStop s w a) (poke w a v s)

/-! ## GPRs (10_state R21, R22) -/

/-- The physical address of a GPR of the bank at `bank`: bank + 2n for a word, bank + k for a byte GPR. -/
def gprAddr (bank : Word) (w : Width) (n : RegNo) : Addr :=
  match w with
  | .byte => bank.setWidth 24 + n.setWidth 24
  | .word => bank.setWidth 24 + 2 * n.setWidth 24

/-- A GPR access is refused while CP is above FFE0H (R21, D10; log 10). -/
def bankStop (bank : Word) : Option Stop := if highestBank < bank then some (.refused .contextPointer) else none

/-- `Rw[n]`, `Rb[k]` of the current bank. -/
def readGpr (w : Width) (n : RegNo) (s : State) : Exec (BitVec w.bits × State) :=
  match bankStop s.cp with
  | some e => .error e
  | none => readMem w (gprAddr s.cp w n) s

/-! ## Data addresses (20_memory R82, R84, R90 to R93) -/

/-- `OverrideActive()`: no class B trap flag is set (R93). -/
def overrideActive (s : State) : Bool := s.tfr &&& classBFlags == 0

/-- The data page pointer that bits 15..14 of a long address select (R90). -/
def dppOf (s : State) (a : Word) : Word :=
  match (a.extractLsb' 14 2).toNat with
  | 0 => s.dpp0
  | 1 => s.dpp1
  | 2 => s.dpp2
  | _ => s.dpp3

/-- A data page and a page offset (R90, R91). -/
def pageAddr (page : BitVec 10) (a : Word) : Addr := page ++ a.extractLsb' 0 14

/-- `DataAddr` (R90): the physical address of a long or indirect address. -/
def dataAddr (s : State) (a : Word) : Addr :=
  match s.seq.override, overrideActive s with
  | .page p, true => pageAddr p a
  | .seg g, true => codeAddr g a
  | _, _ => pageAddr ((dppOf s a).extractLsb' 0 10) a

/-- Whether an 8-bit short address names a GPR: F0H to FFH (R82, R84). -/
def namesGpr (r : Byte) : Bool := 0xF0 ≤ r

/-- The address a `reg` operand names (R82): a GPR of the bank, an SFR, or in an EXTR sequence an ESFR. -/
def regAddr (bank : Word) (s : State) (w : Width) (r : Byte) : Addr :=
  if namesGpr r then gprAddr bank w (r.extractLsb' 0 4)
  else (if s.seq.esfr then 0x00F000 else 0x00FE00) + 2 * r.setWidth 24

/-- The address of the word a `bitoff` names (R84): internal RAM, an SFR or ESFR, or a GPR. -/
def bitoffAddr (s : State) (qq : Byte) : Addr :=
  if namesGpr qq then gprAddr s.cp .word (qq.extractLsb' 0 4)
  else if qq < 0x80 then 0x00FD00 + 2 * qq.setWidth 24
  else (if s.seq.esfr then 0x00F100 else 0x00FF00) + 2 * (qq &&& 0x7F).setWidth 24

/-- A short address is refused where it names a GPR of a bank above FFE0H (D10). -/
def shortStop (bank : Word) (r : Byte) : Option Stop := if namesGpr r then bankStop bank else none

/-- Whether an address lies in PSW, the one register whose write suppresses the flags (10_state R30). -/
def hitsPsw (a : Addr) : Bool := cpuRegAt a == some .psw

/-- The instruction's flags, unless its destination was PSW (R30). -/
def flagsUnlessPsw (a : Addr) (f : CondFlags) (s : State) : State := if hitsPsw a then s else s.setFlags f

/-! ## Bit operands (R104, 42_bit R270) -/

/-- The word of a bit operand. -/
def readBitWord (qq : Byte) (s : State) : Exec (Word × State) :=
  match shortStop s.cp qq with
  | some e => .error e
  | none => readMem .word (bitoffAddr s qq) s

/-- Bit `q` of a word, replaced. -/
def setBit (v : Word) (q : BitVec 4) (b : Bool) : Word :=
  if b then v ||| ((1 : Word) <<< q.toNat) else v &&& ~~~((1 : Word) <<< q.toNat)

/-- `ReadBit`. -/
def readBit (qq : Byte) (q : BitVec 4) (s : State) : Exec (Bool × State) := do
  let (v, s) ← readBitWord qq s
  return (v.getLsbD q.toNat, s)

/-- `WriteBit`: the whole word is read and written back with one bit changed. -/
def writeBit (qq : Byte) (q : BitVec 4) (b : Bool) (s : State) : Exec State := do
  let (v, s) ← readBitWord qq s
  writeMem .word (bitoffAddr s qq) (setBit v q b) s

/-! ## The system stack (20_memory R106 to R108) -/

/-- The physical address of the top of the stack: segment 0 (D14). -/
def stackAddr (s : State) : Addr := s.sp.setWidth 24

/-- `Push`. -/
def push (v : Word) (s : State) : Exec State :=
  let s := setReg .sp (s.sp - 2) s
  writeMem .word (stackAddr s) v s

/-- `Pop`. -/
def pop (s : State) : Exec (Word × State) := do
  let (v, s) ← readMem .word (stackAddr s) s
  return (v, setReg .sp (s.sp + 2) s)

/-! ## Branches (46_jump_call R380 to R398) -/

/-- A taken branch inside the current code segment: IP is loaded, CSP stays, and the instruction at the
target is noted (20_memory R120). -/
def jumpNear (target : Word) (s : State) : State :=
  let start := codeAddr (lowByte s.csp) target
  { s with ip := target, branchTarget := some (start, lengthOf (peekByte s start)) }

/-- A taken branch to another code segment: CSP and IP are loaded (R381). -/
def jumpFar (segment : Byte) (target : Word) (s : State) : State :=
  jumpNear target { s with csp := segment.setWidth 16 }

/-- `RelTarget` (R382): IP is the address of the following instruction. -/
def relTarget (s : State) (rel : Byte) : Word := s.ip + 2 * rel.signExtend 16

/-- SYSCON.SGTDIS: segmentation is disabled (10_state R37). -/
def segmentationDisabled (s : State) : Bool := s.syscon.getLsbD sgtdisBit

/-! ## ATOMIC/EXTend sequences (48_system_control R450 to R453) -/

/-- A sequence of `count` instructions begins; it replaces one in progress (R451, log 28). -/
def beginSequence (count : Nat) (override : Override) (esfr : Bool) (s : State) : State :=
  { s with seq := { count := count, lock := true, override := override, esfr := esfr } }

/-- One covered instruction has executed (R452). -/
def countDown (s : State) : State :=
  if s.seq.count = 0 then s
  else if s.seq.count = 1 then { s with seq := Sequence.idle }
  else { s with seq := { s.seq with count := s.seq.count - 1 } }

/-! ## Taking a trap or interrupt, and returning (60_exceptions R510, R522, 47_return R423) -/

/-- PSW in a hardware trap or interrupt routine: the new priority level, MULIP cleared (R510). -/
def entryPsw (psw : Word) (level : BitVec 4) : Word := (psw &&& 0x0FDF) ||| (level.setWidth 16 <<< 12)

/-- `Entry(n, ret, new_ilvl)` of R510, which TRAP makes without a new level (46_jump_call R396): PSW, CSP if
segmentation is enabled, and the return address are pushed, and execution goes on at 4 times n. CSP is cleared at the end; that the
push of the return address is checked against the code ahead in the segment that is left, though R510 clears CSP before
that push, is the model's choice (log 15). -/
def enter (number : BitVec 7) (ret : Word) (level : Option (BitVec 4)) (s : State) : Exec State := do
  let s1 ← push s.psw s
  let s2 ← if segmentationDisabled s1 then pure s1 else push s1.csp s1
  let s3 ← push ret s2
  let target := 4 * number.setWidth 16
  let s4 := if segmentationDisabled s1 then jumpNear target s3 else jumpFar 0 target s3
  match level with
  | some level => return { s4 with psw := entryPsw s4.psw level }
  | none => return s4

/-- The entry sequence of a hardware trap or interrupt as an outcome. A misaligned push is refused: the spec
describes no fault inside an entry (R515, D25). -/
def entryOutcome : Exec State → Host.Outcome State Fault Refusal
  | .ok s => .next s
  | .error (.trap _) => .refused .entryAccess
  | .error (.fault f) => .fault f
  | .error (.refused r) => .refused r

/-- The state in which the entry of hardware trap `t` begins: a class B trap ends a sequence, and the trap's
flag is set (R510 steps 2 and 3). -/
def trapped (t : HwTrap) (s : State) : State :=
  { s with seq := if t.classB then Sequence.idle else s.seq, tfr := s.tfr ||| t.flag }

/-- `raise T` (R510): taken from the state the instruction found, so that it has no other effect (R511). The
run goes on at the trap's vector (log 1). -/
def raise (t : HwTrap) (ret : Word) (s : State) : Host.Outcome State Fault Refusal :=
  entryOutcome (enter t.number ret (some trapIlvl) (trapped t s))

/-- The outcome of an instruction that began in state `s`, where IP is already the address of the next one:
its trap, if any, is taken from `s` with that address as return address (R511, D23, D24). -/
def conclude (s : State) : Exec State → Host.Outcome State Fault Refusal
  | .ok s' => .next s'
  | .error (.trap t) => raise t s.ip s
  | .error (.fault f) => .fault f
  | .error (.refused r) => .refused r

/-- The CSP word of a stack frame is popped: only its segment number is stored (47_return R424, D11). -/
def popSegment (s : State) : Exec State := do
  let (segment, s) ← pop s
  return { s with csp := (lowByte segment).setWidth 16 }

/-- The return from a trap or interrupt (R423): IP, CSP if segmentation is enabled, and PSW are popped, in this
order, so that a PSW word that lies over CSP is read after CSP is written. A popped PSW with MULIP set is refused
(D15, log 18). -/
def returnFromEntry (s : State) : Exec State := do
  let disabled := segmentationDisabled s
  let (target, s) ← pop s
  let s ← if disabled then pure s else popSegment s
  let (psw, s) ← pop s
  let s := setReg .psw psw s
  if psw.getLsbD 5 then throw (.refused .mulip)
  else return jumpNear target s

/-! ## Reset (70_reset R600 to R602) -/

/-- `Reset(cause)`: every register takes its reset value; memory, the platform and what the environment offers
stay as they are. -/
def resetWith (cause : ResetCause) (s : State) : State :=
  { State.reset with
    resetCause := cause
    mem := s.mem
    memMap := s.memMap
    nmiPinLow := s.nmiPinLow
    pending := s.pending
    free := s.free }

end Sys2Proof.Machine
end

