-- ==== Sys2Proof/Machine/Operands.lean ====
section
/-! DEFINITION. The operand forms (20_memory R81 to R102): where an operand lies, how an auto-modified pointer
moves, and operand reads and writes. -/

namespace Sys2Proof.Machine

/-- The four indirect modes (R96). -/
inductive PtrMode where
  /-- `[Rw]` -/
  | plain
  /-- `[Rw+]` -/
  | postInc
  /-- `[-Rw]` -/
  | preDec
  /-- `[Rw + #data16]` -/
  | disp (d : Word)
  deriving DecidableEq, Repr

/-- An operand that has a location: a GPR, a `reg`, a `mem`, or an indirect operand (R100). -/
inductive Loc where
  | gpr (n : RegNo)
  | reg (r : Byte)
  | mem (a : Word)
  | ind (p : RegNo) (mode : PtrMode)
  deriving DecidableEq, Repr

/-- Whether an operand is a GPR, by its number or by a `reg` from F0H (R82). -/
def Loc.isGpr : Loc → Bool
  | .gpr _ => true
  | .reg r => namesGpr r
  | .mem _ | .ind _ _ => false

/-- A source operand: a location or an immediate constant, zero-extended to a word (R99). -/
inductive Source where
  | loc (l : Loc)
  | imm (v : Word)
  deriving DecidableEq, Repr

/-- Steps 1 to 4 of `IndirectAddr` (R95): the pointer's own address, the optional pre-decrement, and the
data address. `bank` is CP at the start of the instruction (70_reset R611). -/
def locateIndirect (bank : Word) (w : Width) (p : RegNo) (mode : PtrMode) (s : State) : Exec (Addr × State) :=
  let ptr := gprAddr bank .word p
  match bankStop bank with
  | some e => .error e
  | none =>
    match mode with
    | .preDec => do
      let (old, s) ← readMem .word ptr s
      let s ← writeMem .word ptr (old - w.delta) s
      let (a, s) ← readMem .word ptr s
      return (dataAddr s a, s)
    | .disp d => do
      let (a, s) ← readMem .word ptr s
      return (dataAddr s (a + d), s)
    | .plain | .postInc => do
      let (a, s) ← readMem .word ptr s
      return (dataAddr s a, s)

/-- The physical address of an operand, and the state after what comes before its access (R100). -/
def locate (bank : Word) (w : Width) (l : Loc) (s : State) : Exec (Addr × State) :=
  match l with
  | .gpr n =>
    match bankStop bank with
    | some e => .error e
    | none => .ok (gprAddr bank w n, s)
  | .reg r =>
    match shortStop bank r with
    | some e => .error e
    | none => .ok (regAddr bank s w r, s)
  | .mem a => .ok (dataAddr s a, s)
  | .ind p mode => locateIndirect bank w p mode s

/-- Step 5 of `IndirectAddr` (R95): the post-increment, after the access. -/
def settle (bank : Word) (w : Width) (l : Loc) (s : State) : Exec State :=
  match l with
  | .ind p .postInc => do
    let (old, s) ← readMem .word (gprAddr bank .word p) s
    writeMem .word (gprAddr bank .word p) (old + w.delta) s
  | _ => .ok s

/-- `ReadOp` for an operand that has a location (R100). -/
def readLoc (bank : Word) (w : Width) (l : Loc) (s : State) : Exec (BitVec w.bits × State) := do
  let (a, s) ← locate bank w l s
  let (v, s) ← readMem w a s
  let s ← settle bank w l s
  return (v, s)

/-- `ReadOp` (R100); an immediate is truncated to the data type (R99). -/
def readSource (bank : Word) (w : Width) (src : Source) (s : State) : Exec (BitVec w.bits × State) :=
  match src with
  | .loc l => readLoc bank w l s
  | .imm v => .ok (v.setWidth w.bits, s)

/-- The operand `l`, which lies at `a`, is stored: a byte GPR changes one byte only (40_arithmetic R217, 93 U10). -/
def pokeTo (l : Loc) (w : Width) (a : Addr) (v : BitVec w.bits) (s : State) : State :=
  match w, v with
  | .byte, v => if l.isGpr then pokeByteGpr a v s else pokeByte a v s
  | .word, v => pokeWord a v s

/-- `MemWrite` (R73) of the operand `l`, which lies at `a`. -/
def writeTo (l : Loc) (w : Width) (a : Addr) (v : BitVec w.bits) (s : State) : Exec State :=
  unlessStop (writeStop s w a) (pokeTo l w a v s)

/-- `WriteOp` (R101): the address written and the state after the write and its post-increment. -/
def writeLoc (bank : Word) (w : Width) (l : Loc) (v : BitVec w.bits) (s : State) : Exec (Addr × State) := do
  let (a, s) ← locate bank w l s
  let s ← writeTo l w a v s
  let s ← settle bank w l s
  return (a, s)

end Sys2Proof.Machine
end

