-- ==== Sys2Proof/Machine/Shapes.lean ====
section
/-! DEFINITION. The execution templates that several instructions share, each written once: two-operand
arithmetic and logic (40_arithmetic R221), compares (43 R296), shifts (44 R315), moves (45 R334), bit operations
(42 R270), multiplications and divisions (40 R223, R224). An instruction's meaning applies one of them. -/

namespace Sys2Proof.Machine

/-- The outcomes of an instruction. -/
abbrev Result := Host.Outcome State Fault Refusal

/-! ## Two operands (R221) -/

/-- `Alu2`: op1 is read first, then op2 with its post-increment; the flags before the instruction are its
carry and zero inputs. -/
def alu2 (op : AluOp) (w : Width) (dst : Loc) (src : Source) (s : State) : Exec State := do
  let (at1, s1) ← locate s.cp w dst s
  let (a, s2) ← readMem w at1 s1
  let (b, s3) ← readSource s.cp w src s2
  let s4 ← writeTo dst w at1 (op.eval a b s.flags).1 s3
  return flagsUnlessPsw at1 (op.eval a b s.flags).2 s4

/-- CMP and CMPB: `Alu2` without a write, so the flags are always set (R296). -/
def compare2 (w : Width) (op1 : Loc) (op2 : Source) (s : State) : Exec State := do
  let (a, s1) ← readLoc s.cp w op1 s
  let (b, s2) ← readSource s.cp w op2 s1
  return s2.setFlags (compareFlags a b)

/-- CMPD1, CMPD2, CMPI1, CMPI2: compare, then add `step` to the GPR (R292 to R296). -/
def compareStep (step : Word) (n : RegNo) (op2 : Source) (s : State) : Exec State := do
  let (at1, s0) ← locate s.cp .word (.gpr n) s
  let (a, s1) ← readMem .word at1 s0
  let (b, s2) ← readSource s.cp .word op2 s1
  let s3 ← writeMem .word at1 ((a : Word) + step) s2
  return flagsUnlessPsw at1 (compareFlags a b) s3

/-- NEG, CPL and their byte forms: one GPR operand, read and written (R216 to R219). -/
def unary (w : Width) (f : BitVec w.bits → BitVec w.bits × CondFlags) (n : RegNo) (s : State) : Exec State := do
  let (at1, s0) ← locate s.cp w (.gpr n) s
  let (a, s1) ← readMem w at1 s0
  let s2 ← writeTo (.gpr n) w at1 (f a).1 s1
  return flagsUnlessPsw at1 (f a).2 s2

/-- Shifts and rotates: op1 is a word GPR; the count is the low four bits of op2 (R315). -/
def shift (op : ShiftOp) (n : RegNo) (src : Source) (s : State) : Exec State := do
  let (k, s1) ← readSource s.cp .word src s
  let (at1, s2) ← locate s.cp .word (.gpr n) s1
  let (a, s3) ← readMem .word at1 s2
  let count := (k : Word).toNat % 16
  let s4 ← writeMem .word at1 (op.value a count) s3
  return flagsUnlessPsw at1 (op.flags a count) s4

/-! ## Moves (45 R334) -/

/-- MOV, MOVB, MOVBS, MOVBZ: the source is read, `ext` of it is written, and the flags come from the source
value. -/
def move (wsrc wdst : Width) (ext : BitVec wsrc.bits → BitVec wdst.bits)
    (flags : BitVec wsrc.bits → CondFlags → CondFlags) (dst : Loc) (src : Source) (s : State) : Exec State := do
  let (v, s1) ← readSource s.cp wsrc src s
  let (at1, s2) ← writeLoc s.cp wdst dst (ext v) s1
  return flagsUnlessPsw at1 (flags v s2.flags) s2

/-- MOV and MOVB: source and destination have one data type (R330, R331). -/
def moveSame (w : Width) (dst : Loc) (src : Source) (s : State) : Exec State :=
  move w w (fun v => v) moveFlags dst src s

/-- MOVBS: a byte, sign-extended to a word (R332). -/
def moveSigned (dst : Loc) (src : Source) (s : State) : Exec State :=
  move .byte .word (fun v => v.signExtend 16) moveSignedFlags dst src s

/-- MOVBZ: a byte, zero-extended to a word (R333). -/
def moveZero (dst : Loc) (src : Source) (s : State) : Exec State :=
  move .byte .word (fun v => v.setWidth 16) moveZeroFlags dst src s

/-! ## Multiplication and division (40 R223, R224) -/

/-- MDRIU is set at the start of the six instructions (10_state R36). -/
def setMdriu (s : State) : State := { s with mdc := s.mdc ||| mdriuMask }

/-- The product and its flags go to MD and PSW. MD is written without the side effect of an operand write (10_state R36). -/
def finishProduct (r : BitVec 32 × Bool) (s : State) : State :=
  { s with mdl := r.1.extractLsb' 0 16, mdh := r.1.extractLsb' 16 16 }.setFlags (mulFlags r)

/-- Two word GPRs are read, and `f` makes the product of them; MDRIU is not touched here. -/
def readProduct (f : Word → Word → BitVec 32 × Bool) (n m : RegNo) (s : State) :
    Exec ((BitVec 32 × Bool) × State) := do
  let (a, s1) ← readGpr .word n s
  let (b, s2) ← readGpr .word m s1
  return (f a b, s2)

/-- MUL: the operands are read, then MDRIU is set, then MD is written (R210). -/
def multiply (f : Word → Word → BitVec 32 × Bool) (n m : RegNo) (s : State) : Exec State := do
  let (r, s1) ← readProduct f n m s
  return finishProduct r (setMdriu s1)

/-- MULU: MDRIU is set before the operands are read (R211), and an operand over MDL leaves it set: the multiply and
divide instructions do not clear it (10_state R36, D16). -/
def multiplyMarked (f : Word → Word → BitVec 32 × Bool) (n m : RegNo) (s : State) : Exec State :=
  multiply f n m (setMdriu s)

/-- What a division leaves in MDL, MDH and the flags. Where the spec calls the result invalid, MDL, MDH, Z
and N are free values, and V too where it does not state V (93 U6, U7; log 16). -/
def finishDivision (r : Quotient) (s : State) : State :=
  let bits := Config.freeWord (s.free + 2)
  match r with
  | .result q rem => { s with mdl := q, mdh := rem }.setFlags (divFlags q)
  | .invalid =>
    { s with mdl := Config.freeWord s.free, mdh := Config.freeWord (s.free + 1), free := s.free + 3 }.setFlags
      { e := false, z := bits.getLsbD 3, v := true, c := false, n := bits.getLsbD 0 }
  | .unstated =>
    { s with mdl := Config.freeWord s.free, mdh := Config.freeWord (s.free + 1), free := s.free + 3 }.setFlags
      { e := false, z := bits.getLsbD 3, v := bits.getLsbD 2, c := false, n := bits.getLsbD 0 }

/-- The four divisions: `f` of the old MDH, the old MDL and the divisor (R212 to R215). MD is read without
the side effect of an operand read (D16). -/
def divide (f : Word → Word → Word → Quotient) (n : RegNo) (s : State) : Exec State := do
  let (y, s1) ← readGpr .word n s
  return finishDivision (f s1.mdh s1.mdl y) (setMdriu s1)

/-- PRIOR (41 R246). -/
def prioritize (n m : RegNo) (s : State) : Exec State := do
  let (b, s1) ← readGpr .word m s
  let (at1, s2) ← locate s.cp .word (.gpr n) s1
  let s3 ← writeMem .word at1 (priorValue b) s2
  return flagsUnlessPsw at1 (priorFlags b) s3

/-! ## Bits (42 R260 to R270) -/

/-- BCLR and BSET: the bit is examined, then cleared or set. -/
def bitAssign (b : Bool) (qq : Byte) (q : BitVec 4) (s : State) : Exec State := do
  let (old, s1) ← readBit qq q s
  let s2 ← writeBit qq q b s1
  return flagsUnlessPsw (bitoffAddr s qq) (examineFlags old) s2

/-- `Bit2` of R270 for the instructions that write, in the order of its pseudocode: the word written back is the one that
`WriteBit` reads again (20_memory R104). That this holds also where the read of op2 has changed that word (op2 in MDL, op1
in MDC) is the model's choice (log 42). -/
def bit2 (op : BitOp) (zz : Byte) (z : BitVec 4) (qq : Byte) (q : BitVec 4) (s : State) : Exec State := do
  let (d, s1) ← readBit zz z s
  let (b, s2) ← readBit qq q s1
  let s3 ← writeBit zz z (op.value d b) s2
  return flagsUnlessPsw (bitoffAddr s zz) (op.flags d b) s3

/-- BCMP: two bits are examined, none is written (R267). -/
def bitCompare (zz : Byte) (z : BitVec 4) (qq : Byte) (q : BitVec 4) (s : State) : Exec State := do
  let (d, s1) ← readBit zz z s
  let (b, s2) ← readBit qq q s1
  return s2.setFlags (pairFlags d b)

/-- BFLDH and BFLDL: the bits of `mask` are cleared, the bits of `data` set; both are words here (R268, R269). -/
def bitField (qq : Byte) (mask data : Word) (s : State) : Exec State := do
  let (v, s1) ← readBitWord qq s
  let r := (v &&& ~~~mask) ||| data
  let s2 ← writeMem .word (bitoffAddr s1 qq) r s1
  return flagsUnlessPsw (bitoffAddr s1 qq) (fieldFlags r) s2

/-- JB and JNB: jump if the bit is `b` (46 R387, R389). -/
def jumpOnBit (b : Bool) (qq : Byte) (q : BitVec 4) (rel : Byte) (s : State) : Exec State := do
  let (old, s1) ← readBit qq q s
  return if old == b then jumpNear (relTarget s rel) s1 else s1

/-- JBC and JNBS: if the bit is `b`, complement it and jump. The flags are those of the examined bit either
way, but for a bit of PSW (46 R388, R390). -/
def jumpAndFlip (b : Bool) (qq : Byte) (q : BitVec 4) (rel : Byte) (s : State) : Exec State := do
  let (old, s1) ← readBit qq q s
  if old == b then
    let s2 ← writeBit qq q (!b) s1
    return flagsUnlessPsw (bitoffAddr s qq) (examineFlags old) (jumpNear (relTarget s rel) s2)
  else return flagsUnlessPsw (bitoffAddr s qq) (examineFlags old) s1

/-! ## Calls (46 R391 to R395) and stack moves (49 R460, R461) -/

/-- A taken call inside the segment: the return address is pushed (R391). -/
def callNear (target : Word) (s : State) : Exec State := do
  let s1 ← push s.ip s
  return jumpNear target s1

/-- The flags E, Z and N of a pushed operand, set wherever the stack word lies: the instruction has no destination
operand, which 10_state R30 speaks of (R395, R461). -/
def pushedFlags (v : Word) (s : State) : State := s.setFlags (moveFlags v s.flags)

/-- Pop one word into `dst`, whose address is the one before the instruction (R422, R460). -/
def popTo (dst : Addr) (s : State) : Exec State := do
  let (v, s1) ← pop s
  let s2 ← writeMem .word dst v s1
  return flagsUnlessPsw dst (moveFlags v s2.flags) s2

end Sys2Proof.Machine
end

