-- ==== Sys2Proof/Machine/Arith.lean ====
section
/-! DEFINITION. Arithmetic (40_arithmetic R200 to R224). The operation lines, forms and flags are those of R220 and R221; MUL to
DIVU follow R223 and R224. -/

namespace Sys2Proof.Machine

/-- `ADD Rwn, Rwm` (R200). -/
def execAddRwRw (n : RegNo) (m : RegNo) (s : State) : Result :=
  conclude s (alu2 .add .word (.gpr n) (.loc (.gpr m)) s)

/-- `ADDB Rbn, Rbm` (R201). -/
def execAddbRbRb (n : RegNo) (m : RegNo) (s : State) : Result :=
  conclude s (alu2 .add .byte (.gpr n) (.loc (.gpr m)) s)

/-- `ADD reg, mem` (R200). -/
def execAddRegMem (r : Byte) (a : Word) (s : State) : Result :=
  conclude s (alu2 .add .word (.reg r) (.loc (.mem a)) s)

/-- `ADDB reg, mem` (R201). -/
def execAddbRegMem (r : Byte) (a : Word) (s : State) : Result :=
  conclude s (alu2 .add .byte (.reg r) (.loc (.mem a)) s)

/-- `ADD mem, reg` (R200). -/
def execAddMemReg (a : Word) (r : Byte) (s : State) : Result :=
  conclude s (alu2 .add .word (.mem a) (.loc (.reg r)) s)

/-- `ADDB mem, reg` (R201). -/
def execAddbMemReg (a : Word) (r : Byte) (s : State) : Result :=
  conclude s (alu2 .add .byte (.mem a) (.loc (.reg r)) s)

/-- `ADD reg, #data16` (R200). -/
def execAddRegData16 (r : Byte) (d : Word) (s : State) : Result :=
  conclude s (alu2 .add .word (.reg r) (.imm d) s)

/-- `ADDB reg, #data8` (R201). -/
def execAddbRegData8 (r : Byte) (d : Byte) (s : State) : Result :=
  conclude s (alu2 .add .byte (.reg r) (.imm (d.setWidth 16)) s)

/-- `ADD Rwn, #data3` (R200). -/
def execAddRwData3 (n : RegNo) (d : BitVec 3) (s : State) : Result :=
  conclude s (alu2 .add .word (.gpr n) (.imm (d.setWidth 16)) s)

/-- `ADD Rwn, [Rwi]` (R200). -/
def execAddRwInd (n : RegNo) (p : RegNo) (s : State) : Result :=
  conclude s (alu2 .add .word (.gpr n) (.loc (.ind p .plain)) s)

/-- `ADD Rwn, [Rwi+]` (R200). -/
def execAddRwIndInc (n : RegNo) (p : RegNo) (s : State) : Result :=
  conclude s (alu2 .add .word (.gpr n) (.loc (.ind p .postInc)) s)

/-- `ADDB Rbn, #data3` (R201). -/
def execAddbRbData3 (n : RegNo) (d : BitVec 3) (s : State) : Result :=
  conclude s (alu2 .add .byte (.gpr n) (.imm (d.setWidth 16)) s)

/-- `ADDB Rbn, [Rwi]` (R201). -/
def execAddbRbInd (n : RegNo) (p : RegNo) (s : State) : Result :=
  conclude s (alu2 .add .byte (.gpr n) (.loc (.ind p .plain)) s)

/-- `ADDB Rbn, [Rwi+]` (R201). -/
def execAddbRbIndInc (n : RegNo) (p : RegNo) (s : State) : Result :=
  conclude s (alu2 .add .byte (.gpr n) (.loc (.ind p .postInc)) s)

/-- `MUL Rwn, Rwm` (R210). -/
def execMul (n : RegNo) (m : RegNo) (s : State) : Result :=
  conclude s (multiply mulSigned n m s)

/-- `ADDC Rwn, Rwm` (R202). -/
def execAddcRwRw (n : RegNo) (m : RegNo) (s : State) : Result :=
  conclude s (alu2 .addc .word (.gpr n) (.loc (.gpr m)) s)

/-- `ADDCB Rbn, Rbm` (R203). -/
def execAddcbRbRb (n : RegNo) (m : RegNo) (s : State) : Result :=
  conclude s (alu2 .addc .byte (.gpr n) (.loc (.gpr m)) s)

/-- `ADDC reg, mem` (R202). -/
def execAddcRegMem (r : Byte) (a : Word) (s : State) : Result :=
  conclude s (alu2 .addc .word (.reg r) (.loc (.mem a)) s)

/-- `ADDCB reg, mem` (R203). -/
def execAddcbRegMem (r : Byte) (a : Word) (s : State) : Result :=
  conclude s (alu2 .addc .byte (.reg r) (.loc (.mem a)) s)

/-- `ADDC mem, reg` (R202). -/
def execAddcMemReg (a : Word) (r : Byte) (s : State) : Result :=
  conclude s (alu2 .addc .word (.mem a) (.loc (.reg r)) s)

/-- `ADDCB mem, reg` (R203). -/
def execAddcbMemReg (a : Word) (r : Byte) (s : State) : Result :=
  conclude s (alu2 .addc .byte (.mem a) (.loc (.reg r)) s)

/-- `ADDC reg, #data16` (R202). -/
def execAddcRegData16 (r : Byte) (d : Word) (s : State) : Result :=
  conclude s (alu2 .addc .word (.reg r) (.imm d) s)

/-- `ADDCB reg, #data8` (R203). -/
def execAddcbRegData8 (r : Byte) (d : Byte) (s : State) : Result :=
  conclude s (alu2 .addc .byte (.reg r) (.imm (d.setWidth 16)) s)

/-- `ADDC Rwn, #data3` (R202). -/
def execAddcRwData3 (n : RegNo) (d : BitVec 3) (s : State) : Result :=
  conclude s (alu2 .addc .word (.gpr n) (.imm (d.setWidth 16)) s)

/-- `ADDC Rwn, [Rwi]` (R202). -/
def execAddcRwInd (n : RegNo) (p : RegNo) (s : State) : Result :=
  conclude s (alu2 .addc .word (.gpr n) (.loc (.ind p .plain)) s)

/-- `ADDC Rwn, [Rwi+]` (R202). -/
def execAddcRwIndInc (n : RegNo) (p : RegNo) (s : State) : Result :=
  conclude s (alu2 .addc .word (.gpr n) (.loc (.ind p .postInc)) s)

/-- `ADDCB Rbn, #data3` (R203). -/
def execAddcbRbData3 (n : RegNo) (d : BitVec 3) (s : State) : Result :=
  conclude s (alu2 .addc .byte (.gpr n) (.imm (d.setWidth 16)) s)

/-- `ADDCB Rbn, [Rwi]` (R203). -/
def execAddcbRbInd (n : RegNo) (p : RegNo) (s : State) : Result :=
  conclude s (alu2 .addc .byte (.gpr n) (.loc (.ind p .plain)) s)

/-- `ADDCB Rbn, [Rwi+]` (R203). -/
def execAddcbRbIndInc (n : RegNo) (p : RegNo) (s : State) : Result :=
  conclude s (alu2 .addc .byte (.gpr n) (.loc (.ind p .postInc)) s)

/-- `MULU Rwn, Rwm` (R211). -/
def execMulu (n : RegNo) (m : RegNo) (s : State) : Result :=
  conclude s (multiplyMarked mulUnsigned n m s)

/-- `SUB Rwn, Rwm` (R204). -/
def execSubRwRw (n : RegNo) (m : RegNo) (s : State) : Result :=
  conclude s (alu2 .sub .word (.gpr n) (.loc (.gpr m)) s)

/-- `SUBB Rbn, Rbm` (R205). -/
def execSubbRbRb (n : RegNo) (m : RegNo) (s : State) : Result :=
  conclude s (alu2 .sub .byte (.gpr n) (.loc (.gpr m)) s)

/-- `SUB reg, mem` (R204). -/
def execSubRegMem (r : Byte) (a : Word) (s : State) : Result :=
  conclude s (alu2 .sub .word (.reg r) (.loc (.mem a)) s)

/-- `SUBB reg, mem` (R205). -/
def execSubbRegMem (r : Byte) (a : Word) (s : State) : Result :=
  conclude s (alu2 .sub .byte (.reg r) (.loc (.mem a)) s)

/-- `SUB mem, reg` (R204). -/
def execSubMemReg (a : Word) (r : Byte) (s : State) : Result :=
  conclude s (alu2 .sub .word (.mem a) (.loc (.reg r)) s)

/-- `SUBB mem, reg` (R205). -/
def execSubbMemReg (a : Word) (r : Byte) (s : State) : Result :=
  conclude s (alu2 .sub .byte (.mem a) (.loc (.reg r)) s)

/-- `SUB reg, #data16` (R204). -/
def execSubRegData16 (r : Byte) (d : Word) (s : State) : Result :=
  conclude s (alu2 .sub .word (.reg r) (.imm d) s)

/-- `SUBB reg, #data8` (R205). -/
def execSubbRegData8 (r : Byte) (d : Byte) (s : State) : Result :=
  conclude s (alu2 .sub .byte (.reg r) (.imm (d.setWidth 16)) s)

/-- `SUB Rwn, #data3` (R204). -/
def execSubRwData3 (n : RegNo) (d : BitVec 3) (s : State) : Result :=
  conclude s (alu2 .sub .word (.gpr n) (.imm (d.setWidth 16)) s)

/-- `SUB Rwn, [Rwi]` (R204). -/
def execSubRwInd (n : RegNo) (p : RegNo) (s : State) : Result :=
  conclude s (alu2 .sub .word (.gpr n) (.loc (.ind p .plain)) s)

/-- `SUB Rwn, [Rwi+]` (R204). -/
def execSubRwIndInc (n : RegNo) (p : RegNo) (s : State) : Result :=
  conclude s (alu2 .sub .word (.gpr n) (.loc (.ind p .postInc)) s)

/-- `SUBB Rbn, #data3` (R205). -/
def execSubbRbData3 (n : RegNo) (d : BitVec 3) (s : State) : Result :=
  conclude s (alu2 .sub .byte (.gpr n) (.imm (d.setWidth 16)) s)

/-- `SUBB Rbn, [Rwi]` (R205). -/
def execSubbRbInd (n : RegNo) (p : RegNo) (s : State) : Result :=
  conclude s (alu2 .sub .byte (.gpr n) (.loc (.ind p .plain)) s)

/-- `SUBB Rbn, [Rwi+]` (R205). -/
def execSubbRbIndInc (n : RegNo) (p : RegNo) (s : State) : Result :=
  conclude s (alu2 .sub .byte (.gpr n) (.loc (.ind p .postInc)) s)

/-- `SUBC Rwn, Rwm` (R206). -/
def execSubcRwRw (n : RegNo) (m : RegNo) (s : State) : Result :=
  conclude s (alu2 .subc .word (.gpr n) (.loc (.gpr m)) s)

/-- `SUBCB Rbn, Rbm` (R207). -/
def execSubcbRbRb (n : RegNo) (m : RegNo) (s : State) : Result :=
  conclude s (alu2 .subc .byte (.gpr n) (.loc (.gpr m)) s)

/-- `SUBC reg, mem` (R206). -/
def execSubcRegMem (r : Byte) (a : Word) (s : State) : Result :=
  conclude s (alu2 .subc .word (.reg r) (.loc (.mem a)) s)

/-- `SUBCB reg, mem` (R207). -/
def execSubcbRegMem (r : Byte) (a : Word) (s : State) : Result :=
  conclude s (alu2 .subc .byte (.reg r) (.loc (.mem a)) s)

/-- `SUBC mem, reg` (R206). -/
def execSubcMemReg (a : Word) (r : Byte) (s : State) : Result :=
  conclude s (alu2 .subc .word (.mem a) (.loc (.reg r)) s)

/-- `SUBCB mem, reg` (R207). -/
def execSubcbMemReg (a : Word) (r : Byte) (s : State) : Result :=
  conclude s (alu2 .subc .byte (.mem a) (.loc (.reg r)) s)

/-- `SUBC reg, #data16` (R206). -/
def execSubcRegData16 (r : Byte) (d : Word) (s : State) : Result :=
  conclude s (alu2 .subc .word (.reg r) (.imm d) s)

/-- `SUBCB reg, #data8` (R207). -/
def execSubcbRegData8 (r : Byte) (d : Byte) (s : State) : Result :=
  conclude s (alu2 .subc .byte (.reg r) (.imm (d.setWidth 16)) s)

/-- `SUBC Rwn, #data3` (R206). -/
def execSubcRwData3 (n : RegNo) (d : BitVec 3) (s : State) : Result :=
  conclude s (alu2 .subc .word (.gpr n) (.imm (d.setWidth 16)) s)

/-- `SUBC Rwn, [Rwi]` (R206). -/
def execSubcRwInd (n : RegNo) (p : RegNo) (s : State) : Result :=
  conclude s (alu2 .subc .word (.gpr n) (.loc (.ind p .plain)) s)

/-- `SUBC Rwn, [Rwi+]` (R206). -/
def execSubcRwIndInc (n : RegNo) (p : RegNo) (s : State) : Result :=
  conclude s (alu2 .subc .word (.gpr n) (.loc (.ind p .postInc)) s)

/-- `SUBCB Rbn, #data3` (R207). -/
def execSubcbRbData3 (n : RegNo) (d : BitVec 3) (s : State) : Result :=
  conclude s (alu2 .subc .byte (.gpr n) (.imm (d.setWidth 16)) s)

/-- `SUBCB Rbn, [Rwi]` (R207). -/
def execSubcbRbInd (n : RegNo) (p : RegNo) (s : State) : Result :=
  conclude s (alu2 .subc .byte (.gpr n) (.loc (.ind p .plain)) s)

/-- `SUBCB Rbn, [Rwi+]` (R207). -/
def execSubcbRbIndInc (n : RegNo) (p : RegNo) (s : State) : Result :=
  conclude s (alu2 .subc .byte (.gpr n) (.loc (.ind p .postInc)) s)

/-- `DIV Rwn` (R212). -/
def execDiv (n : RegNo) (s : State) : Result :=
  conclude s (divide (fun _ mdl y => divWord mdl y) n s)

/-- `DIVU Rwn` (R215). -/
def execDivu (n : RegNo) (s : State) : Result :=
  conclude s (divide (fun _ mdl y => divWordUnsigned mdl y) n s)

/-- `DIVL Rwn` (R213). -/
def execDivl (n : RegNo) (s : State) : Result :=
  conclude s (divide divLong n s)

/-- `DIVLU Rwn` (R214). -/
def execDivlu (n : RegNo) (s : State) : Result :=
  conclude s (divide divLongUnsigned n s)

/-- `NEG Rwn` (R218). -/
def execNeg (n : RegNo) (s : State) : Result :=
  conclude s (unary .word negEval n s)

/-- `CPL Rwn` (R216). -/
def execCpl (n : RegNo) (s : State) : Result :=
  conclude s (unary .word cplEval n s)

/-- `NEGB Rbn` (R219). -/
def execNegb (n : RegNo) (s : State) : Result :=
  conclude s (unary .byte negEval n s)

/-- `CPLB Rbn` (R217). -/
def execCplb (n : RegNo) (s : State) : Result :=
  conclude s (unary .byte cplEval n s)

end Sys2Proof.Machine
end

