-- ==== Sys2Proof/Machine/Bit.lean ====
section
/-! DEFINITION. Boolean bit manipulation (42_bit R260 to R277). -/

namespace Sys2Proof.Machine

/-- `BFLDL bitoffQ, #mask8, #data8` (R269). -/
def execBfldl (qq : Byte) (mask : Byte) (d : Byte) (s : State) : Result :=
  conclude s (bitField qq (mask.setWidth 16) (d.setWidth 16) s)

/-- `BCLR bitaddrQ.q` (R260). -/
def execBclr (qq : Byte) (q : BitVec 4) (s : State) : Result :=
  conclude s (bitAssign false qq q s)

/-- `BSET bitaddrQ.q` (R261). -/
def execBset (qq : Byte) (q : BitVec 4) (s : State) : Result :=
  conclude s (bitAssign true qq q s)

/-- `BFLDH bitoffQ, #mask8, #data8` (R268). -/
def execBfldh (qq : Byte) (mask : Byte) (d : Byte) (s : State) : Result :=
  conclude s (bitField qq (mask.setWidth 16 <<< 8) (d.setWidth 16 <<< 8) s)

/-- `BCMP bitaddrZ.z, bitaddrQ.q` (R267). -/
def execBcmp (zz : Byte) (z : BitVec 4) (qq : Byte) (q : BitVec 4) (s : State) : Result :=
  conclude s (bitCompare zz z qq q s)

/-- `BMOVN bitaddrZ.z, bitaddrQ.q` (R263). -/
def execBmovn (zz : Byte) (z : BitVec 4) (qq : Byte) (q : BitVec 4) (s : State) : Result :=
  conclude s (bit2 .movn zz z qq q s)

/-- `BMOV bitaddrZ.z, bitaddrQ.q` (R262). -/
def execBmov (zz : Byte) (z : BitVec 4) (qq : Byte) (q : BitVec 4) (s : State) : Result :=
  conclude s (bit2 .mov zz z qq q s)

/-- `BOR bitaddrZ.z, bitaddrQ.q` (R265). -/
def execBor (zz : Byte) (z : BitVec 4) (qq : Byte) (q : BitVec 4) (s : State) : Result :=
  conclude s (bit2 .or zz z qq q s)

/-- `BAND bitaddrZ.z, bitaddrQ.q` (R264). -/
def execBand (zz : Byte) (z : BitVec 4) (qq : Byte) (q : BitVec 4) (s : State) : Result :=
  conclude s (bit2 .and zz z qq q s)

/-- `BXOR bitaddrZ.z, bitaddrQ.q` (R266). -/
def execBxor (zz : Byte) (z : BitVec 4) (qq : Byte) (q : BitVec 4) (s : State) : Result :=
  conclude s (bit2 .xor zz z qq q s)

end Sys2Proof.Machine
end

