-- ==== Sys2Proof/Machine/Compare.lean ====
section
/-! DEFINITION. Compare and loop control (43_compare_loop R290 to R296). The step of CMPD1 and CMPD2 is -1 and -2 modulo 2^16. -/

namespace Sys2Proof.Machine

/-- `CMP Rwn, Rwm` (R290). -/
def execCmpRwRw (n : RegNo) (m : RegNo) (s : State) : Result :=
  conclude s (compare2 .word (.gpr n) (.loc (.gpr m)) s)

/-- `CMPB Rbn, Rbm` (R291). -/
def execCmpbRbRb (n : RegNo) (m : RegNo) (s : State) : Result :=
  conclude s (compare2 .byte (.gpr n) (.loc (.gpr m)) s)

/-- `CMP reg, mem` (R290). -/
def execCmpRegMem (r : Byte) (a : Word) (s : State) : Result :=
  conclude s (compare2 .word (.reg r) (.loc (.mem a)) s)

/-- `CMPB reg, mem` (R291). -/
def execCmpbRegMem (r : Byte) (a : Word) (s : State) : Result :=
  conclude s (compare2 .byte (.reg r) (.loc (.mem a)) s)

/-- `CMP reg, #data16` (R290). -/
def execCmpRegData16 (r : Byte) (d : Word) (s : State) : Result :=
  conclude s (compare2 .word (.reg r) (.imm d) s)

/-- `CMPB reg, #data8` (R291). -/
def execCmpbRegData8 (r : Byte) (d : Byte) (s : State) : Result :=
  conclude s (compare2 .byte (.reg r) (.imm (d.setWidth 16)) s)

/-- `CMP Rwn, #data3` (R290). -/
def execCmpRwData3 (n : RegNo) (d : BitVec 3) (s : State) : Result :=
  conclude s (compare2 .word (.gpr n) (.imm (d.setWidth 16)) s)

/-- `CMP Rwn, [Rwi]` (R290). -/
def execCmpRwInd (n : RegNo) (p : RegNo) (s : State) : Result :=
  conclude s (compare2 .word (.gpr n) (.loc (.ind p .plain)) s)

/-- `CMP Rwn, [Rwi+]` (R290). -/
def execCmpRwIndInc (n : RegNo) (p : RegNo) (s : State) : Result :=
  conclude s (compare2 .word (.gpr n) (.loc (.ind p .postInc)) s)

/-- `CMPB Rbn, #data3` (R291). -/
def execCmpbRbData3 (n : RegNo) (d : BitVec 3) (s : State) : Result :=
  conclude s (compare2 .byte (.gpr n) (.imm (d.setWidth 16)) s)

/-- `CMPB Rbn, [Rwi]` (R291). -/
def execCmpbRbInd (n : RegNo) (p : RegNo) (s : State) : Result :=
  conclude s (compare2 .byte (.gpr n) (.loc (.ind p .plain)) s)

/-- `CMPB Rbn, [Rwi+]` (R291). -/
def execCmpbRbIndInc (n : RegNo) (p : RegNo) (s : State) : Result :=
  conclude s (compare2 .byte (.gpr n) (.loc (.ind p .postInc)) s)

/-- `CMPI1 Rwn, #data4` (R294). -/
def execCmpi1RwData4 (n : RegNo) (d : BitVec 4) (s : State) : Result :=
  conclude s (compareStep 1 n (.imm (d.setWidth 16)) s)

/-- `CMPI1 Rwn, mem` (R294). -/
def execCmpi1RwMem (n : RegNo) (a : Word) (s : State) : Result :=
  conclude s (compareStep 1 n (.loc (.mem a)) s)

/-- `CMPI1 Rwn, #data16` (R294). -/
def execCmpi1RwData16 (n : RegNo) (d : Word) (s : State) : Result :=
  conclude s (compareStep 1 n (.imm d) s)

/-- `CMPI2 Rwn, #data4` (R295). -/
def execCmpi2RwData4 (n : RegNo) (d : BitVec 4) (s : State) : Result :=
  conclude s (compareStep 2 n (.imm (d.setWidth 16)) s)

/-- `CMPI2 Rwn, mem` (R295). -/
def execCmpi2RwMem (n : RegNo) (a : Word) (s : State) : Result :=
  conclude s (compareStep 2 n (.loc (.mem a)) s)

/-- `CMPI2 Rwn, #data16` (R295). -/
def execCmpi2RwData16 (n : RegNo) (d : Word) (s : State) : Result :=
  conclude s (compareStep 2 n (.imm d) s)

/-- `CMPD1 Rwn, #data4` (R292). -/
def execCmpd1RwData4 (n : RegNo) (d : BitVec 4) (s : State) : Result :=
  conclude s (compareStep 0xFFFF n (.imm (d.setWidth 16)) s)

/-- `CMPD1 Rwn, mem` (R292). -/
def execCmpd1RwMem (n : RegNo) (a : Word) (s : State) : Result :=
  conclude s (compareStep 0xFFFF n (.loc (.mem a)) s)

/-- `CMPD1 Rwn, #data16` (R292). -/
def execCmpd1RwData16 (n : RegNo) (d : Word) (s : State) : Result :=
  conclude s (compareStep 0xFFFF n (.imm d) s)

/-- `CMPD2 Rwn, #data4` (R293). -/
def execCmpd2RwData4 (n : RegNo) (d : BitVec 4) (s : State) : Result :=
  conclude s (compareStep 0xFFFE n (.imm (d.setWidth 16)) s)

/-- `CMPD2 Rwn, mem` (R293). -/
def execCmpd2RwMem (n : RegNo) (a : Word) (s : State) : Result :=
  conclude s (compareStep 0xFFFE n (.loc (.mem a)) s)

/-- `CMPD2 Rwn, #data16` (R293). -/
def execCmpd2RwData16 (n : RegNo) (d : Word) (s : State) : Result :=
  conclude s (compareStep 0xFFFE n (.imm d) s)

end Sys2Proof.Machine
end

