-- ==== Sys2Proof/Machine/Jump.lean ====
section
/-! DEFINITION. Jumps, calls and the software trap (46_jump_call R380 to R398). IP is the address of the following
instruction while one executes (R380), so it is the return address. An odd target traps at the next fetch (R397). -/

namespace Sys2Proof.Machine

/-- `JMPR cc, rel` (R385). -/
def execJmpr (cc : Cond) (rel : Byte) (s : State) : Result :=
  .next (if condHolds cc s.flags then jumpNear (relTarget s rel) s else s)

/-- `JB bitaddrQ.q, rel` (R387). -/
def execJb (qq : Byte) (q : BitVec 4) (rel : Byte) (s : State) : Result :=
  conclude s (jumpOnBit true qq q rel s)

/-- `JNB bitaddrQ.q, rel` (R389). -/
def execJnb (qq : Byte) (q : BitVec 4) (rel : Byte) (s : State) : Result :=
  conclude s (jumpOnBit false qq q rel s)

/-- `TRAP #trap7` (R396). -/
def execTrap (t : BitVec 7) (s : State) : Result :=
  conclude s (enter t s.ip none s)

/-- `JMPI cc, [Rwn]` (R384). -/
def execJmpi (cc : Cond) (n : RegNo) (s : State) : Result :=
  conclude s <|
    if condHolds cc s.flags then do
      let (target, s1) ← readGpr .word n s
      return jumpNear target s1
    else return s

/-- `JBC bitaddrQ.q, rel` (R388). -/
def execJbc (qq : Byte) (q : BitVec 4) (rel : Byte) (s : State) : Result :=
  conclude s (jumpAndFlip true qq q rel s)

/-- `CALLI cc, [Rwn]` (R392). -/
def execCalli (cc : Cond) (n : RegNo) (s : State) : Result :=
  conclude s <|
    if condHolds cc s.flags then do
      let (target, s1) ← readGpr .word n s
      callNear target s1
    else return s

/-- `JNBS bitaddrQ.q, rel` (R390). -/
def execJnbs (qq : Byte) (q : BitVec 4) (rel : Byte) (s : State) : Result :=
  conclude s (jumpAndFlip false qq q rel s)

/-- `CALLR rel` (R393). -/
def execCallr (rel : Byte) (s : State) : Result :=
  conclude s (callNear (relTarget s rel) s)

/-- `CALLA cc, caddr` (R391). -/
def execCalla (cc : Cond) (a : Word) (s : State) : Result :=
  conclude s (if condHolds cc s.flags then callNear a s else return s)

/-- `CALLS seg, caddr` (R394). The refusal of another segment with SGTDIS set (R398, D17) is decided before the pushes,
of which one can land on SYSCON and change SGTDIS: the spec does not say when, and this is the model's choice (log 19). -/
def execCalls (seg : Byte) (a : Word) (s : State) : Result :=
  if segmentationDisabled s && seg != 0 then .refused .segmentation
  else conclude s do
    let s1 ← push s.csp s
    let s2 ← push s.ip s1
    return jumpFar seg a s2

/-- `PCALL reg, caddr` (R395). -/
def execPcall (r : Byte) (a : Word) (s : State) : Result :=
  conclude s do
    let (at1, s0) ← locate s.cp .word (.reg r) s
    let (v, s1) ← readMem .word at1 s0
    let s2 ← push v s1
    let s3 ← push s.ip s2
    return pushedFlags v (jumpNear a s3)

/-- `JMPA cc, caddr` (R383). -/
def execJmpa (cc : Cond) (a : Word) (s : State) : Result :=
  .next (if condHolds cc s.flags then jumpNear a s else s)

/-- `JMPS seg, caddr` (R386). -/
def execJmps (seg : Byte) (a : Word) (s : State) : Result :=
  if segmentationDisabled s && seg != 0 then .refused .segmentation
  else .next (jumpFar seg a s)

end Sys2Proof.Machine
end

