-- ==== Sys2Proof/Machine/Logic.lean ====
section
/-! DEFINITION. Logic and PRIOR (41_logical_prior R240 to R247). -/

namespace Sys2Proof.Machine

/-- `PRIOR Rwn, Rwm` (R246). -/
def execPrior (n : RegNo) (m : RegNo) (s : State) : Result :=
  conclude s (prioritize n m s)

/-- `XOR Rwn, Rwm` (R244). -/
def execXorRwRw (n : RegNo) (m : RegNo) (s : State) : Result :=
  conclude s (alu2 .xor .word (.gpr n) (.loc (.gpr m)) s)

/-- `XORB Rbn, Rbm` (R245). -/
def execXorbRbRb (n : RegNo) (m : RegNo) (s : State) : Result :=
  conclude s (alu2 .xor .byte (.gpr n) (.loc (.gpr m)) s)

/-- `XOR reg, mem` (R244). -/
def execXorRegMem (r : Byte) (a : Word) (s : State) : Result :=
  conclude s (alu2 .xor .word (.reg r) (.loc (.mem a)) s)

/-- `XORB reg, mem` (R245). -/
def execXorbRegMem (r : Byte) (a : Word) (s : State) : Result :=
  conclude s (alu2 .xor .byte (.reg r) (.loc (.mem a)) s)

/-- `XOR mem, reg` (R244). -/
def execXorMemReg (a : Word) (r : Byte) (s : State) : Result :=
  conclude s (alu2 .xor .word (.mem a) (.loc (.reg r)) s)

/-- `XORB mem, reg` (R245). -/
def execXorbMemReg (a : Word) (r : Byte) (s : State) : Result :=
  conclude s (alu2 .xor .byte (.mem a) (.loc (.reg r)) s)

/-- `XOR reg, #data16` (R244). -/
def execXorRegData16 (r : Byte) (d : Word) (s : State) : Result :=
  conclude s (alu2 .xor .word (.reg r) (.imm d) s)

/-- `XORB reg, #data8` (R245). -/
def execXorbRegData8 (r : Byte) (d : Byte) (s : State) : Result :=
  conclude s (alu2 .xor .byte (.reg r) (.imm (d.setWidth 16)) s)

/-- `XOR Rwn, #data3` (R244). -/
def execXorRwData3 (n : RegNo) (d : BitVec 3) (s : State) : Result :=
  conclude s (alu2 .xor .word (.gpr n) (.imm (d.setWidth 16)) s)

/-- `XOR Rwn, [Rwi]` (R244). -/
def execXorRwInd (n : RegNo) (p : RegNo) (s : State) : Result :=
  conclude s (alu2 .xor .word (.gpr n) (.loc (.ind p .plain)) s)

/-- `XOR Rwn, [Rwi+]` (R244). -/
def execXorRwIndInc (n : RegNo) (p : RegNo) (s : State) : Result :=
  conclude s (alu2 .xor .word (.gpr n) (.loc (.ind p .postInc)) s)

/-- `XORB Rbn, #data3` (R245). -/
def execXorbRbData3 (n : RegNo) (d : BitVec 3) (s : State) : Result :=
  conclude s (alu2 .xor .byte (.gpr n) (.imm (d.setWidth 16)) s)

/-- `XORB Rbn, [Rwi]` (R245). -/
def execXorbRbInd (n : RegNo) (p : RegNo) (s : State) : Result :=
  conclude s (alu2 .xor .byte (.gpr n) (.loc (.ind p .plain)) s)

/-- `XORB Rbn, [Rwi+]` (R245). -/
def execXorbRbIndInc (n : RegNo) (p : RegNo) (s : State) : Result :=
  conclude s (alu2 .xor .byte (.gpr n) (.loc (.ind p .postInc)) s)

/-- `AND Rwn, Rwm` (R240). -/
def execAndRwRw (n : RegNo) (m : RegNo) (s : State) : Result :=
  conclude s (alu2 .and .word (.gpr n) (.loc (.gpr m)) s)

/-- `ANDB Rbn, Rbm` (R241). -/
def execAndbRbRb (n : RegNo) (m : RegNo) (s : State) : Result :=
  conclude s (alu2 .and .byte (.gpr n) (.loc (.gpr m)) s)

/-- `AND reg, mem` (R240). -/
def execAndRegMem (r : Byte) (a : Word) (s : State) : Result :=
  conclude s (alu2 .and .word (.reg r) (.loc (.mem a)) s)

/-- `ANDB reg, mem` (R241). -/
def execAndbRegMem (r : Byte) (a : Word) (s : State) : Result :=
  conclude s (alu2 .and .byte (.reg r) (.loc (.mem a)) s)

/-- `AND mem, reg` (R240). -/
def execAndMemReg (a : Word) (r : Byte) (s : State) : Result :=
  conclude s (alu2 .and .word (.mem a) (.loc (.reg r)) s)

/-- `ANDB mem, reg` (R241). -/
def execAndbMemReg (a : Word) (r : Byte) (s : State) : Result :=
  conclude s (alu2 .and .byte (.mem a) (.loc (.reg r)) s)

/-- `AND reg, #data16` (R240). -/
def execAndRegData16 (r : Byte) (d : Word) (s : State) : Result :=
  conclude s (alu2 .and .word (.reg r) (.imm d) s)

/-- `ANDB reg, #data8` (R241). -/
def execAndbRegData8 (r : Byte) (d : Byte) (s : State) : Result :=
  conclude s (alu2 .and .byte (.reg r) (.imm (d.setWidth 16)) s)

/-- `AND Rwn, #data3` (R240). -/
def execAndRwData3 (n : RegNo) (d : BitVec 3) (s : State) : Result :=
  conclude s (alu2 .and .word (.gpr n) (.imm (d.setWidth 16)) s)

/-- `AND Rwn, [Rwi]` (R240). -/
def execAndRwInd (n : RegNo) (p : RegNo) (s : State) : Result :=
  conclude s (alu2 .and .word (.gpr n) (.loc (.ind p .plain)) s)

/-- `AND Rwn, [Rwi+]` (R240). -/
def execAndRwIndInc (n : RegNo) (p : RegNo) (s : State) : Result :=
  conclude s (alu2 .and .word (.gpr n) (.loc (.ind p .postInc)) s)

/-- `ANDB Rbn, #data3` (R241). -/
def execAndbRbData3 (n : RegNo) (d : BitVec 3) (s : State) : Result :=
  conclude s (alu2 .and .byte (.gpr n) (.imm (d.setWidth 16)) s)

/-- `ANDB Rbn, [Rwi]` (R241). -/
def execAndbRbInd (n : RegNo) (p : RegNo) (s : State) : Result :=
  conclude s (alu2 .and .byte (.gpr n) (.loc (.ind p .plain)) s)

/-- `ANDB Rbn, [Rwi+]` (R241). -/
def execAndbRbIndInc (n : RegNo) (p : RegNo) (s : State) : Result :=
  conclude s (alu2 .and .byte (.gpr n) (.loc (.ind p .postInc)) s)

/-- `OR Rwn, Rwm` (R242). -/
def execOrRwRw (n : RegNo) (m : RegNo) (s : State) : Result :=
  conclude s (alu2 .or .word (.gpr n) (.loc (.gpr m)) s)

/-- `ORB Rbn, Rbm` (R243). -/
def execOrbRbRb (n : RegNo) (m : RegNo) (s : State) : Result :=
  conclude s (alu2 .or .byte (.gpr n) (.loc (.gpr m)) s)

/-- `OR reg, mem` (R242). -/
def execOrRegMem (r : Byte) (a : Word) (s : State) : Result :=
  conclude s (alu2 .or .word (.reg r) (.loc (.mem a)) s)

/-- `ORB reg, mem` (R243). -/
def execOrbRegMem (r : Byte) (a : Word) (s : State) : Result :=
  conclude s (alu2 .or .byte (.reg r) (.loc (.mem a)) s)

/-- `OR mem, reg` (R242). -/
def execOrMemReg (a : Word) (r : Byte) (s : State) : Result :=
  conclude s (alu2 .or .word (.mem a) (.loc (.reg r)) s)

/-- `ORB mem, reg` (R243). -/
def execOrbMemReg (a : Word) (r : Byte) (s : State) : Result :=
  conclude s (alu2 .or .byte (.mem a) (.loc (.reg r)) s)

/-- `OR reg, #data16` (R242). -/
def execOrRegData16 (r : Byte) (d : Word) (s : State) : Result :=
  conclude s (alu2 .or .word (.reg r) (.imm d) s)

/-- `ORB reg, #data8` (R243). -/
def execOrbRegData8 (r : Byte) (d : Byte) (s : State) : Result :=
  conclude s (alu2 .or .byte (.reg r) (.imm (d.setWidth 16)) s)

/-- `OR Rwn, #data3` (R242). -/
def execOrRwData3 (n : RegNo) (d : BitVec 3) (s : State) : Result :=
  conclude s (alu2 .or .word (.gpr n) (.imm (d.setWidth 16)) s)

/-- `OR Rwn, [Rwi]` (R242). -/
def execOrRwInd (n : RegNo) (p : RegNo) (s : State) : Result :=
  conclude s (alu2 .or .word (.gpr n) (.loc (.ind p .plain)) s)

/-- `OR Rwn, [Rwi+]` (R242). -/
def execOrRwIndInc (n : RegNo) (p : RegNo) (s : State) : Result :=
  conclude s (alu2 .or .word (.gpr n) (.loc (.ind p .postInc)) s)

/-- `ORB Rbn, #data3` (R243). -/
def execOrbRbData3 (n : RegNo) (d : BitVec 3) (s : State) : Result :=
  conclude s (alu2 .or .byte (.gpr n) (.imm (d.setWidth 16)) s)

/-- `ORB Rbn, [Rwi]` (R243). -/
def execOrbRbInd (n : RegNo) (p : RegNo) (s : State) : Result :=
  conclude s (alu2 .or .byte (.gpr n) (.loc (.ind p .plain)) s)

/-- `ORB Rbn, [Rwi+]` (R243). -/
def execOrbRbIndInc (n : RegNo) (p : RegNo) (s : State) : Result :=
  conclude s (alu2 .or .byte (.gpr n) (.loc (.ind p .postInc)) s)

end Sys2Proof.Machine
end

