-- ==== Sys2Proof/Machine/Move.lean ====
section
/-! DEFINITION. Data movement (45_data_movement R330 to R334). -/

namespace Sys2Proof.Machine

/-- `MOV [Rwn], mem` (R330). -/
def execMovIndMem (n : RegNo) (a : Word) (s : State) : Result :=
  conclude s (moveSame .word (.ind n .plain) (.loc (.mem a)) s)

/-- `MOV [-Rwm], Rwn` (R330). -/
def execMovIndDecRw (m : RegNo) (n : RegNo) (s : State) : Result :=
  conclude s (moveSame .word (.ind m .preDec) (.loc (.gpr n)) s)

/-- `MOVB [-Rwm], Rbn` (R331). -/
def execMovbIndDecRb (m : RegNo) (n : RegNo) (s : State) : Result :=
  conclude s (moveSame .byte (.ind m .preDec) (.loc (.gpr n)) s)

/-- `MOV mem, [Rwn]` (R330). -/
def execMovMemInd (a : Word) (n : RegNo) (s : State) : Result :=
  conclude s (moveSame .word (.mem a) (.loc (.ind n .plain)) s)

/-- `MOV Rwn, [Rwm+]` (R330). -/
def execMovRwIndInc (n : RegNo) (m : RegNo) (s : State) : Result :=
  conclude s (moveSame .word (.gpr n) (.loc (.ind m .postInc)) s)

/-- `MOVB Rbn, [Rwm+]` (R331). -/
def execMovbRbIndInc (n : RegNo) (m : RegNo) (s : State) : Result :=
  conclude s (moveSame .byte (.gpr n) (.loc (.ind m .postInc)) s)

/-- `MOVB [Rwn], mem` (R331). -/
def execMovbIndMem (n : RegNo) (a : Word) (s : State) : Result :=
  conclude s (moveSame .byte (.ind n .plain) (.loc (.mem a)) s)

/-- `MOV Rwn, [Rwm]` (R330). -/
def execMovRwInd (n : RegNo) (m : RegNo) (s : State) : Result :=
  conclude s (moveSame .word (.gpr n) (.loc (.ind m .plain)) s)

/-- `MOVB Rbn, [Rwm]` (R331). -/
def execMovbRbInd (n : RegNo) (m : RegNo) (s : State) : Result :=
  conclude s (moveSame .byte (.gpr n) (.loc (.ind m .plain)) s)

/-- `MOVB mem, [Rwn]` (R331). -/
def execMovbMemInd (a : Word) (n : RegNo) (s : State) : Result :=
  conclude s (moveSame .byte (.mem a) (.loc (.ind n .plain)) s)

/-- `MOV [Rwm], Rwn` (R330). -/
def execMovIndRw (m : RegNo) (n : RegNo) (s : State) : Result :=
  conclude s (moveSame .word (.ind m .plain) (.loc (.gpr n)) s)

/-- `MOVB [Rwm], Rbn` (R331). -/
def execMovbIndRb (m : RegNo) (n : RegNo) (s : State) : Result :=
  conclude s (moveSame .byte (.ind m .plain) (.loc (.gpr n)) s)

/-- `MOVBZ Rwn, Rbm` (R333). -/
def execMovbzRwRb (n : RegNo) (m : RegNo) (s : State) : Result :=
  conclude s (moveZero (.gpr n) (.loc (.gpr m)) s)

/-- `MOVBZ reg, mem` (R333). -/
def execMovbzRegMem (r : Byte) (a : Word) (s : State) : Result :=
  conclude s (moveZero (.reg r) (.loc (.mem a)) s)

/-- `MOV [Rwm+#data16], Rwn` (R330). -/
def execMovDispRw (m : RegNo) (d : Word) (n : RegNo) (s : State) : Result :=
  conclude s (moveSame .word (.ind m (.disp d)) (.loc (.gpr n)) s)

/-- `MOVBZ mem, reg` (R333). -/
def execMovbzMemReg (a : Word) (r : Byte) (s : State) : Result :=
  conclude s (moveZero (.mem a) (.loc (.reg r)) s)

/-- `MOV [Rwn], [Rwm]` (R330). -/
def execMovIndInd (n : RegNo) (m : RegNo) (s : State) : Result :=
  conclude s (moveSame .word (.ind n .plain) (.loc (.ind m .plain)) s)

/-- `MOVB [Rwn], [Rwm]` (R331). -/
def execMovbIndInd (n : RegNo) (m : RegNo) (s : State) : Result :=
  conclude s (moveSame .byte (.ind n .plain) (.loc (.ind m .plain)) s)

/-- `MOVBS Rwn, Rbm` (R332). -/
def execMovbsRwRb (n : RegNo) (m : RegNo) (s : State) : Result :=
  conclude s (moveSigned (.gpr n) (.loc (.gpr m)) s)

/-- `MOVBS reg, mem` (R332). -/
def execMovbsRegMem (r : Byte) (a : Word) (s : State) : Result :=
  conclude s (moveSigned (.reg r) (.loc (.mem a)) s)

/-- `MOV Rwn, [Rwm+#data16]` (R330). -/
def execMovRwDisp (n : RegNo) (m : RegNo) (d : Word) (s : State) : Result :=
  conclude s (moveSame .word (.gpr n) (.loc (.ind m (.disp d))) s)

/-- `MOVBS mem, reg` (R332). -/
def execMovbsMemReg (a : Word) (r : Byte) (s : State) : Result :=
  conclude s (moveSigned (.mem a) (.loc (.reg r)) s)

/-- `MOV [Rwn+], [Rwm]` (R330). -/
def execMovIndIncInd (n : RegNo) (m : RegNo) (s : State) : Result :=
  conclude s (moveSame .word (.ind n .postInc) (.loc (.ind m .plain)) s)

/-- `MOVB [Rwn+], [Rwm]` (R331). -/
def execMovbIndIncInd (n : RegNo) (m : RegNo) (s : State) : Result :=
  conclude s (moveSame .byte (.ind n .postInc) (.loc (.ind m .plain)) s)

/-- `MOV Rwn, #data4` (R330). -/
def execMovRwData4 (n : RegNo) (d : BitVec 4) (s : State) : Result :=
  conclude s (moveSame .word (.gpr n) (.imm (d.setWidth 16)) s)

/-- `MOVB Rbn, #data4` (R331). -/
def execMovbRbData4 (n : RegNo) (d : BitVec 4) (s : State) : Result :=
  conclude s (moveSame .byte (.gpr n) (.imm (d.setWidth 16)) s)

/-- `MOVB [Rwm+#data16], Rbn` (R331). -/
def execMovbDispRb (m : RegNo) (d : Word) (n : RegNo) (s : State) : Result :=
  conclude s (moveSame .byte (.ind m (.disp d)) (.loc (.gpr n)) s)

/-- `MOV reg, #data16` (R330). -/
def execMovRegData16 (r : Byte) (d : Word) (s : State) : Result :=
  conclude s (moveSame .word (.reg r) (.imm d) s)

/-- `MOVB reg, #data8` (R331). -/
def execMovbRegData8 (r : Byte) (d : Byte) (s : State) : Result :=
  conclude s (moveSame .byte (.reg r) (.imm (d.setWidth 16)) s)

/-- `MOV [Rwn], [Rwm+]` (R330). -/
def execMovIndIndInc (n : RegNo) (m : RegNo) (s : State) : Result :=
  conclude s (moveSame .word (.ind n .plain) (.loc (.ind m .postInc)) s)

/-- `MOVB [Rwn], [Rwm+]` (R331). -/
def execMovbIndIndInc (n : RegNo) (m : RegNo) (s : State) : Result :=
  conclude s (moveSame .byte (.ind n .plain) (.loc (.ind m .postInc)) s)

/-- `MOV Rwn, Rwm` (R330). -/
def execMovRwRw (n : RegNo) (m : RegNo) (s : State) : Result :=
  conclude s (moveSame .word (.gpr n) (.loc (.gpr m)) s)

/-- `MOVB Rbn, Rbm` (R331). -/
def execMovbRbRb (n : RegNo) (m : RegNo) (s : State) : Result :=
  conclude s (moveSame .byte (.gpr n) (.loc (.gpr m)) s)

/-- `MOV reg, mem` (R330). -/
def execMovRegMem (r : Byte) (a : Word) (s : State) : Result :=
  conclude s (moveSame .word (.reg r) (.loc (.mem a)) s)

/-- `MOVB reg, mem` (R331). -/
def execMovbRegMem (r : Byte) (a : Word) (s : State) : Result :=
  conclude s (moveSame .byte (.reg r) (.loc (.mem a)) s)

/-- `MOVB Rbn, [Rwm+#data16]` (R331). -/
def execMovbRbDisp (n : RegNo) (m : RegNo) (d : Word) (s : State) : Result :=
  conclude s (moveSame .byte (.gpr n) (.loc (.ind m (.disp d))) s)

/-- `MOV mem, reg` (R330). -/
def execMovMemReg (a : Word) (r : Byte) (s : State) : Result :=
  conclude s (moveSame .word (.mem a) (.loc (.reg r)) s)

/-- `MOVB mem, reg` (R331). -/
def execMovbMemReg (a : Word) (r : Byte) (s : State) : Result :=
  conclude s (moveSame .byte (.mem a) (.loc (.reg r)) s)

end Sys2Proof.Machine
end

