-- ==== Sys2Proof/Machine/Return.lean ====
section
/-! DEFINITION. Returns (47_return R420 to R424). -/

namespace Sys2Proof.Machine

/-- `RET` (R420). -/
def execRet (s : State) : Result :=
  conclude s do
    let (target, s1) ← pop s
    return jumpNear target s1

/-- `RETS` (R421). -/
def execRets (s : State) : Result :=
  conclude s do
    let (target, s1) ← pop s
    let (segment, s2) ← pop s1
    if segmentationDisabled s && lowByte segment != 0 then throw (.refused .segmentation)
    else return jumpFar (lowByte segment) target s2

/-- `RETP reg` (R422). The model's choice is that the refusal of stores into fetched code counts, for the store of the
popped word, from the following instruction and the last branch target before the return (log 15). -/
def execRetp (r : Byte) (s : State) : Result :=
  conclude s do
    let (dst, s0) ← locate s.cp .word (.reg r) s
    let (target, s1) ← pop s0
    let s2 ← popTo dst s1
    return jumpNear target s2

/-- `RETI` (R423). -/
def execReti (s : State) : Result :=
  conclude s (returnFromEntry s)

end Sys2Proof.Machine
end

