-- ==== Sys2Proof/Machine/Shift.lean ====
section
/-! DEFINITION. Shift and rotate (44_shift_rotate R310 to R315). -/

namespace Sys2Proof.Machine

/-- `ROL Rwn, Rwm` (R312). -/
def execRolRwRw (n : RegNo) (m : RegNo) (s : State) : Result :=
  conclude s (shift .rol n (.loc (.gpr m)) s)

/-- `ROL Rwn, #data4` (R312). -/
def execRolRwData4 (n : RegNo) (d : BitVec 4) (s : State) : Result :=
  conclude s (shift .rol n (.imm (d.setWidth 16)) s)

/-- `ROR Rwn, Rwm` (R313). -/
def execRorRwRw (n : RegNo) (m : RegNo) (s : State) : Result :=
  conclude s (shift .ror n (.loc (.gpr m)) s)

/-- `ROR Rwn, #data4` (R313). -/
def execRorRwData4 (n : RegNo) (d : BitVec 4) (s : State) : Result :=
  conclude s (shift .ror n (.imm (d.setWidth 16)) s)

/-- `SHL Rwn, Rwm` (R310). -/
def execShlRwRw (n : RegNo) (m : RegNo) (s : State) : Result :=
  conclude s (shift .shl n (.loc (.gpr m)) s)

/-- `SHL Rwn, #data4` (R310). -/
def execShlRwData4 (n : RegNo) (d : BitVec 4) (s : State) : Result :=
  conclude s (shift .shl n (.imm (d.setWidth 16)) s)

/-- `SHR Rwn, Rwm` (R311). -/
def execShrRwRw (n : RegNo) (m : RegNo) (s : State) : Result :=
  conclude s (shift .shr n (.loc (.gpr m)) s)

/-- `SHR Rwn, #data4` (R311). -/
def execShrRwData4 (n : RegNo) (d : BitVec 4) (s : State) : Result :=
  conclude s (shift .shr n (.imm (d.setWidth 16)) s)

/-- `ASHR Rwn, Rwm` (R314). -/
def execAshrRwRw (n : RegNo) (m : RegNo) (s : State) : Result :=
  conclude s (shift .ashr n (.loc (.gpr m)) s)

/-- `ASHR Rwn, #data4` (R314). -/
def execAshrRwData4 (n : RegNo) (d : BitVec 4) (s : State) : Result :=
  conclude s (shift .ashr n (.imm (d.setWidth 16)) s)

end Sys2Proof.Machine
end

