-- ==== Sys2Proof/Machine/Stack.lean ====
section
/-! DEFINITION. System stack, SCXT and NOP (49_stack_misc R460 to R463). Destination addresses are those before the
instruction (R460). -/

namespace Sys2Proof.Machine

/-- `SCXT reg, #data16` (R462). -/
def execScxtRegData16 (r : Byte) (d : Word) (s : State) : Result :=
  conclude s do
    let (at1, s0) ← locate s.cp .word (.reg r) s
    let (old, s1) ← readMem .word at1 s0
    let (v, s2) ← readSource s.cp .word (.imm d) s1
    let s3 ← push old s2
    writeMem .word at1 v s3

/-- `NOP` (R463). -/
def execNop (s : State) : Result :=
  .next s

/-- `SCXT reg, mem` (R462). -/
def execScxtRegMem (r : Byte) (a : Word) (s : State) : Result :=
  conclude s do
    let (at1, s0) ← locate s.cp .word (.reg r) s
    let (old, s1) ← readMem .word at1 s0
    let (v, s2) ← readSource s.cp .word (.loc (.mem a)) s1
    let s3 ← push old s2
    writeMem .word at1 v s3

/-- `PUSH reg` (R461). -/
def execPush (r : Byte) (s : State) : Result :=
  conclude s do
    let (at1, s0) ← locate s.cp .word (.reg r) s
    let (v, s1) ← readMem .word at1 s0
    let s2 ← push v s1
    return pushedFlags v s2

/-- `POP reg` (R460). -/
def execPop (r : Byte) (s : State) : Result :=
  conclude s do
    let (dst, s0) ← locate s.cp .word (.reg r) s
    popTo dst s0

end Sys2Proof.Machine
end

