-- ==== Sys2Proof/Machine/System.lean ====
section
/-! DEFINITION. System control (48_system_control R430 to R453): the protected instructions and the ATOMIC/EXTend
instructions. DISWDT acts only while it still may (R434); PWRDN only while the NMI pin is low (R432). -/

namespace Sys2Proof.Machine

/-- `IDLE` (R431). -/
def execIdle (s : State) : Result :=
  .next { s with run := .idle }

/-- `PWRDN` (R432). -/
def execPwrdn (s : State) : Result :=
  .next (if s.nmiPinLow then { s with run := .powerdown } else s)

/-- `DISWDT` (R434). -/
def execDiswdt (s : State) : Result :=
  .next { s with wdt := { s.wdt with enabled := s.wdt.enabled && !s.wdt.canDisable } }

/-- `SRVWDT` (R433). -/
def execSrvwdt (s : State) : Result :=
  .next { s with wdt := { s.wdt with counter := wordOf 0 wdtReload, canDisable := false } }

/-- `EINIT` (R435). -/
def execEinit (s : State) : Result :=
  .next { s with initDone := true, wdt := { s.wdt with canDisable := false } }

/-- `SRST` (R430). -/
def execSrst (s : State) : Result :=
  .next (resetWith .software s)

/-- `ATOMIC #irang2` (R436). -/
def execAtomic (count : Nat) (s : State) : Result :=
  .next (beginSequence count .none false s)

/-- `EXTR #irang2` (R437). -/
def execExtr (count : Nat) (s : State) : Result :=
  .next (beginSequence count .none true s)

/-- `EXTS #seg8, #irang2` (R440). -/
def execExtsSeg (seg : Byte) (count : Nat) (s : State) : Result :=
  .next (beginSequence count (.seg seg) false s)

/-- `EXTP #pag10, #irang2` (R438). -/
def execExtpPag (page : BitVec 10) (count : Nat) (s : State) : Result :=
  .next (beginSequence count (.page page) false s)

/-- `EXTSR #seg8, #irang2` (R441). -/
def execExtsrSeg (seg : Byte) (count : Nat) (s : State) : Result :=
  .next (beginSequence count (.seg seg) true s)

/-- `EXTPR #pag10, #irang2` (R439). -/
def execExtprPag (page : BitVec 10) (count : Nat) (s : State) : Result :=
  .next (beginSequence count (.page page) true s)

/-- `EXTS Rwm, #irang2` (R440). -/
def execExtsRw (m : RegNo) (count : Nat) (s : State) : Result :=
  conclude s do
    let (v, s1) ← readGpr .word m s
    return beginSequence count (.seg (v.extractLsb' 0 8)) false s1

/-- `EXTP Rwm, #irang2` (R438). -/
def execExtpRw (m : RegNo) (count : Nat) (s : State) : Result :=
  conclude s do
    let (v, s1) ← readGpr .word m s
    return beginSequence count (.page (v.extractLsb' 0 10)) false s1

/-- `EXTSR Rwm, #irang2` (R441). -/
def execExtsrRw (m : RegNo) (count : Nat) (s : State) : Result :=
  conclude s do
    let (v, s1) ← readGpr .word m s
    return beginSequence count (.seg (v.extractLsb' 0 8)) true s1

/-- `EXTPR Rwm, #irang2` (R439). -/
def execExtprRw (m : RegNo) (count : Nat) (s : State) : Result :=
  conclude s do
    let (v, s1) ← readGpr .word m s
    return beginSequence count (.page (v.extractLsb' 0 10)) true s1

end Sys2Proof.Machine
end

