-- ==== Sys2Proof/Machine/Dispatch.lean ====
section
/-! DEFINITION. The one place where an instruction meets its meaning. -/

namespace Sys2Proof.Machine

def exec (i : Instr) (s : State) : Host.Outcome State Fault Refusal :=
  match i with
  | .addRwRw n m => Sys2Proof.Machine.execAddRwRw n m s
  | .addbRbRb n m => Sys2Proof.Machine.execAddbRbRb n m s
  | .addRegMem r a => Sys2Proof.Machine.execAddRegMem r a s
  | .addbRegMem r a => Sys2Proof.Machine.execAddbRegMem r a s
  | .addMemReg a r => Sys2Proof.Machine.execAddMemReg a r s
  | .addbMemReg a r => Sys2Proof.Machine.execAddbMemReg a r s
  | .addRegData16 r d => Sys2Proof.Machine.execAddRegData16 r d s
  | .addbRegData8 r d => Sys2Proof.Machine.execAddbRegData8 r d s
  | .addRwData3 n d => Sys2Proof.Machine.execAddRwData3 n d s
  | .addRwInd n p => Sys2Proof.Machine.execAddRwInd n p s
  | .addRwIndInc n p => Sys2Proof.Machine.execAddRwIndInc n p s
  | .addbRbData3 n d => Sys2Proof.Machine.execAddbRbData3 n d s
  | .addbRbInd n p => Sys2Proof.Machine.execAddbRbInd n p s
  | .addbRbIndInc n p => Sys2Proof.Machine.execAddbRbIndInc n p s
  | .bfldl qq mask d => Sys2Proof.Machine.execBfldl qq mask d s
  | .mul n m => Sys2Proof.Machine.execMul n m s
  | .rolRwRw n m => Sys2Proof.Machine.execRolRwRw n m s
  | .jmpr cc rel => Sys2Proof.Machine.execJmpr cc rel s
  | .bclr qq q => Sys2Proof.Machine.execBclr qq q s
  | .bset qq q => Sys2Proof.Machine.execBset qq q s
  | .addcRwRw n m => Sys2Proof.Machine.execAddcRwRw n m s
  | .addcbRbRb n m => Sys2Proof.Machine.execAddcbRbRb n m s
  | .addcRegMem r a => Sys2Proof.Machine.execAddcRegMem r a s
  | .addcbRegMem r a => Sys2Proof.Machine.execAddcbRegMem r a s
  | .addcMemReg a r => Sys2Proof.Machine.execAddcMemReg a r s
  | .addcbMemReg a r => Sys2Proof.Machine.execAddcbMemReg a r s
  | .addcRegData16 r d => Sys2Proof.Machine.execAddcRegData16 r d s
  | .addcbRegData8 r d => Sys2Proof.Machine.execAddcbRegData8 r d s
  | .addcRwData3 n d => Sys2Proof.Machine.execAddcRwData3 n d s
  | .addcRwInd n p => Sys2Proof.Machine.execAddcRwInd n p s
  | .addcRwIndInc n p => Sys2Proof.Machine.execAddcRwIndInc n p s
  | .addcbRbData3 n d => Sys2Proof.Machine.execAddcbRbData3 n d s
  | .addcbRbInd n p => Sys2Proof.Machine.execAddcbRbInd n p s
  | .addcbRbIndInc n p => Sys2Proof.Machine.execAddcbRbIndInc n p s
  | .bfldh qq mask d => Sys2Proof.Machine.execBfldh qq mask d s
  | .mulu n m => Sys2Proof.Machine.execMulu n m s
  | .rolRwData4 n d => Sys2Proof.Machine.execRolRwData4 n d s
  | .subRwRw n m => Sys2Proof.Machine.execSubRwRw n m s
  | .subbRbRb n m => Sys2Proof.Machine.execSubbRbRb n m s
  | .subRegMem r a => Sys2Proof.Machine.execSubRegMem r a s
  | .subbRegMem r a => Sys2Proof.Machine.execSubbRegMem r a s
  | .subMemReg a r => Sys2Proof.Machine.execSubMemReg a r s
  | .subbMemReg a r => Sys2Proof.Machine.execSubbMemReg a r s
  | .subRegData16 r d => Sys2Proof.Machine.execSubRegData16 r d s
  | .subbRegData8 r d => Sys2Proof.Machine.execSubbRegData8 r d s
  | .subRwData3 n d => Sys2Proof.Machine.execSubRwData3 n d s
  | .subRwInd n p => Sys2Proof.Machine.execSubRwInd n p s
  | .subRwIndInc n p => Sys2Proof.Machine.execSubRwIndInc n p s
  | .subbRbData3 n d => Sys2Proof.Machine.execSubbRbData3 n d s
  | .subbRbInd n p => Sys2Proof.Machine.execSubbRbInd n p s
  | .subbRbIndInc n p => Sys2Proof.Machine.execSubbRbIndInc n p s
  | .bcmp zz z qq q => Sys2Proof.Machine.execBcmp zz z qq q s
  | .prior n m => Sys2Proof.Machine.execPrior n m s
  | .rorRwRw n m => Sys2Proof.Machine.execRorRwRw n m s
  | .subcRwRw n m => Sys2Proof.Machine.execSubcRwRw n m s
  | .subcbRbRb n m => Sys2Proof.Machine.execSubcbRbRb n m s
  | .subcRegMem r a => Sys2Proof.Machine.execSubcRegMem r a s
  | .subcbRegMem r a => Sys2Proof.Machine.execSubcbRegMem r a s
  | .subcMemReg a r => Sys2Proof.Machine.execSubcMemReg a r s
  | .subcbMemReg a r => Sys2Proof.Machine.execSubcbMemReg a r s
  | .subcRegData16 r d => Sys2Proof.Machine.execSubcRegData16 r d s
  | .subcbRegData8 r d => Sys2Proof.Machine.execSubcbRegData8 r d s
  | .subcRwData3 n d => Sys2Proof.Machine.execSubcRwData3 n d s
  | .subcRwInd n p => Sys2Proof.Machine.execSubcRwInd n p s
  | .subcRwIndInc n p => Sys2Proof.Machine.execSubcRwIndInc n p s
  | .subcbRbData3 n d => Sys2Proof.Machine.execSubcbRbData3 n d s
  | .subcbRbInd n p => Sys2Proof.Machine.execSubcbRbInd n p s
  | .subcbRbIndInc n p => Sys2Proof.Machine.execSubcbRbIndInc n p s
  | .bmovn zz z qq q => Sys2Proof.Machine.execBmovn zz z qq q s
  | .rorRwData4 n d => Sys2Proof.Machine.execRorRwData4 n d s
  | .cmpRwRw n m => Sys2Proof.Machine.execCmpRwRw n m s
  | .cmpbRbRb n m => Sys2Proof.Machine.execCmpbRbRb n m s
  | .cmpRegMem r a => Sys2Proof.Machine.execCmpRegMem r a s
  | .cmpbRegMem r a => Sys2Proof.Machine.execCmpbRegMem r a s
  | .cmpRegData16 r d => Sys2Proof.Machine.execCmpRegData16 r d s
  | .cmpbRegData8 r d => Sys2Proof.Machine.execCmpbRegData8 r d s
  | .cmpRwData3 n d => Sys2Proof.Machine.execCmpRwData3 n d s
  | .cmpRwInd n p => Sys2Proof.Machine.execCmpRwInd n p s
  | .cmpRwIndInc n p => Sys2Proof.Machine.execCmpRwIndInc n p s
  | .cmpbRbData3 n d => Sys2Proof.Machine.execCmpbRbData3 n d s
  | .cmpbRbInd n p => Sys2Proof.Machine.execCmpbRbInd n p s
  | .cmpbRbIndInc n p => Sys2Proof.Machine.execCmpbRbIndInc n p s
  | .bmov zz z qq q => Sys2Proof.Machine.execBmov zz z qq q s
  | .div n => Sys2Proof.Machine.execDiv n s
  | .shlRwRw n m => Sys2Proof.Machine.execShlRwRw n m s
  | .xorRwRw n m => Sys2Proof.Machine.execXorRwRw n m s
  | .xorbRbRb n m => Sys2Proof.Machine.execXorbRbRb n m s
  | .xorRegMem r a => Sys2Proof.Machine.execXorRegMem r a s
  | .xorbRegMem r a => Sys2Proof.Machine.execXorbRegMem r a s
  | .xorMemReg a r => Sys2Proof.Machine.execXorMemReg a r s
  | .xorbMemReg a r => Sys2Proof.Machine.execXorbMemReg a r s
  | .xorRegData16 r d => Sys2Proof.Machine.execXorRegData16 r d s
  | .xorbRegData8 r d => Sys2Proof.Machine.execXorbRegData8 r d s
  | .xorRwData3 n d => Sys2Proof.Machine.execXorRwData3 n d s
  | .xorRwInd n p => Sys2Proof.Machine.execXorRwInd n p s
  | .xorRwIndInc n p => Sys2Proof.Machine.execXorRwIndInc n p s
  | .xorbRbData3 n d => Sys2Proof.Machine.execXorbRbData3 n d s
  | .xorbRbInd n p => Sys2Proof.Machine.execXorbRbInd n p s
  | .xorbRbIndInc n p => Sys2Proof.Machine.execXorbRbIndInc n p s
  | .bor zz z qq q => Sys2Proof.Machine.execBor zz z qq q s
  | .divu n => Sys2Proof.Machine.execDivu n s
  | .shlRwData4 n d => Sys2Proof.Machine.execShlRwData4 n d s
  | .andRwRw n m => Sys2Proof.Machine.execAndRwRw n m s
  | .andbRbRb n m => Sys2Proof.Machine.execAndbRbRb n m s
  | .andRegMem r a => Sys2Proof.Machine.execAndRegMem r a s
  | .andbRegMem r a => Sys2Proof.Machine.execAndbRegMem r a s
  | .andMemReg a r => Sys2Proof.Machine.execAndMemReg a r s
  | .andbMemReg a r => Sys2Proof.Machine.execAndbMemReg a r s
  | .andRegData16 r d => Sys2Proof.Machine.execAndRegData16 r d s
  | .andbRegData8 r d => Sys2Proof.Machine.execAndbRegData8 r d s
  | .andRwData3 n d => Sys2Proof.Machine.execAndRwData3 n d s
  | .andRwInd n p => Sys2Proof.Machine.execAndRwInd n p s
  | .andRwIndInc n p => Sys2Proof.Machine.execAndRwIndInc n p s
  | .andbRbData3 n d => Sys2Proof.Machine.execAndbRbData3 n d s
  | .andbRbInd n p => Sys2Proof.Machine.execAndbRbInd n p s
  | .andbRbIndInc n p => Sys2Proof.Machine.execAndbRbIndInc n p s
  | .band zz z qq q => Sys2Proof.Machine.execBand zz z qq q s
  | .divl n => Sys2Proof.Machine.execDivl n s
  | .shrRwRw n m => Sys2Proof.Machine.execShrRwRw n m s
  | .orRwRw n m => Sys2Proof.Machine.execOrRwRw n m s
  | .orbRbRb n m => Sys2Proof.Machine.execOrbRbRb n m s
  | .orRegMem r a => Sys2Proof.Machine.execOrRegMem r a s
  | .orbRegMem r a => Sys2Proof.Machine.execOrbRegMem r a s
  | .orMemReg a r => Sys2Proof.Machine.execOrMemReg a r s
  | .orbMemReg a r => Sys2Proof.Machine.execOrbMemReg a r s
  | .orRegData16 r d => Sys2Proof.Machine.execOrRegData16 r d s
  | .orbRegData8 r d => Sys2Proof.Machine.execOrbRegData8 r d s
  | .orRwData3 n d => Sys2Proof.Machine.execOrRwData3 n d s
  | .orRwInd n p => Sys2Proof.Machine.execOrRwInd n p s
  | .orRwIndInc n p => Sys2Proof.Machine.execOrRwIndInc n p s
  | .orbRbData3 n d => Sys2Proof.Machine.execOrbRbData3 n d s
  | .orbRbInd n p => Sys2Proof.Machine.execOrbRbInd n p s
  | .orbRbIndInc n p => Sys2Proof.Machine.execOrbRbIndInc n p s
  | .bxor zz z qq q => Sys2Proof.Machine.execBxor zz z qq q s
  | .divlu n => Sys2Proof.Machine.execDivlu n s
  | .shrRwData4 n d => Sys2Proof.Machine.execShrRwData4 n d s
  | .cmpi1RwData4 n d => Sys2Proof.Machine.execCmpi1RwData4 n d s
  | .neg n => Sys2Proof.Machine.execNeg n s
  | .cmpi1RwMem n a => Sys2Proof.Machine.execCmpi1RwMem n a s
  | .movIndMem n a => Sys2Proof.Machine.execMovIndMem n a s
  | .cmpi1RwData16 n d => Sys2Proof.Machine.execCmpi1RwData16 n d s
  | .idle => Sys2Proof.Machine.execIdle s
  | .movIndDecRw m n => Sys2Proof.Machine.execMovIndDecRw m n s
  | .movbIndDecRb m n => Sys2Proof.Machine.execMovbIndDecRb m n s
  | .jb qq q rel => Sys2Proof.Machine.execJb qq q rel s
  | .cmpi2RwData4 n d => Sys2Proof.Machine.execCmpi2RwData4 n d s
  | .cpl n => Sys2Proof.Machine.execCpl n s
  | .cmpi2RwMem n a => Sys2Proof.Machine.execCmpi2RwMem n a s
  | .movMemInd a n => Sys2Proof.Machine.execMovMemInd a n s
  | .cmpi2RwData16 n d => Sys2Proof.Machine.execCmpi2RwData16 n d s
  | .pwrdn => Sys2Proof.Machine.execPwrdn s
  | .movRwIndInc n m => Sys2Proof.Machine.execMovRwIndInc n m s
  | .movbRbIndInc n m => Sys2Proof.Machine.execMovbRbIndInc n m s
  | .jnb qq q rel => Sys2Proof.Machine.execJnb qq q rel s
  | .trap t => Sys2Proof.Machine.execTrap t s
  | .jmpi cc n => Sys2Proof.Machine.execJmpi cc n s
  | .cmpd1RwData4 n d => Sys2Proof.Machine.execCmpd1RwData4 n d s
  | .negb n => Sys2Proof.Machine.execNegb n s
  | .cmpd1RwMem n a => Sys2Proof.Machine.execCmpd1RwMem n a s
  | .movbIndMem n a => Sys2Proof.Machine.execMovbIndMem n a s
  | .diswdt => Sys2Proof.Machine.execDiswdt s
  | .cmpd1RwData16 n d => Sys2Proof.Machine.execCmpd1RwData16 n d s
  | .srvwdt => Sys2Proof.Machine.execSrvwdt s
  | .movRwInd n m => Sys2Proof.Machine.execMovRwInd n m s
  | .movbRbInd n m => Sys2Proof.Machine.execMovbRbInd n m s
  | .jbc qq q rel => Sys2Proof.Machine.execJbc qq q rel s
  | .calli cc n => Sys2Proof.Machine.execCalli cc n s
  | .ashrRwRw n m => Sys2Proof.Machine.execAshrRwRw n m s
  | .cmpd2RwData4 n d => Sys2Proof.Machine.execCmpd2RwData4 n d s
  | .cplb n => Sys2Proof.Machine.execCplb n s
  | .cmpd2RwMem n a => Sys2Proof.Machine.execCmpd2RwMem n a s
  | .movbMemInd a n => Sys2Proof.Machine.execMovbMemInd a n s
  | .einit => Sys2Proof.Machine.execEinit s
  | .cmpd2RwData16 n d => Sys2Proof.Machine.execCmpd2RwData16 n d s
  | .srst => Sys2Proof.Machine.execSrst s
  | .movIndRw m n => Sys2Proof.Machine.execMovIndRw m n s
  | .movbIndRb m n => Sys2Proof.Machine.execMovbIndRb m n s
  | .jnbs qq q rel => Sys2Proof.Machine.execJnbs qq q rel s
  | .callr rel => Sys2Proof.Machine.execCallr rel s
  | .ashrRwData4 n d => Sys2Proof.Machine.execAshrRwData4 n d s
  | .movbzRwRb n m => Sys2Proof.Machine.execMovbzRwRb n m s
  | .movbzRegMem r a => Sys2Proof.Machine.execMovbzRegMem r a s
  | .movDispRw m d n => Sys2Proof.Machine.execMovDispRw m d n s
  | .movbzMemReg a r => Sys2Proof.Machine.execMovbzMemReg a r s
  | .scxtRegData16 r d => Sys2Proof.Machine.execScxtRegData16 r d s
  | .movIndInd n m => Sys2Proof.Machine.execMovIndInd n m s
  | .movbIndInd n m => Sys2Proof.Machine.execMovbIndInd n m s
  | .calla cc a => Sys2Proof.Machine.execCalla cc a s
  | .ret => Sys2Proof.Machine.execRet s
  | .nop => Sys2Proof.Machine.execNop s
  | .movbsRwRb n m => Sys2Proof.Machine.execMovbsRwRb n m s
  | .atomic count => Sys2Proof.Machine.execAtomic count s
  | .extr count => Sys2Proof.Machine.execExtr count s
  | .movbsRegMem r a => Sys2Proof.Machine.execMovbsRegMem r a s
  | .movRwDisp n m d => Sys2Proof.Machine.execMovRwDisp n m d s
  | .movbsMemReg a r => Sys2Proof.Machine.execMovbsMemReg a r s
  | .scxtRegMem r a => Sys2Proof.Machine.execScxtRegMem r a s
  | .extsSeg seg count => Sys2Proof.Machine.execExtsSeg seg count s
  | .extpPag page count => Sys2Proof.Machine.execExtpPag page count s
  | .extsrSeg seg count => Sys2Proof.Machine.execExtsrSeg seg count s
  | .extprPag page count => Sys2Proof.Machine.execExtprPag page count s
  | .movIndIncInd n m => Sys2Proof.Machine.execMovIndIncInd n m s
  | .movbIndIncInd n m => Sys2Proof.Machine.execMovbIndIncInd n m s
  | .calls seg a => Sys2Proof.Machine.execCalls seg a s
  | .rets => Sys2Proof.Machine.execRets s
  | .extsRw m count => Sys2Proof.Machine.execExtsRw m count s
  | .extpRw m count => Sys2Proof.Machine.execExtpRw m count s
  | .extsrRw m count => Sys2Proof.Machine.execExtsrRw m count s
  | .extprRw m count => Sys2Proof.Machine.execExtprRw m count s
  | .movRwData4 n d => Sys2Proof.Machine.execMovRwData4 n d s
  | .movbRbData4 n d => Sys2Proof.Machine.execMovbRbData4 n d s
  | .pcall r a => Sys2Proof.Machine.execPcall r a s
  | .movbDispRb m d n => Sys2Proof.Machine.execMovbDispRb m d n s
  | .movRegData16 r d => Sys2Proof.Machine.execMovRegData16 r d s
  | .movbRegData8 r d => Sys2Proof.Machine.execMovbRegData8 r d s
  | .movIndIndInc n m => Sys2Proof.Machine.execMovIndIndInc n m s
  | .movbIndIndInc n m => Sys2Proof.Machine.execMovbIndIndInc n m s
  | .jmpa cc a => Sys2Proof.Machine.execJmpa cc a s
  | .retp r => Sys2Proof.Machine.execRetp r s
  | .push r => Sys2Proof.Machine.execPush r s
  | .movRwRw n m => Sys2Proof.Machine.execMovRwRw n m s
  | .movbRbRb n m => Sys2Proof.Machine.execMovbRbRb n m s
  | .movRegMem r a => Sys2Proof.Machine.execMovRegMem r a s
  | .movbRegMem r a => Sys2Proof.Machine.execMovbRegMem r a s
  | .movbRbDisp n m d => Sys2Proof.Machine.execMovbRbDisp n m d s
  | .movMemReg a r => Sys2Proof.Machine.execMovMemReg a r s
  | .movbMemReg a r => Sys2Proof.Machine.execMovbMemReg a r s
  | .jmps seg a => Sys2Proof.Machine.execJmps seg a s
  | .reti => Sys2Proof.Machine.execReti s
  | .pop r => Sys2Proof.Machine.execPop r s

end Sys2Proof.Machine
end

