-- ==== Sys2Proof/Machine/Fetch.lean ====
section
/-! DEFINITION. Fetching and decoding an instruction (30_encoding R131, 00_scope R10), and the events between
instructions (60_exceptions R512, R520 to R533). -/

namespace Sys2Proof.Machine

/-! ## Fetch -/

/-- The instruction of decoded bytes and its length; an undefined opcode and a damaged protected instruction
trap (R162, R145), a fixed field with another value is refused (R144, D3). -/
def decoded (length : Word) : Decoded → Exec (Instr × Word)
  | .ok one => .ok (one, length)
  | .error .undefinedOpcode => .error (.trap .undopc)
  | .error .protectedMismatch => .error (.trap .prtflt)
  | .error .nonCanonical => .error (.refused .nonCanonical)
  | .error .truncated => .error (.refused .nonCanonical)

/-- `FetchDecode` (R131): the checks in its order; the second word is in the same segment (D9). Reading code
has no side effect (log 37). Each word is one fetch, and the model's choice is that the region of its even byte decides for
both of its bytes, where a region of the memory map has an odd bound (log 4). -/
def fetch (s : State) : Exec (Instr × Word) :=
  if s.ip.getLsbD 0 then .error (.trap .illina)
  else if segmentationDisabled s && s.csp != 0 then .error (.refused .segmentation)
  else
    let a0 := codeAddr (lowByte s.csp) s.ip
    let a2 := codeAddr (lowByte s.csp) (s.ip + 2)
    let b0 := peekByte s a0
    match readStop s .word a0 with
    | some e => .error e
    | none =>
      if undefinedOpcodes.contains b0 then .error (.trap .undopc)
      else if lengthOf b0 = 4 then
        match readStop s .word a2 with
        | some e => .error e
        | none => decoded 4 (decode b0 (peekByte s (a0 + 1)) (peekByte s a2) (peekByte s (a2 + 1)))
      else decoded 2 (decode b0 (peekByte s (a0 + 1)) 0 0)

/-- The instructions that load the sequence counter and are not counted themselves (48_system_control R452). -/
def beginsSequence : Instr → Bool
  | .atomic _ | .extr _ | .extpRw _ _ | .extpPag _ _ | .extprRw _ _ | .extprPag _ _ | .extsRw _ _
  | .extsSeg _ _ | .extsrRw _ _ | .extsrSeg _ _ => true
  | _ => false

/-- The sequence lock as it was in `s`: it persists while the CPU waits after an IDLE inside a sequence
(48_system_control R431, 60_exceptions R532; log 21). -/
def keepLock (s t : State) : State := { t with seq := { t.seq with lock := s.seq.lock } }

/-- Step (5) of 00_scope R10: the sequence counter after an instruction (R452). IDLE counts as one instruction and
leaves the lock (R431). -/
def afterInstr (i : Instr) (s : State) : State :=
  if beginsSequence i then s
  else if i = .idle then keepLock s (countDown s)
  else countDown s

/-! ## Events between instructions -/

/-- Whether an offered event is accepted at this boundary (R508, R521, R530, R533). -/
def acceptable (s : State) : Event → Bool
  | .hardwareReset => true
  | .wdtOverflow => s.wdt.enabled && s.run != .powerdown
  | .nmi => !s.seq.lock && s.run != .powerdown
  | .irq level _ | .pec level _ _ _ =>
    !s.seq.lock && s.run != .powerdown && s.psw.getLsbD 11 && s.psw.extractLsb' 12 4 < level

/-- The order between events at one boundary: reset, class A trap, then interrupts and PEC (R513, R524). -/
def Event.rank : Event → Nat
  | .hardwareReset => 0
  | .wdtOverflow => 1
  | .nmi => 2
  | .irq _ _ | .pec _ _ _ _ => 3

/-- The event taken at this boundary: the oldest acceptable one of the first rank that has one. -/
def nextEvent (s : State) : Option Event :=
  [0, 1, 2, 3].findSome? fun rank => s.pending.find? fun event => acceptable s event && event.rank == rank

/-- What the CPU does with an accepted event (R508, R522, R523, R530, R532, R600). An interrupt or NMI ends
idle mode; a PEC transfer is one memory write. The model's choice is that this write is checked as a store of the
program is: into code about to be fetched it is refused (`storeAhead`; 20_memory R120 speaks of stores of the running
program; log 41). -/
def takeEvent (event : Event) (s : State) : Host.Outcome State Fault Refusal :=
  match event with
  | .irq level number => entryOutcome (enter number s.ip (some level) { s with run := .running })
  | .pec _ w a v => entryOutcome (writeMem w a (v.setWidth w.bits) s)
  | .nmi => raise .nmi s.ip { s with run := .running }
  | .wdtOverflow => .next (resetWith .watchdog s)
  | .hardwareReset => .next (resetWith .hardware s)

end Sys2Proof.Machine
end

