-- ==== Sys2Proof/Machine/Step.lean ====
section
/-! DEFINITION. One step of the machine (60_exceptions R512): an accepted event, or one instruction, or waiting. -/

namespace Sys2Proof.Machine

/-- One instruction (00_scope R10): fetch and decode, IP to the next instruction, its rule, the sequence
counter. A trap at the fetch is taken with the current IP as return address (R511). -/
def runInstr (s : State) : Host.Outcome State Fault Refusal :=
  match fetch s with
  | .error e => conclude s (.error e)
  | .ok (i, length) =>
    match exec i { s with ip := s.ip + length } with
    | .next t => .next (afterInstr i t)
    | .fault f => .fault f
    | .refused r => .refused r

/-- One step (R512): an acceptable event is taken; else in idle and power down nothing happens; else one
instruction executes. -/
def step (s : State) : Host.Outcome State Fault Refusal :=
  match nextEvent s with
  | some event => takeEvent event { s with pending := s.pending.erase event }
  | none =>
    match s.run with
    | .idle | .powerdown => .next s
    | .running => runInstr s

/-- `s` with the instruction of spec/opcode_table.json's numbering placed where `step` fetches next, the CPU
running and no event offered (log 32). -/
def State.withFetchWord (s : State) (nbits w : Nat) : State :=
  let bits := BitVec.ofNat 32 (w % 2 ^ nbits)
  let a0 := codeAddr (lowByte s.csp) s.ip
  let a2 := codeAddr (lowByte s.csp) (s.ip + 2)
  let m0 := Memory.write s.mem a0.toNat (bits.extractLsb' 0 8)
  let m1 := Memory.write m0 (a0 + 1).toNat (bits.extractLsb' 8 8)
  let m2 := Memory.write m1 a2.toNat (bits.extractLsb' 16 8)
  { s with
    mem := Memory.write m2 (a2 + 1).toNat (bits.extractLsb' 24 8)
    run := .running
    pending := [] }

end Sys2Proof.Machine
end

