-- ==== Sys2Proof/WellFormed.lean ====
section
/-! DEFINITION. Which terms of `Instr` the encodings can express: a pointer `Rwi` of the arithmetic, logical
and compare forms is one of R0..R3 (30_encoding R136), and the length of an ATOMIC/EXTend sequence is 1 to
4 (R141). Every other operand fills its field. -/

namespace Sys2Proof

/-- The pointer field `ii` names R0, R1, R2 or R3 only (R136). -/
def pointerOk (p : RegNo) : Bool := p < 4

/-- The two-bit `irang2` field codes the lengths 1 to 4 as 0 to 3 (R141). -/
def rangeOk (count : Nat) : Bool := 1 ≤ count && count ≤ 4

/-- The operands that the encoding of the instruction can express. -/
def wellFormed : Instr → Bool
  | .addRwRw _ _ => true
  | .addbRbRb _ _ => true
  | .addRegMem _ _ => true
  | .addbRegMem _ _ => true
  | .addMemReg _ _ => true
  | .addbMemReg _ _ => true
  | .addRegData16 _ _ => true
  | .addbRegData8 _ _ => true
  | .addRwData3 _ _ => true
  | .addRwInd _ p => pointerOk p
  | .addRwIndInc _ p => pointerOk p
  | .addbRbData3 _ _ => true
  | .addbRbInd _ p => pointerOk p
  | .addbRbIndInc _ p => pointerOk p
  | .bfldl _ _ _ => true
  | .mul _ _ => true
  | .rolRwRw _ _ => true
  | .jmpr _ _ => true
  | .bclr _ _ => true
  | .bset _ _ => true
  | .addcRwRw _ _ => true
  | .addcbRbRb _ _ => true
  | .addcRegMem _ _ => true
  | .addcbRegMem _ _ => true
  | .addcMemReg _ _ => true
  | .addcbMemReg _ _ => true
  | .addcRegData16 _ _ => true
  | .addcbRegData8 _ _ => true
  | .addcRwData3 _ _ => true
  | .addcRwInd _ p => pointerOk p
  | .addcRwIndInc _ p => pointerOk p
  | .addcbRbData3 _ _ => true
  | .addcbRbInd _ p => pointerOk p
  | .addcbRbIndInc _ p => pointerOk p
  | .bfldh _ _ _ => true
  | .mulu _ _ => true
  | .rolRwData4 _ _ => true
  | .subRwRw _ _ => true
  | .subbRbRb _ _ => true
  | .subRegMem _ _ => true
  | .subbRegMem _ _ => true
  | .subMemReg _ _ => true
  | .subbMemReg _ _ => true
  | .subRegData16 _ _ => true
  | .subbRegData8 _ _ => true
  | .subRwData3 _ _ => true
  | .subRwInd _ p => pointerOk p
  | .subRwIndInc _ p => pointerOk p
  | .subbRbData3 _ _ => true
  | .subbRbInd _ p => pointerOk p
  | .subbRbIndInc _ p => pointerOk p
  | .bcmp _ _ _ _ => true
  | .prior _ _ => true
  | .rorRwRw _ _ => true
  | .subcRwRw _ _ => true
  | .subcbRbRb _ _ => true
  | .subcRegMem _ _ => true
  | .subcbRegMem _ _ => true
  | .subcMemReg _ _ => true
  | .subcbMemReg _ _ => true
  | .subcRegData16 _ _ => true
  | .subcbRegData8 _ _ => true
  | .subcRwData3 _ _ => true
  | .subcRwInd _ p => pointerOk p
  | .subcRwIndInc _ p => pointerOk p
  | .subcbRbData3 _ _ => true
  | .subcbRbInd _ p => pointerOk p
  | .subcbRbIndInc _ p => pointerOk p
  | .bmovn _ _ _ _ => true
  | .rorRwData4 _ _ => true
  | .cmpRwRw _ _ => true
  | .cmpbRbRb _ _ => true
  | .cmpRegMem _ _ => true
  | .cmpbRegMem _ _ => true
  | .cmpRegData16 _ _ => true
  | .cmpbRegData8 _ _ => true
  | .cmpRwData3 _ _ => true
  | .cmpRwInd _ p => pointerOk p
  | .cmpRwIndInc _ p => pointerOk p
  | .cmpbRbData3 _ _ => true
  | .cmpbRbInd _ p => pointerOk p
  | .cmpbRbIndInc _ p => pointerOk p
  | .bmov _ _ _ _ => true
  | .div _ => true
  | .shlRwRw _ _ => true
  | .xorRwRw _ _ => true
  | .xorbRbRb _ _ => true
  | .xorRegMem _ _ => true
  | .xorbRegMem _ _ => true
  | .xorMemReg _ _ => true
  | .xorbMemReg _ _ => true
  | .xorRegData16 _ _ => true
  | .xorbRegData8 _ _ => true
  | .xorRwData3 _ _ => true
  | .xorRwInd _ p => pointerOk p
  | .xorRwIndInc _ p => pointerOk p
  | .xorbRbData3 _ _ => true
  | .xorbRbInd _ p => pointerOk p
  | .xorbRbIndInc _ p => pointerOk p
  | .bor _ _ _ _ => true
  | .divu _ => true
  | .shlRwData4 _ _ => true
  | .andRwRw _ _ => true
  | .andbRbRb _ _ => true
  | .andRegMem _ _ => true
  | .andbRegMem _ _ => true
  | .andMemReg _ _ => true
  | .andbMemReg _ _ => true
  | .andRegData16 _ _ => true
  | .andbRegData8 _ _ => true
  | .andRwData3 _ _ => true
  | .andRwInd _ p => pointerOk p
  | .andRwIndInc _ p => pointerOk p
  | .andbRbData3 _ _ => true
  | .andbRbInd _ p => pointerOk p
  | .andbRbIndInc _ p => pointerOk p
  | .band _ _ _ _ => true
  | .divl _ => true
  | .shrRwRw _ _ => true
  | .orRwRw _ _ => true
  | .orbRbRb _ _ => true
  | .orRegMem _ _ => true
  | .orbRegMem _ _ => true
  | .orMemReg _ _ => true
  | .orbMemReg _ _ => true
  | .orRegData16 _ _ => true
  | .orbRegData8 _ _ => true
  | .orRwData3 _ _ => true
  | .orRwInd _ p => pointerOk p
  | .orRwIndInc _ p => pointerOk p
  | .orbRbData3 _ _ => true
  | .orbRbInd _ p => pointerOk p
  | .orbRbIndInc _ p => pointerOk p
  | .bxor _ _ _ _ => true
  | .divlu _ => true
  | .shrRwData4 _ _ => true
  | .cmpi1RwData4 _ _ => true
  | .neg _ => true
  | .cmpi1RwMem _ _ => true
  | .movIndMem _ _ => true
  | .cmpi1RwData16 _ _ => true
  | .idle => true
  | .movIndDecRw _ _ => true
  | .movbIndDecRb _ _ => true
  | .jb _ _ _ => true
  | .cmpi2RwData4 _ _ => true
  | .cpl _ => true
  | .cmpi2RwMem _ _ => true
  | .movMemInd _ _ => true
  | .cmpi2RwData16 _ _ => true
  | .pwrdn => true
  | .movRwIndInc _ _ => true
  | .movbRbIndInc _ _ => true
  | .jnb _ _ _ => true
  | .trap _ => true
  | .jmpi _ _ => true
  | .cmpd1RwData4 _ _ => true
  | .negb _ => true
  | .cmpd1RwMem _ _ => true
  | .movbIndMem _ _ => true
  | .diswdt => true
  | .cmpd1RwData16 _ _ => true
  | .srvwdt => true
  | .movRwInd _ _ => true
  | .movbRbInd _ _ => true
  | .jbc _ _ _ => true
  | .calli _ _ => true
  | .ashrRwRw _ _ => true
  | .cmpd2RwData4 _ _ => true
  | .cplb _ => true
  | .cmpd2RwMem _ _ => true
  | .movbMemInd _ _ => true
  | .einit => true
  | .cmpd2RwData16 _ _ => true
  | .srst => true
  | .movIndRw _ _ => true
  | .movbIndRb _ _ => true
  | .jnbs _ _ _ => true
  | .callr _ => true
  | .ashrRwData4 _ _ => true
  | .movbzRwRb _ _ => true
  | .movbzRegMem _ _ => true
  | .movDispRw _ _ _ => true
  | .movbzMemReg _ _ => true
  | .scxtRegData16 _ _ => true
  | .movIndInd _ _ => true
  | .movbIndInd _ _ => true
  | .calla _ _ => true
  | .ret => true
  | .nop => true
  | .movbsRwRb _ _ => true
  | .atomic count => rangeOk count
  | .extr count => rangeOk count
  | .movbsRegMem _ _ => true
  | .movRwDisp _ _ _ => true
  | .movbsMemReg _ _ => true
  | .scxtRegMem _ _ => true
  | .extsSeg _ count => rangeOk count
  | .extpPag _ count => rangeOk count
  | .extsrSeg _ count => rangeOk count
  | .extprPag _ count => rangeOk count
  | .movIndIncInd _ _ => true
  | .movbIndIncInd _ _ => true
  | .calls _ _ => true
  | .rets => true
  | .extsRw _ count => rangeOk count
  | .extpRw _ count => rangeOk count
  | .extsrRw _ count => rangeOk count
  | .extprRw _ count => rangeOk count
  | .movRwData4 _ _ => true
  | .movbRbData4 _ _ => true
  | .pcall _ _ => true
  | .movbDispRb _ _ _ => true
  | .movRegData16 _ _ => true
  | .movbRegData8 _ _ => true
  | .movIndIndInc _ _ => true
  | .movbIndIndInc _ _ => true
  | .jmpa _ _ => true
  | .retp _ => true
  | .push _ => true
  | .movRwRw _ _ => true
  | .movbRbRb _ _ => true
  | .movRegMem _ _ => true
  | .movbRegMem _ _ => true
  | .movbRbDisp _ _ _ => true
  | .movMemReg _ _ => true
  | .movbMemReg _ _ => true
  | .jmps _ _ => true
  | .reti => true
  | .pop _ => true

end Sys2Proof
end

