-- ==== Sys2Proof/Safety.lean ====
section
/-! DEFINITION. What counts as a safe run, in the terms statements use: when an access or an instruction can
complete, what an instruction may change, the forms of the instruction families, and the machine's invariant. -/

namespace Sys2Proof.Machine

/-! ## When an access takes place -/

/-- A data read takes place: it is aligned and the address is readable (20_memory R72, R76). -/
def canRead (s : State) (w : Width) (a : Addr) : Bool := (readStop s w a).isNone

/-- A data write takes place: it is aligned and the address is writable (20_memory R73, R76, R120). -/
def canWrite (s : State) (w : Width) (a : Addr) : Bool := (writeStop s w a).isNone

/-- An aligned word of ordinary memory: no CPU register lies there and it can be written. -/
def plainWord (s : State) (a : Addr) : Bool := (cpuRegAt a).isNone && canWrite s .word a

/-- The pointer register of an operand, if it has one, is a word of ordinary memory. -/
def pointerPlain (s : State) : Loc → Bool
  | .ind p _ => plainWord s (gprAddr s.cp .word p)
  | .gpr _ | .reg _ | .mem _ => true

/-- The pointer register of a source, if it has one, is a word of ordinary memory. -/
def sourcePointerPlain (s : State) : Source → Bool
  | .loc l => pointerPlain s l
  | .imm _ => true

/-! ## Operands as total functions, for pointers in ordinary memory (20_memory R81 to R101) -/

/-- The word in pointer register `p`. -/
def pointerWord (bank : Word) (s : State) (p : RegNo) : Word := peekWord s (gprAddr bank .word p)

/-- The physical address of an operand, once a pre-decrement has taken place. -/
def operandAddr (bank : Word) (s : State) (w : Width) : Loc → Addr
  | .gpr n => gprAddr bank w n
  | .reg r => regAddr bank s w r
  | .mem a => dataAddr s a
  | .ind p (.disp d) => dataAddr s (pointerWord bank s p + d)
  | .ind p .plain | .ind p .postInc | .ind p .preDec => dataAddr s (pointerWord bank s p)

/-- The state after the pre-decrement of an operand, if it has one. -/
def prepared (bank : Word) (w : Width) (l : Loc) (s : State) : State :=
  match l with
  | .ind p .preDec => pokeWord (gprAddr bank .word p) (pointerWord bank s p - w.delta) s
  | _ => s

/-- The state after the post-increment of an operand, if it has one. -/
def settled (bank : Word) (w : Width) (l : Loc) (s : State) : State :=
  match l with
  | .ind p .postInc => pokeWord (gprAddr bank .word p) (pointerWord bank s p + w.delta) s
  | _ => s

/-- The value of a source operand that has no pre-decrement (none of the table has one). -/
def sourceValue (bank : Word) (s : State) (w : Width) : Source → BitVec w.bits
  | .imm v => v.setWidth w.bits
  | .loc l => peek s w (operandAddr bank s w l)

/-- The state after a source operand is read. -/
def afterSource (bank : Word) (s : State) (w : Width) : Source → State
  | .imm _ => s
  | .loc l => settled bank w l (touch (operandAddr bank s w l) s)

/-- The source operand can be read. -/
def sourceReady (bank : Word) (s : State) (w : Width) : Source → Bool
  | .imm _ => true
  | .loc l => canRead s w (operandAddr bank s w l)

/-- Reading or writing an operand meets a word access at an odd address (20_memory R76): that of its pointer register, or,
with the pointer in ordinary memory, that of the operand itself. -/
def meetsOdd (bank : Word) (s : State) (w : Width) (l : Loc) : Bool :=
  let itself := w == .word && (operandAddr bank s w l).getLsbD 0
  match l with
  | .ind p _ => (gprAddr bank .word p).getLsbD 0 || (plainWord s (gprAddr bank .word p) && itself)
  | .gpr _ | .reg _ | .mem _ => itself

/-- Reading a source operand meets a word access at an odd address. -/
def sourceMeetsOdd (bank : Word) (s : State) (w : Width) : Source → Bool
  | .imm _ => false
  | .loc l => meetsOdd bank s w l

/-- The bytes of the pointer register that an operand auto-modifies. -/
def pointerBytes (bank : Word) : Loc → List Addr
  | .ind p .postInc | .ind p .preDec => accessBytes .word (gprAddr bank .word p)
  | _ => []

/-- The bytes of the pointer register that a source auto-modifies. -/
def sourcePointerBytes (bank : Word) : Source → List Addr
  | .loc l => pointerBytes bank l
  | .imm _ => []

/-! ## The system stack as total functions (20_memory R106 to R108) -/

/-- A push takes place: the new top of stack can be written. -/
def pushReady (s : State) : Bool :=
  canWrite (setReg .sp (s.sp - 2) s) .word (stackAddr (setReg .sp (s.sp - 2) s))

/-- The state after a push (R107). -/
def pushed (v : Word) (s : State) : State :=
  pokeWord (stackAddr (setReg .sp (s.sp - 2) s)) v (setReg .sp (s.sp - 2) s)

/-- The bytes that a push stores to. -/
def pushBytes (s : State) : List Addr := accessBytes .word (stackAddr (setReg .sp (s.sp - 2) s))

/-- A pop takes place: the top of stack can be read. -/
def popReady (s : State) : Bool := canRead s .word (stackAddr s)

/-- The word on top of the stack. -/
def topWord (s : State) : Word := peekWord s (stackAddr s)

/-- The state after a pop (R108). -/
def popped (s : State) : State := setReg .sp (s.sp + 2) (touch (stackAddr s) s)

/-- SP after `k` pushes. -/
def spAfter (s : State) : Nat → Word
  | 0 => s.sp
  | k + 1 => CpuReg.sp.stored (spAfter s k - 2)

/-- The address that the `k`th push from here stores to. -/
def slot (s : State) (k : Nat) : Addr := (spAfter s k).setWidth 24

/-- The next `k` pushes go to ordinary memory, and not into the code ahead of the present CSP:IP (log 15). -/
def stackPlain (s : State) (k : Nat) : Bool := (List.range k).all fun j => plainWord s (slot s (j + 1))

/-- The bytes that the next `k` pushes store to. -/
def slotBytes (s : State) (k : Nat) : List Addr := (List.range k).flatMap fun j => accessBytes .word (slot s (j + 1))

/-! ## What an instruction leaves unchanged -/

/-- From `s` to `t` every byte of memory outside `stored` and every CPU register that is neither in `regs` nor
at an address of `stored` keeps its value, and so does all state that has no address but IP, the note of the last
branch target and the counter of free values. -/
def keeps (regs : List CpuReg) (stored : List Addr) (s t : State) : Prop :=
  (∀ a, cpuRegAt a = none → a ∉ stored → peekByte t a = peekByte s a) ∧
  (∀ r, r ∉ regs → (∀ a ∈ stored, cpuRegAt a ≠ some r) → getReg t r = getReg s r) ∧
  t.seq = s.seq ∧ t.wdt = s.wdt ∧ t.initDone = s.initDone ∧ t.run = s.run ∧ t.resetCause = s.resetCause ∧
  t.memMap = s.memMap ∧ t.nmiPinLow = s.nmiPinLow ∧ t.pending = s.pending

/-- Unless PSW is stored to, only its condition flags may differ. -/
def onlyFlags (stored : List Addr) (s t : State) : Prop :=
  (∀ a ∈ stored, hitsPsw a = false) → t.psw &&& 0xFFE0 = s.psw &&& 0xFFE0

/-- Unless PSW is stored to, only its flags E, Z and N may differ. -/
def onlyEzn (stored : List Addr) (s t : State) : Prop :=
  (∀ a ∈ stored, hitsPsw a = false) → t.psw &&& 0xFFE6 = s.psw &&& 0xFFE6

/-- Unless MDC is stored to, only its bit MDRIU may differ. -/
def onlyMdriu (stored : List Addr) (s t : State) : Prop :=
  (∀ a ∈ stored, cpuRegAt a ≠ some .mdc) → t.mdc &&& ~~~mdriuMask = s.mdc &&& ~~~mdriuMask

/-- The frame of an instruction whose result goes to the bytes `stored`: flags and MDRIU apart, nothing else. -/
def dataFrame (stored : List Addr) (s t : State) : Prop :=
  keeps [.psw, .mdc] stored s t ∧ onlyFlags stored s t ∧ onlyMdriu stored s t

/-- The entry of a trap or interrupt routine has taken place from `s` to `u` (60_exceptions R510): IP is at the
vector; PSW, CSP (with segmentation enabled, and then CSP is 0) and the return address `ret` are on the stack; ILVL is
`level` and MULIP clear, the rest of PSW as before; nothing else has changed but what has no address. -/
def entered (number : BitVec 7) (ret : Word) (level : BitVec 4) (s u : State) : Prop :=
  u.ip = 4 * number.setWidth 16 ∧
  peekWord u (slot s 1) = s.psw ∧
  u.psw.extractLsb' 12 4 = level ∧ u.psw &&& 0x0FFF = s.psw &&& 0x0FDF ∧
  if segmentationDisabled s then
    u.csp = s.csp ∧ u.sp = spAfter s 2 ∧ peekWord u (slot s 2) = ret ∧
    keeps [.psw, .sp, .tfr] (slotBytes s 2) s { u with seq := s.seq, run := s.run, pending := s.pending }
  else
    u.csp = 0 ∧ u.sp = spAfter s 3 ∧ peekWord u (slot s 2) = s.csp ∧ peekWord u (slot s 3) = ret ∧
    keeps [.psw, .sp, .tfr, .csp] (slotBytes s 3) s { u with seq := s.seq, run := s.run, pending := s.pending }

/-- A reset with this cause has taken place from `s` to `t`: every register has its value after reset, and memory and the
environment are as before (10_state R46, 70_reset R600, R602; logs 3, 33 and 38 name the values the spec leaves open). -/
def resetTaken (cause : ResetCause) (s t : State) : Prop :=
  t.psw = 0 ∧ t.dpp0 = 0 ∧ t.dpp1 = 1 ∧ t.dpp2 = 2 ∧ t.dpp3 = 3 ∧ t.initDone = false ∧
  t.wdt.enabled = true ∧ t.wdt.canDisable = true ∧ t.wdt.counter = 0 ∧ t.seq = Sequence.idle ∧ t.run = .running ∧
  t.resetCause = cause ∧ t.ip = 0 ∧ t.csp = 0 ∧ t.cp = 0xFC00 ∧ t.sp = 0xFC00 ∧ t.tfr = 0 ∧
  t.mdl = 0 ∧ t.mdh = 0 ∧ t.mdc = 0 ∧ t.syscon = 0 ∧
  t.mem = s.mem ∧ t.memMap = s.memMap ∧ t.nmiPinLow = s.nmiPinLow

/-! ## CPU registers as data (10_state R45) -/

/-- The CPU registers that data writes reach, but PSW: address, word held, and the state after a word is written there.
CP and SP have bits 15 to 12 at 1 and bit 0 at 0, a DPP keeps ten bits, a write of MDL or MDH sets MDRIU (10_state R32 to
R38; logs 3, 11, 12). -/
def dataRegisters (s : State) : List (Addr × Word × (Word → State)) :=
  [(0x00FE10, s.cp, fun v => { s with cp := (v ||| 0xF000) &&& 0xFFFE }),
   (0x00FE12, s.sp, fun v => { s with sp := (v ||| 0xF000) &&& 0xFFFE }),
   (0x00FE00, s.dpp0, fun v => { s with dpp0 := v &&& 0x03FF }),
   (0x00FE02, s.dpp1, fun v => { s with dpp1 := v &&& 0x03FF }),
   (0x00FE04, s.dpp2, fun v => { s with dpp2 := v &&& 0x03FF }),
   (0x00FE06, s.dpp3, fun v => { s with dpp3 := v &&& 0x03FF }),
   (0x00FE0C, s.mdh, fun v => { s with mdh := v, mdc := s.mdc ||| 0x0010 }),
   (0x00FE0E, s.mdl, fun v => { s with mdl := v, mdc := s.mdc ||| 0x0010 }),
   (0x00FF0E, s.mdc, fun v => { s with mdc := v }),
   (0x00FF12, s.syscon, fun v => { s with syscon := v }),
   (0x00FFAC, s.tfr, fun v => { s with tfr := v })]

/-! ## The invariant -/

/-- The ATOMIC/EXTend sequence is locked exactly while it covers instructions, at most four of them, and the
standard condition holds outside a sequence (10_state R40). -/
def sequenceOk (q : Sequence) : Bool :=
  q.count ≤ 4 && (q.lock == decide (0 < q.count)) && (0 < q.count || q == Sequence.idle)

/-- The sequence while the CPU waits after an IDLE that was the last instruction of one: nothing is covered any more, and
the lock persists (48_system_control R431, 60_exceptions R532; log 21). -/
def lockedWait : Sequence := { count := 0, lock := true, override := .none, esfr := false }

/-- The sequence is as 10_state R40 says, or the CPU waits with its lock. -/
def sequenceInv (s : State) : Bool := sequenceOk s.seq || (s.run == .idle && s.seq == lockedWait)

/-- Every CPU register holds a value it can keep: its hard-wired bits read as the spec says (10_state R26, R31 to
R34). -/
def registersOk (s : State) : Bool := CpuReg.all.all fun r => r.stored (getReg s r) == getReg s r

/-- No cell of memory lies where a CPU register does. -/
def memoryApart (s : State) : Bool := s.mem.all fun cell => (cpuRegAt (BitVec.ofNat 24 cell.1)).isNone

/-- The invariant: canonical memory apart from the registers, registers within their stored bits, and a
well-formed sequence. -/
def StateInv (s : State) : Prop :=
  Memory.wf s.mem = true ∧ memoryApart s = true ∧ registersOk s = true ∧ sequenceInv s = true

/-! ## Loops of the instruction pages, bit by bit -/

/-- The loop state of a shift or rotate: op1, C and V. -/
structure ShiftLoop where
  op1 : Word
  c : Bool
  v : Bool
  deriving DecidableEq, Repr

/-- One pass of the loop on the pages of SHL, SHR, ROL, ROR and ASHR (44_shift_rotate R310 to R314). -/
def ShiftOp.pass (op : ShiftOp) (x : ShiftLoop) : ShiftLoop :=
  match op with
  | .shl => { op1 := x.op1 <<< 1, c := x.op1.getLsbD 15, v := false }
  | .shr => { op1 := x.op1 >>> 1, c := x.op1.getLsbD 0, v := x.c || x.v }
  | .rol => { op1 := (x.op1 <<< 1) ||| (BitVec.ofBool (x.op1.getLsbD 15)).setWidth 16, c := x.op1.getLsbD 15, v := false }
  | .ror =>
    { op1 := (x.op1 >>> 1) ||| ((BitVec.ofBool (x.op1.getLsbD 0)).setWidth 16 <<< 15), c := x.op1.getLsbD 0, v := x.v || x.c }
  | .ashr =>
    { op1 := (x.op1 >>> 1) ||| (x.op1 &&& 0x8000), c := x.op1.getLsbD 0, v := x.c || x.v }

/-- `count` passes. -/
def ShiftOp.loop (op : ShiftOp) : Nat → ShiftLoop → ShiftLoop
  | 0, x => x
  | count + 1, x => op.loop count (op.pass x)

/-- The value and the flags that the pages of ADD to XOR give, spelled out for operands `a` and `b` and the flags `f` before
the instruction (40_arithmetic R200 to R207, R222, 41_logical_prior R240 to R247). -/
def AluOp.spelled {bits : Nat} (op : AluOp) (a b : BitVec bits) (f : CondFlags) : BitVec bits × CondFlags :=
  let lowest := b == BitVec.intMin bits
  let carry := (BitVec.ofBool f.c).setWidth bits
  let sumSign := fun (r : BitVec bits) => a.msb == b.msb && r.msb != a.msb
  let differenceSign := fun (r : BitVec bits) => a.msb != b.msb && r.msb != a.msb
  match op with
  | .add =>
    let r := a + b
    (r, { e := lowest, z := r == 0, v := sumSign r, c := decide (2 ^ bits ≤ a.toNat + b.toNat), n := r.msb })
  | .addc =>
    let r := a + b + carry
    (r, { e := lowest, z := r == 0 && f.z, v := sumSign r, c := decide (2 ^ bits ≤ a.toNat + b.toNat + f.c.toNat),
          n := r.msb })
  | .sub =>
    let r := a - b
    (r, { e := lowest, z := r == 0, v := differenceSign r, c := decide (a.toNat < b.toNat), n := r.msb })
  | .subc =>
    let r := a - b - carry
    (r, { e := lowest, z := r == 0 && f.z, v := differenceSign r, c := decide (a.toNat < b.toNat + f.c.toNat),
          n := r.msb })
  | .and => (a &&& b, { e := lowest, z := (a &&& b) == 0, v := false, c := false, n := (a &&& b).msb })
  | .or => (a ||| b, { e := lowest, z := (a ||| b) == 0, v := false, c := false, n := (a ||| b).msb })
  | .xor => (a ^^^ b, { e := lowest, z := (a ^^^ b) == 0, v := false, c := false, n := (a ^^^ b).msb })

/-- The bit written and the flags that the pages of BMOV, BMOVN, BAND, BOR and BXOR give, spelled out for the old
destination bit `d` and the source bit `b` (42_bit R262 to R266). -/
def BitOp.spelled (op : BitOp) (d b : Bool) : Bool × CondFlags :=
  match op with
  | .mov => (b, { e := false, z := !b, v := false, c := false, n := b })
  | .movn => (!b, { e := false, z := !b, v := false, c := false, n := b })
  | .and => (d && b, { e := false, z := !(d || b), v := d || b, c := d && b, n := d != b })
  | .or => (d || b, { e := false, z := !(d || b), v := d || b, c := d && b, n := d != b })
  | .xor => (d != b, { e := false, z := !(d || b), v := d || b, c := d && b, n := d != b })

/-- The loop of PRIOR (41_logical_prior R246) from a temporary value and a count, with at most `fuel` passes. -/
def priorLoop (op2 : Word) : Nat → Word → Nat → Nat
  | 0, _, count => count
  | fuel + 1, tmp, count =>
    if tmp.getLsbD 15 = false ∧ count ≠ 15 ∧ op2 ≠ 0 then priorLoop op2 fuel (tmp <<< 1) (count + 1) else count

/-! ## The instruction families, each constructor with its operands -/

/-- ADD to XOR and their byte forms (40_arithmetic R220): operation, data type, op1, op2. -/
def aluForm : Instr → Option (AluOp × Width × Loc × Source)
  | .addRwRw n m => some (.add, .word, .gpr n, .loc (.gpr m))
  | .addbRbRb n m => some (.add, .byte, .gpr n, .loc (.gpr m))
  | .addRegMem r a => some (.add, .word, .reg r, .loc (.mem a))
  | .addbRegMem r a => some (.add, .byte, .reg r, .loc (.mem a))
  | .addMemReg a r => some (.add, .word, .mem a, .loc (.reg r))
  | .addbMemReg a r => some (.add, .byte, .mem a, .loc (.reg r))
  | .addRegData16 r d => some (.add, .word, .reg r, .imm d)
  | .addbRegData8 r d => some (.add, .byte, .reg r, .imm (d.setWidth 16))
  | .addRwData3 n d => some (.add, .word, .gpr n, .imm (d.setWidth 16))
  | .addRwInd n p => some (.add, .word, .gpr n, .loc (.ind p .plain))
  | .addRwIndInc n p => some (.add, .word, .gpr n, .loc (.ind p .postInc))
  | .addbRbData3 n d => some (.add, .byte, .gpr n, .imm (d.setWidth 16))
  | .addbRbInd n p => some (.add, .byte, .gpr n, .loc (.ind p .plain))
  | .addbRbIndInc n p => some (.add, .byte, .gpr n, .loc (.ind p .postInc))
  | .addcRwRw n m => some (.addc, .word, .gpr n, .loc (.gpr m))
  | .addcbRbRb n m => some (.addc, .byte, .gpr n, .loc (.gpr m))
  | .addcRegMem r a => some (.addc, .word, .reg r, .loc (.mem a))
  | .addcbRegMem r a => some (.addc, .byte, .reg r, .loc (.mem a))
  | .addcMemReg a r => some (.addc, .word, .mem a, .loc (.reg r))
  | .addcbMemReg a r => some (.addc, .byte, .mem a, .loc (.reg r))
  | .addcRegData16 r d => some (.addc, .word, .reg r, .imm d)
  | .addcbRegData8 r d => some (.addc, .byte, .reg r, .imm (d.setWidth 16))
  | .addcRwData3 n d => some (.addc, .word, .gpr n, .imm (d.setWidth 16))
  | .addcRwInd n p => some (.addc, .word, .gpr n, .loc (.ind p .plain))
  | .addcRwIndInc n p => some (.addc, .word, .gpr n, .loc (.ind p .postInc))
  | .addcbRbData3 n d => some (.addc, .byte, .gpr n, .imm (d.setWidth 16))
  | .addcbRbInd n p => some (.addc, .byte, .gpr n, .loc (.ind p .plain))
  | .addcbRbIndInc n p => some (.addc, .byte, .gpr n, .loc (.ind p .postInc))
  | .subRwRw n m => some (.sub, .word, .gpr n, .loc (.gpr m))
  | .subbRbRb n m => some (.sub, .byte, .gpr n, .loc (.gpr m))
  | .subRegMem r a => some (.sub, .word, .reg r, .loc (.mem a))
  | .subbRegMem r a => some (.sub, .byte, .reg r, .loc (.mem a))
  | .subMemReg a r => some (.sub, .word, .mem a, .loc (.reg r))
  | .subbMemReg a r => some (.sub, .byte, .mem a, .loc (.reg r))
  | .subRegData16 r d => some (.sub, .word, .reg r, .imm d)
  | .subbRegData8 r d => some (.sub, .byte, .reg r, .imm (d.setWidth 16))
  | .subRwData3 n d => some (.sub, .word, .gpr n, .imm (d.setWidth 16))
  | .subRwInd n p => some (.sub, .word, .gpr n, .loc (.ind p .plain))
  | .subRwIndInc n p => some (.sub, .word, .gpr n, .loc (.ind p .postInc))
  | .subbRbData3 n d => some (.sub, .byte, .gpr n, .imm (d.setWidth 16))
  | .subbRbInd n p => some (.sub, .byte, .gpr n, .loc (.ind p .plain))
  | .subbRbIndInc n p => some (.sub, .byte, .gpr n, .loc (.ind p .postInc))
  | .subcRwRw n m => some (.subc, .word, .gpr n, .loc (.gpr m))
  | .subcbRbRb n m => some (.subc, .byte, .gpr n, .loc (.gpr m))
  | .subcRegMem r a => some (.subc, .word, .reg r, .loc (.mem a))
  | .subcbRegMem r a => some (.subc, .byte, .reg r, .loc (.mem a))
  | .subcMemReg a r => some (.subc, .word, .mem a, .loc (.reg r))
  | .subcbMemReg a r => some (.subc, .byte, .mem a, .loc (.reg r))
  | .subcRegData16 r d => some (.subc, .word, .reg r, .imm d)
  | .subcbRegData8 r d => some (.subc, .byte, .reg r, .imm (d.setWidth 16))
  | .subcRwData3 n d => some (.subc, .word, .gpr n, .imm (d.setWidth 16))
  | .subcRwInd n p => some (.subc, .word, .gpr n, .loc (.ind p .plain))
  | .subcRwIndInc n p => some (.subc, .word, .gpr n, .loc (.ind p .postInc))
  | .subcbRbData3 n d => some (.subc, .byte, .gpr n, .imm (d.setWidth 16))
  | .subcbRbInd n p => some (.subc, .byte, .gpr n, .loc (.ind p .plain))
  | .subcbRbIndInc n p => some (.subc, .byte, .gpr n, .loc (.ind p .postInc))
  | .xorRwRw n m => some (.xor, .word, .gpr n, .loc (.gpr m))
  | .xorbRbRb n m => some (.xor, .byte, .gpr n, .loc (.gpr m))
  | .xorRegMem r a => some (.xor, .word, .reg r, .loc (.mem a))
  | .xorbRegMem r a => some (.xor, .byte, .reg r, .loc (.mem a))
  | .xorMemReg a r => some (.xor, .word, .mem a, .loc (.reg r))
  | .xorbMemReg a r => some (.xor, .byte, .mem a, .loc (.reg r))
  | .xorRegData16 r d => some (.xor, .word, .reg r, .imm d)
  | .xorbRegData8 r d => some (.xor, .byte, .reg r, .imm (d.setWidth 16))
  | .xorRwData3 n d => some (.xor, .word, .gpr n, .imm (d.setWidth 16))
  | .xorRwInd n p => some (.xor, .word, .gpr n, .loc (.ind p .plain))
  | .xorRwIndInc n p => some (.xor, .word, .gpr n, .loc (.ind p .postInc))
  | .xorbRbData3 n d => some (.xor, .byte, .gpr n, .imm (d.setWidth 16))
  | .xorbRbInd n p => some (.xor, .byte, .gpr n, .loc (.ind p .plain))
  | .xorbRbIndInc n p => some (.xor, .byte, .gpr n, .loc (.ind p .postInc))
  | .andRwRw n m => some (.and, .word, .gpr n, .loc (.gpr m))
  | .andbRbRb n m => some (.and, .byte, .gpr n, .loc (.gpr m))
  | .andRegMem r a => some (.and, .word, .reg r, .loc (.mem a))
  | .andbRegMem r a => some (.and, .byte, .reg r, .loc (.mem a))
  | .andMemReg a r => some (.and, .word, .mem a, .loc (.reg r))
  | .andbMemReg a r => some (.and, .byte, .mem a, .loc (.reg r))
  | .andRegData16 r d => some (.and, .word, .reg r, .imm d)
  | .andbRegData8 r d => some (.and, .byte, .reg r, .imm (d.setWidth 16))
  | .andRwData3 n d => some (.and, .word, .gpr n, .imm (d.setWidth 16))
  | .andRwInd n p => some (.and, .word, .gpr n, .loc (.ind p .plain))
  | .andRwIndInc n p => some (.and, .word, .gpr n, .loc (.ind p .postInc))
  | .andbRbData3 n d => some (.and, .byte, .gpr n, .imm (d.setWidth 16))
  | .andbRbInd n p => some (.and, .byte, .gpr n, .loc (.ind p .plain))
  | .andbRbIndInc n p => some (.and, .byte, .gpr n, .loc (.ind p .postInc))
  | .orRwRw n m => some (.or, .word, .gpr n, .loc (.gpr m))
  | .orbRbRb n m => some (.or, .byte, .gpr n, .loc (.gpr m))
  | .orRegMem r a => some (.or, .word, .reg r, .loc (.mem a))
  | .orbRegMem r a => some (.or, .byte, .reg r, .loc (.mem a))
  | .orMemReg a r => some (.or, .word, .mem a, .loc (.reg r))
  | .orbMemReg a r => some (.or, .byte, .mem a, .loc (.reg r))
  | .orRegData16 r d => some (.or, .word, .reg r, .imm d)
  | .orbRegData8 r d => some (.or, .byte, .reg r, .imm (d.setWidth 16))
  | .orRwData3 n d => some (.or, .word, .gpr n, .imm (d.setWidth 16))
  | .orRwInd n p => some (.or, .word, .gpr n, .loc (.ind p .plain))
  | .orRwIndInc n p => some (.or, .word, .gpr n, .loc (.ind p .postInc))
  | .orbRbData3 n d => some (.or, .byte, .gpr n, .imm (d.setWidth 16))
  | .orbRbInd n p => some (.or, .byte, .gpr n, .loc (.ind p .plain))
  | .orbRbIndInc n p => some (.or, .byte, .gpr n, .loc (.ind p .postInc))
  | _ => none

/-- CMP and CMPB (43_compare_loop R290, R291): data type, op1, op2. -/
def compareForm : Instr → Option (Width × Loc × Source)
  | .cmpRwRw n m => some (.word, .gpr n, .loc (.gpr m))
  | .cmpbRbRb n m => some (.byte, .gpr n, .loc (.gpr m))
  | .cmpRegMem r a => some (.word, .reg r, .loc (.mem a))
  | .cmpbRegMem r a => some (.byte, .reg r, .loc (.mem a))
  | .cmpRegData16 r d => some (.word, .reg r, .imm d)
  | .cmpbRegData8 r d => some (.byte, .reg r, .imm (d.setWidth 16))
  | .cmpRwData3 n d => some (.word, .gpr n, .imm (d.setWidth 16))
  | .cmpRwInd n p => some (.word, .gpr n, .loc (.ind p .plain))
  | .cmpRwIndInc n p => some (.word, .gpr n, .loc (.ind p .postInc))
  | .cmpbRbData3 n d => some (.byte, .gpr n, .imm (d.setWidth 16))
  | .cmpbRbInd n p => some (.byte, .gpr n, .loc (.ind p .plain))
  | .cmpbRbIndInc n p => some (.byte, .gpr n, .loc (.ind p .postInc))
  | _ => none

/-- CMPD1, CMPD2, CMPI1, CMPI2 (R292 to R295): what is added to op1, the GPR op1, op2. -/
def stepForm : Instr → Option (Int × RegNo × Source)
  | .cmpi1RwData4 n d => some (1, n, .imm (d.setWidth 16))
  | .cmpi1RwMem n a => some (1, n, .loc (.mem a))
  | .cmpi1RwData16 n d => some (1, n, .imm d)
  | .cmpi2RwData4 n d => some (2, n, .imm (d.setWidth 16))
  | .cmpi2RwMem n a => some (2, n, .loc (.mem a))
  | .cmpi2RwData16 n d => some (2, n, .imm d)
  | .cmpd1RwData4 n d => some (-1, n, .imm (d.setWidth 16))
  | .cmpd1RwMem n a => some (-1, n, .loc (.mem a))
  | .cmpd1RwData16 n d => some (-1, n, .imm d)
  | .cmpd2RwData4 n d => some (-2, n, .imm (d.setWidth 16))
  | .cmpd2RwMem n a => some (-2, n, .loc (.mem a))
  | .cmpd2RwData16 n d => some (-2, n, .imm d)
  | _ => none

/-- The shifts and rotates (44_shift_rotate R315): operation, the GPR op1, op2. -/
def shiftForm : Instr → Option (ShiftOp × RegNo × Source)
  | .rolRwRw n m => some (.rol, n, .loc (.gpr m))
  | .rolRwData4 n d => some (.rol, n, .imm (d.setWidth 16))
  | .rorRwRw n m => some (.ror, n, .loc (.gpr m))
  | .rorRwData4 n d => some (.ror, n, .imm (d.setWidth 16))
  | .shlRwRw n m => some (.shl, n, .loc (.gpr m))
  | .shlRwData4 n d => some (.shl, n, .imm (d.setWidth 16))
  | .shrRwRw n m => some (.shr, n, .loc (.gpr m))
  | .shrRwData4 n d => some (.shr, n, .imm (d.setWidth 16))
  | .ashrRwRw n m => some (.ashr, n, .loc (.gpr m))
  | .ashrRwData4 n d => some (.ashr, n, .imm (d.setWidth 16))
  | _ => none

/-- The kinds of data movement (45_data_movement). -/
inductive MoveKind where
  /-- MOV, MOVB -/
  | same (w : Width)
  /-- MOVBS -/
  | signed
  /-- MOVBZ -/
  | zero
  deriving DecidableEq, Repr

/-- The data type of the source. -/
def MoveKind.src : MoveKind → Width
  | .same w => w
  | .signed | .zero => .byte

/-- The data type of the destination. -/
def MoveKind.dst : MoveKind → Width
  | .same w => w
  | .signed | .zero => .word

/-- The value written, from the value read (R330 to R333). -/
def MoveKind.written : (kind : MoveKind) → BitVec kind.src.bits → BitVec kind.dst.bits
  | .same _, v => v
  | .signed, v => BitVec.signExtend 16 v
  | .zero, v => BitVec.setWidth 16 v

/-- The flags, spelled out from the value read and the flags before: Z tells a zero; N is the value's sign, and clear for
MOVBZ; E tells the lowest negative value, and is clear for MOVBS and MOVBZ; V and C stay (R330 to R333). -/
def MoveKind.flags : (kind : MoveKind) → BitVec kind.src.bits → CondFlags → CondFlags
  | .same w, v, f => { e := v == BitVec.intMin w.bits, z := v == 0, v := f.v, c := f.c, n := v.msb }
  | .signed, v, f => { e := false, z := v == 0, v := f.v, c := f.c, n := v.msb }
  | .zero, v, f => { e := false, z := v == 0, v := f.v, c := f.c, n := false }

/-- MOV, MOVB, MOVBS, MOVBZ (R330 to R333): kind, op1, op2. -/
def moveForm : Instr → Option (MoveKind × Loc × Source)
  | .movIndMem n a => some (.same .word, .ind n .plain, .loc (.mem a))
  | .movIndDecRw m n => some (.same .word, .ind m .preDec, .loc (.gpr n))
  | .movbIndDecRb m n => some (.same .byte, .ind m .preDec, .loc (.gpr n))
  | .movMemInd a n => some (.same .word, .mem a, .loc (.ind n .plain))
  | .movRwIndInc n m => some (.same .word, .gpr n, .loc (.ind m .postInc))
  | .movbRbIndInc n m => some (.same .byte, .gpr n, .loc (.ind m .postInc))
  | .movbIndMem n a => some (.same .byte, .ind n .plain, .loc (.mem a))
  | .movRwInd n m => some (.same .word, .gpr n, .loc (.ind m .plain))
  | .movbRbInd n m => some (.same .byte, .gpr n, .loc (.ind m .plain))
  | .movbMemInd a n => some (.same .byte, .mem a, .loc (.ind n .plain))
  | .movIndRw m n => some (.same .word, .ind m .plain, .loc (.gpr n))
  | .movbIndRb m n => some (.same .byte, .ind m .plain, .loc (.gpr n))
  | .movbzRwRb n m => some (.zero, .gpr n, .loc (.gpr m))
  | .movbzRegMem r a => some (.zero, .reg r, .loc (.mem a))
  | .movDispRw m d n => some (.same .word, .ind m (.disp d), .loc (.gpr n))
  | .movbzMemReg a r => some (.zero, .mem a, .loc (.reg r))
  | .movIndInd n m => some (.same .word, .ind n .plain, .loc (.ind m .plain))
  | .movbIndInd n m => some (.same .byte, .ind n .plain, .loc (.ind m .plain))
  | .movbsRwRb n m => some (.signed, .gpr n, .loc (.gpr m))
  | .movbsRegMem r a => some (.signed, .reg r, .loc (.mem a))
  | .movRwDisp n m d => some (.same .word, .gpr n, .loc (.ind m (.disp d)))
  | .movbsMemReg a r => some (.signed, .mem a, .loc (.reg r))
  | .movIndIncInd n m => some (.same .word, .ind n .postInc, .loc (.ind m .plain))
  | .movbIndIncInd n m => some (.same .byte, .ind n .postInc, .loc (.ind m .plain))
  | .movRwData4 n d => some (.same .word, .gpr n, .imm (d.setWidth 16))
  | .movbRbData4 n d => some (.same .byte, .gpr n, .imm (d.setWidth 16))
  | .movbDispRb m d n => some (.same .byte, .ind m (.disp d), .loc (.gpr n))
  | .movRegData16 r d => some (.same .word, .reg r, .imm d)
  | .movbRegData8 r d => some (.same .byte, .reg r, .imm (d.setWidth 16))
  | .movIndIndInc n m => some (.same .word, .ind n .plain, .loc (.ind m .postInc))
  | .movbIndIndInc n m => some (.same .byte, .ind n .plain, .loc (.ind m .postInc))
  | .movRwRw n m => some (.same .word, .gpr n, .loc (.gpr m))
  | .movbRbRb n m => some (.same .byte, .gpr n, .loc (.gpr m))
  | .movRegMem r a => some (.same .word, .reg r, .loc (.mem a))
  | .movbRegMem r a => some (.same .byte, .reg r, .loc (.mem a))
  | .movbRbDisp n m d => some (.same .byte, .gpr n, .loc (.ind m (.disp d)))
  | .movMemReg a r => some (.same .word, .mem a, .loc (.reg r))
  | .movbMemReg a r => some (.same .byte, .mem a, .loc (.reg r))
  | _ => none

/-- NEG, CPL, PRIOR, the shifts and the compares with a step: data type and number of the GPR they write. -/
def gprDestination : Instr → Option (Width × RegNo)
  | .neg n | .cpl n | .prior n _ => some (.word, n)
  | .negb n | .cplb n => some (.byte, n)
  | .rolRwRw n _ | .rorRwRw n _ | .shlRwRw n _ | .shrRwRw n _ | .ashrRwRw n _ => some (.word, n)
  | .rolRwData4 n _ | .rorRwData4 n _ | .shlRwData4 n _ | .shrRwData4 n _ | .ashrRwData4 n _ => some (.word, n)
  | .cmpi1RwData4 n _ | .cmpi2RwData4 n _ | .cmpd1RwData4 n _ | .cmpd2RwData4 n _ => some (.word, n)
  | .cmpi1RwMem n _ | .cmpi2RwMem n _ | .cmpd1RwMem n _ | .cmpd2RwMem n _ => some (.word, n)
  | .cmpi1RwData16 n _ | .cmpi2RwData16 n _ | .cmpd1RwData16 n _ | .cmpd2RwData16 n _ => some (.word, n)
  | _ => none

/-- The instructions that write a bit or bit field: the `bitoff` of the word they write (42_bit, 46_jump_call R388,
R390). -/
def bitDestination : Instr → Option Byte
  | .bclr qq _ | .bset qq _ | .jbc qq _ _ | .jnbs qq _ _ | .bfldl qq _ _ | .bfldh qq _ _ => some qq
  | .bmov zz _ _ _ | .bmovn zz _ _ _ | .band zz _ _ _ | .bor zz _ _ _ | .bxor zz _ _ _ => some zz
  | _ => none

/-- The two-operand bit instructions that write (42_bit R270): operation, word and bit of op1, of op2. -/
def bitForm : Instr → Option (BitOp × Byte × BitVec 4 × Byte × BitVec 4)
  | .bmovn zz z qq q => some (.movn, zz, z, qq, q)
  | .bmov zz z qq q => some (.mov, zz, z, qq, q)
  | .bor zz z qq q => some (.or, zz, z, qq, q)
  | .band zz z qq q => some (.and, zz, z, qq, q)
  | .bxor zz z qq q => some (.xor, zz, z, qq, q)
  | _ => none

/-- The ATOMIC/EXTend instructions that read no register (48_system_control R450): the sequence they begin. -/
def sequenceForm : Instr → Option Sequence
  | .atomic count => some ⟨count, true, .none, false⟩
  | .extr count => some ⟨count, true, .none, true⟩
  | .extsSeg seg count => some ⟨count, true, .seg seg, false⟩
  | .extpPag page count => some ⟨count, true, .page page, false⟩
  | .extsrSeg seg count => some ⟨count, true, .seg seg, true⟩
  | .extprPag page count => some ⟨count, true, .page page, true⟩
  | _ => none

/-- The EXTend instructions that take the page or segment from a word GPR (R438 to R441): the register, and the
sequence begun from the register's word, of which only the low 10 or 8 bits count. -/
def registerSequenceForm : Instr → Option (RegNo × (Word → Sequence))
  | .extsRw m count => some (m, fun v => ⟨count, true, .seg (v.extractLsb' 0 8), false⟩)
  | .extpRw m count => some (m, fun v => ⟨count, true, .page (v.extractLsb' 0 10), false⟩)
  | .extsrRw m count => some (m, fun v => ⟨count, true, .seg (v.extractLsb' 0 8), true⟩)
  | .extprRw m count => some (m, fun v => ⟨count, true, .page (v.extractLsb' 0 10), true⟩)
  | _ => none

end Sys2Proof.Machine
end

