-- ==== Sys2Proof/Certificates/Slice0/Obligations.lean ====
section
/-! DEFINITION. The statements about this model, each one `Obligations.<Name> : Prop`. In the statements about `exec`
the state is the one in which IP already holds the address of the following instruction (46_jump_call R380). -/

open Sys2Proof Sys2Proof.Machine

/-! ## Decoding and encoding -/

/-- Decoding the encoding of a well-formed instruction gives it back, with nothing left over (30_encoding R130 to
R145). -/
def Obligations.EncodeThenDecode : Prop :=
  ∀ i, wellFormed i = true → decodeBytes (encode i) = .ok (i, [])

/-- What the decoder accepts is well formed: a pointer coded in two bits is R0 to R3 and a sequence has one to four
instructions (R136, R141). -/
def Obligations.DecodedIsWellFormed : Prop :=
  ∀ b0 b1 b2 b3 i, decode b0 b1 b2 b3 = .ok i → wellFormed i = true

/-- Words written out from the formats of R161: ADD R1, R2; SUB R2, #1; MOVBS R1, RL0; BFLDH R0, #F0H, #50H; JMPR
cc_UC, FEH; CALLS 1, 0; EXTP #40H, #1; SRST; POP R1; and opcode 3BH is undefined. -/
def Obligations.WrittenWordsDecode : Prop :=
  decode 0x00 0x12 0 0 = .ok (.addRwRw 1 2) ∧ decode 0x28 0x21 0 0 = .ok (.subRwData3 2 1) ∧
  decode 0xD0 0x01 0 0 = .ok (.movbsRwRb 1 0) ∧ decode 0x1A 0xF0 0x50 0xF0 = .ok (.bfldh 0xF0 0xF0 0x50) ∧
  decode 0x0D 0xFE 0 0 = .ok (.jmpr .uc 0xFE) ∧ decode 0xDA 0x01 0x00 0x00 = .ok (.calls 1 0) ∧
  decode 0xD7 0x40 0x40 0x00 = .ok (.extpPag 0x040 1) ∧ decode 0xB7 0x48 0xB7 0xB7 = .ok .srst ∧
  decode 0xFC 0xF1 0 0 = .ok (.pop 0xF1) ∧ decode 0x3B 0 0 0 = .error .undefinedOpcode

/-- The decoder answers "undefined opcode" exactly for the twenty opcode bytes of R162, whatever bytes follow. -/
def Obligations.UndefinedOpcodes : Prop :=
  ∀ b0 b1 b2 b3, decode b0 b1 b2 b3 = .error .undefinedOpcode ↔
    b0 ∈ [0x3B, 0x44, 0x45, 0x83, 0x85, 0x8B, 0x8C, 0x93, 0x95, 0xA3, 0xB3, 0xC1, 0xC3, 0xC7, 0xD3, 0xE3, 0xE5, 0xF5,
      0xF8, 0xF9]

/-! ## One step -/

/-- A step that meets no event runs the instruction decoded at CSP:IP: IP moves past its two or four bytes, `exec`
runs, and the sequence counter is updated, but not by the instructions of `sequenceForm` and `registerSequenceForm`, ATOMIC
and the EXTend ones (00_scope R10, 30_encoding R131, 48_system_control R452). IDLE counts as one instruction and leaves the lock as it is (R431, 60_exceptions R532); that this holds for an IDLE that ends a sequence,
against R452, is the model's choice (log 21). -/
def Obligations.StepRunsDecoded : Prop :=
  ∀ (s : State) (i : Instr),
    let byteAt := fun k => peekByte s (codeAddr (lowByte s.csp) (s.ip + k))
    nextEvent s = none → s.run = .running → s.ip.getLsbD 0 = false →
    (segmentationDisabled s = true → s.csp = 0) →
    readStop s .word (codeAddr (lowByte s.csp) s.ip) = none →
    (lengthOf (byteAt 0) = 4 → readStop s .word (codeAddr (lowByte s.csp) (s.ip + 2)) = none) →
    decode (byteAt 0) (byteAt 1) (byteAt 2) (byteAt 3) = .ok i →
    step s =
      match exec i { s with ip := s.ip + BitVec.ofNat 16 (lengthOf (byteAt 0)) } with
      | .next t => .next (if (sequenceForm i).isSome ∨ (registerSequenceForm i).isSome then t
          else if i = .idle then { countDown t with seq := { (countDown t).seq with lock := t.seq.lock } }
          else countDown t)
      | .fault f => .fault f
      | .refused r => .refused r

/-- The traps at the fetch, with segmentation enabled or disabled: an odd IP, an undefined opcode, and a protected
instruction's opcode without its exact pattern; the return address is the current IP (30_encoding R131, R145, R162;
60_exceptions R503, R504, R506, R511). By the spec's own decisions: that the damaged protected instruction traps is D4 (log
9), the return address D24 (log 24), that any other departure from a format's fixed fields is refused D3 (R144, log 8), and
that a fetch outside segment 0 with SGTDIS set is refused D17 (log 19). That the traps are taken and the run goes on is the
model's choice (log 1). -/
def Obligations.FetchTraps : Prop :=
  ∀ s : State,
    let a0 := codeAddr (lowByte s.csp) s.ip
    let a2 := codeAddr (lowByte s.csp) (s.ip + 2)
    let bytes := decode (peekByte s a0) (peekByte s (a0 + 1)) (peekByte s a2) (peekByte s (a2 + 1))
    nextEvent s = none → s.run = .running →
    (s.ip.getLsbD 0 = true → step s = raise .illina s.ip s) ∧
    (s.ip.getLsbD 0 = false → segmentationDisabled s = true → s.csp ≠ 0 → step s = .refused .segmentation) ∧
    (s.ip.getLsbD 0 = false → (segmentationDisabled s = true → s.csp = 0) → readStop s .word a0 = none →
      (peekByte s a0 ∈ undefinedOpcodes → step s = raise .undopc s.ip s) ∧
      (readStop s .word a2 = none →
        (bytes = .error .protectedMismatch → step s = raise .prtflt s.ip s) ∧
        (bytes = .error .nonCanonical → step s = .refused .nonCanonical)))

/-! ## Results: arithmetic and logic -/

/-- ADD, ADDC, SUB, SUBC, AND, OR, XOR and their byte forms, all seven operand forms: op1 is read, then op2 with its
post-increment; the result goes to op1 and the flags to PSW, unless op1 lies in PSW (R220, R221, R247, R30). Value and
flags are those of `AluOp.spelled`, which writes them out for each operation: the sum, difference, AND, OR or XOR; E of op2;
Z of the result, with ADDC and SUBC only if Z was set before; V from the signs, C the carry or borrow, both 0 for AND, OR
and XOR; N the result's sign (40_arithmetic R200 to R207, 41_logical_prior R240 to R245). Where the pointer register is also
op1, or its byte half, or an access lands on the pointer's own word, the source is silent (20_memory R97, 93 U5), and the
order of the pseudocode is the model's choice (log 7). The result is stated for CP up to FFE0H and a pointer in ordinary
memory; with CP above, a GPR as op1 is refused, the spec's own decision D10 (log 10). -/
def Obligations.AluResult : Prop :=
  ∀ i op w dst src (s : State), aluForm i = some (op, w, dst, src) →
    let at1 := operandAddr s.cp s w dst
    let s1 := touch at1 s
    (s.cp ≤ 0xFFE0 → sourcePointerPlain s src = true → canWrite s w at1 = true → sourceReady s.cp s1 w src = true →
      let result := op.spelled (peek s w at1) (sourceValue s.cp s1 w src) s.flags
      exec i s = .next (flagsUnlessPsw at1 result.2 (pokeTo dst w at1 result.1 (afterSource s.cp s1 w src)))) ∧
    (0xFFE0 < s.cp → dst.isGpr = true → exec i s = .refused .contextPointer)

/-- The value and flags of a sum with carry and of a difference with borrow: the residue modulo 2^W; C the carry out of
the top bit, or exactly when the subtrahend and the borrow exceed the minuend; V for a sum exactly when both operands have
one sign and the result the other, for a difference, with or without borrow, exactly when the exact difference lies outside
the signed range, and then the operands' signs differ and the result's is not the minuend's (00_scope R11). -/
def Obligations.SumAndDifferenceFlags : Prop :=
  ∀ (w : Width) (a b : BitVec w.bits) (cin : Bool),
    (addExact a b cin).value = a + b + (BitVec.ofBool cin).setWidth w.bits ∧
    ((addExact a b cin).carry = true ↔ 2 ^ w.bits ≤ a.toNat + b.toNat + cin.toNat) ∧
    ((addExact a b cin).overflow = true ↔ a.msb = b.msb ∧ (addExact a b cin).value.msb ≠ a.msb) ∧
    (subExact a b cin).value = a - b - (BitVec.ofBool cin).setWidth w.bits ∧
    ((subExact a b cin).carry = true ↔ a.toNat < b.toNat + cin.toNat) ∧
    ((subExact a b cin).overflow = true ↔ a.msb ≠ b.msb ∧ (subExact a b cin).value.msb ≠ a.msb) ∧
    ((subExact a b cin).overflow = true ↔
      a.toInt - b.toInt - cin.toNat < -2 ^ (w.bits - 1) ∨ 2 ^ (w.bits - 1) ≤ a.toInt - b.toInt - cin.toNat)

/-- NEG, CPL and their byte forms: the GPR is replaced by its two's or one's complement; E tells the lowest negative
operand, and for NEG C tells an operand other than 0 and V the lowest negative one (40_arithmetic R216 to R219). The other
byte of the word stays, as `StoreThenLoad` says of `pokeTo`. -/
def Obligations.ComplementResult : Prop :=
  ∀ (n : RegNo) (s : State), s.cp ≤ 0xFFE0 →
    (∀ w i, (w = .word ∧ i = .neg n ∨ w = .byte ∧ i = .negb n) → canWrite s w (gprAddr s.cp w n) = true →
      let a := peek s w (gprAddr s.cp w n)
      exec i s = .next (flagsUnlessPsw (gprAddr s.cp w n)
        { e := a == BitVec.intMin w.bits, z := a == 0, v := a == BitVec.intMin w.bits, c := a != 0, n := (-a).msb }
        (pokeTo (.gpr n) w (gprAddr s.cp w n) (-a) (touch (gprAddr s.cp w n) s)))) ∧
    (∀ w i, (w = .word ∧ i = .cpl n ∨ w = .byte ∧ i = .cplb n) → canWrite s w (gprAddr s.cp w n) = true →
      let a := peek s w (gprAddr s.cp w n)
      exec i s = .next (flagsUnlessPsw (gprAddr s.cp w n)
        { e := a == BitVec.intMin w.bits, z := ~~~a == 0, v := false, c := false, n := !a.msb }
        (pokeTo (.gpr n) w (gprAddr s.cp w n) (~~~a) (touch (gprAddr s.cp w n) s))))

/-- MUL and MULU: MD is the exact 32-bit product, V tells a product that does not fit a word, and Z and N regard all 32
bits. MUL reads its operands and then sets MDRIU (R210); MULU sets MDRIU and then reads its operands, so that one in MDC is
read with the bit set (R211). After both MDRIU is set, also with an operand in MDL (10_state R36, 92 D16); that
it is bit 4 of MDC is the family's (log 3). -/
def Obligations.ProductResult : Prop :=
  ∀ (n m : RegNo) (s : State), s.cp ≤ 0xFFE0 →
    let an := gprAddr s.cp .word n
    let am := gprAddr s.cp .word m
    canRead s .word an = true → canRead s .word am = true →
    (let x := peekWord s an
     let s1 := touch an s
     let y := peekWord s1 am
     let s2 := touch am s1
     let p := x.toInt * y.toInt
     exec (.mul n m) s = .next ({ s2 with
        mdl := (BitVec.ofInt 32 p).extractLsb' 0 16, mdh := (BitVec.ofInt 32 p).extractLsb' 16 16,
        mdc := s2.mdc ||| 0x0010 }.setFlags
        { e := false, z := p == 0, v := decide (p < -32768 ∨ 32767 < p), c := false, n := decide (p < 0) })) ∧
    (let s0 := { s with mdc := s.mdc ||| 0x0010 }
     let x := peekWord s0 an
     let s1 := touch an s0
     let y := peekWord s1 am
     let s2 := touch am s1
     let p := x.toNat * y.toNat
     exec (.mulu n m) s = .next ({ s2 with
        mdl := (BitVec.ofNat 32 p).extractLsb' 0 16, mdh := (BitVec.ofNat 32 p).extractLsb' 16 16,
        mdc := s2.mdc ||| 0x0010 }.setFlags
        { e := false, z := p == 0, v := decide (65535 < p), c := false, n := decide (2 ^ 31 ≤ p) }))

/-- A division whose quotient fits: MDL holds the quotient and MDH the remainder, MDRIU is set, V and C are clear, Z and N
regard the quotient (40_arithmetic R212 to R215). DIV and DIVL round toward zero and the remainder has the dividend's sign,
the spec's decision D18; that Z and N regard the quotient is its decision D19 (log 17). -/
def Obligations.QuotientResult : Prop :=
  ∀ (n : RegNo) (s : State), s.cp ≤ 0xFFE0 →
    let an := gprAddr s.cp .word n
    canRead s .word an = true →
    let s1 := setMdriu (touch an s)
    (∀ i x, (i = .div n ∧ x = s.mdl.toInt ∨ i = .divl n ∧ x = (s.mdh ++ s.mdl : BitVec 32).toInt) →
      let y := (peekWord s an).toInt
      y ≠ 0 → -32768 ≤ x.tdiv y → x.tdiv y ≤ 32767 →
      exec i s = .next ({ s1 with
          mdl := BitVec.ofInt 16 (x.tdiv y), mdh := BitVec.ofInt 16 (x - x.tdiv y * y) }.setFlags
          { e := false, z := x.tdiv y == 0, v := false, c := false, n := decide (x.tdiv y < 0) })) ∧
    (∀ i x, (i = .divu n ∧ x = s.mdl.toNat ∨ i = .divlu n ∧ x = s.mdh.toNat * 65536 + s.mdl.toNat) →
      let y := (peekWord s an).toNat
      y ≠ 0 → x / y ≤ 65535 →
      exec i s = .next ({ s1 with
          mdl := BitVec.ofNat 16 (x / y), mdh := BitVec.ofNat 16 (x % y) }.setFlags
          { e := false, z := x / y == 0, v := false, c := false, n := decide (32768 ≤ x / y) }))

/-- A division by zero, and a DIVL or DIVLU whose quotient does not fit, go on: V is set, E and C are clear, MDRIU is
set, and MDL, MDH, Z and N hold values that nothing here constrains (R212 to R215, R224). DIV of 8000H by FFFFH leaves V
open too (R212). Where the free values come from is the model's choice (log 16). -/
def Obligations.InvalidQuotientResult : Prop :=
  ∀ (n : RegNo) (s : State), s.cp ≤ 0xFFE0 →
    let an := gprAddr s.cp .word n
    canRead s .word an = true →
    let y := peekWord s an
    let x := (s.mdh ++ s.mdl : BitVec 32)
    let s1 := setMdriu (touch an s)
    let free := fun (i : Instr) (vOk : Bool → Prop) => ∃ low high z v sign, vOk v ∧
      exec i s = .next ({ s1 with mdl := low, mdh := high, free := s1.free + 3 }.setFlags
        { e := false, z := z, v := v, c := false, n := sign })
    (y = 0 → free (.div n) (· = true) ∧ free (.divu n) (· = true)) ∧
    (y = 0 ∨ x.toInt.tdiv y.toInt < -32768 ∨ 32767 < x.toInt.tdiv y.toInt → free (.divl n) (· = true)) ∧
    (y = 0 ∨ y.toNat ≤ s.mdh.toNat → free (.divlu n) (· = true)) ∧
    (s.mdl = 0x8000 → y = 0xFFFF → free (.div n) (fun _ => True))

/-- PRIOR: op1 gets the count of the page's loop, at most fifteen passes; Z tells an op2 of 0 and the other flags are
clear (41_logical_prior R246). -/
def Obligations.PriorResult : Prop :=
  ∀ (n m : RegNo) (s : State), s.cp ≤ 0xFFE0 →
    let an := gprAddr s.cp .word n
    let am := gprAddr s.cp .word m
    canRead s .word am = true → canWrite s .word an = true →
    let b := peekWord s am
    exec (.prior n m) s = .next (flagsUnlessPsw an
      { e := false, z := b == 0, v := false, c := false, n := false }
      (pokeWord an (BitVec.ofNat 16 (priorLoop b 16 b 0)) (touch am s)))

/-! ## Results: compares -/

/-- CMP and CMPB, all six forms: the flags are those of the subtraction op1 - op2, E of op2, and no operand is
written but a post-incremented pointer. CMPI1, CMPI2, CMPD1 and CMPD2 compare a GPR with op2, then add 1, 2, -1 or -2 to it
(43_compare_loop R290 to R296). Where the pointer register is also op1, or its byte half, or an access lands on the pointer's
own word, the source is silent (20_memory R97, 93 U5), and the order of the pseudocode is the model's choice (log 7). The
result is stated for CP up to FFE0H and a pointer in ordinary memory; with CP above, a GPR as op1 is refused, the spec's own
decision D10 (log 10). -/
def Obligations.CompareResult : Prop :=
  ∀ s : State,
    (∀ i w op1 op2, compareForm i = some (w, op1, op2) →
      let at1 := operandAddr s.cp s w op1
      let s1 := touch at1 s
      (s.cp ≤ 0xFFE0 → sourcePointerPlain s op2 = true → canRead s w at1 = true → sourceReady s.cp s1 w op2 = true →
        let a := peek s w at1
        let b := sourceValue s.cp s1 w op2
        exec i s = .next ((afterSource s.cp s1 w op2).setFlags
          { e := b == BitVec.intMin w.bits, z := a == b, v := (subExact a b false).overflow,
            c := decide (a.toNat < b.toNat), n := (a - b).msb })) ∧
      (0xFFE0 < s.cp → op1.isGpr = true → exec i s = .refused .contextPointer)) ∧
    (∀ i k n op2, stepForm i = some (k, n, op2) →
      let at1 := gprAddr s.cp .word n
      let s1 := touch at1 s
      (s.cp ≤ 0xFFE0 → canWrite s .word at1 = true → sourceReady s.cp s1 .word op2 = true →
        let a := peekWord s at1
        let b : Word := sourceValue s.cp s1 .word op2
        exec i s = .next (flagsUnlessPsw at1
          { e := b == 0x8000, z := a == b, v := (subExact a b false).overflow, c := decide (a.toNat < b.toNat),
            n := (a - b).msb }
          (pokeWord at1 (a + BitVec.ofInt 16 k) (afterSource s.cp s1 .word op2)))) ∧
      (0xFFE0 < s.cp → exec i s = .refused .contextPointer))

/-- The sixteen condition codes 0H to FH test the flags as Table 5 says; after a compare of a with b they read as the orders
of a and b: EQ, NE, the unsigned and the signed ones, and NET (30_encoding R150, 43_compare_loop R296). -/
def Obligations.CompareOrders : Prop :=
  (∀ e z v c n : Bool,
    (List.range 16).map (fun code => condHolds (condOf (BitVec.ofNat 4 code)) ⟨e, z, v, c, n⟩) =
      [true, !(z || e), z, !z, v, !v, n, !n, c, !c, !(z || (n ^^ v)), z || (n ^^ v), n ^^ v, !(n ^^ v), !(z || c),
        z || c]) ∧
  ∀ (w : Width) (a b : BitVec w.bits),
    let holds := fun cc => condHolds cc (compareFlags a b)
    (holds .z = true ↔ a = b) ∧ (holds .nz = true ↔ a ≠ b) ∧
    (holds .c = true ↔ a.toNat < b.toNat) ∧ (holds .nc = true ↔ b.toNat ≤ a.toNat) ∧
    (holds .ule = true ↔ a.toNat ≤ b.toNat) ∧ (holds .ugt = true ↔ b.toNat < a.toNat) ∧
    (holds .slt = true ↔ a.toInt < b.toInt) ∧ (holds .sge = true ↔ b.toInt ≤ a.toInt) ∧
    (holds .sle = true ↔ a.toInt ≤ b.toInt) ∧ (holds .sgt = true ↔ b.toInt < a.toInt) ∧
    (holds .net = true ↔ a ≠ b ∧ b ≠ BitVec.intMin w.bits)

/-! ## Results: shifts and rotates -/

/-- SHL, SHR, ROL, ROR and ASHR with a count from a GPR or a constant: op1, C and V are what the page's loop leaves
after as many passes as the low four bits of op2 say, E is clear, Z and N regard the result (44_shift_rotate R310 to
R315). -/
def Obligations.ShiftResult : Prop :=
  ∀ i op n src (s : State), shiftForm i = some (op, n, src) →
    s.cp ≤ 0xFFE0 → sourceReady s.cp s .word src = true →
    let at1 := gprAddr s.cp .word n
    canWrite s .word at1 = true →
    let count := (sourceValue s.cp s .word src : Word).toNat % 16
    let s1 := afterSource s.cp s .word src
    let r := ShiftOp.loop op count { op1 := peekWord s1 at1, c := false, v := false }
    exec i s = .next (flagsUnlessPsw at1 { e := false, z := r.op1 == 0, v := r.v, c := r.c, n := r.op1.msb }
      (pokeWord at1 r.op1 (touch at1 s1)))

/-! ## Results: bits -/

/-- BCLR and BSET: bit q of the addressed word is cleared or set and every other bit kept; Z and N tell its old value
unless the word is PSW (42_bit R260, R261, R276, R277). -/
def Obligations.BitAssignResult : Prop :=
  ∀ (b : Bool) (qq : Byte) (q : BitVec 4) (s : State),
    let at1 := bitoffAddr s qq
    shortStop s.cp qq = none → canWrite s .word at1 = true →
    let old := peekWord s at1
    ∃ new : Word, (∀ j, j < 16 → new.getLsbD j = if j = q.toNat then b else old.getLsbD j) ∧
      exec (if b then .bset qq q else .bclr qq q) s =
        .next (flagsUnlessPsw at1
          { e := false, z := !old.getLsbD q.toNat, v := false, c := false, n := old.getLsbD q.toNat }
          (pokeWord at1 new (touch at1 s)))

/-- BMOV, BMOVN, BAND, BOR, BXOR: one bit of the destination word is replaced by the operation's result on the two old
bits; the flags describe the source bit, or NOR, OR, AND and XOR of the two; `BitOp.spelled` writes bit and flags out for
each. BCMP sets the latter flags and writes nothing (42_bit R262 to R267, R270). That the reads take effect in this order, so
that the word written back is the one after both reads, is the model's choice between MDL and MDC (log 42). -/
def Obligations.BitPairResult : Prop :=
  ∀ zz z qq q (s : State),
    let at1 := bitoffAddr s zz
    let at2 := bitoffAddr s qq
    shortStop s.cp zz = none → shortStop s.cp qq = none → canRead s .word at1 = true → canRead s .word at2 = true →
    let d := (peekWord s at1).getLsbD z.toNat
    let s1 := touch at1 s
    let b := (peekWord s1 at2).getLsbD q.toNat
    let s2 := touch at2 s1
    (∀ i op, bitForm i = some (op, zz, z, qq, q) → canWrite s .word at1 = true →
      ∃ new : Word,
        (∀ j, j < 16 → new.getLsbD j = if j = z.toNat then (op.spelled d b).1 else (peekWord s2 at1).getLsbD j) ∧
        exec i s = .next (flagsUnlessPsw at1 (op.spelled d b).2 (pokeWord at1 new s2))) ∧
    exec (.bcmp zz z qq q) s = .next (s2.setFlags { e := false, z := !(d || b), v := d || b, c := d && b, n := d != b })

/-- BFLDH and BFLDL: one byte of the word becomes (byte AND NOT mask) OR data, the other byte stays; Z and N regard the
whole word (R268, R269). -/
def Obligations.BitFieldResult : Prop :=
  ∀ (qq mask data : Byte) (s : State),
    let at1 := bitoffAddr s qq
    shortStop s.cp qq = none → canWrite s .word at1 = true →
    let old := peekWord s at1
    let answer := fun (r : Word) => Host.Outcome.next (φ := Fault) (ρ := Refusal) (flagsUnlessPsw at1
      { e := false, z := r == 0, v := false, c := false, n := r.msb } (pokeWord at1 r (touch at1 s)))
    exec (.bfldh qq mask data) s = answer (wordOf (lowByte old) ((highByte old &&& ~~~mask) ||| data)) ∧
    exec (.bfldl qq mask data) s = answer (wordOf ((lowByte old &&& ~~~mask) ||| data) (highByte old))

/-! ## Results: data movement -/

/-- MOV, MOVB, MOVBS and MOVBZ, all 38 forms: the source is read with its post-increment, the pre-decrement of the
destination follows, then the write and its post-increment; E, Z and N come from the source value, V and C stay: as
`MoveKind.flags` writes out, MOVBS clears E, and MOVBZ clears E and N (45_data_movement R330 to R334). Where a pointer register
is also the other operand, or its byte half, or an access lands on a pointer's own word, the source is silent (20_memory R97,
93 U5), and the order of the pseudocode is the model's choice (log 7). The result is stated for CP up to FFE0H and pointers in
ordinary memory; with CP above, a source in or through a GPR, or a constant that goes there, is refused, the spec's own
decision D10 (log 10). -/
def Obligations.MoveResult : Prop :=
  ∀ i kind dst src (s : State), moveForm i = some (kind, dst, src) →
    let v := sourceValue s.cp s kind.src src
    let s1 := prepared s.cp kind.dst dst (afterSource s.cp s kind.src src)
    let at1 := operandAddr s.cp s1 kind.dst dst
    let s2 := settled s.cp kind.dst dst (pokeTo dst kind.dst at1 (kind.written v) s1)
    let usesGpr := fun l : Loc => l.isGpr = true ∨ ∃ p mode, l = .ind p mode
    (s.cp ≤ 0xFFE0 → sourcePointerPlain s src = true → pointerPlain s dst = true →
      sourceReady s.cp s kind.src src = true → canWrite s kind.dst at1 = true →
      exec i s = .next (flagsUnlessPsw at1 (kind.flags v s2.flags) s2)) ∧
    (0xFFE0 < s.cp → (∀ l, src = .loc l → usesGpr l → exec i s = .refused .contextPointer) ∧
      (∀ d, src = .imm d → usesGpr dst → exec i s = .refused .contextPointer))

/-! ## Results: jumps, calls and returns -/

/-- JMPR, JMPA and JMPI jump exactly when the condition holds, JMPS always and to another segment, and no flag, register or
byte of memory changes but IP, CSP and the model's note of the target, and what reading JMPI's register does (46_jump_call
R383 to R386). That JMPS to a segment other than 0 is refused with SGTDIS set is the spec's own decision D17 (R398, log
19). -/
def Obligations.JumpResult : Prop :=
  ∀ (cc : Cond) (rel seg : Byte) (target : Word) (n : RegNo) (s : State),
    let an := gprAddr s.cp .word n
    (condHolds cc s.flags = true →
      (∃ note, exec (.jmpr cc rel) s = .next { s with ip := s.ip + 2 * rel.signExtend 16, branchTarget := note }) ∧
      (∃ note, exec (.jmpa cc target) s = .next { s with ip := target, branchTarget := note }) ∧
      (s.cp ≤ 0xFFE0 → canRead s .word an = true → ∃ note,
        exec (.jmpi cc n) s = .next { touch an s with ip := peekWord s an, branchTarget := note })) ∧
    (condHolds cc s.flags = false →
      exec (.jmpr cc rel) s = .next s ∧ exec (.jmpa cc target) s = .next s ∧ exec (.jmpi cc n) s = .next s) ∧
    (segmentationDisabled s = false ∨ seg = 0 → ∃ note,
      exec (.jmps seg target) s = .next { s with csp := seg.setWidth 16, ip := target, branchTarget := note }) ∧
    (segmentationDisabled s = true → seg ≠ 0 → exec (.jmps seg target) s = .refused .segmentation)

/-- Where a branch goes: with `rel` to the following instruction plus twice the signed byte, even whenever that
instruction is at an even address; FFH and FEH reach a two-byte and a four-byte branch itself (R382). -/
def Obligations.RelativeTargets : Prop :=
  ∀ (s : State) (rel : Byte),
    relTarget s rel = BitVec.ofInt 16 (s.ip.toNat + 2 * rel.toInt) ∧
    (s.ip.getLsbD 0 = false → (relTarget s rel).getLsbD 0 = false) ∧
    (∀ here : Word, s.ip = here + 2 → relTarget s 0xFF = here) ∧
    (∀ here : Word, s.ip = here + 4 → relTarget s 0xFE = here)

/-- JB and JNB jump exactly when the bit is 1, or 0, and change no flag. JBC and JNBS complement such a bit and jump; either
way Z and N tell its old value, unless it is a bit of PSW (46_jump_call R387 to R390). -/
def Obligations.BitJumpResult : Prop :=
  ∀ (b : Bool) (qq : Byte) (q : BitVec 4) (rel : Byte) (s : State),
    let at1 := bitoffAddr s qq
    let old := peekWord s at1
    let bit := old.getLsbD q.toNat
    let target := s.ip + 2 * rel.signExtend 16
    shortStop s.cp qq = none →
    (canRead s .word at1 = true → exec (if b then .jb qq q rel else .jnb qq q rel) s =
      .next (if bit = b then jumpNear target (touch at1 s) else touch at1 s)) ∧
    (canWrite s .word at1 = true →
      ∃ new : Word, (∀ j, j < 16 → new.getLsbD j = if j = q.toNat then !b else old.getLsbD j) ∧
      exec (if b then .jbc qq q rel else .jnbs qq q rel) s =
      .next (flagsUnlessPsw at1 { e := false, z := !bit, v := false, c := false, n := bit }
        (if bit = b then jumpNear target (pokeWord at1 new (touch at1 s)) else touch at1 s)))

/-- CALLA, CALLI and CALLR push the address of the following instruction and jump; CALLA and CALLI do so only if the
condition holds and else do nothing (R391, R392, R393). -/
def Obligations.CallResult : Prop :=
  ∀ (cc : Cond) (a : Word) (n : RegNo) (rel : Byte) (s : State),
    let an := gprAddr s.cp .word n
    (condHolds cc s.flags = true → pushReady s = true →
      exec (.calla cc a) s = .next (jumpNear a (pushed s.ip s))) ∧
    (condHolds cc s.flags = true → pushReady s = true → s.cp ≤ 0xFFE0 → canRead s .word an = true →
      exec (.calli cc n) s = .next (jumpNear (peekWord s an) (pushed s.ip (touch an s)))) ∧
    (pushReady s = true → exec (.callr rel) s = .next (jumpNear (s.ip + 2 * rel.signExtend 16) (pushed s.ip s))) ∧
    (condHolds cc s.flags = false → exec (.calla cc a) s = .next s ∧ exec (.calli cc n) s = .next s)

/-- CALLS pushes CSP, then the return address, and loads CSP and IP; PCALL pushes a word operand, then the return address, and
jumps, with E, Z and N from the word, also where a push landed on PSW (R394, R395). That CALLS to a segment other than 0 is
refused with SGTDIS set is the spec's own decision D17 (R398, log 19); that SGTDIS is tested before the pushes, which can land
on SYSCON, is the model's choice (log 19). -/
def Obligations.LongCallResult : Prop :=
  ∀ (seg r : Byte) (a : Word) (s : State),
    (segmentationDisabled s = false ∨ seg = 0 → pushReady s = true → pushReady (pushed s.csp s) = true →
      exec (.calls seg a) s = .next (jumpFar seg a (pushed s.ip (pushed s.csp s)))) ∧
    (segmentationDisabled s = true → seg ≠ 0 → exec (.calls seg a) s = .refused .segmentation) ∧
    (let at1 := regAddr s.cp s .word r
     let v := peekWord s at1
     let s1 := touch at1 s
     let s2 := pushed v s1
     shortStop s.cp r = none → canRead s .word at1 = true → pushReady s = true → pushReady s2 = true →
     let s4 := jumpNear a (pushed s.ip s2)
     exec (.pcall r a) s = .next (s4.setFlags { s4.flags with e := v == 0x8000, z := v == 0, n := v.msb }))

/-- TRAP with its pushes in ordinary memory: PSW, CSP with segmentation enabled, and the return address are on the
stack, CSP is 0, IP at 4 times the trap number, and all else is as before, PSW and the trap flags with it (R396). -/
def Obligations.SoftwareTrapResult : Prop :=
  ∀ (n : BitVec 7) (s : State), Memory.wf s.mem = true → stackPlain s 3 = true →
    (segmentationDisabled s = false → ∃ t, exec (.trap n) s = .next t ∧
      t.ip = 4 * n.setWidth 16 ∧ t.csp = 0 ∧ t.sp = spAfter s 3 ∧ peekWord t (slot s 1) = s.psw ∧
      peekWord t (slot s 2) = s.csp ∧ peekWord t (slot s 3) = s.ip ∧ keeps [.sp, .csp] (slotBytes s 3) s t) ∧
    (segmentationDisabled s = true → ∃ t, exec (.trap n) s = .next t ∧
      t.ip = 4 * n.setWidth 16 ∧ t.csp = s.csp ∧ t.sp = spAfter s 2 ∧ peekWord t (slot s 1) = s.psw ∧
      peekWord t (slot s 2) = s.ip ∧ keeps [.sp] (slotBytes s 2) s t)

/-- RET, RETS and RETP: IP is popped, then CSP, or a word into a register with E, Z and N from that word (47_return R420 to
R422). That RETS to a segment other than 0 is refused with SGTDIS set is the spec's own decision D17 (46_jump_call R398, log
19); that RETP's store is checked against the code ahead of the return is the model's choice (log 15). -/
def Obligations.ReturnResult : Prop :=
  ∀ (r : Byte) (s : State),
    let s1 := popped s
    let s2 := popped s1
    popReady s = true →
    exec .ret s = .next (jumpNear (topWord s) s1) ∧
    (popReady s1 = true →
      (segmentationDisabled s = false ∨ lowByte (topWord s1) = 0 →
        exec .rets s = .next (jumpFar (lowByte (topWord s1)) (topWord s) s2)) ∧
      (segmentationDisabled s = true → lowByte (topWord s1) ≠ 0 → exec .rets s = .refused .segmentation) ∧
      (let dst := regAddr s.cp s .word r
       let v := topWord s1
       let s3 := pokeWord dst v s2
       shortStop s.cp r = none → canWrite s .word dst = true →
       exec (.retp r) s = .next (jumpNear (topWord s)
         (flagsUnlessPsw dst { s3.flags with e := v == 0x8000, z := v == 0, n := v.msb } s3))))

/-- RETI pops IP, CSP if segmentation is enabled, and the whole PSW, in this order: the popped CSP is in place when the PSW
word is read (R423). A popped PSW with MULIP set is refused
(D15, log 18). -/
def Obligations.ReturnFromInterruptResult : Prop :=
  ∀ s : State,
    let s1 := popped s
    let s2 := popped s1
    popReady s = true → popReady s1 = true →
    (segmentationDisabled s = true →
      ((topWord s1).getLsbD 5 = false →
        exec .reti s = .next (jumpNear (topWord s) (setReg .psw (topWord s1) s2))) ∧
      ((topWord s1).getLsbD 5 = true → exec .reti s = .refused .mulip)) ∧
    (let s3 := { s2 with csp := (lowByte (topWord s1)).setWidth 16 }
     segmentationDisabled s = false → popReady s3 = true →
      ((topWord s3).getLsbD 5 = false →
        exec .reti s = .next (jumpNear (topWord s) (setReg .psw (topWord s3) (popped s3)))) ∧
      ((topWord s3).getLsbD 5 = true → exec .reti s = .refused .mulip))

/-! ## Results: system control, sequences, stack moves -/

/-- NOP changes nothing and counts as one instruction of a sequence; its word is CC 00 (49_stack_misc R463). -/
def Obligations.NopResult : Prop :=
  decode 0xCC 0x00 0 0 = .ok .nop ∧ lengthOf 0xCC = 2 ∧
  (∀ s : State, exec .nop s = .next s) ∧ (∀ s : State, afterInstr .nop s = countDown s)

/-- IDLE, PWRDN (with the NMI pin low; else it does nothing), SRVWDT, DISWDT and EINIT have exactly these effects; DISWDT
works only until SRVWDT or EINIT (48_system_control R431 to R435). The reload value 00H is a parameter (log 22). -/
def Obligations.SystemControlResult : Prop :=
  ∀ s : State,
    exec .idle s = .next { s with run := .idle } ∧
    exec .pwrdn s = .next (if s.nmiPinLow then { s with run := .powerdown } else s) ∧
    exec .srvwdt s = .next { s with wdt := ⟨s.wdt.enabled, false, 0x0000⟩ } ∧
    exec .diswdt s = .next (if s.wdt.canDisable then { s with wdt := ⟨false, true, s.wdt.counter⟩ } else s) ∧
    exec .einit s = .next { s with initDone := true, wdt := ⟨s.wdt.enabled, false, s.wdt.counter⟩ }

/-- SRST resets the machine: PSW 0000H, the DPPs 0 to 3, RSTOUT low, watchdog enabled, no sequence, running (R430, 70_reset
R600, R602). The values of IP, CSP, CP, SP, MDL, MDH, MDC, TFR and the watchdog counter are the family's (log 3), SYSCON 0 is the model's choice
(log 38), and that memory stays is the spec's own decision D26 (log 33). -/
def Obligations.SoftwareResetResult : Prop :=
  ∀ s : State, ∃ t, exec .srst s = .next t ∧ resetTaken .software s t ∧ t.pending = s.pending

/-- ATOMIC, EXTR and the EXTend instructions begin a locked sequence of the given length with their override and ESFR
switch, in place of any sequence in progress; the forms with a register take the page from its low ten bits or the segment
from its low eight (48_system_control R436 to R441, R450; that an inner sequence replaces the outer one whole is the spec's
decision D21, log 28). -/
def Obligations.SequenceResult : Prop :=
  ∀ i (s : State),
    (∀ q, sequenceForm i = some q → exec i s = .next { s with seq := q }) ∧
    (∀ m f, registerSequenceForm i = some (m, f) →
      let am := gprAddr s.cp .word m
      s.cp ≤ 0xFFE0 → canRead s .word am = true → exec i s = .next { touch am s with seq := f (peekWord s am) })

/-- PUSH stores the word read before SP moves; POP reads the top of stack, moves SP, then writes the register; E, Z and N
come from the word, with PUSH always and with POP unless PSW was the destination. SCXT reads the register and the new value, pushes the old one, then
writes the register, and changes no flag (49_stack_misc R460 to R462). -/
def Obligations.StackMoveResult : Prop :=
  ∀ (r : Byte) (new a : Word) (s : State),
    let at1 := regAddr s.cp s .word r
    let old := peekWord s at1
    let s1 := touch at1 s
    shortStop s.cp r = none →
    (canRead s .word at1 = true → pushReady s = true →
      exec (.push r) s = .next ((pushed old s1).setFlags
        { (pushed old s1).flags with e := old == 0x8000, z := old == 0, n := old.msb })) ∧
    (popReady s = true → canWrite s .word at1 = true →
      let v := topWord s
      let t := pokeWord at1 v (popped s)
      exec (.pop r) s = .next (flagsUnlessPsw at1 { t.flags with e := v == 0x8000, z := v == 0, n := v.msb } t)) ∧
    (canWrite s .word at1 = true → pushReady s = true →
      exec (.scxtRegData16 r new) s = .next (pokeWord at1 new (pushed old s1)) ∧
      (canRead s .word (dataAddr s1 a) = true →
        exec (.scxtRegMem r a) s =
          .next (pokeWord at1 (peekWord s1 (dataAddr s1 a)) (pushed old (touch (dataAddr s1 a) s1)))))

/-! ## Frames: what an instruction that goes on leaves unchanged

Each says "or it took the odd-address trap": the alternative `raise .illopa s.ip s = .next t` is that entry, whose own
frame `HardwareTrapEntry` gives. The model's notes, the last branch target and the counter of free values, are in no frame. -/

/-- ADD to XOR, unless they took the odd-address trap, change only their destination, an auto-incremented pointer, the
condition flags and MDRIU, and leave IP at the following instruction. -/
def Obligations.AluFrame : Prop :=
  ∀ i op w dst src (s t : State), aluForm i = some (op, w, dst, src) → exec i s = .next t →
    raise .illopa s.ip s = .next t ∨
    ∀ at1 s1, locate s.cp w dst s = .ok (at1, s1) →
      dataFrame (accessBytes w at1 ++ sourcePointerBytes s.cp src) s t ∧ t.ip = s.ip

/-- CMP and CMPB, unless they took the odd-address trap, change only an auto-incremented pointer, the condition flags and
MDRIU; BCMP only the flags and MDRIU; IP stays at the following instruction. -/
def Obligations.CompareFrame : Prop :=
  ∀ (s t : State),
    (∀ i w op1 op2, compareForm i = some (w, op1, op2) → exec i s = .next t →
      raise .illopa s.ip s = .next t ∨ (dataFrame (sourcePointerBytes s.cp op2) s t ∧ t.ip = s.ip)) ∧
    (∀ zz z qq q, exec (.bcmp zz z qq q) s = .next t →
      raise .illopa s.ip s = .next t ∨ (dataFrame [] s t ∧ t.ip = s.ip))

/-- NEG, CPL, PRIOR, the shifts and the compares with a step, unless they took the odd-address trap, change only their GPR,
the condition flags and MDRIU, and leave IP at the following instruction. -/
def Obligations.GprFrame : Prop :=
  ∀ i w n (s t : State), gprDestination i = some (w, n) → exec i s = .next t →
    raise .illopa s.ip s = .next t ∨ (dataFrame (accessBytes w (gprAddr s.cp w n)) s t ∧ t.ip = s.ip)

/-- MUL to DIVLU, unless they took the odd-address trap, change only MDL, MDH, the condition flags and MDRIU, and leave IP
at the following instruction. -/
def Obligations.MultiplyDivideFrame : Prop :=
  ∀ i n m (s t : State),
    i ∈ [Instr.mul n m, .mulu n m, .div n, .divu n, .divl n, .divlu n] → exec i s = .next t →
    raise .illopa s.ip s = .next t ∨
    (keeps [.psw, .mdl, .mdh, .mdc] [] s t ∧ onlyFlags [] s t ∧ onlyMdriu [] s t ∧ t.ip = s.ip)

/-- The moves, unless they took the odd-address trap, change only their destination, auto-modified pointers, E, Z and N, and
MDRIU, and leave IP at the following instruction. The destination is located in the state after the source is read. -/
def Obligations.MoveFrame : Prop :=
  ∀ i kind dst src (s t : State), moveForm i = some (kind, dst, src) → exec i s = .next t →
    raise .illopa s.ip s = .next t ∨
    ∀ v s1 at1 s2, readSource s.cp kind.src src s = .ok (v, s1) → locate s.cp kind.dst dst s1 = .ok (at1, s2) →
      let stored := accessBytes kind.dst at1 ++ pointerBytes s.cp dst ++ sourcePointerBytes s.cp src
      keeps [.psw, .mdc] stored s t ∧ onlyEzn stored s t ∧ onlyMdriu stored s t ∧ t.ip = s.ip

/-- The instructions that write a bit or bit field, unless they took the odd-address trap, change only the word they
address, the condition flags, MDRIU and, JBC and JNBS, IP. -/
def Obligations.BitFrame : Prop :=
  ∀ i qq (s t : State), bitDestination i = some qq → exec i s = .next t →
    raise .illopa s.ip s = .next t ∨
    (dataFrame (accessBytes .word (bitoffAddr s qq)) s t ∧
      ((∀ q rel, i ≠ .jbc qq q rel ∧ i ≠ .jnbs qq q rel) → t.ip = s.ip))

/-- Unless they took the odd-address trap, JB, JNB and JMPI change nothing but IP and MDRIU, and the EXTend instructions
with a register nothing but MDRIU and the sequence. -/
def Obligations.NoStoreFrame : Prop :=
  ∀ (s t : State),
    (∀ i, ((∃ qq q rel, i = .jb qq q rel ∨ i = .jnb qq q rel) ∨ ∃ cc n, i = .jmpi cc n) → exec i s = .next t →
      raise .illopa s.ip s = .next t ∨ (keeps [.mdc] [] s t ∧ onlyMdriu [] s t)) ∧
    (∀ i m f, registerSequenceForm i = some (m, f) → exec i s = .next t →
      raise .illopa s.ip s = .next t ∨
      (keeps [.mdc] [] s { t with seq := s.seq } ∧ onlyMdriu [] s t ∧ t.ip = s.ip ∧ ∃ v, t.seq = f v))

/-- Unless they took the odd-address trap, PUSH, SCXT and the calls change only the stack words they push, SP, MDRIU, the
calls IP, PUSH and PCALL the flags E, Z and N, SCXT its register, CALLS CSP. -/
def Obligations.PushFrame : Prop :=
  ∀ (s t : State),
    (∀ r, exec (.push r) s = .next t → raise .illopa s.ip s = .next t ∨
      (keeps [.sp, .psw, .mdc] (pushBytes s) s t ∧ onlyEzn (pushBytes s) s t ∧ onlyMdriu (pushBytes s) s t ∧
        t.ip = s.ip)) ∧
    (∀ i, ((∃ cc a, i = .calla cc a) ∨ (∃ cc n, i = .calli cc n) ∨ ∃ rel, i = .callr rel) → exec i s = .next t →
      raise .illopa s.ip s = .next t ∨ (keeps [.sp, .mdc] (pushBytes s) s t ∧ onlyMdriu (pushBytes s) s t)) ∧
    (∀ r i, ((∃ d, i = .scxtRegData16 r d) ∨ ∃ a, i = .scxtRegMem r a) → exec i s = .next t →
      raise .illopa s.ip s = .next t ∨
      ∀ at1 s1, locate s.cp .word (.reg r) s = .ok (at1, s1) →
        (keeps [.sp, .mdc] (pushBytes s ++ accessBytes .word at1) s t ∧
          onlyMdriu (pushBytes s ++ accessBytes .word at1) s t ∧ t.ip = s.ip)) ∧
    (∀ seg a, exec (.calls seg a) s = .next t → raise .illopa s.ip s = .next t ∨
      ∀ s1, push s.csp s = .ok s1 →
        (keeps [.sp, .csp, .mdc] (pushBytes s ++ pushBytes s1) s t ∧ onlyMdriu (pushBytes s ++ pushBytes s1) s t)) ∧
    (∀ r a, exec (.pcall r a) s = .next t → raise .illopa s.ip s = .next t ∨
      ∀ v s1 s2, readLoc s.cp .word (.reg r) s = .ok (v, s1) → push v s1 = .ok s2 →
        (keeps [.sp, .psw, .mdc] (pushBytes s ++ pushBytes s2) s t ∧ onlyEzn (pushBytes s ++ pushBytes s2) s t ∧
          onlyMdriu (pushBytes s ++ pushBytes s2) s t))

/-- Unless they took the odd-address trap, POP and the returns change only SP, MDRIU, the returns IP, POP and RETP their
register and the flags E, Z and N, RETS CSP, RETI CSP and PSW. -/
def Obligations.PopFrame : Prop :=
  ∀ (s t : State),
    (∀ r i, i ∈ [Instr.pop r, .retp r] → exec i s = .next t → raise .illopa s.ip s = .next t ∨
      ∀ at1 s1, locate s.cp .word (.reg r) s = .ok (at1, s1) →
        (keeps [.sp, .psw, .mdc] (accessBytes .word at1) s t ∧ onlyEzn (accessBytes .word at1) s t ∧
          onlyMdriu (accessBytes .word at1) s t ∧ (i = .pop r → t.ip = s.ip))) ∧
    (exec .ret s = .next t → raise .illopa s.ip s = .next t ∨ (keeps [.sp, .mdc] [] s t ∧ onlyMdriu [] s t)) ∧
    (exec .rets s = .next t → raise .illopa s.ip s = .next t ∨ (keeps [.sp, .csp, .mdc] [] s t ∧ onlyMdriu [] s t)) ∧
    (exec .reti s = .next t → raise .illopa s.ip s = .next t ∨
      (keeps [.sp, .csp, .psw, .mdc] [] s t ∧ onlyMdriu [] s t))

/-! ## Traps and interrupts -/

/-- A hardware trap whose pushes go to ordinary memory: the entry of 60_exceptions R510 takes place at 4 times the trap
number with ILVL 15, the trap's flag is set in TFR, and a class B trap ends a sequence. The trap numbers, flags and level
are the spec's offered defaults (log 24); that the entry takes place and the run goes on, where the spec's default ends the
run, is the model's choice (log 1). -/
def Obligations.HardwareTrapEntry : Prop :=
  ∀ (trap : HwTrap) (ret : Word) (s : State), Memory.wf s.mem = true → stackPlain s 3 = true →
    ∃ t, raise trap ret s = .next t ∧ entered trap.number ret 15 s t ∧
      t.tfr = s.tfr ||| trap.flag ∧ t.seq = if trap.classB then Sequence.idle else s.seq

/-- A word access at an odd address does not take place: it traps, and the trap is taken from the state in which the
instruction began, with nothing of the instruction done; a byte access never traps (20_memory R76, 60_exceptions R502). So
for every instruction whose operand, pointer register, bit word, stack word or GPR the odd word is, where the accesses before
it take place: arithmetic, logic, compares, moves, all that reads or writes a word GPR (in a bank at an odd CP), bits, PUSH,
SCXT, PCALL, POP and the returns (from an odd SP). A push never meets one, since bit 0 of SP is 0. CP and SP are odd in no
run: their bit 0 is fixed (log 11). With CP above FFE0H a GPR access is refused instead (D10, log 10); pointers lie in
ordinary memory.
That nothing was done is the spec's own decision D23 (R511, log 25), the return address is D24 (log 24), and that the trap is
taken, where the spec's default ends the run, is the model's choice (log 1). -/
def Obligations.OddWordTraps : Prop :=
  (∀ (s : State) (a : Addr), a.getLsbD 0 = true →
    (∀ v, writeMem .word a v s = .error (.trap .illopa)) ∧ readMem .word a s = .error (.trap .illopa)) ∧
  (∀ (s : State) (a : Addr), readStop s .byte a ≠ some (.trap .illopa) ∧ writeStop s .byte a ≠ some (.trap .illopa)) ∧
  (∀ s : State, (stackAddr (setReg .sp (s.sp - 2) s)).getLsbD 0 = false) ∧
  (∀ s : State, s.cp ≤ 0xFFE0 →
    let traps := fun i => exec i s = raise .illopa s.ip s
    (∀ i w op1 src, ((∃ op, aluForm i = some (op, w, op1, src)) ∨ compareForm i = some (w, op1, src)) →
      let at1 := operandAddr s.cp s w op1
      (meetsOdd s.cp s w op1 = true → traps i) ∧
      (canRead s w at1 = true → sourceMeetsOdd s.cp (touch at1 s) w src = true → traps i)) ∧
    (∀ i k n op2, stepForm i = some (k, n, op2) →
      let at1 := gprAddr s.cp .word n
      canRead s .word at1 = true → sourceMeetsOdd s.cp (touch at1 s) .word op2 = true → traps i) ∧
    (∀ i kind dst src, moveForm i = some (kind, dst, src) →
      let s1 := prepared s.cp kind.dst dst (afterSource s.cp s kind.src src)
      (sourceMeetsOdd s.cp s kind.src src = true → traps i) ∧
      (sourcePointerPlain s src = true → sourceReady s.cp s kind.src src = true → meetsOdd s.cp s1 kind.dst dst = true →
        traps i)) ∧
    (s.cp.getLsbD 0 = true →
      (∀ i n, gprDestination i = some (.word, n) → traps i) ∧
      (∀ n m, ∀ i ∈ [Instr.mul n m, .mulu n m, .div n, .divu n, .divl n, .divlu n], traps i) ∧
      (∀ cc n, condHolds cc s.flags = true → traps (.jmpi cc n) ∧ traps (.calli cc n)) ∧
      (∀ i m f, registerSequenceForm i = some (m, f) → traps i)) ∧
    (∀ i qq, (bitDestination i = some qq ∨ ∃ q rel, i = .jb qq q rel ∨ i = .jnb qq q rel) →
      (bitoffAddr s qq).getLsbD 0 = true → traps i) ∧
    (∀ i zz z qq q, ((∃ op, bitForm i = some (op, zz, z, qq, q)) ∨ i = .bcmp zz z qq q) →
      ((bitoffAddr s zz).getLsbD 0 = true → traps i) ∧
      (canRead s .word (bitoffAddr s zz) = true → (bitoffAddr s qq).getLsbD 0 = true → traps i)) ∧
    (∀ r a d, let at1 := regAddr s.cp s .word r
      (at1.getLsbD 0 = true →
        (∀ i ∈ [Instr.push r, .pcall r a, .scxtRegData16 r d, .scxtRegMem r a], traps i) ∧
        (popReady s = true → traps (.pop r) ∧ (popReady (popped s) = true → traps (.retp r)))) ∧
      (canRead s .word at1 = true → (dataAddr (touch at1 s) a).getLsbD 0 = true → traps (.scxtRegMem r a)) ∧
      (s.sp.getLsbD 0 = true → ∀ i ∈ [Instr.ret, .rets, .reti, .pop r, .retp r], traps i)))

/-- A class B trap ends an ATOMIC/EXTend sequence; while a class B flag is set data addresses use the DPPs; a software
TRAP does not end a sequence; and a class A trap is not taken inside one (48_system_control R453). Which flags are class B,
the mask 008FH, is the family's layout of TFR (log 3), which traps are class B is the family's table (log 24), and that the
NMI event is the class A trap offered is log 20. -/
def Obligations.ClassBEndsSequence : Prop :=
  (∀ (trap : HwTrap) (ret : Word) (s t : State), trap.classB = true → raise trap ret s = .next t →
    t.seq.count = 0 ∧ t.seq.lock = false ∧ t.seq.override = .none ∧ t.seq.esfr = false) ∧
  (∀ (s : State) (a : Word), s.tfr &&& 0x008F ≠ 0 → dataAddr s a = pageAddr ((dppOf s a).extractLsb' 0 10) a) ∧
  (∀ (n : BitVec 7) (s : State), Memory.wf s.mem = true → stackPlain s 3 = true →
    ∃ t, exec (.trap n) s = .next t ∧ t.seq = s.seq) ∧
  (∀ (s : State), s.seq.lock = true → nextEvent s ≠ some .nmi)

/-- A software TRAP followed, anywhere, by RETI restores IP, CSP, PSW and SP, and every byte of memory but the stack words
below, with segmentation enabled or disabled (46_jump_call R396, 47_return R423, 60_exceptions R514). Where the saved PSW has
MULIP set the RETI is refused, the spec's own decision D15 (log 18). -/
def Obligations.EntryThenReturn : Prop :=
  ∀ (n : BitVec 7) (s t : State), StateInv s → stackPlain s 3 = true → exec (.trap n) s = .next t →
    ∀ here : Word,
      (s.psw.getLsbD 5 = false → ∃ u, exec .reti { t with ip := here } = .next u ∧
        u.ip = s.ip ∧ u.csp = s.csp ∧ u.psw = s.psw ∧ u.sp = s.sp ∧ keeps [] (slotBytes s 3) s u) ∧
      (s.psw.getLsbD 5 = true → exec .reti { t with ip := here } = .refused .mulip)

/-- What is accepted at an instruction boundary when one request is offered: an interrupt or PEC transfer needs no
lock, IEN and a level above ILVL; an NMI needs no lock; in power down only a hardware reset is accepted (60_exceptions
R521, R508, R523, R530, R533; the conditions on IEN and ILVL are the family's, log 20). -/
def Obligations.EventAcceptance : Prop :=
  ∀ (s : State) (level : BitVec 4) (number : BitVec 7) (w : Width) (a : Addr) (v : Word),
    let isOpen := s.run ≠ .powerdown ∧ s.seq.lock = false
    let enabled := s.psw.getLsbD 11 = true ∧ (s.psw.extractLsb' 12 4).toNat < level.toNat
    (s.pending = [.irq level number] → (nextEvent s = some (.irq level number) ↔ isOpen ∧ enabled)) ∧
    (s.pending = [.pec level w a v] → (nextEvent s = some (.pec level w a v) ↔ isOpen ∧ enabled)) ∧
    (s.pending = [.nmi] → (nextEvent s = some .nmi ↔ isOpen)) ∧
    (s.pending = [.wdtOverflow] → (nextEvent s = some .wdtOverflow ↔ s.run ≠ .powerdown ∧ s.wdt.enabled = true)) ∧
    (s.pending = [.hardwareReset] → nextEvent s = some .hardwareReset)

/-- The step that accepts an interrupt is the entry of R510 with the request's level and the current IP as return
address; it ends idle mode and sets no trap flag (R522, R532). That ILVL becomes the request's level and IEN is kept is the
family's rule, which R522 marks as general knowledge (log 20). -/
def Obligations.InterruptEntry : Prop :=
  ∀ (s : State) (level : BitVec 4) (number : BitVec 7), nextEvent s = some (.irq level number) →
    Memory.wf s.mem = true → stackPlain s 3 = true →
    ∃ t, step s = .next t ∧ entered number s.ip level s t ∧ t.tfr = s.tfr ∧ t.seq = s.seq ∧ t.run = .running ∧
      t.pending = s.pending.erase (.irq level number)

/-- Power down ends only by a hardware reset, and in idle mode with nothing acceptable the machine waits (R512, R532, R533).
That a request which is offered but not acceptable does not end the wait is the spec's own decision D22 (log 21). -/
def Obligations.PoweredDownWaits : Prop :=
  ∀ s : State,
    (s.run = .powerdown → .hardwareReset ∉ s.pending → step s = .next s) ∧
    (s.run = .powerdown → .hardwareReset ∈ s.pending →
      step s = .next (resetWith .hardware { s with pending := s.pending.erase .hardwareReset })) ∧
    (s.run = .idle → nextEvent s = none → step s = .next s)

/-- The sequence counter: each instruction but an ATOMIC or EXTend one (`sequenceForm`, `registerSequenceForm`) takes one from a count above 0, and the last
covered one restores the standard condition; nothing else of the state changes (48_system_control R452). An IDLE that is the
last covered one counts like any other, but the lock persists while the CPU waits (R431, 60_exceptions R532), which is the
model's choice against R452 (log 21). -/
def Obligations.SequenceCountsDown : Prop :=
  ∀ (i : Instr) (s : State),
    ((sequenceForm i).isSome ∨ (registerSequenceForm i).isSome → afterInstr i s = s) ∧
    (sequenceForm i = none → registerSequenceForm i = none → sequenceOk s.seq = true →
      (afterInstr i s).seq.count = s.seq.count - 1 ∧
      (s.seq.count ≤ 1 → (afterInstr i s).seq = ⟨0, i == .idle && s.seq.count == 1, .none, false⟩) ∧
      (i ≠ .idle ∨ s.seq.count ≠ 1 → sequenceOk (afterInstr i s).seq = true) ∧
      (2 ≤ s.seq.count → (afterInstr i s).seq.lock = true ∧ (afterInstr i s).seq.override = s.seq.override ∧
        (afterInstr i s).seq.esfr = s.seq.esfr) ∧
      { afterInstr i s with seq := s.seq } = s)

/-! ## Addresses and memory -/

/-- While no class B trap flag is set: inside an EXTP or EXTPR sequence the page number comes from the instruction and
the page offset from the low 14 bits of the address, and bits 15 and 14 are ignored; inside an EXTS or EXTSR sequence the
segment comes from the instruction and the whole address is the offset (20_memory R90 to R93). Which flags of TFR are class
B, the mask 008FH, is the family's layout (log 3). -/
def Obligations.AddressOverrides : Prop :=
  ∀ (s : State) (a : Word), s.tfr &&& 0x008F = 0 →
    (∀ p, s.seq.override = .page p →
      (dataAddr s a).extractLsb' 14 10 = p ∧ (dataAddr s a).extractLsb' 0 14 = a.extractLsb' 0 14 ∧
      dataAddr s (a &&& 0x3FFF) = dataAddr s a) ∧
    (∀ g, s.seq.override = .seg g → (dataAddr s a).extractLsb' 16 8 = g ∧ (dataAddr s a).extractLsb' 0 16 = a)

/-- Outside a sequence the page is the low ten bits of the DPP that bits 15 and 14 select; with the reset values of the
DPPs every long address is its own physical address (R90, 10_state R34). -/
def Obligations.DataPagePointers : Prop :=
  (∀ (s : State) (a : Word), s.seq.override = .none →
    (dataAddr s a).extractLsb' 0 14 = a.extractLsb' 0 14 ∧
    (dataAddr s a).extractLsb' 14 10 =
      (if a.toNat < 0x4000 then s.dpp0 else if a.toNat < 0x8000 then s.dpp1 else if a.toNat < 0xC000 then s.dpp2
        else s.dpp3).extractLsb' 0 10) ∧
  (∀ (s : State) (a : Word), s.seq.override = .none → s.dpp0 = 0 → s.dpp1 = 1 → s.dpp2 = 2 → s.dpp3 = 3 →
    dataAddr s a = a.setWidth 24)

/-- The word of a `bitoff`: 00H to 7FH internal RAM, 80H to EFH an SFR (an ESFR in an EXTR sequence), F0H to FFH a word
GPR; from 80H to EFH the SFR word is the one `reg` names (20_memory R84). -/
def Obligations.BitoffAddresses : Prop :=
  ∀ (s : State) (b : Byte),
    (b.toNat < 0x80 → (bitoffAddr s b).toNat = 0xFD00 + 2 * b.toNat) ∧
    (0x80 ≤ b.toNat → b.toNat < 0xF0 → s.seq.esfr = false → (bitoffAddr s b).toNat = 0xFF00 + 2 * (b.toNat - 0x80) ∧
      bitoffAddr s b = regAddr s.cp s .word b) ∧
    (0x80 ≤ b.toNat → b.toNat < 0xF0 → s.seq.esfr = true → (bitoffAddr s b).toNat = 0xF100 + 2 * (b.toNat - 0x80)) ∧
    (0xF0 ≤ b.toNat → (bitoffAddr s b).toNat = s.cp.toNat + 2 * (b.toNat - 0xF0))

/-- Memory is little-endian, and a store changes only its bytes: after a word write to ordinary memory its two bytes read
as the low and high byte of the value, the word reads back, and every other byte reads as before (20_memory R72 to R74).
At a CPU register's address a data read gives the register, with the side effect of a read of MDL (10_state R36, R45). A word
written there is held, up to the fixed bits that `dataRegisters` spells (logs 11, 12; PSW's: log 13; the addresses but PSW's and
the bit MDRIU: log 3). A byte written by `reg`, `mem` or an indirect address clears the high byte, the spec's default (20_memory
R83), and through the odd address leaves the low byte open (log 6). In PSW the other byte is cleared in every mode (10_state
R30). A data write of CSP is refused (log 14).
A byte stored to a byte GPR changes one byte only, also where the bank lies over a CPU register (40_arithmetic R217, 93 U10),
but for MDRIU, which a write of MDL or MDH sets, and but for PSW, where the other byte is cleared (10_state R30; log 6). A
pushed word pops back and SP returns (R107, R108; SP's fixed bits are the family's, log 11). -/
def Obligations.StoreThenLoad : Prop :=
  ∀ (s : State) (a : Addr) (v : Word), Memory.wf s.mem = true →
    (plainWord s a = true → ∃ t, writeMem .word a v s = .ok t ∧
      peekByte t a = lowByte v ∧ peekByte t (a + 1) = highByte v ∧ readMem .word a t = .ok (v, t) ∧
      (∀ b, b ≠ a → b ≠ a + 1 → peekByte t b = peekByte s b)) ∧
    (∀ x ∈ (0x00FF10, s.psw) :: (0x00FE08, s.csp) :: (dataRegisters s).map (fun x => (x.1, x.2.1)),
      peekWord s x.1 = x.2 ∧ peekByte s x.1 = lowByte x.2 ∧ peekByte s (x.1 + 1) = highByte x.2 ∧
      readMem .word x.1 s = .ok (x.2, if x.1 = 0x00FE0E then { s with mdc := s.mdc &&& 0xFFEF } else s)) ∧
    (∀ r held write, (r, held, write) ∈ dataRegisters s → ∀ (l : Loc) (x : Byte),
      pokeWord r v s = write v ∧ (canWrite s .word r = true → writeMem .word r v s = .ok (write v)) ∧
      pokeTo l .byte r x s = write (wordOf x (if l.isGpr then highByte held else 0)) ∧
      ∃ low, pokeTo l .byte (r + 1) x s =
        if l.isGpr then write (wordOf (lowByte held) x) else { write (wordOf low x) with free := s.free + 1 }) ∧
    (∀ (l : Loc) (x : Byte), pokeWord 0x00FF10 v s = { s with psw := v &&& 0xFC7F } ∧
      pokeTo l .byte 0x00FF10 x s = { s with psw := wordOf x 0 &&& 0xFC7F } ∧
      pokeTo l .byte 0x00FF11 x s = { s with psw := wordOf 0 x &&& 0xFC7F }) ∧
    (∀ x : Byte, writeMem .word 0x00FE08 v s = .error (.refused .cspWrite) ∧
      writeMem .byte 0x00FE08 x s = .error (.refused .cspWrite) ∧ writeMem .byte 0x00FE09 x s = .error (.refused .cspWrite)) ∧
    (∀ (l : Loc) (x : Byte), l.isGpr = true → canWrite s .byte a = true → registersOk s = true →
      cpuRegAt a ≠ some .psw → ∃ t, writeTo l .byte a x s = .ok t ∧
        (cpuRegAt a = none → peekByte t a = x) ∧
        (∀ b, b ≠ a → (cpuRegAt b = some .mdc → cpuRegAt a = some .mdc) → peekByte t b = peekByte s b)) ∧
    (stackPlain s 1 = true → CpuReg.sp.stored s.sp = s.sp → ∃ t u, push v s = .ok t ∧ pop t = .ok (v, u) ∧ u.sp = s.sp)

/-- The condition flags E, Z, V, C and N are bits 4 to 0 of PSW, and setting them leaves the other bits (10_state R27). PSW as
a destination, where its address does not hold code fetched ahead: a word write replaces it (bits 9 to 7 read as
0, log 13), a byte write clears the other byte, a bit write changes one bit, and none of them sets the instruction's own flags
(10_state R30, R31). -/
def Obligations.PswDestination : Prop :=
  ∀ (d : Word) (v : Byte) (q : BitVec 4) (s : State), s.seq.esfr = false → s.psw &&& 0x0380 = 0 →
    (∀ (f : CondFlags) (j : Nat), j < 16 → (s.setFlags f).psw.getLsbD j =
      if j = 4 then f.e else if j = 3 then f.z else if j = 2 then f.v else if j = 1 then f.c else if j = 0 then f.n
      else s.psw.getLsbD j) ∧
    (canWrite s .word 0x00FF10 = true →
    exec (.movRegData16 0x88 d) s = .next { s with psw := d &&& 0xFC7F } ∧
    exec (.movbRegData8 0x88 v) s = .next { s with psw := wordOf v 0 &&& 0xFC7F } ∧
    (dataAddr s 0xFF11 = 0x00FF11 → s.cp ≤ 0xFFE0 → ∀ p, plainWord s (gprAddr s.cp .word p) = true →
      pointerWord s.cp s p = 0xFF11 → ∀ k, canRead s .byte (gprAddr s.cp .byte k) = true →
      cpuRegAt (gprAddr s.cp .byte k) = none →
      exec (.movbIndRb p k) s =
        .next { s with psw := wordOf 0 (peekByte s (gprAddr s.cp .byte k)) &&& 0xFC7F }) ∧
    ∃ new : Word, exec (.bset 0x88 q) s = .next { s with psw := new } ∧
      ∀ j, j < 16 → new.getLsbD j = if j = q.toNat ∧ ¬ (7 ≤ j ∧ j ≤ 9) then true else s.psw.getLsbD j)

/-- MDRIU: an operand read of MDL clears it, an operand write of MDL or MDH sets it, and other reads leave MDC alone
(10_state R36, 20_memory R79). The addresses and the bit are the family's (log 3); that the bytes of MDL and MDH act as the
words do is the model's deduction (log 26). -/
def Obligations.MultiplyDivideInUse : Prop :=
  ∀ (s t : State) (w : Width) (a : Addr) (v : BitVec w.bits),
    (∀ x, readMem w a s = .ok (x, t) →
      t = if a = 0x00FE0E ∨ a = 0x00FE0F then { s with mdc := s.mdc &&& 0xFFEF } else s) ∧
    (writeMem w a v s = .ok t → (a.toNat / 2 = 0x00FE0E / 2 ∨ a.toNat / 2 = 0x00FE0C / 2) →
      t.mdc = s.mdc ||| 0x0010)

/-! ## Reset and the invariant -/

/-- The values after reset that the spec states (10_state R46, 70_reset R600). -/
def Obligations.ResetValues : Prop :=
  State.reset.psw = 0x0000 ∧ State.reset.dpp0 = 0 ∧ State.reset.dpp1 = 1 ∧ State.reset.dpp2 = 2 ∧
  State.reset.dpp3 = 3 ∧ State.reset.initDone = false ∧ State.reset.wdt.enabled = true ∧
  State.reset.wdt.canDisable = true ∧ State.reset.seq = ⟨0, false, .none, false⟩ ∧ State.reset.run = .running

/-- The invariant holds after reset. -/
def Obligations.ResetInvariant : Prop := StateInv State.reset

/-- Every step keeps the invariant, whatever instruction, trap or event it takes: memory stays canonical and apart from
the registers, the hard-wired register bits read as they must, and the sequence is locked exactly while it covers one to
four instructions, or the CPU waits after an IDLE that ended one (10_state R26, R31 to R34, R40; the fixed bits are the
family's, logs 11 to 13; the wait is log 21). -/
def Obligations.StepKeepsInvariant : Prop :=
  ∀ s t : State, StateInv s → step s = .next t → StateInv t

/-! ## Accepted events -/

/-- What the step does that accepts an event. An NMI is the entry of trap 02H with the current IP, its flag is set, and idle
mode ends (60_exceptions R508, R510, R532). A PEC transfer is one write, and changes nothing else (R523); a word at an odd
address is refused (log 25); that a transfer into code ahead is refused, which canWrite excludes here, is log 41. A watchdog
overflow and a hardware reset give every register its value after reset (R530, 70_reset R600, R602). That these events exist is the model's choice of the spec's parameters (log 20); the NMI's number, flag and level
are the family's (log 24); the values after reset are those of logs 3, 33 and 38. -/
def Obligations.EventEffects : Prop :=
  ∀ s : State,
    (nextEvent s = some .nmi → Memory.wf s.mem = true → stackPlain s 3 = true →
      ∃ t, step s = .next t ∧ entered 0x02 s.ip 15 s t ∧ t.tfr = s.tfr ||| 0x8000 ∧ t.seq = s.seq ∧ t.run = .running ∧
        t.pending = s.pending.erase .nmi) ∧
    (∀ level w a v, nextEvent s = some (.pec level w a v) →
      let s1 := { s with pending := s.pending.erase (.pec level w a v) }
      (canWrite s w a = true → step s = .next (poke w a (v.setWidth w.bits) s1)) ∧
      (w = .word → a.getLsbD 0 = true → step s = .refused .entryAccess)) ∧
    (nextEvent s = some .wdtOverflow →
      ∃ t, step s = .next t ∧ resetTaken .watchdog s t ∧ t.pending = s.pending.erase .wdtOverflow) ∧
    (nextEvent s = some .hardwareReset →
      ∃ t, step s = .next t ∧ resetTaken .hardware s t ∧ t.pending = s.pending.erase .hardwareReset)
end

