-- ==== Sys2Proof/Laws/Memory.lean ====
section
/-! SUPPORT. The laws of the byte array: read after write, and the canonical form. -/

namespace Sys2Proof.Laws

open Sys2Proof.Machine

/-- A write leaves every other byte alone, in any memory. -/
theorem read_write_other (mem : List Host.Cell) (a b : Nat) (v : Byte) (h : b ≠ a) :
    Memory.read (Memory.write mem a v) b = Memory.read mem b := by
  induction mem with
  | nil => simp only [Memory.write]; split <;> simp [Memory.read, h]
  | cons cell rest ih =>
    obtain ⟨c, u⟩ := cell
    simp only [Memory.write]
    split
    · split <;> simp [Memory.read, h]
    · split
      · subst c; split <;> simp [Memory.read, h]
      · simp only [Memory.read, ih]

/-- In a canonical memory no address below the first cell is listed. -/
theorem read_below {low a : Nat} {mem : List Host.Cell} (h : Memory.wfFrom low mem = true) (ha : a < low) :
    Memory.read mem a = Memory.unwritten := by
  induction mem generalizing low with
  | nil => rfl
  | cons cell rest ih =>
    obtain ⟨c, u⟩ := cell
    simp only [Memory.wfFrom, Bool.and_eq_true, decide_eq_true_eq] at h
    rw [Memory.read, if_neg (by omega)]
    exact ih h.2 (by omega)

/-- A byte reads back what was last written to it. -/
theorem read_write_same {low : Nat} {mem : List Host.Cell} (a : Nat) (v : Byte)
    (h : Memory.wfFrom low mem = true) : Memory.read (Memory.write mem a v) a = v := by
  induction mem generalizing low with
  | nil => simp only [Memory.write]; split <;> simp_all [Memory.read]
  | cons cell rest ih =>
    obtain ⟨c, u⟩ := cell
    simp only [Memory.wfFrom, Bool.and_eq_true, decide_eq_true_eq] at h
    simp only [Memory.write]
    split
    · split
      · rw [Memory.read, if_neg (by omega), read_below h.2 (by omega)]; exact Eq.symm ‹_›
      · simp [Memory.read]
    · split
      · subst c
        split
        · rw [read_below h.2 (by omega)]; exact Eq.symm ‹_›
        · simp [Memory.read]
      · rw [Memory.read, if_neg ‹_›]; exact ih h.2

/-- A canonical memory is canonical from every lower bound. -/
theorem wfFrom_mono {low high : Nat} {mem : List Host.Cell} (hle : low ≤ high)
    (h : Memory.wfFrom high mem = true) : Memory.wfFrom low mem = true := by
  cases mem with
  | nil => rfl
  | cons cell rest =>
    obtain ⟨c, u⟩ := cell
    simp only [Memory.wfFrom, Bool.and_eq_true, decide_eq_true_eq] at h ⊢
    exact ⟨⟨⟨by omega, h.1.1.2⟩, h.1.2⟩, h.2⟩

/-- A write from a bound on keeps the canonical form from that bound. -/
theorem wfFrom_write {low a : Nat} {mem : List Host.Cell} (v : Byte) (hl : low ≤ a) (ha : a < 2 ^ 24)
    (h : Memory.wfFrom low mem = true) : Memory.wfFrom low (Memory.write mem a v) = true := by
  induction mem generalizing low with
  | nil => simp only [Memory.write]; split <;> simp_all [Memory.wfFrom]
  | cons cell rest ih =>
    obtain ⟨c, u⟩ := cell
    have h0 := h
    simp only [Memory.wfFrom, Bool.and_eq_true, decide_eq_true_eq, bne_iff_ne, ne_eq] at h
    simp only [Memory.write]
    split
    · split
      · exact h0
      · simp only [Memory.wfFrom, Bool.and_eq_true, decide_eq_true_eq, bne_iff_ne, ne_eq]
        exact ⟨⟨⟨hl, ha⟩, ‹_›⟩, ⟨⟨⟨by omega, h.1.1.2⟩, h.1.2⟩, h.2⟩⟩
    · split
      · split
        · exact wfFrom_mono (by omega) h.2
        · subst c
          simp only [Memory.wfFrom, Bool.and_eq_true, decide_eq_true_eq, bne_iff_ne, ne_eq]
          exact ⟨⟨⟨hl, ha⟩, ‹_›⟩, h.2⟩
      · simp only [Memory.wfFrom, Bool.and_eq_true, decide_eq_true_eq, bne_iff_ne, ne_eq]
        exact ⟨⟨⟨h.1.1.1, h.1.1.2⟩, h.1.2⟩, ih (by omega) h.2⟩

/-- Every write of a byte keeps the canonical form. -/
theorem wf_write {mem : List Host.Cell} (a : Addr) (v : Byte) (h : Memory.wf mem = true) :
    Memory.wf (Memory.write mem a.toNat v) = true :=
  wfFrom_write v (Nat.zero_le _) a.isLt h

/-- Equal bytes everywhere make canonical memories equal lists. -/
theorem memory_ext {low : Nat} {m n : List Host.Cell} (hm : Memory.wfFrom low m = true)
    (hn : Memory.wfFrom low n = true) (h : ∀ a, Memory.read m a = Memory.read n a) : m = n := by
  induction m generalizing low n with
  | nil =>
    cases n with
    | nil => rfl
    | cons cell rest =>
      obtain ⟨c, u⟩ := cell
      have hc := h c
      simp only [Memory.wfFrom, Bool.and_eq_true, bne_iff_ne, ne_eq] at hn
      simp only [Memory.read, if_true] at hc
      exact absurd hc.symm hn.1.2
  | cons cell rest ih =>
    obtain ⟨c, u⟩ := cell
    simp only [Memory.wfFrom, Bool.and_eq_true, decide_eq_true_eq, bne_iff_ne, ne_eq] at hm
    cases n with
    | nil =>
      have hc := h c
      simp only [Memory.read, if_true] at hc
      exact absurd hc hm.1.2
    | cons cell' rest' =>
      obtain ⟨d, w⟩ := cell'
      simp only [Memory.wfFrom, Bool.and_eq_true, decide_eq_true_eq, bne_iff_ne, ne_eq] at hn
      have hcd : c = d := by
        by_contra hne
        have hc := h c
        have hd := h d
        simp only [Memory.read, if_true, if_neg hne, if_neg (Ne.symm hne)] at hc hd
        rcases Nat.lt_or_gt_of_ne hne with hlt | hlt
        · rw [read_below hn.2 (by omega)] at hc; exact hm.1.2 hc
        · rw [read_below hm.2 (by omega)] at hd; exact hn.1.2 hd.symm
      subst hcd
      have huw : u = w := by simpa [Memory.read] using h c
      subst huw
      have hrest : rest = rest' := by
        refine ih hm.2 hn.2 fun a => ?_
        by_cases hac : a = c
        · rw [read_below hm.2 (by omega), read_below hn.2 (by omega)]
        · simpa [Memory.read, hac] using h a
      rw [hrest]

/-- The reset memory is canonical. -/
theorem reset_memory_wf : Memory.wf State.reset.mem = true := rfl

end Sys2Proof.Laws
end

