-- ==== Sys2Proof/Laws/State.lean ====
section
/-! SUPPORT. One lemma for every field of the state and every update of it, so that no proof unfolds an update. -/

namespace Sys2Proof.Laws

open Sys2Proof.Machine

/-! ## `State.setFlags` -/

@[simp] theorem setFlags_ip (f : CondFlags) (s : State) : (s.setFlags f).ip = s.ip := rfl
@[simp] theorem setFlags_csp (f : CondFlags) (s : State) : (s.setFlags f).csp = s.csp := rfl
@[simp] theorem setFlags_psw (f : CondFlags) (s : State) : (s.setFlags f).psw = withFlags s.psw f := rfl
@[simp] theorem setFlags_cp (f : CondFlags) (s : State) : (s.setFlags f).cp = s.cp := rfl
@[simp] theorem setFlags_sp (f : CondFlags) (s : State) : (s.setFlags f).sp = s.sp := rfl
@[simp] theorem setFlags_dpp0 (f : CondFlags) (s : State) : (s.setFlags f).dpp0 = s.dpp0 := rfl
@[simp] theorem setFlags_dpp1 (f : CondFlags) (s : State) : (s.setFlags f).dpp1 = s.dpp1 := rfl
@[simp] theorem setFlags_dpp2 (f : CondFlags) (s : State) : (s.setFlags f).dpp2 = s.dpp2 := rfl
@[simp] theorem setFlags_dpp3 (f : CondFlags) (s : State) : (s.setFlags f).dpp3 = s.dpp3 := rfl
@[simp] theorem setFlags_mdl (f : CondFlags) (s : State) : (s.setFlags f).mdl = s.mdl := rfl
@[simp] theorem setFlags_mdh (f : CondFlags) (s : State) : (s.setFlags f).mdh = s.mdh := rfl
@[simp] theorem setFlags_mdc (f : CondFlags) (s : State) : (s.setFlags f).mdc = s.mdc := rfl
@[simp] theorem setFlags_syscon (f : CondFlags) (s : State) : (s.setFlags f).syscon = s.syscon := rfl
@[simp] theorem setFlags_tfr (f : CondFlags) (s : State) : (s.setFlags f).tfr = s.tfr := rfl
@[simp] theorem setFlags_seq (f : CondFlags) (s : State) : (s.setFlags f).seq = s.seq := rfl
@[simp] theorem setFlags_wdt (f : CondFlags) (s : State) : (s.setFlags f).wdt = s.wdt := rfl
@[simp] theorem setFlags_initDone (f : CondFlags) (s : State) : (s.setFlags f).initDone = s.initDone := rfl
@[simp] theorem setFlags_run (f : CondFlags) (s : State) : (s.setFlags f).run = s.run := rfl
@[simp] theorem setFlags_resetCause (f : CondFlags) (s : State) : (s.setFlags f).resetCause = s.resetCause := rfl
@[simp] theorem setFlags_mem (f : CondFlags) (s : State) : (s.setFlags f).mem = s.mem := rfl
@[simp] theorem setFlags_memMap (f : CondFlags) (s : State) : (s.setFlags f).memMap = s.memMap := rfl
@[simp] theorem setFlags_nmiPinLow (f : CondFlags) (s : State) : (s.setFlags f).nmiPinLow = s.nmiPinLow := rfl
@[simp] theorem setFlags_pending (f : CondFlags) (s : State) : (s.setFlags f).pending = s.pending := rfl
@[simp] theorem setFlags_branchTarget (f : CondFlags) (s : State) : (s.setFlags f).branchTarget = s.branchTarget := rfl
@[simp] theorem setFlags_free (f : CondFlags) (s : State) : (s.setFlags f).free = s.free := rfl

/-! ## `setMdriu` -/

@[simp] theorem setMdriu_ip (s : State) : (setMdriu s).ip = s.ip := rfl
@[simp] theorem setMdriu_csp (s : State) : (setMdriu s).csp = s.csp := rfl
@[simp] theorem setMdriu_psw (s : State) : (setMdriu s).psw = s.psw := rfl
@[simp] theorem setMdriu_cp (s : State) : (setMdriu s).cp = s.cp := rfl
@[simp] theorem setMdriu_sp (s : State) : (setMdriu s).sp = s.sp := rfl
@[simp] theorem setMdriu_dpp0 (s : State) : (setMdriu s).dpp0 = s.dpp0 := rfl
@[simp] theorem setMdriu_dpp1 (s : State) : (setMdriu s).dpp1 = s.dpp1 := rfl
@[simp] theorem setMdriu_dpp2 (s : State) : (setMdriu s).dpp2 = s.dpp2 := rfl
@[simp] theorem setMdriu_dpp3 (s : State) : (setMdriu s).dpp3 = s.dpp3 := rfl
@[simp] theorem setMdriu_mdl (s : State) : (setMdriu s).mdl = s.mdl := rfl
@[simp] theorem setMdriu_mdh (s : State) : (setMdriu s).mdh = s.mdh := rfl
@[simp] theorem setMdriu_mdc (s : State) : (setMdriu s).mdc = s.mdc ||| mdriuMask := rfl
@[simp] theorem setMdriu_syscon (s : State) : (setMdriu s).syscon = s.syscon := rfl
@[simp] theorem setMdriu_tfr (s : State) : (setMdriu s).tfr = s.tfr := rfl
@[simp] theorem setMdriu_seq (s : State) : (setMdriu s).seq = s.seq := rfl
@[simp] theorem setMdriu_wdt (s : State) : (setMdriu s).wdt = s.wdt := rfl
@[simp] theorem setMdriu_initDone (s : State) : (setMdriu s).initDone = s.initDone := rfl
@[simp] theorem setMdriu_run (s : State) : (setMdriu s).run = s.run := rfl
@[simp] theorem setMdriu_resetCause (s : State) : (setMdriu s).resetCause = s.resetCause := rfl
@[simp] theorem setMdriu_mem (s : State) : (setMdriu s).mem = s.mem := rfl
@[simp] theorem setMdriu_memMap (s : State) : (setMdriu s).memMap = s.memMap := rfl
@[simp] theorem setMdriu_nmiPinLow (s : State) : (setMdriu s).nmiPinLow = s.nmiPinLow := rfl
@[simp] theorem setMdriu_pending (s : State) : (setMdriu s).pending = s.pending := rfl
@[simp] theorem setMdriu_branchTarget (s : State) : (setMdriu s).branchTarget = s.branchTarget := rfl
@[simp] theorem setMdriu_free (s : State) : (setMdriu s).free = s.free := rfl

/-! ## `jumpNear` -/

@[simp] theorem jumpNear_ip (v : Word) (s : State) : (jumpNear v s).ip = v := rfl
@[simp] theorem jumpNear_csp (v : Word) (s : State) : (jumpNear v s).csp = s.csp := rfl
@[simp] theorem jumpNear_psw (v : Word) (s : State) : (jumpNear v s).psw = s.psw := rfl
@[simp] theorem jumpNear_cp (v : Word) (s : State) : (jumpNear v s).cp = s.cp := rfl
@[simp] theorem jumpNear_sp (v : Word) (s : State) : (jumpNear v s).sp = s.sp := rfl
@[simp] theorem jumpNear_dpp0 (v : Word) (s : State) : (jumpNear v s).dpp0 = s.dpp0 := rfl
@[simp] theorem jumpNear_dpp1 (v : Word) (s : State) : (jumpNear v s).dpp1 = s.dpp1 := rfl
@[simp] theorem jumpNear_dpp2 (v : Word) (s : State) : (jumpNear v s).dpp2 = s.dpp2 := rfl
@[simp] theorem jumpNear_dpp3 (v : Word) (s : State) : (jumpNear v s).dpp3 = s.dpp3 := rfl
@[simp] theorem jumpNear_mdl (v : Word) (s : State) : (jumpNear v s).mdl = s.mdl := rfl
@[simp] theorem jumpNear_mdh (v : Word) (s : State) : (jumpNear v s).mdh = s.mdh := rfl
@[simp] theorem jumpNear_mdc (v : Word) (s : State) : (jumpNear v s).mdc = s.mdc := rfl
@[simp] theorem jumpNear_syscon (v : Word) (s : State) : (jumpNear v s).syscon = s.syscon := rfl
@[simp] theorem jumpNear_tfr (v : Word) (s : State) : (jumpNear v s).tfr = s.tfr := rfl
@[simp] theorem jumpNear_seq (v : Word) (s : State) : (jumpNear v s).seq = s.seq := rfl
@[simp] theorem jumpNear_wdt (v : Word) (s : State) : (jumpNear v s).wdt = s.wdt := rfl
@[simp] theorem jumpNear_initDone (v : Word) (s : State) : (jumpNear v s).initDone = s.initDone := rfl
@[simp] theorem jumpNear_run (v : Word) (s : State) : (jumpNear v s).run = s.run := rfl
@[simp] theorem jumpNear_resetCause (v : Word) (s : State) : (jumpNear v s).resetCause = s.resetCause := rfl
@[simp] theorem jumpNear_mem (v : Word) (s : State) : (jumpNear v s).mem = s.mem := rfl
@[simp] theorem jumpNear_memMap (v : Word) (s : State) : (jumpNear v s).memMap = s.memMap := rfl
@[simp] theorem jumpNear_nmiPinLow (v : Word) (s : State) : (jumpNear v s).nmiPinLow = s.nmiPinLow := rfl
@[simp] theorem jumpNear_pending (v : Word) (s : State) : (jumpNear v s).pending = s.pending := rfl
@[simp] theorem jumpNear_branchTarget (v : Word) (s : State) : (jumpNear v s).branchTarget = 
      some (codeAddr (lowByte s.csp) v, lengthOf (peekByte s (codeAddr (lowByte s.csp) v))) := rfl
@[simp] theorem jumpNear_free (v : Word) (s : State) : (jumpNear v s).free = s.free := rfl

/-! ## `jumpFar`: all but the note of the branch target -/

@[simp] theorem jumpFar_ip (g : Byte) (v : Word) (s : State) : (jumpFar g v s).ip = v := rfl
@[simp] theorem jumpFar_csp (g : Byte) (v : Word) (s : State) : (jumpFar g v s).csp = g.setWidth 16 := rfl
@[simp] theorem jumpFar_psw (g : Byte) (v : Word) (s : State) : (jumpFar g v s).psw = s.psw := rfl
@[simp] theorem jumpFar_cp (g : Byte) (v : Word) (s : State) : (jumpFar g v s).cp = s.cp := rfl
@[simp] theorem jumpFar_sp (g : Byte) (v : Word) (s : State) : (jumpFar g v s).sp = s.sp := rfl
@[simp] theorem jumpFar_dpp0 (g : Byte) (v : Word) (s : State) : (jumpFar g v s).dpp0 = s.dpp0 := rfl
@[simp] theorem jumpFar_dpp1 (g : Byte) (v : Word) (s : State) : (jumpFar g v s).dpp1 = s.dpp1 := rfl
@[simp] theorem jumpFar_dpp2 (g : Byte) (v : Word) (s : State) : (jumpFar g v s).dpp2 = s.dpp2 := rfl
@[simp] theorem jumpFar_dpp3 (g : Byte) (v : Word) (s : State) : (jumpFar g v s).dpp3 = s.dpp3 := rfl
@[simp] theorem jumpFar_mdl (g : Byte) (v : Word) (s : State) : (jumpFar g v s).mdl = s.mdl := rfl
@[simp] theorem jumpFar_mdh (g : Byte) (v : Word) (s : State) : (jumpFar g v s).mdh = s.mdh := rfl
@[simp] theorem jumpFar_mdc (g : Byte) (v : Word) (s : State) : (jumpFar g v s).mdc = s.mdc := rfl
@[simp] theorem jumpFar_syscon (g : Byte) (v : Word) (s : State) : (jumpFar g v s).syscon = s.syscon := rfl
@[simp] theorem jumpFar_tfr (g : Byte) (v : Word) (s : State) : (jumpFar g v s).tfr = s.tfr := rfl
@[simp] theorem jumpFar_seq (g : Byte) (v : Word) (s : State) : (jumpFar g v s).seq = s.seq := rfl
@[simp] theorem jumpFar_wdt (g : Byte) (v : Word) (s : State) : (jumpFar g v s).wdt = s.wdt := rfl
@[simp] theorem jumpFar_initDone (g : Byte) (v : Word) (s : State) : (jumpFar g v s).initDone = s.initDone := rfl
@[simp] theorem jumpFar_run (g : Byte) (v : Word) (s : State) : (jumpFar g v s).run = s.run := rfl
@[simp] theorem jumpFar_resetCause (g : Byte) (v : Word) (s : State) : (jumpFar g v s).resetCause = s.resetCause := rfl
@[simp] theorem jumpFar_mem (g : Byte) (v : Word) (s : State) : (jumpFar g v s).mem = s.mem := rfl
@[simp] theorem jumpFar_memMap (g : Byte) (v : Word) (s : State) : (jumpFar g v s).memMap = s.memMap := rfl
@[simp] theorem jumpFar_nmiPinLow (g : Byte) (v : Word) (s : State) : (jumpFar g v s).nmiPinLow = s.nmiPinLow := rfl
@[simp] theorem jumpFar_pending (g : Byte) (v : Word) (s : State) : (jumpFar g v s).pending = s.pending := rfl
@[simp] theorem jumpFar_free (g : Byte) (v : Word) (s : State) : (jumpFar g v s).free = s.free := rfl

/-! ## `beginSequence` -/

@[simp] theorem beginSequence_ip (n : Nat) (o : Override) (x : Bool) (s : State) : (beginSequence n o x s).ip = s.ip := rfl
@[simp] theorem beginSequence_csp (n : Nat) (o : Override) (x : Bool) (s : State) : (beginSequence n o x s).csp = s.csp := rfl
@[simp] theorem beginSequence_psw (n : Nat) (o : Override) (x : Bool) (s : State) : (beginSequence n o x s).psw = s.psw := rfl
@[simp] theorem beginSequence_cp (n : Nat) (o : Override) (x : Bool) (s : State) : (beginSequence n o x s).cp = s.cp := rfl
@[simp] theorem beginSequence_sp (n : Nat) (o : Override) (x : Bool) (s : State) : (beginSequence n o x s).sp = s.sp := rfl
@[simp] theorem beginSequence_dpp0 (n : Nat) (o : Override) (x : Bool) (s : State) : (beginSequence n o x s).dpp0 = s.dpp0 := rfl
@[simp] theorem beginSequence_dpp1 (n : Nat) (o : Override) (x : Bool) (s : State) : (beginSequence n o x s).dpp1 = s.dpp1 := rfl
@[simp] theorem beginSequence_dpp2 (n : Nat) (o : Override) (x : Bool) (s : State) : (beginSequence n o x s).dpp2 = s.dpp2 := rfl
@[simp] theorem beginSequence_dpp3 (n : Nat) (o : Override) (x : Bool) (s : State) : (beginSequence n o x s).dpp3 = s.dpp3 := rfl
@[simp] theorem beginSequence_mdl (n : Nat) (o : Override) (x : Bool) (s : State) : (beginSequence n o x s).mdl = s.mdl := rfl
@[simp] theorem beginSequence_mdh (n : Nat) (o : Override) (x : Bool) (s : State) : (beginSequence n o x s).mdh = s.mdh := rfl
@[simp] theorem beginSequence_mdc (n : Nat) (o : Override) (x : Bool) (s : State) : (beginSequence n o x s).mdc = s.mdc := rfl
@[simp] theorem beginSequence_syscon (n : Nat) (o : Override) (x : Bool) (s : State) : (beginSequence n o x s).syscon = s.syscon := rfl
@[simp] theorem beginSequence_tfr (n : Nat) (o : Override) (x : Bool) (s : State) : (beginSequence n o x s).tfr = s.tfr := rfl
@[simp] theorem beginSequence_seq (n : Nat) (o : Override) (x : Bool) (s : State) : (beginSequence n o x s).seq = ⟨n, true, o, x⟩ := rfl
@[simp] theorem beginSequence_wdt (n : Nat) (o : Override) (x : Bool) (s : State) : (beginSequence n o x s).wdt = s.wdt := rfl
@[simp] theorem beginSequence_initDone (n : Nat) (o : Override) (x : Bool) (s : State) : (beginSequence n o x s).initDone = s.initDone := rfl
@[simp] theorem beginSequence_run (n : Nat) (o : Override) (x : Bool) (s : State) : (beginSequence n o x s).run = s.run := rfl
@[simp] theorem beginSequence_resetCause (n : Nat) (o : Override) (x : Bool) (s : State) : (beginSequence n o x s).resetCause = s.resetCause := rfl
@[simp] theorem beginSequence_mem (n : Nat) (o : Override) (x : Bool) (s : State) : (beginSequence n o x s).mem = s.mem := rfl
@[simp] theorem beginSequence_memMap (n : Nat) (o : Override) (x : Bool) (s : State) : (beginSequence n o x s).memMap = s.memMap := rfl
@[simp] theorem beginSequence_nmiPinLow (n : Nat) (o : Override) (x : Bool) (s : State) : (beginSequence n o x s).nmiPinLow = s.nmiPinLow := rfl
@[simp] theorem beginSequence_pending (n : Nat) (o : Override) (x : Bool) (s : State) : (beginSequence n o x s).pending = s.pending := rfl
@[simp] theorem beginSequence_branchTarget (n : Nat) (o : Override) (x : Bool) (s : State) : (beginSequence n o x s).branchTarget = s.branchTarget := rfl
@[simp] theorem beginSequence_free (n : Nat) (o : Override) (x : Bool) (s : State) : (beginSequence n o x s).free = s.free := rfl

/-! ## `trapped` -/

@[simp] theorem trapped_ip (t : HwTrap) (s : State) : (trapped t s).ip = s.ip := rfl
@[simp] theorem trapped_csp (t : HwTrap) (s : State) : (trapped t s).csp = s.csp := rfl
@[simp] theorem trapped_psw (t : HwTrap) (s : State) : (trapped t s).psw = s.psw := rfl
@[simp] theorem trapped_cp (t : HwTrap) (s : State) : (trapped t s).cp = s.cp := rfl
@[simp] theorem trapped_sp (t : HwTrap) (s : State) : (trapped t s).sp = s.sp := rfl
@[simp] theorem trapped_dpp0 (t : HwTrap) (s : State) : (trapped t s).dpp0 = s.dpp0 := rfl
@[simp] theorem trapped_dpp1 (t : HwTrap) (s : State) : (trapped t s).dpp1 = s.dpp1 := rfl
@[simp] theorem trapped_dpp2 (t : HwTrap) (s : State) : (trapped t s).dpp2 = s.dpp2 := rfl
@[simp] theorem trapped_dpp3 (t : HwTrap) (s : State) : (trapped t s).dpp3 = s.dpp3 := rfl
@[simp] theorem trapped_mdl (t : HwTrap) (s : State) : (trapped t s).mdl = s.mdl := rfl
@[simp] theorem trapped_mdh (t : HwTrap) (s : State) : (trapped t s).mdh = s.mdh := rfl
@[simp] theorem trapped_mdc (t : HwTrap) (s : State) : (trapped t s).mdc = s.mdc := rfl
@[simp] theorem trapped_syscon (t : HwTrap) (s : State) : (trapped t s).syscon = s.syscon := rfl
@[simp] theorem trapped_tfr (t : HwTrap) (s : State) : (trapped t s).tfr = s.tfr ||| t.flag := rfl
@[simp] theorem trapped_seq (t : HwTrap) (s : State) : (trapped t s).seq = if t.classB then Sequence.idle else s.seq := rfl
@[simp] theorem trapped_wdt (t : HwTrap) (s : State) : (trapped t s).wdt = s.wdt := rfl
@[simp] theorem trapped_initDone (t : HwTrap) (s : State) : (trapped t s).initDone = s.initDone := rfl
@[simp] theorem trapped_run (t : HwTrap) (s : State) : (trapped t s).run = s.run := rfl
@[simp] theorem trapped_resetCause (t : HwTrap) (s : State) : (trapped t s).resetCause = s.resetCause := rfl
@[simp] theorem trapped_mem (t : HwTrap) (s : State) : (trapped t s).mem = s.mem := rfl
@[simp] theorem trapped_memMap (t : HwTrap) (s : State) : (trapped t s).memMap = s.memMap := rfl
@[simp] theorem trapped_nmiPinLow (t : HwTrap) (s : State) : (trapped t s).nmiPinLow = s.nmiPinLow := rfl
@[simp] theorem trapped_pending (t : HwTrap) (s : State) : (trapped t s).pending = s.pending := rfl
@[simp] theorem trapped_branchTarget (t : HwTrap) (s : State) : (trapped t s).branchTarget = s.branchTarget := rfl
@[simp] theorem trapped_free (t : HwTrap) (s : State) : (trapped t s).free = s.free := rfl

/-! ## `resetWith` -/

@[simp] theorem resetWith_ip (k : ResetCause) (s : State) : (resetWith k s).ip = State.reset.ip := rfl
@[simp] theorem resetWith_csp (k : ResetCause) (s : State) : (resetWith k s).csp = State.reset.csp := rfl
@[simp] theorem resetWith_psw (k : ResetCause) (s : State) : (resetWith k s).psw = State.reset.psw := rfl
@[simp] theorem resetWith_cp (k : ResetCause) (s : State) : (resetWith k s).cp = State.reset.cp := rfl
@[simp] theorem resetWith_sp (k : ResetCause) (s : State) : (resetWith k s).sp = State.reset.sp := rfl
@[simp] theorem resetWith_dpp0 (k : ResetCause) (s : State) : (resetWith k s).dpp0 = State.reset.dpp0 := rfl
@[simp] theorem resetWith_dpp1 (k : ResetCause) (s : State) : (resetWith k s).dpp1 = State.reset.dpp1 := rfl
@[simp] theorem resetWith_dpp2 (k : ResetCause) (s : State) : (resetWith k s).dpp2 = State.reset.dpp2 := rfl
@[simp] theorem resetWith_dpp3 (k : ResetCause) (s : State) : (resetWith k s).dpp3 = State.reset.dpp3 := rfl
@[simp] theorem resetWith_mdl (k : ResetCause) (s : State) : (resetWith k s).mdl = State.reset.mdl := rfl
@[simp] theorem resetWith_mdh (k : ResetCause) (s : State) : (resetWith k s).mdh = State.reset.mdh := rfl
@[simp] theorem resetWith_mdc (k : ResetCause) (s : State) : (resetWith k s).mdc = State.reset.mdc := rfl
@[simp] theorem resetWith_syscon (k : ResetCause) (s : State) : (resetWith k s).syscon = State.reset.syscon := rfl
@[simp] theorem resetWith_tfr (k : ResetCause) (s : State) : (resetWith k s).tfr = State.reset.tfr := rfl
@[simp] theorem resetWith_seq (k : ResetCause) (s : State) : (resetWith k s).seq = State.reset.seq := rfl
@[simp] theorem resetWith_wdt (k : ResetCause) (s : State) : (resetWith k s).wdt = State.reset.wdt := rfl
@[simp] theorem resetWith_initDone (k : ResetCause) (s : State) : (resetWith k s).initDone = State.reset.initDone := rfl
@[simp] theorem resetWith_run (k : ResetCause) (s : State) : (resetWith k s).run = State.reset.run := rfl
@[simp] theorem resetWith_resetCause (k : ResetCause) (s : State) : (resetWith k s).resetCause = k := rfl
@[simp] theorem resetWith_mem (k : ResetCause) (s : State) : (resetWith k s).mem = s.mem := rfl
@[simp] theorem resetWith_memMap (k : ResetCause) (s : State) : (resetWith k s).memMap = s.memMap := rfl
@[simp] theorem resetWith_nmiPinLow (k : ResetCause) (s : State) : (resetWith k s).nmiPinLow = s.nmiPinLow := rfl
@[simp] theorem resetWith_pending (k : ResetCause) (s : State) : (resetWith k s).pending = s.pending := rfl
@[simp] theorem resetWith_branchTarget (k : ResetCause) (s : State) : (resetWith k s).branchTarget = State.reset.branchTarget := rfl
@[simp] theorem resetWith_free (k : ResetCause) (s : State) : (resetWith k s).free = s.free := rfl

/-! ## `touch`: all but MDC -/

@[simp] theorem touch_ip (a : Addr) (s : State) : (touch a s).ip = s.ip := by unfold touch; split <;> rfl
@[simp] theorem touch_csp (a : Addr) (s : State) : (touch a s).csp = s.csp := by unfold touch; split <;> rfl
@[simp] theorem touch_psw (a : Addr) (s : State) : (touch a s).psw = s.psw := by unfold touch; split <;> rfl
@[simp] theorem touch_cp (a : Addr) (s : State) : (touch a s).cp = s.cp := by unfold touch; split <;> rfl
@[simp] theorem touch_sp (a : Addr) (s : State) : (touch a s).sp = s.sp := by unfold touch; split <;> rfl
@[simp] theorem touch_dpp0 (a : Addr) (s : State) : (touch a s).dpp0 = s.dpp0 := by unfold touch; split <;> rfl
@[simp] theorem touch_dpp1 (a : Addr) (s : State) : (touch a s).dpp1 = s.dpp1 := by unfold touch; split <;> rfl
@[simp] theorem touch_dpp2 (a : Addr) (s : State) : (touch a s).dpp2 = s.dpp2 := by unfold touch; split <;> rfl
@[simp] theorem touch_dpp3 (a : Addr) (s : State) : (touch a s).dpp3 = s.dpp3 := by unfold touch; split <;> rfl
@[simp] theorem touch_mdl (a : Addr) (s : State) : (touch a s).mdl = s.mdl := by unfold touch; split <;> rfl
@[simp] theorem touch_mdh (a : Addr) (s : State) : (touch a s).mdh = s.mdh := by unfold touch; split <;> rfl
@[simp] theorem touch_syscon (a : Addr) (s : State) : (touch a s).syscon = s.syscon := by unfold touch; split <;> rfl
@[simp] theorem touch_tfr (a : Addr) (s : State) : (touch a s).tfr = s.tfr := by unfold touch; split <;> rfl
@[simp] theorem touch_seq (a : Addr) (s : State) : (touch a s).seq = s.seq := by unfold touch; split <;> rfl
@[simp] theorem touch_wdt (a : Addr) (s : State) : (touch a s).wdt = s.wdt := by unfold touch; split <;> rfl
@[simp] theorem touch_initDone (a : Addr) (s : State) : (touch a s).initDone = s.initDone := by unfold touch; split <;> rfl
@[simp] theorem touch_run (a : Addr) (s : State) : (touch a s).run = s.run := by unfold touch; split <;> rfl
@[simp] theorem touch_resetCause (a : Addr) (s : State) : (touch a s).resetCause = s.resetCause := by unfold touch; split <;> rfl
@[simp] theorem touch_mem (a : Addr) (s : State) : (touch a s).mem = s.mem := by unfold touch; split <;> rfl
@[simp] theorem touch_memMap (a : Addr) (s : State) : (touch a s).memMap = s.memMap := by unfold touch; split <;> rfl
@[simp] theorem touch_nmiPinLow (a : Addr) (s : State) : (touch a s).nmiPinLow = s.nmiPinLow := by unfold touch; split <;> rfl
@[simp] theorem touch_pending (a : Addr) (s : State) : (touch a s).pending = s.pending := by unfold touch; split <;> rfl
@[simp] theorem touch_branchTarget (a : Addr) (s : State) : (touch a s).branchTarget = s.branchTarget := by unfold touch; split <;> rfl
@[simp] theorem touch_free (a : Addr) (s : State) : (touch a s).free = s.free := by unfold touch; split <;> rfl

/-! ## `flagsUnlessPsw`: all but PSW -/

@[simp] theorem flagsUnlessPsw_ip (a : Addr) (f : CondFlags) (s : State) : (flagsUnlessPsw a f s).ip = s.ip := by
  unfold flagsUnlessPsw; split <;> rfl
@[simp] theorem flagsUnlessPsw_csp (a : Addr) (f : CondFlags) (s : State) : (flagsUnlessPsw a f s).csp = s.csp := by
  unfold flagsUnlessPsw; split <;> rfl
@[simp] theorem flagsUnlessPsw_cp (a : Addr) (f : CondFlags) (s : State) : (flagsUnlessPsw a f s).cp = s.cp := by
  unfold flagsUnlessPsw; split <;> rfl
@[simp] theorem flagsUnlessPsw_sp (a : Addr) (f : CondFlags) (s : State) : (flagsUnlessPsw a f s).sp = s.sp := by
  unfold flagsUnlessPsw; split <;> rfl
@[simp] theorem flagsUnlessPsw_dpp0 (a : Addr) (f : CondFlags) (s : State) : (flagsUnlessPsw a f s).dpp0 = s.dpp0 := by
  unfold flagsUnlessPsw; split <;> rfl
@[simp] theorem flagsUnlessPsw_dpp1 (a : Addr) (f : CondFlags) (s : State) : (flagsUnlessPsw a f s).dpp1 = s.dpp1 := by
  unfold flagsUnlessPsw; split <;> rfl
@[simp] theorem flagsUnlessPsw_dpp2 (a : Addr) (f : CondFlags) (s : State) : (flagsUnlessPsw a f s).dpp2 = s.dpp2 := by
  unfold flagsUnlessPsw; split <;> rfl
@[simp] theorem flagsUnlessPsw_dpp3 (a : Addr) (f : CondFlags) (s : State) : (flagsUnlessPsw a f s).dpp3 = s.dpp3 := by
  unfold flagsUnlessPsw; split <;> rfl
@[simp] theorem flagsUnlessPsw_mdl (a : Addr) (f : CondFlags) (s : State) : (flagsUnlessPsw a f s).mdl = s.mdl := by
  unfold flagsUnlessPsw; split <;> rfl
@[simp] theorem flagsUnlessPsw_mdh (a : Addr) (f : CondFlags) (s : State) : (flagsUnlessPsw a f s).mdh = s.mdh := by
  unfold flagsUnlessPsw; split <;> rfl
@[simp] theorem flagsUnlessPsw_mdc (a : Addr) (f : CondFlags) (s : State) : (flagsUnlessPsw a f s).mdc = s.mdc := by
  unfold flagsUnlessPsw; split <;> rfl
@[simp] theorem flagsUnlessPsw_syscon (a : Addr) (f : CondFlags) (s : State) : (flagsUnlessPsw a f s).syscon = s.syscon := by
  unfold flagsUnlessPsw; split <;> rfl
@[simp] theorem flagsUnlessPsw_tfr (a : Addr) (f : CondFlags) (s : State) : (flagsUnlessPsw a f s).tfr = s.tfr := by
  unfold flagsUnlessPsw; split <;> rfl
@[simp] theorem flagsUnlessPsw_seq (a : Addr) (f : CondFlags) (s : State) : (flagsUnlessPsw a f s).seq = s.seq := by
  unfold flagsUnlessPsw; split <;> rfl
@[simp] theorem flagsUnlessPsw_wdt (a : Addr) (f : CondFlags) (s : State) : (flagsUnlessPsw a f s).wdt = s.wdt := by
  unfold flagsUnlessPsw; split <;> rfl
@[simp] theorem flagsUnlessPsw_initDone (a : Addr) (f : CondFlags) (s : State) : (flagsUnlessPsw a f s).initDone = s.initDone := by
  unfold flagsUnlessPsw; split <;> rfl
@[simp] theorem flagsUnlessPsw_run (a : Addr) (f : CondFlags) (s : State) : (flagsUnlessPsw a f s).run = s.run := by
  unfold flagsUnlessPsw; split <;> rfl
@[simp] theorem flagsUnlessPsw_resetCause (a : Addr) (f : CondFlags) (s : State) : (flagsUnlessPsw a f s).resetCause = s.resetCause := by
  unfold flagsUnlessPsw; split <;> rfl
@[simp] theorem flagsUnlessPsw_mem (a : Addr) (f : CondFlags) (s : State) : (flagsUnlessPsw a f s).mem = s.mem := by
  unfold flagsUnlessPsw; split <;> rfl
@[simp] theorem flagsUnlessPsw_memMap (a : Addr) (f : CondFlags) (s : State) : (flagsUnlessPsw a f s).memMap = s.memMap := by
  unfold flagsUnlessPsw; split <;> rfl
@[simp] theorem flagsUnlessPsw_nmiPinLow (a : Addr) (f : CondFlags) (s : State) : (flagsUnlessPsw a f s).nmiPinLow = s.nmiPinLow := by
  unfold flagsUnlessPsw; split <;> rfl
@[simp] theorem flagsUnlessPsw_pending (a : Addr) (f : CondFlags) (s : State) : (flagsUnlessPsw a f s).pending = s.pending := by
  unfold flagsUnlessPsw; split <;> rfl
@[simp] theorem flagsUnlessPsw_branchTarget (a : Addr) (f : CondFlags) (s : State) : (flagsUnlessPsw a f s).branchTarget = s.branchTarget := by
  unfold flagsUnlessPsw; split <;> rfl
@[simp] theorem flagsUnlessPsw_free (a : Addr) (f : CondFlags) (s : State) : (flagsUnlessPsw a f s).free = s.free := by
  unfold flagsUnlessPsw; split <;> rfl

/-! ## `countDown`: all but the sequence -/

@[simp] theorem countDown_ip (s : State) : (countDown s).ip = s.ip := by
  unfold countDown; split <;> [rfl; (split <;> rfl)]
@[simp] theorem countDown_csp (s : State) : (countDown s).csp = s.csp := by
  unfold countDown; split <;> [rfl; (split <;> rfl)]
@[simp] theorem countDown_psw (s : State) : (countDown s).psw = s.psw := by
  unfold countDown; split <;> [rfl; (split <;> rfl)]
@[simp] theorem countDown_cp (s : State) : (countDown s).cp = s.cp := by
  unfold countDown; split <;> [rfl; (split <;> rfl)]
@[simp] theorem countDown_sp (s : State) : (countDown s).sp = s.sp := by
  unfold countDown; split <;> [rfl; (split <;> rfl)]
@[simp] theorem countDown_dpp0 (s : State) : (countDown s).dpp0 = s.dpp0 := by
  unfold countDown; split <;> [rfl; (split <;> rfl)]
@[simp] theorem countDown_dpp1 (s : State) : (countDown s).dpp1 = s.dpp1 := by
  unfold countDown; split <;> [rfl; (split <;> rfl)]
@[simp] theorem countDown_dpp2 (s : State) : (countDown s).dpp2 = s.dpp2 := by
  unfold countDown; split <;> [rfl; (split <;> rfl)]
@[simp] theorem countDown_dpp3 (s : State) : (countDown s).dpp3 = s.dpp3 := by
  unfold countDown; split <;> [rfl; (split <;> rfl)]
@[simp] theorem countDown_mdl (s : State) : (countDown s).mdl = s.mdl := by
  unfold countDown; split <;> [rfl; (split <;> rfl)]
@[simp] theorem countDown_mdh (s : State) : (countDown s).mdh = s.mdh := by
  unfold countDown; split <;> [rfl; (split <;> rfl)]
@[simp] theorem countDown_mdc (s : State) : (countDown s).mdc = s.mdc := by
  unfold countDown; split <;> [rfl; (split <;> rfl)]
@[simp] theorem countDown_syscon (s : State) : (countDown s).syscon = s.syscon := by
  unfold countDown; split <;> [rfl; (split <;> rfl)]
@[simp] theorem countDown_tfr (s : State) : (countDown s).tfr = s.tfr := by
  unfold countDown; split <;> [rfl; (split <;> rfl)]
@[simp] theorem countDown_wdt (s : State) : (countDown s).wdt = s.wdt := by
  unfold countDown; split <;> [rfl; (split <;> rfl)]
@[simp] theorem countDown_initDone (s : State) : (countDown s).initDone = s.initDone := by
  unfold countDown; split <;> [rfl; (split <;> rfl)]
@[simp] theorem countDown_run (s : State) : (countDown s).run = s.run := by
  unfold countDown; split <;> [rfl; (split <;> rfl)]
@[simp] theorem countDown_resetCause (s : State) : (countDown s).resetCause = s.resetCause := by
  unfold countDown; split <;> [rfl; (split <;> rfl)]
@[simp] theorem countDown_mem (s : State) : (countDown s).mem = s.mem := by
  unfold countDown; split <;> [rfl; (split <;> rfl)]
@[simp] theorem countDown_memMap (s : State) : (countDown s).memMap = s.memMap := by
  unfold countDown; split <;> [rfl; (split <;> rfl)]
@[simp] theorem countDown_nmiPinLow (s : State) : (countDown s).nmiPinLow = s.nmiPinLow := by
  unfold countDown; split <;> [rfl; (split <;> rfl)]
@[simp] theorem countDown_pending (s : State) : (countDown s).pending = s.pending := by
  unfold countDown; split <;> [rfl; (split <;> rfl)]
@[simp] theorem countDown_branchTarget (s : State) : (countDown s).branchTarget = s.branchTarget := by
  unfold countDown; split <;> [rfl; (split <;> rfl)]
@[simp] theorem countDown_free (s : State) : (countDown s).free = s.free := by
  unfold countDown; split <;> [rfl; (split <;> rfl)]

/-! ## `setReg`: all that is no CPU register -/

@[simp] theorem setReg_ip (r : CpuReg) (v : Word) (s : State) : (setReg r v s).ip = s.ip := by
  cases r <;> rfl
@[simp] theorem setReg_seq (r : CpuReg) (v : Word) (s : State) : (setReg r v s).seq = s.seq := by
  cases r <;> rfl
@[simp] theorem setReg_wdt (r : CpuReg) (v : Word) (s : State) : (setReg r v s).wdt = s.wdt := by
  cases r <;> rfl
@[simp] theorem setReg_initDone (r : CpuReg) (v : Word) (s : State) : (setReg r v s).initDone = s.initDone := by
  cases r <;> rfl
@[simp] theorem setReg_run (r : CpuReg) (v : Word) (s : State) : (setReg r v s).run = s.run := by
  cases r <;> rfl
@[simp] theorem setReg_resetCause (r : CpuReg) (v : Word) (s : State) : (setReg r v s).resetCause = s.resetCause := by
  cases r <;> rfl
@[simp] theorem setReg_mem (r : CpuReg) (v : Word) (s : State) : (setReg r v s).mem = s.mem := by
  cases r <;> rfl
@[simp] theorem setReg_memMap (r : CpuReg) (v : Word) (s : State) : (setReg r v s).memMap = s.memMap := by
  cases r <;> rfl
@[simp] theorem setReg_nmiPinLow (r : CpuReg) (v : Word) (s : State) : (setReg r v s).nmiPinLow = s.nmiPinLow := by
  cases r <;> rfl
@[simp] theorem setReg_pending (r : CpuReg) (v : Word) (s : State) : (setReg r v s).pending = s.pending := by
  cases r <;> rfl
@[simp] theorem setReg_branchTarget (r : CpuReg) (v : Word) (s : State) : (setReg r v s).branchTarget = s.branchTarget := by
  cases r <;> rfl
@[simp] theorem setReg_free (r : CpuReg) (v : Word) (s : State) : (setReg r v s).free = s.free := by
  cases r <;> rfl

/-! ## `setRegByte` -/

@[simp] theorem setRegByte_ip (r : CpuReg) (o : Bool) (v : Byte) (s : State) : (setRegByte r o v s).ip = s.ip := by
  unfold setRegByte; split <;> [split <;> simp; simp]
@[simp] theorem setRegByte_seq (r : CpuReg) (o : Bool) (v : Byte) (s : State) : (setRegByte r o v s).seq = s.seq := by
  unfold setRegByte; split <;> [split <;> simp; simp]
@[simp] theorem setRegByte_wdt (r : CpuReg) (o : Bool) (v : Byte) (s : State) : (setRegByte r o v s).wdt = s.wdt := by
  unfold setRegByte; split <;> [split <;> simp; simp]
@[simp] theorem setRegByte_initDone (r : CpuReg) (o : Bool) (v : Byte) (s : State) : (setRegByte r o v s).initDone = s.initDone := by
  unfold setRegByte; split <;> [split <;> simp; simp]
@[simp] theorem setRegByte_run (r : CpuReg) (o : Bool) (v : Byte) (s : State) : (setRegByte r o v s).run = s.run := by
  unfold setRegByte; split <;> [split <;> simp; simp]
@[simp] theorem setRegByte_resetCause (r : CpuReg) (o : Bool) (v : Byte) (s : State) : (setRegByte r o v s).resetCause = s.resetCause := by
  unfold setRegByte; split <;> [split <;> simp; simp]
@[simp] theorem setRegByte_mem (r : CpuReg) (o : Bool) (v : Byte) (s : State) : (setRegByte r o v s).mem = s.mem := by
  unfold setRegByte; split <;> [split <;> simp; simp]
@[simp] theorem setRegByte_memMap (r : CpuReg) (o : Bool) (v : Byte) (s : State) : (setRegByte r o v s).memMap = s.memMap := by
  unfold setRegByte; split <;> [split <;> simp; simp]
@[simp] theorem setRegByte_nmiPinLow (r : CpuReg) (o : Bool) (v : Byte) (s : State) : (setRegByte r o v s).nmiPinLow = s.nmiPinLow := by
  unfold setRegByte; split <;> [split <;> simp; simp]
@[simp] theorem setRegByte_pending (r : CpuReg) (o : Bool) (v : Byte) (s : State) : (setRegByte r o v s).pending = s.pending := by
  unfold setRegByte; split <;> [split <;> simp; simp]
@[simp] theorem setRegByte_branchTarget (r : CpuReg) (o : Bool) (v : Byte) (s : State) : (setRegByte r o v s).branchTarget = s.branchTarget := by
  unfold setRegByte; split <;> [split <;> simp; simp]

/-! ## `pokeByte`: all that is neither memory nor a CPU register -/

@[simp] theorem pokeByte_ip (a : Addr) (v : Byte) (s : State) : (pokeByte a v s).ip = s.ip := by
  unfold pokeByte; split <;> simp
@[simp] theorem pokeByte_seq (a : Addr) (v : Byte) (s : State) : (pokeByte a v s).seq = s.seq := by
  unfold pokeByte; split <;> simp
@[simp] theorem pokeByte_wdt (a : Addr) (v : Byte) (s : State) : (pokeByte a v s).wdt = s.wdt := by
  unfold pokeByte; split <;> simp
@[simp] theorem pokeByte_initDone (a : Addr) (v : Byte) (s : State) : (pokeByte a v s).initDone = s.initDone := by
  unfold pokeByte; split <;> simp
@[simp] theorem pokeByte_run (a : Addr) (v : Byte) (s : State) : (pokeByte a v s).run = s.run := by
  unfold pokeByte; split <;> simp
@[simp] theorem pokeByte_resetCause (a : Addr) (v : Byte) (s : State) : (pokeByte a v s).resetCause = s.resetCause := by
  unfold pokeByte; split <;> simp
@[simp] theorem pokeByte_memMap (a : Addr) (v : Byte) (s : State) : (pokeByte a v s).memMap = s.memMap := by
  unfold pokeByte; split <;> simp
@[simp] theorem pokeByte_nmiPinLow (a : Addr) (v : Byte) (s : State) : (pokeByte a v s).nmiPinLow = s.nmiPinLow := by
  unfold pokeByte; split <;> simp
@[simp] theorem pokeByte_pending (a : Addr) (v : Byte) (s : State) : (pokeByte a v s).pending = s.pending := by
  unfold pokeByte; split <;> simp
@[simp] theorem pokeByte_branchTarget (a : Addr) (v : Byte) (s : State) : (pokeByte a v s).branchTarget = s.branchTarget := by
  unfold pokeByte; split <;> simp

/-! ## `pokeWord`: all that is neither memory nor a CPU register -/

@[simp] theorem pokeWord_ip (a : Addr) (v : Word) (s : State) : (pokeWord a v s).ip = s.ip := by
  unfold pokeWord; split <;> simp
@[simp] theorem pokeWord_seq (a : Addr) (v : Word) (s : State) : (pokeWord a v s).seq = s.seq := by
  unfold pokeWord; split <;> simp
@[simp] theorem pokeWord_wdt (a : Addr) (v : Word) (s : State) : (pokeWord a v s).wdt = s.wdt := by
  unfold pokeWord; split <;> simp
@[simp] theorem pokeWord_initDone (a : Addr) (v : Word) (s : State) : (pokeWord a v s).initDone = s.initDone := by
  unfold pokeWord; split <;> simp
@[simp] theorem pokeWord_run (a : Addr) (v : Word) (s : State) : (pokeWord a v s).run = s.run := by
  unfold pokeWord; split <;> simp
@[simp] theorem pokeWord_resetCause (a : Addr) (v : Word) (s : State) : (pokeWord a v s).resetCause = s.resetCause := by
  unfold pokeWord; split <;> simp
@[simp] theorem pokeWord_memMap (a : Addr) (v : Word) (s : State) : (pokeWord a v s).memMap = s.memMap := by
  unfold pokeWord; split <;> simp
@[simp] theorem pokeWord_nmiPinLow (a : Addr) (v : Word) (s : State) : (pokeWord a v s).nmiPinLow = s.nmiPinLow := by
  unfold pokeWord; split <;> simp
@[simp] theorem pokeWord_pending (a : Addr) (v : Word) (s : State) : (pokeWord a v s).pending = s.pending := by
  unfold pokeWord; split <;> simp
@[simp] theorem pokeWord_branchTarget (a : Addr) (v : Word) (s : State) : (pokeWord a v s).branchTarget = s.branchTarget := by
  unfold pokeWord; split <;> simp
@[simp] theorem pokeWord_free (a : Addr) (v : Word) (s : State) : (pokeWord a v s).free = s.free := by
  unfold pokeWord; split <;> simp

/-! ## `poke`: all that is neither memory nor a CPU register -/

@[simp] theorem poke_ip (w : Width) (a : Addr) (v : BitVec w.bits) (s : State) : (poke w a v s).ip = s.ip := by
  cases w <;> simp [poke]
@[simp] theorem poke_seq (w : Width) (a : Addr) (v : BitVec w.bits) (s : State) : (poke w a v s).seq = s.seq := by
  cases w <;> simp [poke]
@[simp] theorem poke_wdt (w : Width) (a : Addr) (v : BitVec w.bits) (s : State) : (poke w a v s).wdt = s.wdt := by
  cases w <;> simp [poke]
@[simp] theorem poke_initDone (w : Width) (a : Addr) (v : BitVec w.bits) (s : State) : (poke w a v s).initDone = s.initDone := by
  cases w <;> simp [poke]
@[simp] theorem poke_run (w : Width) (a : Addr) (v : BitVec w.bits) (s : State) : (poke w a v s).run = s.run := by
  cases w <;> simp [poke]
@[simp] theorem poke_resetCause (w : Width) (a : Addr) (v : BitVec w.bits) (s : State) : (poke w a v s).resetCause = s.resetCause := by
  cases w <;> simp [poke]
@[simp] theorem poke_memMap (w : Width) (a : Addr) (v : BitVec w.bits) (s : State) : (poke w a v s).memMap = s.memMap := by
  cases w <;> simp [poke]
@[simp] theorem poke_nmiPinLow (w : Width) (a : Addr) (v : BitVec w.bits) (s : State) : (poke w a v s).nmiPinLow = s.nmiPinLow := by
  cases w <;> simp [poke]
@[simp] theorem poke_pending (w : Width) (a : Addr) (v : BitVec w.bits) (s : State) : (poke w a v s).pending = s.pending := by
  cases w <;> simp [poke]
@[simp] theorem poke_branchTarget (w : Width) (a : Addr) (v : BitVec w.bits) (s : State) : (poke w a v s).branchTarget = s.branchTarget := by
  cases w <;> simp [poke]

/-! ## `pokeTo` -/

/-- Storing an operand is a plain store, or, for a byte GPR over a CPU register other than PSW, a write of that register. -/
theorem pokeTo_cases (l : Loc) (w : Width) (a : Addr) (v : BitVec w.bits) (s : State) :
    pokeTo l w a v s = poke w a v s ∨
    ∃ r x, r ≠ .psw ∧ cpuRegAt a = some r ∧ pokeTo l w a v s = setReg r x s := by
  cases w
  · simp only [pokeTo, poke]
    split
    · unfold pokeByteGpr
      split
      · rename_i r hr
        by_cases h : r = .psw
        · left; rw [if_pos h]
        · right; rw [if_neg h]; exact ⟨r, _, h, hr, rfl⟩
      · left; rfl
    · left; rfl
  · left; rfl

@[simp] theorem pokeTo_word (l : Loc) (a : Addr) (v : Word) (s : State) :
    pokeTo l .word a v s = pokeWord a v s := rfl

@[simp] theorem pokeTo_ip (l : Loc) (w : Width) (a : Addr) (v : BitVec w.bits) (s : State) :
    (pokeTo l w a v s).ip = s.ip := by
  rcases pokeTo_cases l w a v s with h | ⟨r, x, -, -, h⟩ <;> simp [h]
@[simp] theorem pokeTo_seq (l : Loc) (w : Width) (a : Addr) (v : BitVec w.bits) (s : State) :
    (pokeTo l w a v s).seq = s.seq := by
  rcases pokeTo_cases l w a v s with h | ⟨r, x, -, -, h⟩ <;> simp [h]
@[simp] theorem pokeTo_wdt (l : Loc) (w : Width) (a : Addr) (v : BitVec w.bits) (s : State) :
    (pokeTo l w a v s).wdt = s.wdt := by
  rcases pokeTo_cases l w a v s with h | ⟨r, x, -, -, h⟩ <;> simp [h]
@[simp] theorem pokeTo_initDone (l : Loc) (w : Width) (a : Addr) (v : BitVec w.bits) (s : State) :
    (pokeTo l w a v s).initDone = s.initDone := by
  rcases pokeTo_cases l w a v s with h | ⟨r, x, -, -, h⟩ <;> simp [h]
@[simp] theorem pokeTo_run (l : Loc) (w : Width) (a : Addr) (v : BitVec w.bits) (s : State) :
    (pokeTo l w a v s).run = s.run := by
  rcases pokeTo_cases l w a v s with h | ⟨r, x, -, -, h⟩ <;> simp [h]
@[simp] theorem pokeTo_resetCause (l : Loc) (w : Width) (a : Addr) (v : BitVec w.bits) (s : State) :
    (pokeTo l w a v s).resetCause = s.resetCause := by
  rcases pokeTo_cases l w a v s with h | ⟨r, x, -, -, h⟩ <;> simp [h]
@[simp] theorem pokeTo_memMap (l : Loc) (w : Width) (a : Addr) (v : BitVec w.bits) (s : State) :
    (pokeTo l w a v s).memMap = s.memMap := by
  rcases pokeTo_cases l w a v s with h | ⟨r, x, -, -, h⟩ <;> simp [h]
@[simp] theorem pokeTo_nmiPinLow (l : Loc) (w : Width) (a : Addr) (v : BitVec w.bits) (s : State) :
    (pokeTo l w a v s).nmiPinLow = s.nmiPinLow := by
  rcases pokeTo_cases l w a v s with h | ⟨r, x, -, -, h⟩ <;> simp [h]
@[simp] theorem pokeTo_pending (l : Loc) (w : Width) (a : Addr) (v : BitVec w.bits) (s : State) :
    (pokeTo l w a v s).pending = s.pending := by
  rcases pokeTo_cases l w a v s with h | ⟨r, x, -, -, h⟩ <;> simp [h]
@[simp] theorem pokeTo_branchTarget (l : Loc) (w : Width) (a : Addr) (v : BitVec w.bits) (s : State) :
    (pokeTo l w a v s).branchTarget = s.branchTarget := by
  rcases pokeTo_cases l w a v s with h | ⟨r, x, -, -, h⟩ <;> simp [h]

end Sys2Proof.Laws
end

