-- ==== Sys2Proof/Laws/Access.lean ====
section
/-! SUPPORT. Addresses and CPU registers, and bytes and words read after a register, byte or word is written. -/

namespace Sys2Proof.Laws

open Sys2Proof.Machine

/-! ## Addresses -/

theorem evenAddr_bit (a : Addr) (i : Nat) : (evenAddr a).getLsbD i = (decide (0 < i) && a.getLsbD i) := by
  simp only [evenAddr, BitVec.getLsbD_and]
  by_cases h : i < 24
  · rw [Bool.and_comm]
    congr 1
    revert i; decide
  · rw [BitVec.getLsbD_of_ge a i (by omega)]; simp

theorem evenAddr_of_even {a : Addr} (h : isOdd a = false) : evenAddr a = a := by
  refine BitVec.eq_of_getLsbD_eq fun i _ => ?_
  rw [evenAddr_bit]
  cases i with
  | zero => simpa [isOdd] using h.symm
  | succ i => simp

theorem succ_bit {a : Addr} (h : isOdd a = false) (i : Nat) :
    (a + 1).getLsbD i = (decide (i = 0) || a.getLsbD i) := by
  have h0 : a &&& 1 = 0 := by
    refine BitVec.eq_of_getLsbD_eq fun i _ => ?_
    cases i with
    | zero => simpa [isOdd] using h
    | succ i => simp [BitVec.getLsbD_one]
  rw [BitVec.add_eq_or_of_and_eq_zero a 1 h0, BitVec.getLsbD_or, Bool.or_comm]
  cases i <;> simp [BitVec.getLsbD_one]

/-- The odd byte of an aligned word is in the same word. -/
theorem evenAddr_succ {a : Addr} (h : isOdd a = false) : evenAddr (a + 1) = a := by
  refine BitVec.eq_of_getLsbD_eq fun i _ => ?_
  rw [evenAddr_bit, succ_bit h]
  cases i with
  | zero => simpa [isOdd] using h.symm
  | succ i => simp

theorem isOdd_succ {a : Addr} (h : isOdd a = false) : isOdd (a + 1) = true := by
  rw [isOdd, succ_bit h]; simp

theorem succ_ne (a : Addr) : a + 1 ≠ a := by
  intro h
  have := congrArg BitVec.toNat h
  simp only [BitVec.toNat_add, show (1 : Addr).toNat = 1 from rfl] at this
  omega

theorem toNat_ne {a b : Addr} (h : a ≠ b) : a.toNat ≠ b.toNat := fun e => h (BitVec.eq_of_toNat_eq e)

/-! ## Which register lies at an address -/

theorem cpuRegAt_eq_some {a : Addr} {r : CpuReg} : cpuRegAt a = some r ↔ evenAddr a = r.addr := by
  constructor
  · intro h
    have := List.find?_some h
    exact (beq_iff_eq.mp this).symm
  · intro h
    simp only [cpuRegAt, h]
    cases r <;> rfl

theorem cpuRegAt_addr (r : CpuReg) : cpuRegAt r.addr = some r := by cases r <;> rfl

theorem cpuRegAt_succ {a : Addr} (h : isOdd a = false) : cpuRegAt (a + 1) = cpuRegAt a := by
  simp only [cpuRegAt, evenAddr_succ h, evenAddr_of_even h]

/-- The register at an aligned address starts there. -/
theorem addr_of_even {a : Addr} {r : CpuReg} (h : isOdd a = false) (hr : cpuRegAt a = some r) : a = r.addr := by
  rw [cpuRegAt_eq_some, evenAddr_of_even h] at hr; exact hr

theorem hitsPsw_iff {a : Addr} : hitsPsw a = true ↔ cpuRegAt a = some .psw := by simp [hitsPsw]

/-! ## Bytes and words -/

@[simp] theorem wordOf_low (l h : Byte) : lowByte (wordOf l h) = l := by
  refine BitVec.eq_of_getLsbD_eq fun i hi => ?_
  simp only [lowByte, wordOf, BitVec.getLsbD_extractLsb', BitVec.getLsbD_append]
  simp [hi]

@[simp] theorem wordOf_high (l h : Byte) : highByte (wordOf l h) = h := by
  refine BitVec.eq_of_getLsbD_eq fun i hi => ?_
  simp only [highByte, wordOf, BitVec.getLsbD_extractLsb', BitVec.getLsbD_append]
  rw [if_neg (by omega)]
  simp [hi]

@[simp] theorem wordOf_bytes (v : Word) : wordOf (lowByte v) (highByte v) = v := by
  refine BitVec.eq_of_getLsbD_eq fun i hi => ?_
  simp only [lowByte, highByte, wordOf, BitVec.getLsbD_append, BitVec.getLsbD_extractLsb']
  split
  · simp [*]
  · rw [Nat.add_sub_of_le (by omega)]; simp [show i - 8 < 8 by omega]

/-! ## Registers after a register is written -/

/-- What a write to a CPU register does to the registers: the register keeps what it stores of the word, a write to
MDL or MDH sets MDRIU, and the others stay. -/
theorem getReg_setReg (r q : CpuReg) (v : Word) (s : State) :
    getReg (setReg r v s) q =
      if q = r then r.stored v
      else if q = .mdc ∧ (r = .mdl ∨ r = .mdh) then s.mdc ||| mdriuMask
      else getReg s q := by
  cases r <;> cases q <;> rfl

theorem getReg_setFlags (r : CpuReg) (f : CondFlags) (s : State) :
    getReg (s.setFlags f) r = if r = .psw then withFlags s.psw f else getReg s r := by cases r <;> rfl

theorem getReg_touch (r : CpuReg) (a : Addr) (s : State) :
    getReg (touch a s) r =
      if r = .mdc ∧ cpuRegAt a = some .mdl then s.mdc &&& ~~~mdriuMask else getReg s r := by
  unfold touch; split <;> cases r <;> simp_all [getReg]

theorem touch_of_none {a : Addr} {s : State} (h : cpuRegAt a = none) : touch a s = s := by
  simp [touch, h]

theorem touch_of_plain {a : Addr} {s : State} (h : cpuRegAt a ≠ some .mdl) : touch a s = s := by
  simp [touch, h]

@[simp] theorem touch_touch (a : Addr) (s : State) : touch a (touch a s) = touch a s := by
  unfold touch; split
  · simp [BitVec.and_assoc]
  · rfl

/-! ## Bytes after a register or a byte is written -/

theorem peekByte_of_none {a : Addr} {s : State} (h : cpuRegAt a = none) :
    peekByte s a = Memory.read s.mem a.toNat := by simp [peekByte, h]

/-- A byte depends on the memory and on the register that lies there, if one does. -/
theorem peekByte_congr {s t : State} {a : Addr} (hm : cpuRegAt a = none → Memory.read t.mem a.toNat = Memory.read s.mem a.toNat)
    (hr : ∀ r, cpuRegAt a = some r → getReg t r = getReg s r) : peekByte t a = peekByte s a := by
  unfold peekByte
  cases h : cpuRegAt a with
  | none => exact hm h
  | some r => simp [hr r h]

/-- Reading an operand does not change what an operand reads as, but for MDC after a read of MDL. -/
theorem peekByte_touch {a b : Addr} {s : State} (h : cpuRegAt b ≠ some .mdc ∨ cpuRegAt a ≠ some .mdl) :
    peekByte (touch a s) b = peekByte s b := by
  refine peekByte_congr (fun _ => by simp) fun r hr => ?_
  rw [getReg_touch, if_neg]
  rintro ⟨rfl, h2⟩
  rcases h with h | h
  · exact h hr
  · exact h h2

/-- A word of memory holds no register. -/
theorem peekWord_touch_self (a : Addr) (s : State) (h : isOdd a = false) :
    peekWord (touch a s) a = peekWord s a := by
  have key : cpuRegAt a ≠ some .mdc ∨ cpuRegAt a ≠ some .mdl := by
    by_cases hm : cpuRegAt a = some .mdl
    · left; rw [hm]; decide
    · right; exact hm
  unfold peekWord
  rw [peekByte_touch key, peekByte_touch (by rw [cpuRegAt_succ h]; exact key)]

/-- One byte stored: the other bytes of memory stay. -/
theorem peekByte_pokeByte_other {a b : Addr} (v : Byte) (s : State) (hb : cpuRegAt b = none) (h : b ≠ a) :
    peekByte (pokeByte a v s) b = peekByte s b := by
  rw [peekByte_of_none hb, peekByte_of_none hb]
  unfold pokeByte
  split
  · unfold setRegByte; split <;> [split <;> simp; simp]
  · exact read_write_other _ _ _ _ (toNat_ne h)

/-- One word stored: the other bytes of memory stay. -/
theorem peekByte_pokeWord_other {a b : Addr} (v : Word) (s : State) (hb : cpuRegAt b = none) (h : b ≠ a)
    (h1 : b ≠ a + 1) : peekByte (pokeWord a v s) b = peekByte s b := by
  rw [peekByte_of_none hb, peekByte_of_none hb]
  unfold pokeWord
  split
  · simp
  · simp only
    rw [read_write_other _ _ _ _ (toNat_ne h1), read_write_other _ _ _ _ (toNat_ne h)]

/-- An operand stored: the other bytes of memory stay. -/
theorem peekByte_poke_other (w : Width) {a b : Addr} (v : BitVec w.bits) (s : State) (hb : cpuRegAt b = none)
    (h : b ∉ accessBytes w a) : peekByte (poke w a v s) b = peekByte s b := by
  cases w
  · exact peekByte_pokeByte_other v s hb (by simpa [accessBytes] using h)
  · simp only [accessBytes, List.mem_cons, List.not_mem_nil, or_false, not_or] at h
    exact peekByte_pokeWord_other v s hb h.1 h.2

/-- Registers after one byte is stored: only the one that lies there, and MDC if that is MDL or MDH, can change. -/
theorem getReg_pokeByte_other {a : Addr} {r : CpuReg} (v : Byte) (s : State) (h : cpuRegAt a ≠ some r)
    (hm : r ≠ .mdc) : getReg (pokeByte a v s) r = getReg s r := by
  unfold pokeByte
  split
  · rename_i q hq
    have hqr : r ≠ q := fun e => h (e ▸ hq)
    unfold setRegByte
    split
    · split
      · rw [getReg_setReg, if_neg hqr, if_neg (fun hh => hm hh.1)]
      · rw [getReg_setReg, if_neg hqr, if_neg (fun hh => hm hh.1)]; cases r <;> rfl
    · rw [getReg_setReg, if_neg hqr, if_neg (fun hh => hm hh.1)]
  · cases r <;> rfl

/-- Registers after one word is stored. -/
theorem getReg_pokeWord_other {a : Addr} {r : CpuReg} (v : Word) (s : State) (h : cpuRegAt a ≠ some r)
    (hm : r ≠ .mdc) : getReg (pokeWord a v s) r = getReg s r := by
  unfold pokeWord
  split
  · rename_i q hq
    have hqr : r ≠ q := fun e => h (e ▸ hq)
    rw [getReg_setReg, if_neg hqr, if_neg (fun hh => hm hh.1)]
  · cases r <;> rfl

/-- Registers after an operand is stored. -/
theorem getReg_poke_other (w : Width) {a : Addr} {r : CpuReg} (v : BitVec w.bits) (s : State)
    (h : cpuRegAt a ≠ some r) (hm : r ≠ .mdc) : getReg (poke w a v s) r = getReg s r := by
  cases w
  · exact getReg_pokeByte_other v s h hm
  · exact getReg_pokeWord_other v s h hm

/-- A word stored to ordinary memory leaves every register alone. -/
theorem getReg_pokeWord_none {a : Addr} (v : Word) (s : State) (h : cpuRegAt a = none) (r : CpuReg) :
    getReg (pokeWord a v s) r = getReg s r := by
  simp only [pokeWord, h]; cases r <;> rfl

/-- A word stored to ordinary memory reads back. -/
theorem peekWord_pokeWord {a : Addr} (v : Word) (s : State) (hw : Memory.wf s.mem = true) (hr : cpuRegAt a = none)
    (he : isOdd a = false) : peekWord (pokeWord a v s) a = v := by
  have h1 : cpuRegAt (a + 1) = none := by rw [cpuRegAt_succ he]; exact hr
  have hne := toNat_ne (succ_ne a)
  simp only [peekWord, peekByte_of_none hr, peekByte_of_none h1, pokeWord, hr]
  rw [read_write_other _ _ _ _ hne.symm, read_write_same _ _ hw, read_write_same _ _ (wf_write _ _ hw), wordOf_bytes]

/-- A stored operand keeps the canonical form. -/
theorem wf_poke (w : Width) (a : Addr) (v : BitVec w.bits) (s : State) (h : Memory.wf s.mem = true) :
    Memory.wf (poke w a v s).mem = true := by
  cases w
  · simp only [poke, pokeByte]
    split
    · unfold setRegByte; split <;> [split <;> simpa; simpa]
    · exact wf_write _ _ h
  · simp only [poke, pokeWord]
    split
    · simpa
    · exact wf_write _ _ (wf_write _ _ h)

/-- An operand stored: the other bytes of memory stay. -/
theorem peekByte_pokeTo_other (l : Loc) (w : Width) {a b : Addr} (v : BitVec w.bits) (s : State) (hb : cpuRegAt b = none)
    (h : b ∉ accessBytes w a) : peekByte (pokeTo l w a v s) b = peekByte s b := by
  rcases pokeTo_cases l w a v s with e | ⟨r, x, -, -, e⟩ <;> rw [e]
  · exact peekByte_poke_other w v s hb h
  · rw [peekByte_of_none hb, peekByte_of_none hb]; simp

/-- Registers after an operand is stored: only the one that lies there, and MDC if that is MDL or MDH, can change. -/
theorem getReg_pokeTo_other (l : Loc) (w : Width) {a : Addr} {r : CpuReg} (v : BitVec w.bits) (s : State)
    (h : cpuRegAt a ≠ some r) (hm : r ≠ .mdc) : getReg (pokeTo l w a v s) r = getReg s r := by
  rcases pokeTo_cases l w a v s with e | ⟨q, x, -, hq, e⟩ <;> rw [e]
  · exact getReg_poke_other w v s h hm
  · rw [getReg_setReg, if_neg (fun hrq : r = q => h (by rw [hrq]; exact hq)), if_neg (fun hh => hm hh.1)]

theorem wf_pokeTo (l : Loc) (w : Width) (a : Addr) (v : BitVec w.bits) (s : State) (h : Memory.wf s.mem = true) :
    Memory.wf (pokeTo l w a v s).mem = true := by
  rcases pokeTo_cases l w a v s with e | ⟨q, x, -, -, e⟩ <;> rw [e]
  · exact wf_poke w a v s h
  · simpa

/-- The byte after an even code offset, without wrapping. -/
theorem codeAddr_succ (g : Byte) (o : Word) (h : o.getLsbD 0 = false) : codeAddr g o + 1 = codeAddr g (o + 1) := by
  apply BitVec.eq_of_toNat_eq
  have ho : o.toNat % 2 = 0 := by
    rw [← BitVec.testBit_toNat] at h; simpa using h
  have e : ∀ x : Word, (codeAddr g x).toNat = g.toNat * 65536 + x.toNat := by
    intro x
    rw [codeAddr, BitVec.toNat_append, Nat.shiftLeft_eq, Nat.mul_comm, ← Nat.two_pow_add_eq_or_of_lt x.isLt]
  rw [BitVec.toNat_add, e, e, BitVec.toNat_add]
  have := g.isLt
  have := o.isLt
  simp
  omega

end Sys2Proof.Laws
end

