-- ==== Sys2Proof/Laws/Decode.lean ====
section
/-! SUPPORT. The fields of the encodings: a field packed by the encoder is the field the decoder reads. -/

namespace Sys2Proof.Laws

/-! ## Nibbles and bytes -/

@[simp] theorem hiNib_append (a b : BitVec 4) : hiNib (a ++ b) = a := by
  refine BitVec.eq_of_getLsbD_eq fun i hi => ?_
  simp only [hiNib, BitVec.getLsbD_extractLsb', BitVec.getLsbD_append]
  rw [if_neg (by omega)]
  simp [hi]

@[simp] theorem loNib_append (a b : BitVec 4) : loNib (a ++ b) = b := by
  refine BitVec.eq_of_getLsbD_eq fun i hi => ?_
  simp only [loNib, BitVec.getLsbD_extractLsb', BitVec.getLsbD_append]
  simp [hi]

@[simp] theorem append_nibbles (b : Byte) : hiNib b ++ loNib b = b := by
  refine BitVec.eq_of_getLsbD_eq fun i hi => ?_
  simp only [hiNib, loNib, BitVec.getLsbD_append, BitVec.getLsbD_extractLsb']
  split
  · simp [*]
  · simp [show i - 4 < 4 by omega, show 4 + (i - 4) = i by omega]

@[simp] theorem wordOf_low_high (v : Word) : wordOf (lowByte v) (highByte v) = v := by
  refine BitVec.eq_of_getLsbD_eq fun i hi => ?_
  simp only [lowByte, highByte, wordOf, BitVec.getLsbD_append, BitVec.getLsbD_extractLsb']
  split
  · simp [*]
  · simp [show i - 8 < 8 by omega, show 8 + (i - 8) = i by omega]

@[simp] theorem condOf_code (cc : Cond) : condOf cc.code = cc := by cases cc <;> rfl

/-! ## Pointers and sequence lengths -/

theorem pointerOf_bits : ∀ p : RegNo, pointerOk p = true → pointerOf (pointerBits p) = p := by decide

theorem rangeOf_bits {count : Nat} (h : rangeOk count = true) : rangeOf (rangeBits count) = count := by
  simp only [rangeOk, Bool.and_eq_true, decide_eq_true_eq] at h
  obtain ⟨h1, h2⟩ := h
  interval_cases count <;> rfl

theorem rangeOk_rangeOf : ∀ g : BitVec 2, rangeOk (rangeOf g) = true := by decide

theorem pointerOk_pointerOf : ∀ ii : BitVec 2, pointerOk (pointerOf ii) = true := by decide

/-! ## The packed second bytes of the formats with subfields -/

/-- `n:0###`. -/
theorem short_data (n : RegNo) (d : BitVec 3) :
    (n ++ 0b0#1 ++ d : Byte).getLsbD 3 = false ∧ hiNib (n ++ 0b0#1 ++ d) = n ∧
      (n ++ 0b0#1 ++ d : Byte).extractLsb' 0 3 = d := by
  revert n d; decide

/-- `n:10ii`. -/
theorem short_ind (n : RegNo) (ii : BitVec 2) :
    (n ++ 0b10#2 ++ ii : Byte).getLsbD 3 = true ∧ (n ++ 0b10#2 ++ ii : Byte).getLsbD 2 = false ∧
      hiNib (n ++ 0b10#2 ++ ii) = n ∧ (n ++ 0b10#2 ++ ii : Byte).extractLsb' 0 2 = ii := by
  revert n ii; decide

/-- `n:11ii`. -/
theorem short_inc (n : RegNo) (ii : BitVec 2) :
    (n ++ 0b11#2 ++ ii : Byte).getLsbD 3 = true ∧ (n ++ 0b11#2 ++ ii : Byte).getLsbD 2 = true ∧
      hiNib (n ++ 0b11#2 ++ ii) = n ∧ (n ++ 0b11#2 ++ ii : Byte).extractLsb' 0 2 = ii := by
  revert n ii; decide

/-- `t:gg:mmmm`: the second byte of the ATOMIC/EXTend instructions. -/
theorem ext_fields : ∀ (t g : BitVec 2) (m : BitVec 4), loNib (t ++ g ++ m) = m ∧
    (t ++ g ++ m : Byte).extractLsb' 6 2 = t ∧ (t ++ g ++ m : Byte).extractLsb' 4 2 = g := by decide

theorem page_fields : ∀ p : BitVec 10, (0b000000#6 ++ p.extractLsb' 8 2 : Byte).extractLsb' 2 6 = 0 ∧
    (0b000000#6 ++ p.extractLsb' 8 2 : Byte).extractLsb' 0 2 ++ p.setWidth 8 = p := by decide +kernel

theorem trap_fields : ∀ t : BitVec 7, (t ++ 0b0#1 : Byte).getLsbD 0 = false ∧
    (t ++ 0b0#1 : Byte).extractLsb' 1 7 = t := by decide

/-! ## Whole instructions -/

theorem decodeBytes_two {b0 b1 : Byte} {i : Instr} (h : lengthOf b0 = 2) (hd : decode b0 b1 0 0 = .ok i) :
    decodeBytes [b0, b1] = .ok (i, []) := by
  simp only [decodeBytes, h]; rw [if_neg (by decide), hd]; rfl

theorem decodeBytes_four {b0 b1 b2 b3 : Byte} {i : Instr} (h : lengthOf b0 = 4) (hd : decode b0 b1 b2 b3 = .ok i) :
    decodeBytes [b0, b1, b2, b3] = .ok (i, []) := by
  simp only [decodeBytes, h, if_true, hd]; rfl

/-- The last two bytes do not matter to a two-byte instruction. -/
theorem decode_short {b0 b1 b2 b3 : Byte} (h : lengthOf b0 ≠ 4) : decode b0 b1 b2 b3 = decode b0 b1 0 0 := by
  unfold lengthOf at h
  unfold decode
  generalize (loNib b0).toNat = k at *
  match k with
  | 0 | 1 | 8 | 9 | 11 | 12 | 13 | 14 => rfl
  | 2 | 3 | 4 | 5 | 6 | 7 | 10 => exact absurd rfl h
  | (_ + 15) => rfl

/-- The three columns whose high nibble is an operand: xD, xE and xF. -/
theorem decode_nibble (q : BitVec 4) (b : Byte) : decode (q ++ 0b1101#4) b 0 0 = .ok (.jmpr (condOf q) b) ∧
    decode (q ++ 0b1110#4) b 0 0 = .ok (.bclr b q) ∧ decode (q ++ 0b1111#4) b 0 0 = .ok (.bset b q) := by
  refine ⟨?_, ?_, ?_⟩ <;> simp [decode]

theorem length_nibble : ∀ q : BitVec 4, lengthOf (q ++ 0b1101#4) = 2 ∧ lengthOf (q ++ 0b1110#4) = 2 ∧
    lengthOf (q ++ 0b1111#4) = 2 := by decide

/-! ## Each format with fixed or packed fields reads what the encoder wrote -/

theorem fmtN0_encoded {f : RegNo → Instr} (n : RegNo) : fmtN0 f (n ++ 0b0000#4) = .ok (f n) := by simp [fmtN0]

theorem fmtNN_encoded {f : RegNo → Instr} (n : RegNo) : fmtNN f (n ++ n) = .ok (f n) := by simp [fmtNN]

theorem fmtFixedN_encoded {f : RegNo → Word → Instr} (c n : RegNo) (a : Word) :
    fmtFixedN c f (c ++ n) (lowByte a) (highByte a) = .ok (f n a) := by simp [fmtFixedN]

theorem fmtBitJump_encoded {f : Byte → BitVec 4 → Byte → Instr} (q : BitVec 4) (a b : Byte) :
    fmtBitJump f a b (q ++ 0b0000#4) = .ok (f a q b) := by simp [fmtBitJump]

theorem fmtCond_encoded {f : Cond → Word → Instr} (cc : Cond) (a : Word) :
    fmtCond f (cc.code ++ 0b0000#4) (lowByte a) (highByte a) = .ok (f cc a) := by simp [fmtCond]

theorem fmtShort_data {f : RegNo → BitVec 3 → Instr} {g h : RegNo → RegNo → Instr} (n : RegNo) (d : BitVec 3) :
    fmtShort f g h (n ++ 0b0#1 ++ d) = .ok (f n d) := by
  obtain ⟨h1, h2, h3⟩ := short_data n d
  simp only [fmtShort, h1, h2, h3, if_true]

theorem fmtShort_ind {f : RegNo → BitVec 3 → Instr} {g h : RegNo → RegNo → Instr} (n p : RegNo)
    (hp : pointerOk p = true) : fmtShort f g h (n ++ 0b10#2 ++ pointerBits p) = .ok (g n p) := by
  obtain ⟨h1, h2, h3, h4⟩ := short_ind n (pointerBits p)
  simp only [fmtShort, h1, h2, h3, h4, if_true, pointerOf_bits p hp]; rfl

theorem fmtShort_inc {f : RegNo → BitVec 3 → Instr} {g h : RegNo → RegNo → Instr} (n p : RegNo)
    (hp : pointerOk p = true) : fmtShort f g h (n ++ 0b11#2 ++ pointerBits p) = .ok (h n p) := by
  obtain ⟨h1, h2, h3, h4⟩ := short_inc n (pointerBits p)
  simp only [fmtShort, h1, h2, h3, h4, pointerOf_bits p hp]; rfl

theorem fmtTrap_encoded (t : BitVec 7) : fmtTrap (t ++ 0b0#1) = .ok (.trap t) := by
  simp only [fmtTrap, trap_fields t, if_true]

theorem fmtAtomic_atomic {c : Nat} (h : rangeOk c = true) :
    fmtAtomic (0b00#2 ++ rangeBits c ++ 0b0000#4) = .ok (.atomic c) := by
  obtain ⟨h1, h2, h3⟩ := ext_fields 0b00#2 (rangeBits c) 0b0000#4
  simp only [fmtAtomic, h1, h2, h3, rangeOf_bits h]; rfl

theorem fmtAtomic_extr {c : Nat} (h : rangeOk c = true) :
    fmtAtomic (0b10#2 ++ rangeBits c ++ 0b0000#4) = .ok (.extr c) := by
  obtain ⟨h1, h2, h3⟩ := ext_fields 0b10#2 (rangeBits c) 0b0000#4
  simp only [fmtAtomic, h1, h2, h3, rangeOf_bits h]; rfl

theorem fmtExtImmediate_exts (g : Byte) {c : Nat} (h : rangeOk c = true) :
    fmtExtImmediate (0b00#2 ++ rangeBits c ++ 0b0000#4) g 0 = .ok (.extsSeg g c) := by
  obtain ⟨h1, h2, h3⟩ := ext_fields 0b00#2 (rangeBits c) 0b0000#4
  simp only [fmtExtImmediate, h1, h2, h3, rangeOf_bits h]; rfl

theorem fmtExtImmediate_extsr (g : Byte) {c : Nat} (h : rangeOk c = true) :
    fmtExtImmediate (0b10#2 ++ rangeBits c ++ 0b0000#4) g 0 = .ok (.extsrSeg g c) := by
  obtain ⟨h1, h2, h3⟩ := ext_fields 0b10#2 (rangeBits c) 0b0000#4
  simp only [fmtExtImmediate, h1, h2, h3, rangeOf_bits h]; rfl

theorem fmtExtImmediate_extp (p : BitVec 10) {c : Nat} (h : rangeOk c = true) :
    fmtExtImmediate (0b01#2 ++ rangeBits c ++ 0b0000#4) (p.setWidth 8) (0b000000#6 ++ p.extractLsb' 8 2) =
      .ok (.extpPag p c) := by
  obtain ⟨h1, h2, h3⟩ := ext_fields 0b01#2 (rangeBits c) 0b0000#4
  simp only [fmtExtImmediate, h1, h2, h3, rangeOf_bits h, page_fields p]; rfl

theorem fmtExtImmediate_extpr (p : BitVec 10) {c : Nat} (h : rangeOk c = true) :
    fmtExtImmediate (0b11#2 ++ rangeBits c ++ 0b0000#4) (p.setWidth 8) (0b000000#6 ++ p.extractLsb' 8 2) =
      .ok (.extprPag p c) := by
  obtain ⟨h1, h2, h3⟩ := ext_fields 0b11#2 (rangeBits c) 0b0000#4
  simp only [fmtExtImmediate, h1, h2, h3, rangeOf_bits h, page_fields p]; rfl

theorem fmtExtRegister_encoded (t : BitVec 2) (m : RegNo) {c : Nat} (h : rangeOk c = true) :
    fmtExtRegister (t ++ rangeBits c ++ m) =
      .ok (match t.toNat with
        | 0 => .extsRw m c
        | 1 => .extpRw m c
        | 2 => .extsrRw m c
        | _ => .extprRw m c) := by
  obtain ⟨h1, h2, h3⟩ := ext_fields t (rangeBits c) m
  simp only [fmtExtRegister, h1, h2, h3, rangeOf_bits h]
  revert t; intro t _ _ _; split <;> simp_all

end Sys2Proof.Laws
end

