-- ==== Sys2Proof/Laws/Ops.lean ====
section
/-! SUPPORT. Each shared operation once: when it takes place and what it then answers. -/

namespace Sys2Proof.Laws

open Sys2Proof.Machine

/-! ## Sequencing -/

/-- A sequence of two parts answers only if both do. -/
theorem bind_ok {α β : Type} {x : Exec α} {f : α → Exec β} {b : β} :
    (x >>= f) = .ok b ↔ ∃ a, x = .ok a ∧ f a = .ok b := by
  cases x <;> simp [bind, Except.bind]

@[simp] theorem pure_eq_ok {α : Type} {x y : α} : (pure x : Exec α) = .ok y ↔ x = y := by
  simp [pure, Except.pure]

@[simp] theorem ok_bind {α β : Type} (a : α) (f : α → Exec β) : ((.ok a : Exec α) >>= f) = f a := rfl

@[simp] theorem error_bind {α β : Type} (e : Stop) (f : α → Exec β) : ((.error e : Exec α) >>= f) = .error e := rfl

@[simp] theorem pure_bind_exec {α β : Type} (a : α) (f : α → Exec β) : ((pure a : Exec α) >>= f) = f a := rfl

@[simp] theorem conclude_ok (s t : State) : conclude s (.ok t) = .next t := rfl

@[simp] theorem conclude_pure (s t : State) : conclude s (pure t) = .next t := rfl

/-- An instruction goes on with its own effect, or with the entry of its trap. -/
theorem conclude_next {s t : State} {x : Exec State} (h : conclude s x = .next t) :
    x = .ok t ∨ ∃ trap, x = .error (.trap trap) ∧ raise trap s.ip s = .next t := by
  match x, h with
  | .ok _, h => left; simpa using h
  | .error (.trap trap), h => right; exact ⟨trap, rfl, h⟩

theorem unlessStop_ok {α : Type} {stop : Option Stop} {x y : α} :
    unlessStop stop x = .ok y ↔ stop = none ∧ x = y := by
  cases stop <;> simp [unlessStop]

/-! ## What the stops depend on -/

/-- The check against code fetched ahead has one outcome: the refusal of the store. -/
theorem aheadStop_some {s : State} {w : Width} {a : Addr} {e : Stop} (h : aheadStop s w a = some e) :
    e = .refused .storeAhead := by
  unfold aheadStop at h
  split at h <;> cases h
  rfl

theorem readStop_congr {s t : State} (h : t.memMap = s.memMap) (w : Width) (a : Addr) :
    readStop t w a = readStop s w a := by simp [readStop, kindAt, h]

theorem writeStop_congr {s t : State} (hm : t.memMap = s.memMap) (hc : t.csp = s.csp) (hi : t.ip = s.ip)
    (hb : t.branchTarget = s.branchTarget) (w : Width) (a : Addr) : writeStop t w a = writeStop s w a := by
  have hf : fetchedAhead t = fetchedAhead s := by funext b; simp [fetchedAhead, hc, hi, hb]
  simp [writeStop, aheadStop, kindAt, hm, hf]

theorem canRead_congr {s t : State} (h : t.memMap = s.memMap) (w : Width) (a : Addr) :
    canRead t w a = canRead s w a := by simp [canRead, readStop_congr h]

theorem canWrite_congr {s t : State} (hm : t.memMap = s.memMap) (hc : t.csp = s.csp) (hi : t.ip = s.ip)
    (hb : t.branchTarget = s.branchTarget) (w : Width) (a : Addr) : canWrite t w a = canWrite s w a := by
  simp [canWrite, writeStop_congr hm hc hi hb]

theorem plainWord_congr {s t : State} (hm : t.memMap = s.memMap) (hc : t.csp = s.csp) (hi : t.ip = s.ip)
    (hb : t.branchTarget = s.branchTarget) (a : Addr) : plainWord t a = plainWord s a := by
  simp [plainWord, canWrite_congr hm hc hi hb]

theorem canRead_iff {s : State} {w : Width} {a : Addr} : canRead s w a = true ↔ readStop s w a = none := by
  simp [canRead]

theorem canWrite_iff {s : State} {w : Width} {a : Addr} : canWrite s w a = true ↔ writeStop s w a = none := by
  simp [canWrite]

/-- What can be written can be read. -/
theorem canRead_of_canWrite {s : State} {w : Width} {a : Addr} (h : canWrite s w a = true) : canRead s w a = true := by
  rw [canRead_iff]
  rw [canWrite_iff] at h
  unfold writeStop at h
  unfold readStop
  split at h
  · cases h
  · rename_i hmis
    rw [if_neg hmis]
    split at h
    · cases h
    · simp_all
    · rename_i hn
      rw [if_neg (by simp [hn])]
      split at h <;> simp_all

/-- A word that can be accessed is aligned. -/
theorem even_of_canRead {s : State} {a : Addr} (h : canRead s .word a = true) : isOdd a = false := by
  rw [canRead_iff] at h
  unfold readStop at h
  split at h
  · cases h
  · rename_i hmis; simpa [misaligned] using hmis

theorem even_of_canWrite {s : State} {a : Addr} (h : canWrite s .word a = true) : isOdd a = false :=
  even_of_canRead (canRead_of_canWrite h)

/-- CSP is never written. -/
theorem ne_csp_of_canWrite {s : State} {w : Width} {a : Addr} (h : canWrite s w a = true) :
    cpuRegAt a ≠ some .csp := by
  intro hc
  rw [canWrite_iff] at h
  simp only [writeStop, hc] at h
  split at h <;> cases h

/-- A plain word holds no register, can be written and read, and is aligned. -/
theorem plainWord_iff {s : State} {a : Addr} :
    plainWord s a = true ↔ cpuRegAt a = none ∧ canWrite s .word a = true := by simp [plainWord]

/-! ## Reads and writes -/

theorem readMem_of {w : Width} {a : Addr} {s : State} (h : canRead s w a = true) :
    readMem w a s = .ok (peek s w a, touch a s) := by
  rw [canRead_iff] at h; simp [readMem, h, unlessStop]

/-- A read answers the operand and changes at most MDRIU. -/
theorem readMem_ok {w : Width} {a : Addr} {s : State} {r : BitVec w.bits × State} :
    readMem w a s = .ok r ↔ canRead s w a = true ∧ r = (peek s w a, touch a s) := by
  rw [readMem, unlessStop_ok, canRead_iff, eq_comm (a := r)]

theorem writeMem_of {w : Width} {a : Addr} {v : BitVec w.bits} {s : State} (h : canWrite s w a = true) :
    writeMem w a v s = .ok (poke w a v s) := by
  rw [canWrite_iff] at h; simp [writeMem, h, unlessStop]

/-- A write answers the state with the operand stored. -/
theorem writeMem_ok {w : Width} {a : Addr} {v : BitVec w.bits} {s t : State} :
    writeMem w a v s = .ok t ↔ canWrite s w a = true ∧ t = poke w a v s := by
  rw [writeMem, unlessStop_ok, canWrite_iff, eq_comm (a := t)]

theorem writeTo_of {l : Loc} {w : Width} {a : Addr} {v : BitVec w.bits} {s : State} (h : canWrite s w a = true) :
    writeTo l w a v s = .ok (pokeTo l w a v s) := by
  rw [canWrite_iff] at h; simp [writeTo, h, unlessStop]

/-- A write of an operand answers the state with the operand stored. -/
theorem writeTo_ok {l : Loc} {w : Width} {a : Addr} {v : BitVec w.bits} {s t : State} :
    writeTo l w a v s = .ok t ↔ canWrite s w a = true ∧ t = pokeTo l w a v s := by
  rw [writeTo, unlessStop_ok, canWrite_iff, eq_comm (a := t)]

@[simp] theorem peek_byte (s : State) (a : Addr) : peek s .byte a = peekByte s a := rfl
@[simp] theorem peek_word (s : State) (a : Addr) : peek s .word a = peekWord s a := rfl
@[simp] theorem poke_byte (s : State) (a : Addr) (v : Byte) : poke .byte a v s = pokeByte a v s := rfl
@[simp] theorem poke_word (s : State) (a : Addr) (v : Word) : poke .word a v s = pokeWord a v s := rfl

/-! ## What an operand's address and the stops of later accesses depend on: unchanged by reads and writes -/

theorem csp_of_getReg {s t : State} (h : getReg t .csp = getReg s .csp) : t.csp = s.csp := h

theorem csp_poke {w : Width} {a : Addr} (v : BitVec w.bits) (s : State) (h : cpuRegAt a ≠ some .csp) :
    (poke w a v s).csp = s.csp := getReg_poke_other w v s h (by decide)

theorem csp_pokeWord {a : Addr} (v : Word) (s : State) (h : cpuRegAt a ≠ some .csp) :
    (pokeWord a v s).csp = s.csp := getReg_pokeWord_other v s h (by decide)

@[simp] theorem canRead_touch (a : Addr) (s : State) : canRead (touch a s) = canRead s := by
  funext w b; exact canRead_congr (by simp) w b

@[simp] theorem canWrite_touch (a : Addr) (s : State) : canWrite (touch a s) = canWrite s := by
  funext w b; exact canWrite_congr (by simp) (by simp) (by simp) (by simp) w b

@[simp] theorem plainWord_touch (a : Addr) (s : State) : plainWord (touch a s) = plainWord s := by
  funext b; simp [plainWord]

@[simp] theorem canRead_poke (w : Width) (a : Addr) (v : BitVec w.bits) (s : State) :
    canRead (poke w a v s) = canRead s := by funext u b; exact canRead_congr (by simp) u b

@[simp] theorem canRead_pokeWord (a : Addr) (v : Word) (s : State) : canRead (pokeWord a v s) = canRead s := by
  funext u b; exact canRead_congr (by simp) u b

theorem canWrite_poke {w : Width} {a : Addr} (v : BitVec w.bits) (s : State) (h : cpuRegAt a ≠ some .csp) :
    canWrite (poke w a v s) = canWrite s := by
  funext u b; exact canWrite_congr (by simp) (csp_poke v s h) (by simp) (by simp) u b

theorem canWrite_pokeWord {a : Addr} (v : Word) (s : State) (h : cpuRegAt a ≠ some .csp) :
    canWrite (pokeWord a v s) = canWrite s := canWrite_poke (w := .word) v s h

theorem plainWord_pokeWord {a : Addr} (v : Word) (s : State) (h : cpuRegAt a ≠ some .csp) :
    plainWord (pokeWord a v s) = plainWord s := by funext b; simp [plainWord, canWrite_pokeWord v s h]

theorem plainWord_poke {w : Width} {a : Addr} (v : BitVec w.bits) (s : State) (h : cpuRegAt a ≠ some .csp) :
    plainWord (poke w a v s) = plainWord s := by funext b; simp [plainWord, canWrite_poke v s h]

@[simp] theorem canRead_setReg (r : CpuReg) (v : Word) (s : State) : canRead (setReg r v s) = canRead s := by
  funext u b; exact canRead_congr (by simp) u b

theorem setReg_csp_other {r : CpuReg} (h : r ≠ .csp) (v : Word) (s : State) : (setReg r v s).csp = s.csp := by
  have := getReg_setReg r .csp v s
  rw [if_neg (Ne.symm h), if_neg (by simp)] at this
  exact this

theorem canWrite_setReg {r : CpuReg} (h : r ≠ .csp) (v : Word) (s : State) :
    canWrite (setReg r v s) = canWrite s := by
  funext u b; exact canWrite_congr (by simp) (setReg_csp_other h v s) (by simp) (by simp) u b

@[simp] theorem canRead_setFlags (f : CondFlags) (s : State) : canRead (s.setFlags f) = canRead s := by
  funext u b; exact canRead_congr (by simp) u b

@[simp] theorem canWrite_setFlags (f : CondFlags) (s : State) : canWrite (s.setFlags f) = canWrite s := by
  funext u b; exact canWrite_congr (by simp) (by simp) (by simp) (by simp) u b

@[simp] theorem segmentationDisabled_touch (a : Addr) (s : State) :
    segmentationDisabled (touch a s) = segmentationDisabled s := by simp [segmentationDisabled]

@[simp] theorem flags_touch (a : Addr) (s : State) : (touch a s).flags = s.flags := by simp [State.flags]

@[simp] theorem dataAddr_touch (a : Addr) (s : State) : dataAddr (touch a s) = dataAddr s := by
  funext b; simp [dataAddr, overrideActive, dppOf]

@[simp] theorem regAddr_touch (bank : Word) (a : Addr) (s : State) : regAddr bank (touch a s) = regAddr bank s := by
  funext w r; simp [regAddr]

@[simp] theorem bitoffAddr_touch (a : Addr) (s : State) : bitoffAddr (touch a s) = bitoffAddr s := by
  funext q; simp [bitoffAddr]

/-- A word stored to ordinary memory changes no data address. -/
theorem dataAddr_pokeWord_none {a : Addr} (v : Word) (s : State) (h : cpuRegAt a = none) :
    dataAddr (pokeWord a v s) = dataAddr s := by
  funext b; simp [dataAddr, overrideActive, dppOf, pokeWord, h]

/-! ## GPRs and operands -/

theorem bankStop_none {bank : Word} : bankStop bank = none ↔ bank ≤ 0xFFE0 := by
  unfold bankStop highestBank
  by_cases h : (0xFFE0 : Word) < bank
  · rw [if_pos h]; simpa using h
  · rw [if_neg h]; simpa using h

theorem shortStop_of_bank {bank : Word} (h : bank ≤ 0xFFE0) (r : Byte) : shortStop bank r = none := by
  simp [shortStop, bankStop_none.mpr h]

theorem readGpr_of {w : Width} {n : RegNo} {s : State} (hb : s.cp ≤ 0xFFE0)
    (h : canRead s w (gprAddr s.cp w n) = true) :
    readGpr w n s = .ok (peek s w (gprAddr s.cp w n), touch (gprAddr s.cp w n) s) := by
  simp [readGpr, bankStop_none.mpr hb, readMem_of h]

/-- A GPR read answers the GPR of the current bank. -/
theorem readGpr_ok {w : Width} {n : RegNo} {s : State} {r : BitVec w.bits × State} (h : readGpr w n s = .ok r) :
    s.cp ≤ 0xFFE0 ∧ canRead s w (gprAddr s.cp w n) = true ∧
      r = (peek s w (gprAddr s.cp w n), touch (gprAddr s.cp w n) s) := by
  unfold readGpr at h
  split at h
  · cases h
  · exact ⟨bankStop_none.mp ‹_›, readMem_ok.mp h⟩

/-- The pointer of an operand, if it has one, is a word of ordinary memory, in whatever bank. -/
def pointerAt (bank : Word) (s : State) : Loc → Bool
  | .ind p _ => plainWord s (gprAddr bank .word p)
  | .gpr _ | .reg _ | .mem _ => true

theorem pointerPlain_eq (s : State) (l : Loc) : pointerPlain s l = pointerAt s.cp s l := by cases l <;> rfl

theorem touch_plain {a : Addr} {s : State} {t : State} (h : plainWord s a = true) : touch a t = t :=
  touch_of_none (plainWord_iff.mp h).1

/-- Where an operand lies, when its pointer is in ordinary memory: at `operandAddr`, after the pre-decrement. -/
theorem locate_of {bank : Word} {w : Width} {l : Loc} {s : State} (hb : bank ≤ 0xFFE0)
    (hp : pointerAt bank s l = true) :
    locate bank w l s = .ok (operandAddr bank (prepared bank w l s) w l, prepared bank w l s) := by
  cases l with
  | gpr n => simp [locate, bankStop_none.mpr hb, operandAddr, prepared]
  | reg r => simp [locate, shortStop_of_bank hb, operandAddr, prepared]
  | mem a => simp [locate, operandAddr, prepared]
  | ind p mode =>
    simp only [pointerAt] at hp
    have hw := (plainWord_iff.mp hp).2
    have hr := canRead_of_canWrite hw
    have hn := (plainWord_iff.mp hp).1
    have hc := ne_csp_of_canWrite hw
    cases mode <;>
      simp [locate, locateIndirect, bankStop_none.mpr hb, readMem_of hr, touch_plain hp, prepared, operandAddr,
        pointerWord, writeMem_of hw, readMem_of, hr]

/-- The post-increment of an operand, when its pointer is in ordinary memory. -/
theorem settle_of {bank : Word} {w : Width} {l : Loc} {s : State} (hp : pointerAt bank s l = true) :
    settle bank w l s = .ok (settled bank w l s) := by
  cases l with
  | ind p mode =>
    simp only [pointerAt] at hp
    have hw := (plainWord_iff.mp hp).2
    cases mode <;>
      simp [settle, settled, readMem_of (canRead_of_canWrite hw), touch_plain hp, writeMem_of hw, pointerWord]
  | _ => rfl

theorem pointerAt_touch (bank : Word) (a : Addr) (s : State) (l : Loc) :
    pointerAt bank (touch a s) l = pointerAt bank s l := by cases l <;> simp [pointerAt]

/-- The pointer of a source, if it has one, is a word of ordinary memory, in whatever bank. -/
def sourcePointerAt (bank : Word) (s : State) : Source → Bool
  | .loc l => pointerAt bank s l
  | .imm _ => true

theorem sourcePointerPlain_eq (s : State) (src : Source) :
    sourcePointerPlain s src = sourcePointerAt s.cp s src := by
  cases src <;> simp [sourcePointerPlain, sourcePointerAt, pointerPlain_eq]

theorem sourcePointerAt_touch (bank : Word) (a : Addr) (s : State) (src : Source) :
    sourcePointerAt bank (touch a s) src = sourcePointerAt bank s src := by
  cases src <;> simp [sourcePointerAt, pointerAt_touch]

/-- No source of the table has a pre-decrement. -/
def noPreDec : Source → Bool
  | .loc (.ind _ .preDec) => false
  | _ => true

/-- No destination that is read first is indirect. -/
def direct : Loc → Bool
  | .ind _ _ => false
  | .gpr _ | .reg _ | .mem _ => true

theorem prepared_direct {bank : Word} {w : Width} {l : Loc} {s : State} (h : direct l = true) :
    prepared bank w l s = s := by cases l <;> simp_all [prepared, direct]

theorem settled_direct {bank : Word} {w : Width} {l : Loc} {s : State} (h : direct l = true) :
    settled bank w l s = s := by cases l <;> simp_all [settled, direct]

theorem pointerAt_direct {bank : Word} {l : Loc} {s : State} (h : direct l = true) :
    pointerAt bank s l = true := by cases l <;> simp_all [pointerAt, direct]

theorem locate_direct {bank : Word} {w : Width} {l : Loc} {s : State} (hd : direct l = true) (hb : bank ≤ 0xFFE0) :
    locate bank w l s = .ok (operandAddr bank s w l, s) := by
  rw [locate_of hb (pointerAt_direct hd), prepared_direct hd]

/-- Reading a source, when its pointer is in ordinary memory. -/
theorem readSource_of {bank : Word} {w : Width} {src : Source} {s : State} (hb : bank ≤ 0xFFE0)
    (hp : sourcePointerAt bank s src = true) (hn : noPreDec src = true) (hr : sourceReady bank s w src = true) :
    readSource bank w src s = .ok (sourceValue bank s w src, afterSource bank s w src) := by
  cases src with
  | imm v => rfl
  | loc l =>
    have hprep : prepared bank w l s = s := by
      cases l with
      | ind p mode => cases mode <;> simp_all [prepared, noPreDec]
      | _ => rfl
    simp only [sourcePointerAt] at hp
    have hread := readMem_of (show canRead s w (operandAddr bank s w l) = true from hr)
    simp only [readSource, readLoc, locate_of hb hp, hprep, ok_bind, hread,
      settle_of ((pointerAt_touch bank _ s l).trans hp), sourceValue, afterSource]
    rfl

/-! ### The state after a source is read -/

/-- The fields that no operand access changes. -/
def sameControl (s t : State) : Prop :=
  t.ip = s.ip ∧ t.csp = s.csp ∧ t.branchTarget = s.branchTarget ∧ t.memMap = s.memMap

theorem sameControl_touch (a : Addr) (s : State) : sameControl s (touch a s) := by simp [sameControl]

theorem sameControl_poke {w : Width} {a : Addr} (v : BitVec w.bits) (s : State) (h : cpuRegAt a ≠ some .csp) :
    sameControl s (poke w a v s) := by simp [sameControl, csp_poke v s h]

theorem sameControl_pokeTo {l : Loc} {w : Width} {a : Addr} (v : BitVec w.bits) (s : State)
    (h : cpuRegAt a ≠ some .csp) : sameControl s (pokeTo l w a v s) :=
  ⟨by simp, getReg_pokeTo_other (r := .csp) l w v s h (by decide), by simp, by simp⟩

theorem sameControl.trans {s t u : State} (h1 : sameControl s t) (h2 : sameControl t u) : sameControl s u := by
  obtain ⟨a, b, c, d⟩ := h1
  obtain ⟨e, f, g, h⟩ := h2
  exact ⟨e.trans a, f.trans b, g.trans c, h.trans d⟩

theorem sameControl.canWrite {s t : State} (h : sameControl s t) : canWrite t = canWrite s := by
  funext w a; exact canWrite_congr h.2.2.2 h.2.1 h.1 h.2.2.1 w a

theorem sameControl.canRead {s t : State} (h : sameControl s t) : canRead t = canRead s := by
  funext w a; exact canRead_congr h.2.2.2 w a

theorem sameControl.plainWord {s t : State} (h : sameControl s t) : plainWord t = plainWord s := by
  funext a; exact plainWord_congr h.2.2.2 h.2.1 h.1 h.2.2.1 a

theorem sameControl.pointerAt {s t : State} (h : sameControl s t) (bank : Word) (l : Loc) :
    pointerAt bank t l = pointerAt bank s l := by cases l <;> simp [Laws.pointerAt, h.plainWord]

theorem sameControl_settled {bank : Word} {w : Width} {l : Loc} {s : State} (h : pointerAt bank s l = true) :
    sameControl s (settled bank w l s) := by
  cases l with
  | ind p mode =>
    have hn := (plainWord_iff.mp h).1
    cases mode <;>
      first
        | exact sameControl_poke (w := .word) _ s (by rw [hn]; simp)
        | exact ⟨rfl, rfl, rfl, rfl⟩
  | _ => exact ⟨rfl, rfl, rfl, rfl⟩

theorem sameControl_prepared {bank : Word} {w : Width} {l : Loc} {s : State} (h : pointerAt bank s l = true) :
    sameControl s (prepared bank w l s) := by
  cases l with
  | ind p mode =>
    have hn := (plainWord_iff.mp h).1
    cases mode <;>
      first
        | exact sameControl_poke (w := .word) _ s (by rw [hn]; simp)
        | exact ⟨rfl, rfl, rfl, rfl⟩
  | _ => exact ⟨rfl, rfl, rfl, rfl⟩

theorem sameControl_afterSource {bank : Word} {w : Width} {src : Source} {s : State}
    (h : sourcePointerAt bank s src = true) : sameControl s (afterSource bank s w src) := by
  cases src with
  | imm _ => exact ⟨rfl, rfl, rfl, rfl⟩
  | loc l =>
    exact (sameControl_touch _ s).trans
      (sameControl_settled ((pointerAt_touch bank _ s l).trans h))

/-! ## The stack -/

@[simp] theorem stackAddr_setSp (v : Word) (s : State) :
    stackAddr (setReg .sp v s) = (CpuReg.sp.stored v).setWidth 24 := rfl

@[simp] theorem setSp_sp (v : Word) (s : State) : (setReg .sp v s).sp = CpuReg.sp.stored v := rfl

theorem sameControl_setSp (v : Word) (s : State) : sameControl s (setReg .sp v s) := ⟨rfl, rfl, rfl, rfl⟩

/-- Whether a push takes place depends on SP and on nothing an operand access changes. -/
theorem pushReady_congr {s t : State} (h : sameControl s t) (hsp : t.sp = s.sp) : pushReady t = pushReady s := by
  simp only [pushReady, stackAddr_setSp, (sameControl_setSp _ t).canWrite, (sameControl_setSp _ s).canWrite, hsp,
    h.canWrite]

theorem popReady_congr {s t : State} (h : sameControl s t) (hsp : t.sp = s.sp) : popReady t = popReady s := by
  simp only [popReady, stackAddr, hsp, h.canRead]

@[simp] theorem pushReady_touch (a : Addr) (s : State) : pushReady (touch a s) = pushReady s :=
  pushReady_congr (sameControl_touch a s) (by simp)

@[simp] theorem popReady_touch (a : Addr) (s : State) : popReady (touch a s) = popReady s :=
  popReady_congr (sameControl_touch a s) (by simp)

theorem pushReady_iff {s : State} :
    pushReady s = true ↔ canWrite s .word ((CpuReg.sp.stored (s.sp - 2)).setWidth 24) = true := by
  simp only [pushReady, stackAddr_setSp, (sameControl_setSp _ s).canWrite]

/-- A push changes nothing that later accesses are checked against. -/
theorem sameControl_pushed {v : Word} {s : State} (h : pushReady s = true) : sameControl s (pushed v s) :=
  (sameControl_setSp _ s).trans (sameControl_poke (w := .word) v _ (ne_csp_of_canWrite (w := .word) h))

theorem sameControl_popped (s : State) : sameControl s (popped s) :=
  (sameControl_touch _ s).trans (sameControl_setSp _ _)

@[simp] theorem popped_sp (s : State) : (popped s).sp = CpuReg.sp.stored (s.sp + 2) := rfl

theorem push_of {v : Word} {s : State} (h : pushReady s = true) : push v s = .ok (pushed v s) :=
  writeMem_of (w := .word) h

/-- A push answers the state with SP moved and the word at the new top. -/
theorem push_ok {v : Word} {s t : State} : push v s = .ok t ↔ pushReady s = true ∧ t = pushed v s :=
  writeMem_ok (w := .word)

theorem pop_of {s : State} (h : popReady s = true) : pop s = .ok (topWord s, popped s) := by
  simp only [pop, readMem_of (w := .word) h, ok_bind, pure, Except.pure, popped, topWord, peek_word, touch_sp]

/-- The pop of a stack frame's CSP word (47_return R424). -/
theorem popSegment_of {s : State} (h : popReady s = true) :
    popSegment s = .ok { popped s with csp := (lowByte (topWord s)).setWidth 16 } := by
  simp only [popSegment, pop_of h, ok_bind]
  rfl

/-- Whether the next pop can read does not depend on CSP. -/
@[simp] theorem popReady_csp (v : Word) (s : State) : popReady { s with csp := v } = popReady s := rfl

end Sys2Proof.Laws
end

