-- ==== Sys2Proof/Laws/Frame.lean ====
section
/-! SUPPORT. What each shared operation leaves unchanged: frames compose, every operation has one, and
the only trap inside an operation is the illegal word operand access. -/

namespace Sys2Proof.Laws

open Sys2Proof.Machine

/-- The three parts of a frame at once: `regs` may change, the bytes `stored` may change, of PSW only flags and of MDC
only MDRIU unless they are stored to. -/
def framed (regs : List CpuReg) (stored : List Addr) (s t : State) : Prop :=
  keeps regs stored s t ∧ onlyFlags stored s t ∧ onlyMdriu stored s t

theorem dataFrame_iff {stored : List Addr} {s t : State} :
    dataFrame stored s t ↔ framed [.psw, .mdc] stored s t := Iff.rfl

/-! ## Composition -/

theorem framed_refl (regs : List CpuReg) (stored : List Addr) (s : State) : framed regs stored s s :=
  ⟨⟨fun _ _ _ => rfl, fun _ _ _ => rfl, rfl, rfl, rfl, rfl, rfl, rfl, rfl, rfl⟩, fun _ => rfl, fun _ => rfl⟩

theorem framed.trans {regs : List CpuReg} {stored : List Addr} {s t u : State} (h1 : framed regs stored s t)
    (h2 : framed regs stored t u) : framed regs stored s u := by
  obtain ⟨⟨a1, a2, a3, a4, a5, a6, a7, a8, a9, a10⟩, b, c⟩ := h1
  obtain ⟨⟨d1, d2, d3, d4, d5, d6, d7, d8, d9, d10⟩, e, f⟩ := h2
  exact ⟨⟨fun x hx hn => (d1 x hx hn).trans (a1 x hx hn), fun r hr hs => (d2 r hr hs).trans (a2 r hr hs), d3.trans a3,
    d4.trans a4, d5.trans a5, d6.trans a6, d7.trans a7, d8.trans a8, d9.trans a9, d10.trans a10⟩,
    fun h => (e h).trans (b h), fun h => (f h).trans (c h)⟩

theorem framed.mono {regs regs' : List CpuReg} {stored stored' : List Addr} {s t : State} (h : framed regs stored s t)
    (hr : regs ⊆ regs') (hs : stored ⊆ stored') : framed regs' stored' s t := by
  obtain ⟨⟨a1, a2, a3⟩, b, c⟩ := h
  exact ⟨⟨fun x hx hn => a1 x hx fun hm => hn (hs hm), fun r h1 h2 => a2 r (fun hm => h1 (hr hm)) fun a ha => h2 a (hs ha),
    a3⟩, fun h => b fun a ha => h a (hs ha), fun h => c fun a ha => h a (hs ha)⟩

/-- A change of IP, the note of the branch target and the counter of free values is in every frame. -/
theorem framed_of_same {regs : List CpuReg} {stored : List Addr} {s t : State} (hm : t.mem = s.mem)
    (hg : ∀ r, getReg t r = getReg s r) (hrest : t.seq = s.seq ∧ t.wdt = s.wdt ∧ t.initDone = s.initDone ∧ t.run = s.run ∧
      t.resetCause = s.resetCause ∧ t.memMap = s.memMap ∧ t.nmiPinLow = s.nmiPinLow ∧ t.pending = s.pending) :
    framed regs stored s t :=
  ⟨⟨fun a ha _ => by rw [peekByte_of_none ha, peekByte_of_none ha, hm], fun r _ _ => hg r, hrest⟩,
    fun _ => by rw [show t.psw = s.psw from hg .psw], fun _ => by rw [show t.mdc = s.mdc from hg .mdc]⟩

/-! ## The updates -/

theorem withFlags_mask (psw : Word) (f : CondFlags) : withFlags psw f &&& 0xFFE0 = psw &&& 0xFFE0 := by
  refine BitVec.eq_of_getLsbD_eq fun i hi => ?_
  by_cases h : i < 5
  · have : (0xFFE0 : Word).getLsbD i = false := by interval_cases i <;> rfl
    rw [BitVec.getLsbD_and, BitVec.getLsbD_and, this, Bool.and_false, Bool.and_false]
  · simp only [withFlags, BitVec.getLsbD_and, BitVec.getLsbD_append, BitVec.getLsbD_extractLsb']
    have e : 5 + (i - 5) = i := by omega
    simp only [Nat.reduceAdd] at *
    simp [h, e, show i - 5 < 11 by omega]

/-- Flags with V and C as they were leave every bit of PSW but E, Z and N. -/
theorem withFlags_keeping_vc (psw : Word) (f : CondFlags) (hv : f.v = psw.getLsbD 2) (hc : f.c = psw.getLsbD 1) :
    withFlags psw f &&& 0xFFE6 = psw &&& 0xFFE6 := by
  refine BitVec.eq_of_getLsbD_eq fun i hi => ?_
  simp only [BitVec.getLsbD_and, withFlags, hv, hc, BitVec.getLsbD_append, BitVec.getLsbD_extractLsb',
    BitVec.getLsbD_ofBool]
  interval_cases i <;> simp

theorem framed_setFlags (f : CondFlags) (s : State) : framed [.psw] [] s (s.setFlags f) := by
  refine ⟨⟨fun a ha _ => by rw [peekByte_of_none ha, peekByte_of_none ha]; simp, fun r hr _ => ?_, by simp⟩,
    fun _ => withFlags_mask _ _, fun _ => by simp⟩
  rw [getReg_setFlags, if_neg (by simpa using hr)]

theorem framed_flagsUnlessPsw (a : Addr) (f : CondFlags) (s : State) : framed [.psw] [] s (flagsUnlessPsw a f s) := by
  unfold flagsUnlessPsw; split
  · exact framed_refl _ _ s
  · exact framed_setFlags f s

theorem mask_mdriu (v : Word) : v &&& ~~~mdriuMask &&& ~~~mdriuMask = v &&& ~~~mdriuMask := by
  rw [BitVec.and_assoc, BitVec.and_self]

theorem set_mdriu (v : Word) : (v ||| mdriuMask) &&& ~~~mdriuMask = v &&& ~~~mdriuMask := by
  refine BitVec.eq_of_getLsbD_eq fun i hi => ?_
  simp only [BitVec.getLsbD_and, BitVec.getLsbD_or, BitVec.getLsbD_not, hi, decide_true, Bool.true_and]
  cases v.getLsbD i <;> cases mdriuMask.getLsbD i <;> rfl

/-- A read of an operand changes at most MDRIU. -/
theorem framed_touch (a : Addr) (s : State) : framed [.mdc] [] s (touch a s) := by
  refine ⟨⟨fun b hb _ => by rw [peekByte_of_none hb, peekByte_of_none hb]; simp, fun r hr _ => ?_, by simp⟩,
    fun _ => by simp, fun _ => ?_⟩
  · rw [getReg_touch, if_neg (fun h => hr (by simp [h.1]))]
  · unfold touch; split
    · exact mask_mdriu _
    · rfl

theorem framed_setMdriu (s : State) : framed [.mdc] [] s (setMdriu s) :=
  ⟨⟨fun b hb _ => by rw [peekByte_of_none hb, peekByte_of_none hb]; rfl,
    fun r hr _ => by cases r <;> first | rfl | simp at hr, by simp⟩, fun _ => rfl, fun _ => set_mdriu _⟩

theorem framed_jumpNear (regs : List CpuReg) (stored : List Addr) (v : Word) (s : State) :
    framed regs stored s (jumpNear v s) :=
  framed_of_same rfl (fun r => by cases r <;> rfl) (by simp)

theorem framed_jumpFar (g : Byte) (v : Word) (s : State) : framed [.csp] [] s (jumpFar g v s) :=
  ⟨⟨fun b hb _ => by rw [peekByte_of_none hb, peekByte_of_none hb]; rfl,
    fun r hr _ => by cases r <;> first | rfl | simp at hr, by simp⟩, fun _ => rfl, fun _ => rfl⟩

/-- A write of CSP changes CSP. -/
theorem framed_csp (v : Word) (s : State) : framed [.csp] [] s { s with csp := v } :=
  ⟨⟨fun b hb _ => by rw [peekByte_of_none hb, peekByte_of_none hb],
    fun r hr _ => by cases r <;> first | rfl | simp at hr, by simp⟩, fun _ => rfl, fun _ => rfl⟩

/-- A write of SP changes SP. -/
theorem framed_setSp (v : Word) (s : State) : framed [.sp] [] s (setReg .sp v s) :=
  ⟨⟨fun b hb _ => by rw [peekByte_of_none hb, peekByte_of_none hb]; rfl,
    fun r hr _ => by cases r <;> first | rfl | simp at hr, by simp⟩, fun _ => rfl, fun _ => rfl⟩

theorem mem_accessBytes (w : Width) (a : Addr) : a ∈ accessBytes w a := by cases w <;> simp [accessBytes]

/-- MDC after a register is written: as before but for MDRIU, unless MDC is written. -/
theorem mdc_setReg {r : CpuReg} (x : Word) (u : State) (h : r ≠ .mdc) :
    (setReg r x u).mdc &&& ~~~mdriuMask = u.mdc &&& ~~~mdriuMask := by
  have := getReg_setReg r .mdc x u
  simp only [getReg] at this
  rw [this, if_neg (Ne.symm h)]
  split
  · exact set_mdriu _
  · rfl

/-- MDC after a write: as before but for MDRIU, unless MDC is written. -/
theorem mdc_poke {w : Width} {a : Addr} (v : BitVec w.bits) (s : State) (h : cpuRegAt a ≠ some .mdc) :
    (poke w a v s).mdc &&& ~~~mdriuMask = s.mdc &&& ~~~mdriuMask := by
  have key : ∀ r, cpuRegAt a = some r → r ≠ .mdc := fun r hr e => h (e ▸ hr)
  cases w
  · simp only [poke, pokeByte]
    split
    · rename_i r hr
      unfold setRegByte
      split
      · split <;> exact mdc_setReg _ _ (key r hr)
      · exact mdc_setReg _ _ (key r hr)
    · rfl
  · simp only [poke, pokeWord]
    split
    · rename_i r hr; exact mdc_setReg _ _ (key r hr)
    · rfl

/-- A write of an operand changes only its bytes, and MDRIU if it writes MDL or MDH. -/
theorem framed_poke {w : Width} {a : Addr} (v : BitVec w.bits) (s : State) :
    framed [.mdc] (accessBytes w a) s (poke w a v s) := by
  refine ⟨⟨fun b hb hn => peekByte_poke_other w v s hb hn, fun r hr hs => ?_, by simp⟩, fun h => ?_, fun h => ?_⟩
  · exact getReg_poke_other w v s (hs a (mem_accessBytes w a)) (by simpa using hr)
  · have h1 := h a (mem_accessBytes w a)
    have h2 : cpuRegAt a ≠ some .psw := fun e => by rw [hitsPsw_iff.mpr e] at h1; cases h1
    rw [show (poke w a v s).psw = s.psw from getReg_poke_other w v s h2 (by decide)]
  · exact mdc_poke v s (h a (mem_accessBytes w a))

/-- The same of an operand stored by its form. -/
theorem framed_pokeTo {l : Loc} {w : Width} {a : Addr} (v : BitVec w.bits) (s : State) :
    framed [.mdc] (accessBytes w a) s (pokeTo l w a v s) := by
  rcases pokeTo_cases l w a v s with e | ⟨r, x, hr, ha, e⟩
  · rw [e]; exact framed_poke v s
  · refine ⟨⟨fun b hb hn => peekByte_pokeTo_other l w v s hb hn, fun q hq hs => ?_, by simp⟩, fun _ => ?_, fun h => ?_⟩
    · exact getReg_pokeTo_other l w v s (hs a (mem_accessBytes w a)) (by simpa using hq)
    · have hp : cpuRegAt a ≠ some .psw := fun h => hr (Option.some.inj (ha.symm.trans h))
      rw [show (pokeTo l w a v s).psw = s.psw from getReg_pokeTo_other l w v s hp (by decide)]
    · rw [e]; exact mdc_setReg x s fun h' => h a (mem_accessBytes w a) (h' ▸ ha)

/-! ## The operations -/

theorem framed_readMem {w : Width} {a : Addr} {s : State} {r : BitVec w.bits × State} (h : readMem w a s = .ok r) :
    framed [.mdc] [] s r.2 := by
  rw [(readMem_ok.mp h).2]; exact framed_touch a s

theorem framed_writeMem {w : Width} {a : Addr} {v : BitVec w.bits} {s t : State} (h : writeMem w a v s = .ok t) :
    framed [.mdc] (accessBytes w a) s t := by
  rw [(writeMem_ok.mp h).2]; exact framed_poke v s

theorem framed_writeTo {l : Loc} {w : Width} {a : Addr} {v : BitVec w.bits} {s t : State} (h : writeTo l w a v s = .ok t) :
    framed [.mdc] (accessBytes w a) s t := by
  rw [(writeTo_ok.mp h).2]; exact framed_pokeTo v s

theorem framed_readGpr {w : Width} {n : RegNo} {s : State} {r : BitVec w.bits × State} (h : readGpr w n s = .ok r) :
    framed [.mdc] [] s r.2 := by
  rw [(readGpr_ok h).2.2]; exact framed_touch _ s

/-- Locating an operand changes at most the pre-decremented pointer and MDRIU. -/
theorem framed_locate {bank : Word} {w : Width} {l : Loc} {s : State} {r : Addr × State}
    (h : locate bank w l s = .ok r) : framed [.mdc] (pointerBytes bank l) s r.2 := by
  cases l with
  | gpr n =>
    simp only [locate] at h
    split at h
    · cases h
    · cases h; exact framed_refl _ _ s
  | reg x =>
    simp only [locate] at h
    split at h
    · cases h
    · cases h; exact framed_refl _ _ s
  | mem a => cases h; exact framed_refl _ _ s
  | ind p mode =>
    simp only [locate, locateIndirect] at h
    split at h
    · cases h
    · cases mode <;> simp only [bind_ok] at h
      all_goals
        first
          | (obtain ⟨x, hx, h⟩ := h
             cases h
             exact (framed_readMem hx).mono (fun _ h => h) (by simp))
          | (obtain ⟨x, hx, y, hy, z, hz, h⟩ := h
             cases h
             exact (((framed_readMem hx).mono (fun _ h => h) (by simp)).trans (framed_writeMem hy)).trans
               ((framed_readMem hz).mono (fun _ h => h) (by simp)))

/-- The post-increment changes at most the pointer and MDRIU. -/
theorem framed_settle {bank : Word} {w : Width} {l : Loc} {s t : State} (h : settle bank w l s = .ok t) :
    framed [.mdc] (pointerBytes bank l) s t := by
  cases l with
  | ind p mode =>
    cases mode
    case postInc =>
      simp only [settle, bind_ok] at h
      obtain ⟨x, hx, hy⟩ := h
      exact ((framed_readMem hx).mono (fun _ h => h) (by simp)).trans (framed_writeMem hy)
    all_goals (cases h; exact framed_refl _ _ s)
  | _ => cases h; exact framed_refl _ _ s

theorem framed_readLoc {bank : Word} {w : Width} {l : Loc} {s : State} {r : BitVec w.bits × State}
    (h : readLoc bank w l s = .ok r) : framed [.mdc] (pointerBytes bank l) s r.2 := by
  simp only [readLoc, bind_ok] at h
  obtain ⟨x, hx, y, hy, z, hz, h⟩ := h
  obtain rfl := pure_eq_ok.mp h
  exact ((framed_locate hx).trans ((framed_readMem hy).mono (fun _ h => h) (by simp))).trans (framed_settle hz)

theorem framed_readSource {bank : Word} {w : Width} {src : Source} {s : State} {r : BitVec w.bits × State}
    (h : readSource bank w src s = .ok r) : framed [.mdc] (sourcePointerBytes bank src) s r.2 := by
  cases src with
  | imm v => cases h; exact framed_refl _ _ s
  | loc l => exact framed_readLoc h

/-- Writing an operand changes the operand, its auto-modified pointer and MDRIU. -/
theorem framed_writeLoc {bank : Word} {w : Width} {l : Loc} {v : BitVec w.bits} {s : State} {r : Addr × State}
    (h : writeLoc bank w l v s = .ok r) :
    framed [.mdc] (accessBytes w r.1 ++ pointerBytes bank l) s r.2 ∧ ∃ s1, locate bank w l s = .ok (r.1, s1) := by
  simp only [writeLoc, bind_ok] at h
  obtain ⟨x, hx, y, hy, z, hz, h⟩ := h
  obtain rfl := pure_eq_ok.mp h
  exact ⟨(((framed_locate hx).mono (fun _ h => h) (by simp)).trans ((framed_writeTo hy).mono (fun _ h => h) (by simp))).trans
    ((framed_settle hz).mono (fun _ h => h) (by simp)), x.2, hx⟩

theorem framed_readBitWord {qq : Byte} {s : State} {r : Word × State} (h : readBitWord qq s = .ok r) :
    framed [.mdc] [] s r.2 ∧ r.2 = touch (bitoffAddr s qq) s := by
  unfold readBitWord at h
  split at h
  · cases h
  · have h' : readMem .word (bitoffAddr s qq) s = .ok r := h
    obtain ⟨-, rfl⟩ := (readMem_ok (w := .word)).mp h'
    exact ⟨framed_touch _ s, rfl⟩

theorem framed_readBit {qq : Byte} {q : BitVec 4} {s : State} {r : Bool × State} (h : readBit qq q s = .ok r) :
    framed [.mdc] [] s r.2 ∧ r.2 = touch (bitoffAddr s qq) s := by
  simp only [readBit, bind_ok] at h
  obtain ⟨x, hx, h⟩ := h
  obtain rfl := pure_eq_ok.mp h
  exact framed_readBitWord hx

theorem framed_writeBit {qq : Byte} {q : BitVec 4} {b : Bool} {s t : State} (h : writeBit qq q b s = .ok t) :
    framed [.mdc] (accessBytes .word (bitoffAddr s qq)) s t := by
  simp only [writeBit, bind_ok] at h
  obtain ⟨x, hx, h⟩ := h
  obtain ⟨h1, h2⟩ := framed_readBitWord hx
  have h3 := framed_writeMem h
  rw [h2, bitoffAddr_touch] at h3
  rw [h2] at h1
  exact (h1.mono (fun _ h => h) (by simp)).trans h3

/-- A push changes SP and the word at the new top of stack. -/
theorem framed_push {v : Word} {s t : State} (h : push v s = .ok t) : framed [.sp, .mdc] (pushBytes s) s t := by
  have h2 := framed_writeMem (w := .word) (show writeMem .word _ v (setReg .sp (s.sp - 2) s) = .ok t from h)
  exact ((framed_setSp _ s).mono (by simp) (by simp)).trans (h2.mono (by simp) (fun _ h => h))

/-- A pop changes SP. -/
theorem framed_pop {s : State} {r : Word × State} (h : pop s = .ok r) : framed [.sp, .mdc] [] s r.2 := by
  simp only [pop, bind_ok] at h
  obtain ⟨x, hx, h⟩ := h
  obtain rfl := pure_eq_ok.mp h
  exact ((framed_readMem hx).mono (by simp) (fun _ h => h)).trans ((framed_setSp _ _).mono (by simp) (fun _ h => h))

/-- The pop of a CSP word changes CSP and SP. -/
theorem framed_popSegment {s t : State} (h : popSegment s = .ok t) : framed [.csp, .sp, .mdc] [] s t := by
  simp only [popSegment, bind_ok] at h
  obtain ⟨x, hx, h⟩ := h
  obtain rfl := pure_eq_ok.mp h
  exact ((framed_pop hx).mono (by simp) (fun _ h => h)).trans ((framed_csp _ _).mono (by simp) (fun _ h => h))

/-! ## E, Z and N alone -/

/-- A frame without PSW keeps PSW, unless it is stored to. -/
theorem framed.psw_eq {regs : List CpuReg} {stored : List Addr} {s t : State} (h : framed regs stored s t)
    (hr : CpuReg.psw ∉ regs) (hs : ∀ a ∈ stored, hitsPsw a = false) : t.psw = s.psw :=
  h.1.2.1 .psw hr fun a ha e => by have := hs a ha; rw [hitsPsw_iff.mpr e] at this; cases this

/-- Flags that keep V and C, set after a frame without PSW, change only E, Z and N. -/
theorem onlyEzn_setFlags {regs : List CpuReg} {stored : List Addr} {s u : State} (h : framed regs stored s u)
    (hr : CpuReg.psw ∉ regs) {f : CondFlags} (hv : f.v = u.flags.v) (hc : f.c = u.flags.c) :
    onlyEzn stored s (u.setFlags f) := fun hs => by
  rw [show (u.setFlags f).psw = withFlags u.psw f from rfl, withFlags_keeping_vc _ _ hv hc, h.psw_eq hr hs]

theorem onlyEzn_flagsUnlessPsw {regs : List CpuReg} {stored : List Addr} {s u : State} (h : framed regs stored s u)
    (hr : CpuReg.psw ∉ regs) (a : Addr) {f : CondFlags} (hv : f.v = u.flags.v) (hc : f.c = u.flags.c) :
    onlyEzn stored s (flagsUnlessPsw a f u) := by
  unfold flagsUnlessPsw
  split
  · exact fun hs => by rw [h.psw_eq hr hs]
  · exact onlyEzn_setFlags h hr hv hc

/-! ## IP

No operation over operands, bits or the stack changes IP. -/

theorem ip_readMem {w : Width} {a : Addr} {s : State} {r : BitVec w.bits × State} (h : readMem w a s = .ok r) :
    r.2.ip = s.ip := by rw [(readMem_ok.mp h).2]; simp

theorem ip_writeMem {w : Width} {a : Addr} {v : BitVec w.bits} {s t : State} (h : writeMem w a v s = .ok t) :
    t.ip = s.ip := by rw [(writeMem_ok.mp h).2]; simp

theorem ip_writeTo {l : Loc} {w : Width} {a : Addr} {v : BitVec w.bits} {s t : State} (h : writeTo l w a v s = .ok t) :
    t.ip = s.ip := by rw [(writeTo_ok.mp h).2]; simp

theorem ip_readGpr {w : Width} {n : RegNo} {s : State} {r : BitVec w.bits × State} (h : readGpr w n s = .ok r) :
    r.2.ip = s.ip := by rw [(readGpr_ok h).2.2]; simp

theorem ip_locate {bank : Word} {w : Width} {l : Loc} {s : State} {r : Addr × State}
    (h : locate bank w l s = .ok r) : r.2.ip = s.ip := by
  cases l with
  | gpr n => simp only [locate] at h; split at h <;> cases h; rfl
  | reg x => simp only [locate] at h; split at h <;> cases h; rfl
  | mem a => cases h; rfl
  | ind p mode =>
    simp only [locate, locateIndirect] at h
    split at h
    · cases h
    · cases mode <;> simp only [bind_ok] at h
      all_goals
        first
          | (obtain ⟨x, hx, h⟩ := h
             cases h
             exact ip_readMem hx)
          | (obtain ⟨x, hx, y, hy, z, hz, h⟩ := h
             cases h
             exact ((ip_readMem hz).trans (ip_writeMem hy)).trans (ip_readMem hx))

theorem ip_settle {bank : Word} {w : Width} {l : Loc} {s t : State} (h : settle bank w l s = .ok t) :
    t.ip = s.ip := by
  cases l with
  | ind p mode =>
    cases mode
    case postInc =>
      simp only [settle, bind_ok] at h
      obtain ⟨x, hx, hy⟩ := h
      exact (ip_writeMem hy).trans (ip_readMem hx)
    all_goals (cases h; rfl)
  | _ => cases h; rfl

theorem ip_readLoc {bank : Word} {w : Width} {l : Loc} {s : State} {r : BitVec w.bits × State}
    (h : readLoc bank w l s = .ok r) : r.2.ip = s.ip := by
  simp only [readLoc, bind_ok] at h
  obtain ⟨x, hx, y, hy, z, hz, h⟩ := h
  obtain rfl := pure_eq_ok.mp h
  exact ((ip_settle hz).trans (ip_readMem hy)).trans (ip_locate hx)

theorem ip_readSource {bank : Word} {w : Width} {src : Source} {s : State} {r : BitVec w.bits × State}
    (h : readSource bank w src s = .ok r) : r.2.ip = s.ip := by
  cases src with
  | imm v => cases h; rfl
  | loc l => exact ip_readLoc h

theorem ip_writeLoc {bank : Word} {w : Width} {l : Loc} {v : BitVec w.bits} {s : State} {r : Addr × State}
    (h : writeLoc bank w l v s = .ok r) : r.2.ip = s.ip := by
  simp only [writeLoc, bind_ok] at h
  obtain ⟨x, hx, y, hy, z, hz, h⟩ := h
  obtain rfl := pure_eq_ok.mp h
  exact ((ip_settle hz).trans (ip_writeTo hy)).trans (ip_locate hx)

theorem ip_readBit {qq : Byte} {q : BitVec 4} {s : State} {r : Bool × State} (h : readBit qq q s = .ok r) :
    r.2.ip = s.ip := by rw [(framed_readBit h).2]; simp

theorem ip_writeBit {qq : Byte} {q : BitVec 4} {b : Bool} {s t : State} (h : writeBit qq q b s = .ok t) :
    t.ip = s.ip := by
  simp only [writeBit, bind_ok] at h
  obtain ⟨x, hx, h⟩ := h
  rw [ip_writeMem h, (framed_readBitWord hx).2]; simp

theorem ip_push {v : Word} {s t : State} (h : push v s = .ok t) : t.ip = s.ip := by
  rw [(push_ok.mp h).2]; exact (sameControl_pushed (push_ok.mp h).1).1

theorem ip_pop {s : State} {r : Word × State} (h : pop s = .ok r) : r.2.ip = s.ip := by
  simp only [pop, bind_ok] at h
  obtain ⟨x, hx, h⟩ := h
  obtain rfl := pure_eq_ok.mp h
  have := ip_readMem (w := .word) hx
  simpa using this

@[simp] theorem ip_flagsUnlessPsw (a : Addr) (f : CondFlags) (s : State) : (flagsUnlessPsw a f s).ip = s.ip := by
  unfold flagsUnlessPsw; split <;> rfl

/-! ## The only trap inside an instruction -/

/-- The only hardware trap that a part of an instruction can raise is the illegal word operand access. -/
def onlyIllopa {α : Type} (x : Exec α) : Prop := ∀ t, x = .error (.trap t) → t = .illopa

theorem onlyIllopa_ok {α : Type} (a : α) : onlyIllopa (.ok a) := fun _ h => by cases h

theorem onlyIllopa_pure {α : Type} (a : α) : onlyIllopa (pure a : Exec α) := fun _ h => by cases h

theorem onlyIllopa_bind {α β : Type} {x : Exec α} {f : α → Exec β} (hx : onlyIllopa x) (hf : ∀ a, onlyIllopa (f a)) :
    onlyIllopa (x >>= f) := by
  intro t h
  cases x with
  | ok a => exact hf a t h
  | error e => exact hx t (by simpa using h)

theorem onlyIllopa_readMem (w : Width) (a : Addr) (s : State) : onlyIllopa (readMem w a s) := by
  intro t h
  unfold readMem unlessStop readStop at h
  split at h
  · rename_i hs
    split at hs
    · cases hs; cases h; rfl
    · split at hs
      · cases hs
      · split at hs <;> cases hs <;> cases h
  · cases h

/-- The only trap among the reasons against a write is the illegal word operand access. -/
theorem writeStop_trap {s : State} {w : Width} {a : Addr} {t : HwTrap} (h : writeStop s w a = some (.trap t)) :
    t = .illopa := by
  unfold writeStop at h
  split at h
  · cases h; rfl
  · split at h
    · cases h
    · cases aheadStop_some h
    · split at h
      · cases aheadStop_some h
      all_goals cases h

theorem onlyIllopa_unlessStop {α : Type} {s : State} {w : Width} {a : Addr} (x : α) :
    onlyIllopa (unlessStop (writeStop s w a) x) := by
  intro t h
  unfold unlessStop at h
  split at h
  · rename_i hs; cases h; exact writeStop_trap hs
  · cases h

theorem onlyIllopa_writeMem (w : Width) (a : Addr) (v : BitVec w.bits) (s : State) : onlyIllopa (writeMem w a v s) :=
  onlyIllopa_unlessStop _

theorem onlyIllopa_writeTo (l : Loc) (w : Width) (a : Addr) (v : BitVec w.bits) (s : State) :
    onlyIllopa (writeTo l w a v s) := onlyIllopa_unlessStop _

theorem bankStop_some {bank : Word} {e : Stop} (h : bankStop bank = some e) : e = .refused .contextPointer := by
  unfold bankStop at h
  split at h <;> cases h
  rfl

theorem shortStop_some {bank : Word} {r : Byte} {e : Stop} (h : shortStop bank r = some e) :
    e = .refused .contextPointer := by
  unfold shortStop at h
  split at h
  · exact bankStop_some h
  · cases h

theorem onlyIllopa_bank {α : Type} (bank : Word) {x : Exec α} (hx : onlyIllopa x) :
    onlyIllopa (match bankStop bank with | some e => .error e | none => x) := by
  intro t h
  split at h
  · rename_i e he
    rw [bankStop_some he] at h; cases h
  · exact hx t h

theorem onlyIllopa_short {α : Type} (bank : Word) (r : Byte) {x : Exec α} (hx : onlyIllopa x) :
    onlyIllopa (match shortStop bank r with | some e => .error e | none => x) := by
  intro t h
  split at h
  · rename_i e he
    rw [shortStop_some he] at h; cases h
  · exact hx t h

theorem onlyIllopa_readGpr (w : Width) (n : RegNo) (s : State) : onlyIllopa (readGpr w n s) :=
  onlyIllopa_bank _ (onlyIllopa_readMem _ _ _)

theorem onlyIllopa_locate (bank : Word) (w : Width) (l : Loc) (s : State) : onlyIllopa (locate bank w l s) := by
  cases l with
  | gpr n => exact onlyIllopa_bank _ (onlyIllopa_ok _)
  | reg r => exact onlyIllopa_short _ _ (onlyIllopa_ok _)
  | mem a => exact onlyIllopa_ok _
  | ind p mode =>
    refine onlyIllopa_bank _ ?_
    cases mode with
    | preDec => exact onlyIllopa_bind (onlyIllopa_readMem _ _ _) fun _ => onlyIllopa_bind (onlyIllopa_writeMem _ _ _ _) fun _ =>
        onlyIllopa_bind (onlyIllopa_readMem _ _ _) fun _ => onlyIllopa_pure _
    | _ => exact onlyIllopa_bind (onlyIllopa_readMem _ _ _) fun _ => onlyIllopa_pure _

theorem onlyIllopa_settle (bank : Word) (w : Width) (l : Loc) (s : State) : onlyIllopa (settle bank w l s) := by
  cases l with
  | ind p mode =>
    cases mode with
    | postInc => exact onlyIllopa_bind (onlyIllopa_readMem _ _ _) fun _ => onlyIllopa_writeMem _ _ _ _
    | _ => exact onlyIllopa_ok _
  | _ => exact onlyIllopa_ok _

theorem onlyIllopa_readLoc (bank : Word) (w : Width) (l : Loc) (s : State) : onlyIllopa (readLoc bank w l s) :=
  onlyIllopa_bind (onlyIllopa_locate _ _ _ _) fun _ => onlyIllopa_bind (onlyIllopa_readMem _ _ _) fun _ =>
    onlyIllopa_bind (onlyIllopa_settle _ _ _ _) fun _ => onlyIllopa_pure _

theorem onlyIllopa_readSource (bank : Word) (w : Width) (src : Source) (s : State) :
    onlyIllopa (readSource bank w src s) := by
  cases src with
  | loc l => exact onlyIllopa_readLoc _ _ _ _
  | imm v => exact onlyIllopa_ok _

theorem onlyIllopa_writeLoc (bank : Word) (w : Width) (l : Loc) (v : BitVec w.bits) (s : State) :
    onlyIllopa (writeLoc bank w l v s) :=
  onlyIllopa_bind (onlyIllopa_locate _ _ _ _) fun _ => onlyIllopa_bind (onlyIllopa_writeTo _ _ _ _ _) fun _ =>
    onlyIllopa_bind (onlyIllopa_settle _ _ _ _) fun _ => onlyIllopa_pure _

theorem onlyIllopa_readBitWord (qq : Byte) (s : State) : onlyIllopa (readBitWord qq s) :=
  onlyIllopa_short _ _ (onlyIllopa_readMem .word _ s)

theorem onlyIllopa_readBit (qq : Byte) (q : BitVec 4) (s : State) : onlyIllopa (readBit qq q s) :=
  onlyIllopa_bind (onlyIllopa_readBitWord _ _) fun _ => onlyIllopa_pure _

theorem onlyIllopa_writeBit (qq : Byte) (q : BitVec 4) (b : Bool) (s : State) : onlyIllopa (writeBit qq q b s) :=
  onlyIllopa_bind (onlyIllopa_readBitWord _ _) fun _ => onlyIllopa_writeMem .word _ _ _

theorem onlyIllopa_push (v : Word) (s : State) : onlyIllopa (push v s) := onlyIllopa_writeMem .word _ _ _

theorem onlyIllopa_pop (s : State) : onlyIllopa (pop s) :=
  onlyIllopa_bind (onlyIllopa_readMem .word _ _) fun _ => onlyIllopa_pure _

theorem onlyIllopa_popSegment (s : State) : onlyIllopa (popSegment s) :=
  onlyIllopa_bind (onlyIllopa_pop _) fun _ => onlyIllopa_pure _

/-! ## An instruction that goes on -/

/-- An instruction whose parts raise no other trap goes on with its own effect, or with the entry of that trap. -/
theorem conclude_illopa {s t : State} {x : Exec State} (h : conclude s x = .next t) (hx : onlyIllopa x) :
    raise .illopa s.ip s = .next t ∨ x = .ok t := by
  rcases conclude_next h with h | ⟨trap, he, h⟩
  · exact .inr h
  · exact .inl (hx _ he ▸ h)

end Sys2Proof.Laws
end

