-- ==== Sys2Proof/Laws/Invariant.lean ====
section
/-! SUPPORT. What each operation keeps of the invariant: canonical memory apart from the registers, registers within
their stored bits; and that no operation but the EXTend instructions, traps and resets touches the sequence. -/

namespace Sys2Proof.Laws

open Sys2Proof.Machine

/-- The part of the invariant that memory and register writes could break. -/
def sound (s : State) : Prop :=
  Memory.wf s.mem = true ∧ memoryApart s = true ∧ ∀ r : CpuReg, r.stored (getReg s r) = getReg s r

theorem registersOk_iff {s : State} : registersOk s = true ↔ ∀ r : CpuReg, r.stored (getReg s r) = getReg s r := by
  simp only [registersOk, List.all_eq_true, beq_iff_eq]
  exact ⟨fun h r => h r (by cases r <;> simp [CpuReg.all]), fun h r _ => h r⟩

theorem stateInv_iff {s : State} : StateInv s ↔ sound s ∧ sequenceInv s = true := by
  simp only [StateInv, sound, registersOk_iff, and_assoc]

/-- While instructions execute the sequence is as 10_state R40 says. -/
theorem sequenceOk_of_not_idle {s : State} (h : sequenceInv s = true) (hr : s.run ≠ .idle) :
    sequenceOk s.seq = true := by
  simpa [sequenceInv, hr] using h

/-- Without the lock no sequence is in progress, and none ended in an IDLE. -/
theorem seq_of_open {s : State} (h : sequenceInv s = true) (hl : s.seq.lock = false) : s.seq = Sequence.idle := by
  have hw : s.seq ≠ lockedWait := fun e => by rw [e] at hl; cases hl
  have h : sequenceOk s.seq = true := by simpa [sequenceInv, hw] using h
  simp only [sequenceOk, hl, Bool.and_eq_true, Bool.or_eq_true, beq_iff_eq, decide_eq_true_eq] at h
  obtain ⟨⟨-, h0⟩, h1⟩ := h
  exact h1.resolve_left (by simpa using h0.symm)

/-- The instructions that begin a sequence are those of the two forms. -/
theorem beginsSequence_eq (i : Instr) :
    beginsSequence i = ((sequenceForm i).isSome || (registerSequenceForm i).isSome) := by cases i <;> rfl

@[simp] theorem afterInstr_begins {i : Instr} {s : State} (h : beginsSequence i = true) : afterInstr i s = s := by
  simp [afterInstr, h]

@[simp] theorem afterInstr_idle (s : State) : afterInstr .idle s = keepLock s (countDown s) := rfl

theorem afterInstr_counts {i : Instr} {s : State} (h : beginsSequence i = false) (hi : i ≠ .idle) :
    afterInstr i s = countDown s := by
  simp [afterInstr, h, hi]

/-- From `s` to `t` soundness is kept and the sequence unchanged. -/
def kept (s t : State) : Prop := (sound s → sound t) ∧ t.seq = s.seq

theorem kept_refl (s : State) : kept s s := ⟨id, rfl⟩

theorem kept.trans {s t u : State} (h1 : kept s t) (h2 : kept t u) : kept s u :=
  ⟨fun h => h2.1 (h1.1 h), h2.2.trans h1.2⟩

theorem sound_of_same {s t : State} (hm : t.mem = s.mem) (hg : ∀ r, getReg t r = getReg s r) (h : sound s) : sound t :=
  ⟨by rw [hm]; exact h.1, by rw [memoryApart, hm]; exact h.2.1, fun r => by rw [hg r]; exact h.2.2 r⟩

/-! ## The updates -/

theorem stored_stored (r : CpuReg) (v : Word) : r.stored (r.stored v) = r.stored v := by
  cases r <;> simp only [CpuReg.stored, BitVec.and_assoc, BitVec.and_self]
  all_goals
    ext i hi
    interval_cases i <;> simp

theorem kept_setReg (r : CpuReg) (v : Word) (s : State) : kept s (setReg r v s) := by
  refine ⟨fun h => ⟨by simpa using h.1, by simpa [memoryApart] using h.2.1, fun q => ?_⟩, by simp⟩
  rw [getReg_setReg]
  split
  · rename_i e; subst e; exact stored_stored _ v
  · split
    · rename_i e; obtain ⟨rfl, -⟩ := e; rfl
    · exact h.2.2 q

theorem stored_withFlags {psw : Word} (f : CondFlags) (h : CpuReg.psw.stored psw = psw) :
    CpuReg.psw.stored (withFlags psw f) = withFlags psw f := by
  have e : ∀ i, 7 ≤ i → i ≤ 9 → psw.getLsbD i = false := fun i h1 h2 => by
    rw [← h, CpuReg.stored, BitVec.getLsbD_and]
    interval_cases i <;> simp
  refine BitVec.eq_of_getLsbD_eq fun i hi => ?_
  rw [CpuReg.stored, BitVec.getLsbD_and]
  by_cases h7 : 7 ≤ i ∧ i ≤ 9
  · have : (withFlags psw f).getLsbD i = psw.getLsbD i := by
      rw [withFlags, BitVec.getLsbD_append, if_neg (by omega), BitVec.getLsbD_extractLsb']
      simp [show 5 + (i - (1 + 1 + 1 + 1 + 1)) = i by omega, show i - 5 < 11 by omega]
    rw [this, e i h7.1 h7.2, Bool.false_and]
  · have : (0xFC7F#16 : Word).getLsbD i = true := by interval_cases i <;> first | rfl | omega
    rw [show (0xFC7F : Word) = 0xFC7F#16 from rfl, this, Bool.and_true]

theorem kept_setFlags (f : CondFlags) (s : State) : kept s (s.setFlags f) := by
  refine ⟨fun h => ⟨by simpa using h.1, by simpa [memoryApart] using h.2.1, fun q => ?_⟩, by simp⟩
  rw [getReg_setFlags]
  split
  · rename_i e; subst e; exact stored_withFlags f (h.2.2 .psw)
  · exact h.2.2 q

theorem kept_flagsUnlessPsw (a : Addr) (f : CondFlags) (s : State) : kept s (flagsUnlessPsw a f s) := by
  unfold flagsUnlessPsw; split
  · exact kept_refl s
  · exact kept_setFlags f s

theorem kept_touch (a : Addr) (s : State) : kept s (touch a s) := by
  unfold touch; split
  · refine ⟨fun h => ⟨h.1, h.2.1, fun q => ?_⟩, rfl⟩
    cases q <;> first | rfl | exact h.2.2 _
  · exact kept_refl s

theorem kept_setMdriu (s : State) : kept s (setMdriu s) :=
  ⟨fun h => ⟨h.1, h.2.1, fun q => by cases q <;> first | rfl | exact h.2.2 _⟩, rfl⟩

theorem kept_md (s : State) (low high : Word) (free : Nat) : kept s { s with mdl := low, mdh := high, free := free } :=
  ⟨fun h => ⟨h.1, h.2.1, fun q => by cases q <;> first | rfl | exact h.2.2 _⟩, rfl⟩

theorem kept_jumpNear (v : Word) (s : State) : kept s (jumpNear v s) :=
  ⟨sound_of_same rfl fun r => by cases r <;> rfl, rfl⟩

theorem kept_free (n : Nat) (s : State) : kept s { s with free := n } :=
  ⟨sound_of_same rfl fun r => by cases r <;> rfl, rfl⟩

theorem kept_csp (g : Byte) (s : State) : kept s { s with csp := g.setWidth 16 } := by
  refine ⟨fun h => ⟨h.1, h.2.1, fun q => ?_⟩, rfl⟩
  cases q
  case csp =>
    refine BitVec.eq_of_getLsbD_eq fun i hi => ?_
    simp only [getReg, CpuReg.stored, BitVec.getLsbD_and, BitVec.getLsbD_setWidth, hi, decide_true, Bool.true_and]
    by_cases h8 : i < 8
    · have : (0x00FF#16 : Word).getLsbD i = true := by interval_cases i <;> rfl
      rw [show (0x00FF : Word) = 0x00FF#16 from rfl, this, Bool.and_true]
    · rw [BitVec.getLsbD_of_ge g i (by omega), Bool.false_and]
  all_goals exact h.2.2 _

theorem kept_jumpFar (g : Byte) (v : Word) (s : State) : kept s (jumpFar g v s) :=
  (kept_csp g s).trans (kept_jumpNear v _)

/-! ## Memory -/

theorem all_write {p : Host.Cell → Bool} {mem : List Host.Cell} (a : Nat) (v : Byte) (h : mem.all p = true)
    (ha : p (a, v) = true) : (Memory.write mem a v).all p = true := by
  induction mem with
  | nil => unfold Memory.write; split <;> simp [ha]
  | cons c rest ih =>
    obtain ⟨b, u⟩ := c
    simp only [List.all_cons, Bool.and_eq_true] at h
    unfold Memory.write
    split
    · split <;> simp [h, ha]
    · split
      · split <;> simp [h, ha]
      · simp [h.1, ih h.2]

theorem memoryApart_write {s : State} (a : Addr) (v : Byte) (h : memoryApart s = true) (ha : cpuRegAt a = none) :
    memoryApart { s with mem := Memory.write s.mem a.toNat v } = true :=
  all_write _ _ h (by simp [ha])

theorem kept_store (a : Addr) (v : Byte) (s : State) (ha : cpuRegAt a = none) :
    kept s { s with mem := Memory.write s.mem a.toNat v } :=
  ⟨fun h => ⟨wf_write _ _ h.1, memoryApart_write a v h.2.1 ha, fun q => by cases q <;> exact h.2.2 _⟩, rfl⟩

theorem kept_pokeByte (a : Addr) (v : Byte) (s : State) : kept s (pokeByte a v s) := by
  unfold pokeByte
  split
  · unfold setRegByte
    split
    · split
      · exact kept_setReg _ _ s
      · exact (kept_free _ s).trans (kept_setReg _ _ _)
    · exact kept_setReg _ _ s
  · rename_i ha; exact kept_store a v s ha

theorem kept_pokeWord (a : Addr) (v : Word) (s : State) (he : isOdd a = false) : kept s (pokeWord a v s) := by
  unfold pokeWord
  split
  · exact kept_setReg _ _ s
  · rename_i ha
    exact (kept_store a (lowByte v) s ha).trans
      (kept_store (a + 1) (highByte v) { s with mem := Memory.write s.mem a.toNat (lowByte v) } (by rw [cpuRegAt_succ he]; exact ha))

/-! ## The operations -/

theorem kept_readMem {w : Width} {a : Addr} {s : State} {r : BitVec w.bits × State} (h : readMem w a s = .ok r) :
    kept s r.2 := by
  rw [(readMem_ok.mp h).2]; exact kept_touch a s

theorem kept_writeMem {w : Width} {a : Addr} {v : BitVec w.bits} {s t : State} (h : writeMem w a v s = .ok t) :
    kept s t := by
  obtain ⟨hw, rfl⟩ := writeMem_ok.mp h
  cases w
  · exact kept_pokeByte a v s
  · exact kept_pokeWord a v s (even_of_canWrite hw)

theorem kept_writeTo {l : Loc} {w : Width} {a : Addr} {v : BitVec w.bits} {s t : State} (h : writeTo l w a v s = .ok t) :
    kept s t := by
  obtain ⟨hw, rfl⟩ := writeTo_ok.mp h
  rcases pokeTo_cases l w a v s with e | ⟨r, x, -, -, e⟩
  · exact kept_writeMem (writeMem_ok.mpr ⟨hw, e⟩)
  · rw [e]; exact kept_setReg r x s

theorem kept_readGpr {w : Width} {n : RegNo} {s : State} {r : BitVec w.bits × State} (h : readGpr w n s = .ok r) :
    kept s r.2 := by
  rw [(readGpr_ok h).2.2]; exact kept_touch _ s

theorem kept_locate {bank : Word} {w : Width} {l : Loc} {s : State} {r : Addr × State} (h : locate bank w l s = .ok r) :
    kept s r.2 := by
  cases l with
  | gpr n =>
    simp only [locate] at h
    split at h
    · cases h
    · cases h; exact kept_refl s
  | reg x =>
    simp only [locate] at h
    split at h
    · cases h
    · cases h; exact kept_refl s
  | mem a => cases h; exact kept_refl s
  | ind p mode =>
    simp only [locate, locateIndirect] at h
    split at h
    · cases h
    · cases mode <;> simp only [bind_ok] at h
      all_goals
        first
          | (obtain ⟨x, hx, h⟩ := h
             cases h
             exact kept_readMem hx)
          | (obtain ⟨x, hx, y, hy, z, hz, h⟩ := h
             cases h
             exact ((kept_readMem hx).trans (kept_writeMem hy)).trans (kept_readMem hz))

theorem kept_settle {bank : Word} {w : Width} {l : Loc} {s t : State} (h : settle bank w l s = .ok t) : kept s t := by
  cases l with
  | ind p mode =>
    cases mode
    case postInc =>
      simp only [settle, bind_ok] at h
      obtain ⟨x, hx, hy⟩ := h
      exact (kept_readMem hx).trans (kept_writeMem hy)
    all_goals (cases h; exact kept_refl s)
  | _ => cases h; exact kept_refl s

theorem kept_readLoc {bank : Word} {w : Width} {l : Loc} {s : State} {r : BitVec w.bits × State}
    (h : readLoc bank w l s = .ok r) : kept s r.2 := by
  simp only [readLoc, bind_ok] at h
  obtain ⟨x, hx, y, hy, z, hz, h⟩ := h
  obtain rfl := pure_eq_ok.mp h
  exact ((kept_locate hx).trans (kept_readMem hy)).trans (kept_settle hz)

theorem kept_readSource {bank : Word} {w : Width} {src : Source} {s : State} {r : BitVec w.bits × State}
    (h : readSource bank w src s = .ok r) : kept s r.2 := by
  cases src with
  | imm v => cases h; exact kept_refl s
  | loc l => exact kept_readLoc h

theorem kept_writeLoc {bank : Word} {w : Width} {l : Loc} {v : BitVec w.bits} {s : State} {r : Addr × State}
    (h : writeLoc bank w l v s = .ok r) : kept s r.2 := by
  simp only [writeLoc, bind_ok] at h
  obtain ⟨x, hx, y, hy, z, hz, h⟩ := h
  obtain rfl := pure_eq_ok.mp h
  exact ((kept_locate hx).trans (kept_writeTo hy)).trans (kept_settle hz)

theorem kept_readBitWord {qq : Byte} {s : State} {r : Word × State} (h : readBitWord qq s = .ok r) : kept s r.2 := by
  rw [(framed_readBitWord h).2]; exact kept_touch _ s

theorem kept_readBit {qq : Byte} {q : BitVec 4} {s : State} {r : Bool × State} (h : readBit qq q s = .ok r) :
    kept s r.2 := by
  rw [(framed_readBit h).2]; exact kept_touch _ s

theorem kept_writeBit {qq : Byte} {q : BitVec 4} {b : Bool} {s t : State} (h : writeBit qq q b s = .ok t) : kept s t := by
  simp only [writeBit, bind_ok] at h
  obtain ⟨x, hx, h⟩ := h
  exact (kept_readBitWord hx).trans (kept_writeMem (w := .word) h)

theorem kept_push {v : Word} {s t : State} (h : push v s = .ok t) : kept s t :=
  (kept_setReg .sp _ s).trans (kept_writeMem (w := .word) h)

theorem kept_pop {s : State} {r : Word × State} (h : pop s = .ok r) : kept s r.2 := by
  simp only [pop, bind_ok] at h
  obtain ⟨x, hx, h⟩ := h
  obtain rfl := pure_eq_ok.mp h
  exact (kept_readMem (w := .word) hx).trans (kept_setReg _ _ _)

theorem stored_entryPsw {psw : Word} (level : BitVec 4) (h : CpuReg.psw.stored psw = psw) :
    CpuReg.psw.stored (entryPsw psw level) = entryPsw psw level := by
  rw [← h]
  simp only [CpuReg.stored, entryPsw]
  refine BitVec.eq_of_getLsbD_eq fun i hi => ?_
  interval_cases i <;> simp

theorem kept_entryPsw (level : BitVec 4) (s : State) : kept s { s with psw := entryPsw s.psw level } := by
  refine ⟨fun h => ⟨h.1, h.2.1, fun q => ?_⟩, rfl⟩
  cases q
  case psw => exact stored_entryPsw level (h.2.2 .psw)
  all_goals exact h.2.2 _

/-- The entry of a trap or interrupt routine. -/
theorem kept_enter {n : BitVec 7} {ret : Word} {level : Option (BitVec 4)} {s t : State}
    (h : enter n ret level s = .ok t) : kept s t := by
  simp only [enter, bind_ok] at h
  obtain ⟨s1, h1, h⟩ := h
  refine (kept_push h1).trans ?_
  cases hd : segmentationDisabled s1 <;> simp only [hd, Bool.false_eq_true, if_false, if_true, bind_ok] at h
  · obtain ⟨s2, h2, s3, h3, h⟩ := h
    refine ((kept_push h2).trans (kept_push h3)).trans ((kept_jumpFar 0 (4 * n.setWidth 16) s3).trans ?_)
    cases level with
    | none => obtain rfl := pure_eq_ok.mp h; exact kept_refl _
    | some l => obtain rfl := pure_eq_ok.mp h; exact kept_entryPsw l _
  · obtain ⟨s2, h2, s3, h3, h⟩ := h
    obtain rfl := pure_eq_ok.mp h2
    refine (kept_push h3).trans ((kept_jumpNear (4 * n.setWidth 16) s3).trans ?_)
    cases level with
    | none => obtain rfl := pure_eq_ok.mp h; exact kept_refl _
    | some l => obtain rfl := pure_eq_ok.mp h; exact kept_entryPsw l _

theorem kept_popSegment {s t : State} (h : popSegment s = .ok t) : kept s t := by
  simp only [popSegment, bind_ok] at h
  obtain ⟨x, hx, h⟩ := h
  obtain rfl := pure_eq_ok.mp h
  exact (kept_pop hx).trans (kept_csp _ _)

theorem kept_returnFromEntry {s t : State} (h : returnFromEntry s = .ok t) : kept s t := by
  simp only [returnFromEntry, bind_ok] at h
  obtain ⟨x, hx, h⟩ := h
  refine (kept_pop hx).trans ?_
  cases hd : segmentationDisabled s <;> simp only [hd, Bool.false_eq_true, if_false, if_true, bind_ok] at h
  · obtain ⟨y, hy, z, hz, h⟩ := h
    refine ((kept_popSegment hy).trans (kept_pop hz)).trans ((kept_setReg .psw z.1 z.2).trans ?_)
    split at h
    · cases h
    · obtain rfl := pure_eq_ok.mp h
      exact kept_jumpNear _ _
  · obtain ⟨y, hy, z, hz, h⟩ := h
    obtain rfl := pure_eq_ok.mp hy
    refine (kept_pop hz).trans ((kept_setReg .psw z.1 z.2).trans ?_)
    split at h
    · cases h
    · obtain rfl := pure_eq_ok.mp h
      exact kept_jumpNear _ _

/-! ## The templates -/

theorem kept_alu2 {op : AluOp} {w : Width} {dst : Loc} {src : Source} {s t : State} (h : alu2 op w dst src s = .ok t) :
    kept s t := by
  simp only [alu2, bind_ok] at h
  obtain ⟨x, hx, a, ha, b, hb, u, hu, h⟩ := h
  obtain rfl := pure_eq_ok.mp h
  exact ((((kept_locate hx).trans (kept_readMem ha)).trans (kept_readSource hb)).trans (kept_writeTo hu)).trans
    (kept_flagsUnlessPsw _ _ _)

theorem kept_compare2 {w : Width} {op1 : Loc} {op2 : Source} {s t : State} (h : compare2 w op1 op2 s = .ok t) :
    kept s t := by
  simp only [compare2, bind_ok] at h
  obtain ⟨a, ha, b, hb, h⟩ := h
  obtain rfl := pure_eq_ok.mp h
  exact ((kept_readLoc ha).trans (kept_readSource hb)).trans (kept_setFlags _ _)

theorem kept_compareStep {k : Word} {n : RegNo} {op2 : Source} {s t : State} (h : compareStep k n op2 s = .ok t) :
    kept s t := by
  simp only [compareStep, bind_ok] at h
  obtain ⟨x, hx, a, ha, b, hb, u, hu, h⟩ := h
  obtain rfl := pure_eq_ok.mp h
  exact ((((kept_locate hx).trans (kept_readMem (w := .word) ha)).trans (kept_readSource (w := .word) hb)).trans
    (kept_writeMem (w := .word) hu)).trans (kept_flagsUnlessPsw _ _ _)

theorem kept_unary {w : Width} {f : BitVec w.bits → BitVec w.bits × CondFlags} {n : RegNo} {s t : State}
    (h : unary w f n s = .ok t) : kept s t := by
  simp only [unary, bind_ok] at h
  obtain ⟨x, hx, a, ha, u, hu, h⟩ := h
  obtain rfl := pure_eq_ok.mp h
  exact (((kept_locate hx).trans (kept_readMem ha)).trans (kept_writeTo hu)).trans (kept_flagsUnlessPsw _ _ _)

theorem kept_shift {op : ShiftOp} {n : RegNo} {src : Source} {s t : State} (h : shift op n src s = .ok t) : kept s t := by
  simp only [shift, bind_ok] at h
  obtain ⟨b, hb, x, hx, a, ha, u, hu, h⟩ := h
  obtain rfl := pure_eq_ok.mp h
  exact ((((kept_readSource (w := .word) hb).trans (kept_locate hx)).trans (kept_readMem (w := .word) ha)).trans
    (kept_writeMem (w := .word) hu)).trans (kept_flagsUnlessPsw _ _ _)

theorem kept_move {wsrc wdst : Width} {ext : BitVec wsrc.bits → BitVec wdst.bits}
    {flags : BitVec wsrc.bits → CondFlags → CondFlags} {dst : Loc} {src : Source} {s t : State}
    (h : move wsrc wdst ext flags dst src s = .ok t) : kept s t := by
  simp only [move, bind_ok] at h
  obtain ⟨a, ha, b, hb, h⟩ := h
  obtain rfl := pure_eq_ok.mp h
  exact ((kept_readSource ha).trans (kept_writeLoc hb)).trans (kept_flagsUnlessPsw _ _ _)

theorem kept_finishProduct (r : BitVec 32 × Bool) (s : State) : kept s (finishProduct r s) :=
  (kept_md _ _ _ s.free).trans (kept_setFlags _ _)

theorem kept_readProduct {f : Word → Word → BitVec 32 × Bool} {n m : RegNo} {s : State}
    {r : (BitVec 32 × Bool) × State} (h : readProduct f n m s = .ok r) : kept s r.2 := by
  simp only [readProduct, bind_ok] at h
  obtain ⟨a, ha, b, hb, h⟩ := h
  obtain rfl := pure_eq_ok.mp h
  exact (kept_readGpr (w := .word) ha).trans (kept_readGpr (w := .word) hb)

theorem kept_multiply {f : Word → Word → BitVec 32 × Bool} {n m : RegNo} {s t : State} (h : multiply f n m s = .ok t) :
    kept s t := by
  simp only [multiply, bind_ok] at h
  obtain ⟨r, hr, h⟩ := h
  obtain rfl := pure_eq_ok.mp h
  exact ((kept_readProduct hr).trans (kept_setMdriu _)).trans (kept_finishProduct _ _)

theorem kept_multiplyMarked {f : Word → Word → BitVec 32 × Bool} {n m : RegNo} {s t : State}
    (h : multiplyMarked f n m s = .ok t) : kept s t :=
  (kept_setMdriu s).trans (kept_multiply h)

theorem kept_finishDivision (r : Quotient) (s : State) : kept s (finishDivision r s) := by
  cases r with
  | result q rem => exact (kept_md s q rem s.free).trans (kept_setFlags _ _)
  | invalid => exact (kept_md s _ _ _).trans (kept_setFlags _ _)
  | unstated => exact (kept_md s _ _ _).trans (kept_setFlags _ _)

theorem kept_divide {f : Word → Word → Word → Quotient} {n : RegNo} {s t : State} (h : divide f n s = .ok t) :
    kept s t := by
  simp only [divide, bind_ok] at h
  obtain ⟨a, ha, h⟩ := h
  obtain rfl := pure_eq_ok.mp h
  exact ((kept_readGpr (w := .word) ha).trans (kept_setMdriu _)).trans (kept_finishDivision _ _)

theorem kept_prioritize {n m : RegNo} {s t : State} (h : prioritize n m s = .ok t) : kept s t := by
  simp only [prioritize, bind_ok] at h
  obtain ⟨b, hb, x, hx, u, hu, h⟩ := h
  obtain rfl := pure_eq_ok.mp h
  exact (((kept_readGpr (w := .word) hb).trans (kept_locate hx)).trans (kept_writeMem (w := .word) hu)).trans
    (kept_flagsUnlessPsw _ _ _)

theorem kept_bitAssign {b : Bool} {qq : Byte} {q : BitVec 4} {s t : State} (h : bitAssign b qq q s = .ok t) :
    kept s t := by
  simp only [bitAssign, bind_ok] at h
  obtain ⟨x, hx, u, hu, h⟩ := h
  obtain rfl := pure_eq_ok.mp h
  exact ((kept_readBit hx).trans (kept_writeBit hu)).trans (kept_flagsUnlessPsw _ _ _)

theorem kept_bit2 {op : BitOp} {zz : Byte} {z : BitVec 4} {qq : Byte} {q : BitVec 4} {s t : State}
    (h : bit2 op zz z qq q s = .ok t) : kept s t := by
  simp only [bit2, bind_ok] at h
  obtain ⟨x, hx, y, hy, u, hu, h⟩ := h
  obtain rfl := pure_eq_ok.mp h
  exact (((kept_readBit hx).trans (kept_readBit hy)).trans (kept_writeBit hu)).trans (kept_flagsUnlessPsw _ _ _)

theorem kept_bitCompare {zz : Byte} {z : BitVec 4} {qq : Byte} {q : BitVec 4} {s t : State}
    (h : bitCompare zz z qq q s = .ok t) : kept s t := by
  simp only [bitCompare, bind_ok] at h
  obtain ⟨x, hx, y, hy, h⟩ := h
  obtain rfl := pure_eq_ok.mp h
  exact ((kept_readBit hx).trans (kept_readBit hy)).trans (kept_setFlags _ _)

theorem kept_bitField {qq : Byte} {mask data : Word} {s t : State} (h : bitField qq mask data s = .ok t) : kept s t := by
  simp only [bitField, bind_ok] at h
  obtain ⟨x, hx, u, hu, h⟩ := h
  obtain rfl := pure_eq_ok.mp h
  exact ((kept_readBitWord hx).trans (kept_writeMem (w := .word) hu)).trans (kept_flagsUnlessPsw _ _ _)

theorem kept_jumpOnBit {b : Bool} {qq : Byte} {q : BitVec 4} {rel : Byte} {s t : State}
    (h : jumpOnBit b qq q rel s = .ok t) : kept s t := by
  simp only [jumpOnBit, bind_ok] at h
  obtain ⟨x, hx, h⟩ := h
  obtain rfl := pure_eq_ok.mp h
  refine (kept_readBit hx).trans ?_
  split
  · exact kept_jumpNear _ _
  · exact kept_refl _

theorem kept_jumpAndFlip {b : Bool} {qq : Byte} {q : BitVec 4} {rel : Byte} {s t : State}
    (h : jumpAndFlip b qq q rel s = .ok t) : kept s t := by
  simp only [jumpAndFlip, bind_ok] at h
  obtain ⟨x, hx, h⟩ := h
  split at h
  · simp only [bind_ok] at h
    obtain ⟨u, hu, h⟩ := h
    obtain rfl := pure_eq_ok.mp h
    exact (((kept_readBit hx).trans (kept_writeBit hu)).trans (kept_jumpNear _ _)).trans (kept_flagsUnlessPsw _ _ _)
  · obtain rfl := pure_eq_ok.mp h
    exact (kept_readBit hx).trans (kept_flagsUnlessPsw _ _ _)

theorem kept_callNear {v : Word} {s t : State} (h : callNear v s = .ok t) : kept s t := by
  simp only [callNear, bind_ok] at h
  obtain ⟨a, ha, h⟩ := h
  obtain rfl := pure_eq_ok.mp h
  exact (kept_push ha).trans (kept_jumpNear _ _)

theorem kept_popTo {dst : Addr} {s t : State} (h : popTo dst s = .ok t) : kept s t := by
  simp only [popTo, bind_ok] at h
  obtain ⟨x, hx, a, ha, h⟩ := h
  obtain rfl := pure_eq_ok.mp h
  exact ((kept_pop hx).trans (kept_writeMem (w := .word) ha)).trans (kept_flagsUnlessPsw _ _ _)

end Sys2Proof.Laws
end

