-- ==== Sys2Proof/Laws/Misaligned.lean ====
section
/-! SUPPORT. What a word access at an odd address does in each operation: it traps (20_memory R76, 60_exceptions R502). -/

namespace Sys2Proof.Laws

open Sys2Proof.Machine

/-- A word access at an odd address traps, whatever lies there (20_memory R76). -/
theorem readMem_misaligned {w : Width} {a : Addr} (s : State) (h : misaligned w a = true) :
    readMem w a s = .error (.trap .illopa) := by simp [readMem, readStop, h, unlessStop]

theorem writeTo_misaligned {l : Loc} {w : Width} {a : Addr} (v : BitVec w.bits) (s : State) (h : misaligned w a = true) :
    writeTo l w a v s = .error (.trap .illopa) := by simp [writeTo, writeStop, h, unlessStop]

theorem writeMem_misaligned {w : Width} {a : Addr} (v : BitVec w.bits) (s : State) (h : misaligned w a = true) :
    writeMem w a v s = .error (.trap .illopa) := by simp [writeMem, writeStop, h, unlessStop]

/-- An operand that meets an odd address traps where it is located, or lies at an odd address. -/
theorem locate_meetsOdd {bank : Word} {w : Width} {l : Loc} {s : State} (hb : bank ≤ 0xFFE0)
    (h : meetsOdd bank (prepared bank w l s) w l = true) :
    locate bank w l s = .error (.trap .illopa) ∨
    locate bank w l s = .ok (operandAddr bank (prepared bank w l s) w l, prepared bank w l s) ∧
      misaligned w (operandAddr bank (prepared bank w l s) w l) = true := by
  cases l with
  | ind p mode =>
    by_cases ho : (gprAddr bank .word p).getLsbD 0 = true
    · left
      have hm : misaligned .word (gprAddr bank .word p) = true := by simpa [misaligned, isOdd] using ho
      cases mode <;> simp only [locate, locateIndirect, bankStop_none.mpr hb, readMem_misaligned _ hm, error_bind]
    · simp only [meetsOdd, Bool.or_eq_true, ho, Bool.false_eq_true, false_or, Bool.and_eq_true] at h
      have hp : plainWord s (gprAddr bank .word p) = true := by
        have h1 := h.1
        cases mode with
        | preDec =>
          simp only [prepared] at h1
          have hn : cpuRegAt (gprAddr bank .word p) = none := (plainWord_iff.mp h1).1
          rwa [plainWord_pokeWord _ _ (by rw [hn]; simp)] at h1
        | _ => exact h1
      right
      refine ⟨locate_of hb hp, ?_⟩
      simpa [misaligned, isOdd] using h.2
  | gpr n => right; exact ⟨locate_of hb rfl, by simpa [meetsOdd, misaligned, isOdd] using h⟩
  | reg n => right; exact ⟨locate_of hb rfl, by simpa [meetsOdd, misaligned, isOdd] using h⟩
  | mem n => right; exact ⟨locate_of hb rfl, by simpa [meetsOdd, misaligned, isOdd] using h⟩

/-- A source operand that meets an odd address is not read. -/
theorem readSource_meetsOdd {bank : Word} {w : Width} {src : Source} {s : State} (hb : bank ≤ 0xFFE0)
    (hn : noPreDec src = true) (h : sourceMeetsOdd bank s w src = true) :
    readSource bank w src s = .error (.trap .illopa) := by
  cases src with
  | imm v => cases h
  | loc l =>
    have hp : prepared bank w l s = s := by
      cases l with
      | ind p mode => cases mode <;> first | rfl | simp [noPreDec] at hn
      | _ => rfl
    have hl := locate_meetsOdd (w := w) (l := l) (s := s) hb (by rw [hp]; exact h)
    rw [hp] at hl
    rcases hl with hl | ⟨hl, hm⟩
    · simp only [readSource, readLoc, hl, error_bind]
    · simp only [readSource, readLoc, hl, ok_bind, readMem_misaligned _ hm, error_bind]

/-- In a bank at an odd CP every word GPR is misaligned. -/
theorem gprAddr_misaligned {bank : Word} {n : RegNo} (h : bank.getLsbD 0 = true) : misaligned .word (gprAddr bank .word n) = true := by
  simp only [misaligned, isOdd, gprAddr]
  simp only [BitVec.getLsbD, Nat.testBit_zero, decide_eq_true_eq] at h
  simp only [beq_self_eq_true, Bool.true_and, BitVec.getLsbD, Nat.testBit_zero, decide_eq_true_eq, BitVec.toNat_add,
    BitVec.toNat_mul, BitVec.toNat_setWidth]
  have := bank.isLt
  have := n.isLt
  rw [show BitVec.toNat (2 : BitVec 24) = 2 from rfl]
  norm_num
  omega

theorem readGpr_odd {n : RegNo} {s : State} (hb : s.cp ≤ 0xFFE0) (h : s.cp.getLsbD 0 = true) :
    readGpr .word n s = .error (.trap .illopa) := by
  simp [readGpr, bankStop_none.mpr hb, readMem_misaligned _ (gprAddr_misaligned h)]

theorem readBitWord_odd {qq : Byte} {s : State} (hb : s.cp ≤ 0xFFE0) (h : (bitoffAddr s qq).getLsbD 0 = true) :
    readBitWord qq s = .error (.trap .illopa) := by
  simp only [readBitWord, shortStop_of_bank hb]
  exact readMem_misaligned _ (by simpa [misaligned, isOdd] using h)

theorem readBit_odd {qq : Byte} {q} {s : State} (hb : s.cp ≤ 0xFFE0) (h : (bitoffAddr s qq).getLsbD 0 = true) :
    readBit qq q s = .error (.trap .illopa) := by
  simp only [readBit, readBitWord_odd hb h, error_bind]

theorem pop_odd {s : State} (h : s.sp.getLsbD 0 = true) : pop s = .error (.trap .illopa) := by
  simp only [pop]
  rw [readMem_misaligned _ (by simpa [misaligned, isOdd, stackAddr] using h)]; rfl

end Sys2Proof.Laws
end

