-- ==== Sys2Proof/Laws/PerInstr.lean ====
section
/-! SUPPORT. Per-instruction facts, one lemma for each constructor of `Instr`. -/

namespace Sys2Proof.Laws

/-- The encoding of an instruction is as long as its opcode byte says (30_encoding R132). -/
def EncodeLength.Statement (i : Instr) : Prop := (encode i).head?.map lengthOf = some (encode i).length

theorem EncodeLength.addRwRw (n : RegNo) (m : RegNo) : EncodeLength.Statement (.addRwRw n m) := rfl
theorem EncodeLength.addbRbRb (n : RegNo) (m : RegNo) : EncodeLength.Statement (.addbRbRb n m) := rfl
theorem EncodeLength.addRegMem (r : Byte) (a : Word) : EncodeLength.Statement (.addRegMem r a) := rfl
theorem EncodeLength.addbRegMem (r : Byte) (a : Word) : EncodeLength.Statement (.addbRegMem r a) := rfl
theorem EncodeLength.addMemReg (a : Word) (r : Byte) : EncodeLength.Statement (.addMemReg a r) := rfl
theorem EncodeLength.addbMemReg (a : Word) (r : Byte) : EncodeLength.Statement (.addbMemReg a r) := rfl
theorem EncodeLength.addRegData16 (r : Byte) (d : Word) : EncodeLength.Statement (.addRegData16 r d) := rfl
theorem EncodeLength.addbRegData8 (r : Byte) (d : Byte) : EncodeLength.Statement (.addbRegData8 r d) := rfl
theorem EncodeLength.addRwData3 (n : RegNo) (d : BitVec 3) : EncodeLength.Statement (.addRwData3 n d) := rfl
theorem EncodeLength.addRwInd (n : RegNo) (p : RegNo) : EncodeLength.Statement (.addRwInd n p) := rfl
theorem EncodeLength.addRwIndInc (n : RegNo) (p : RegNo) : EncodeLength.Statement (.addRwIndInc n p) := rfl
theorem EncodeLength.addbRbData3 (n : RegNo) (d : BitVec 3) : EncodeLength.Statement (.addbRbData3 n d) := rfl
theorem EncodeLength.addbRbInd (n : RegNo) (p : RegNo) : EncodeLength.Statement (.addbRbInd n p) := rfl
theorem EncodeLength.addbRbIndInc (n : RegNo) (p : RegNo) : EncodeLength.Statement (.addbRbIndInc n p) := rfl
theorem EncodeLength.bfldl (qq : Byte) (mask : Byte) (d : Byte) : EncodeLength.Statement (.bfldl qq mask d) := rfl
theorem EncodeLength.mul (n : RegNo) (m : RegNo) : EncodeLength.Statement (.mul n m) := rfl
theorem EncodeLength.rolRwRw (n : RegNo) (m : RegNo) : EncodeLength.Statement (.rolRwRw n m) := rfl
theorem EncodeLength.jmpr (cc : Cond) (rel : Byte) : EncodeLength.Statement (.jmpr cc rel) := congrArg some (length_nibble cc.code).1
theorem EncodeLength.bclr (qq : Byte) (q : BitVec 4) : EncodeLength.Statement (.bclr qq q) := congrArg some (length_nibble q).2.1
theorem EncodeLength.bset (qq : Byte) (q : BitVec 4) : EncodeLength.Statement (.bset qq q) := congrArg some (length_nibble q).2.2
theorem EncodeLength.addcRwRw (n : RegNo) (m : RegNo) : EncodeLength.Statement (.addcRwRw n m) := rfl
theorem EncodeLength.addcbRbRb (n : RegNo) (m : RegNo) : EncodeLength.Statement (.addcbRbRb n m) := rfl
theorem EncodeLength.addcRegMem (r : Byte) (a : Word) : EncodeLength.Statement (.addcRegMem r a) := rfl
theorem EncodeLength.addcbRegMem (r : Byte) (a : Word) : EncodeLength.Statement (.addcbRegMem r a) := rfl
theorem EncodeLength.addcMemReg (a : Word) (r : Byte) : EncodeLength.Statement (.addcMemReg a r) := rfl
theorem EncodeLength.addcbMemReg (a : Word) (r : Byte) : EncodeLength.Statement (.addcbMemReg a r) := rfl
theorem EncodeLength.addcRegData16 (r : Byte) (d : Word) : EncodeLength.Statement (.addcRegData16 r d) := rfl
theorem EncodeLength.addcbRegData8 (r : Byte) (d : Byte) : EncodeLength.Statement (.addcbRegData8 r d) := rfl
theorem EncodeLength.addcRwData3 (n : RegNo) (d : BitVec 3) : EncodeLength.Statement (.addcRwData3 n d) := rfl
theorem EncodeLength.addcRwInd (n : RegNo) (p : RegNo) : EncodeLength.Statement (.addcRwInd n p) := rfl
theorem EncodeLength.addcRwIndInc (n : RegNo) (p : RegNo) : EncodeLength.Statement (.addcRwIndInc n p) := rfl
theorem EncodeLength.addcbRbData3 (n : RegNo) (d : BitVec 3) : EncodeLength.Statement (.addcbRbData3 n d) := rfl
theorem EncodeLength.addcbRbInd (n : RegNo) (p : RegNo) : EncodeLength.Statement (.addcbRbInd n p) := rfl
theorem EncodeLength.addcbRbIndInc (n : RegNo) (p : RegNo) : EncodeLength.Statement (.addcbRbIndInc n p) := rfl
theorem EncodeLength.bfldh (qq : Byte) (mask : Byte) (d : Byte) : EncodeLength.Statement (.bfldh qq mask d) := rfl
theorem EncodeLength.mulu (n : RegNo) (m : RegNo) : EncodeLength.Statement (.mulu n m) := rfl
theorem EncodeLength.rolRwData4 (n : RegNo) (d : BitVec 4) : EncodeLength.Statement (.rolRwData4 n d) := rfl
theorem EncodeLength.subRwRw (n : RegNo) (m : RegNo) : EncodeLength.Statement (.subRwRw n m) := rfl
theorem EncodeLength.subbRbRb (n : RegNo) (m : RegNo) : EncodeLength.Statement (.subbRbRb n m) := rfl
theorem EncodeLength.subRegMem (r : Byte) (a : Word) : EncodeLength.Statement (.subRegMem r a) := rfl
theorem EncodeLength.subbRegMem (r : Byte) (a : Word) : EncodeLength.Statement (.subbRegMem r a) := rfl
theorem EncodeLength.subMemReg (a : Word) (r : Byte) : EncodeLength.Statement (.subMemReg a r) := rfl
theorem EncodeLength.subbMemReg (a : Word) (r : Byte) : EncodeLength.Statement (.subbMemReg a r) := rfl
theorem EncodeLength.subRegData16 (r : Byte) (d : Word) : EncodeLength.Statement (.subRegData16 r d) := rfl
theorem EncodeLength.subbRegData8 (r : Byte) (d : Byte) : EncodeLength.Statement (.subbRegData8 r d) := rfl
theorem EncodeLength.subRwData3 (n : RegNo) (d : BitVec 3) : EncodeLength.Statement (.subRwData3 n d) := rfl
theorem EncodeLength.subRwInd (n : RegNo) (p : RegNo) : EncodeLength.Statement (.subRwInd n p) := rfl
theorem EncodeLength.subRwIndInc (n : RegNo) (p : RegNo) : EncodeLength.Statement (.subRwIndInc n p) := rfl
theorem EncodeLength.subbRbData3 (n : RegNo) (d : BitVec 3) : EncodeLength.Statement (.subbRbData3 n d) := rfl
theorem EncodeLength.subbRbInd (n : RegNo) (p : RegNo) : EncodeLength.Statement (.subbRbInd n p) := rfl
theorem EncodeLength.subbRbIndInc (n : RegNo) (p : RegNo) : EncodeLength.Statement (.subbRbIndInc n p) := rfl
theorem EncodeLength.bcmp (zz : Byte) (z : BitVec 4) (qq : Byte) (q : BitVec 4) : EncodeLength.Statement (.bcmp zz z qq q) := rfl
theorem EncodeLength.prior (n : RegNo) (m : RegNo) : EncodeLength.Statement (.prior n m) := rfl
theorem EncodeLength.rorRwRw (n : RegNo) (m : RegNo) : EncodeLength.Statement (.rorRwRw n m) := rfl
theorem EncodeLength.subcRwRw (n : RegNo) (m : RegNo) : EncodeLength.Statement (.subcRwRw n m) := rfl
theorem EncodeLength.subcbRbRb (n : RegNo) (m : RegNo) : EncodeLength.Statement (.subcbRbRb n m) := rfl
theorem EncodeLength.subcRegMem (r : Byte) (a : Word) : EncodeLength.Statement (.subcRegMem r a) := rfl
theorem EncodeLength.subcbRegMem (r : Byte) (a : Word) : EncodeLength.Statement (.subcbRegMem r a) := rfl
theorem EncodeLength.subcMemReg (a : Word) (r : Byte) : EncodeLength.Statement (.subcMemReg a r) := rfl
theorem EncodeLength.subcbMemReg (a : Word) (r : Byte) : EncodeLength.Statement (.subcbMemReg a r) := rfl
theorem EncodeLength.subcRegData16 (r : Byte) (d : Word) : EncodeLength.Statement (.subcRegData16 r d) := rfl
theorem EncodeLength.subcbRegData8 (r : Byte) (d : Byte) : EncodeLength.Statement (.subcbRegData8 r d) := rfl
theorem EncodeLength.subcRwData3 (n : RegNo) (d : BitVec 3) : EncodeLength.Statement (.subcRwData3 n d) := rfl
theorem EncodeLength.subcRwInd (n : RegNo) (p : RegNo) : EncodeLength.Statement (.subcRwInd n p) := rfl
theorem EncodeLength.subcRwIndInc (n : RegNo) (p : RegNo) : EncodeLength.Statement (.subcRwIndInc n p) := rfl
theorem EncodeLength.subcbRbData3 (n : RegNo) (d : BitVec 3) : EncodeLength.Statement (.subcbRbData3 n d) := rfl
theorem EncodeLength.subcbRbInd (n : RegNo) (p : RegNo) : EncodeLength.Statement (.subcbRbInd n p) := rfl
theorem EncodeLength.subcbRbIndInc (n : RegNo) (p : RegNo) : EncodeLength.Statement (.subcbRbIndInc n p) := rfl
theorem EncodeLength.bmovn (zz : Byte) (z : BitVec 4) (qq : Byte) (q : BitVec 4) : EncodeLength.Statement (.bmovn zz z qq q) := rfl
theorem EncodeLength.rorRwData4 (n : RegNo) (d : BitVec 4) : EncodeLength.Statement (.rorRwData4 n d) := rfl
theorem EncodeLength.cmpRwRw (n : RegNo) (m : RegNo) : EncodeLength.Statement (.cmpRwRw n m) := rfl
theorem EncodeLength.cmpbRbRb (n : RegNo) (m : RegNo) : EncodeLength.Statement (.cmpbRbRb n m) := rfl
theorem EncodeLength.cmpRegMem (r : Byte) (a : Word) : EncodeLength.Statement (.cmpRegMem r a) := rfl
theorem EncodeLength.cmpbRegMem (r : Byte) (a : Word) : EncodeLength.Statement (.cmpbRegMem r a) := rfl
theorem EncodeLength.cmpRegData16 (r : Byte) (d : Word) : EncodeLength.Statement (.cmpRegData16 r d) := rfl
theorem EncodeLength.cmpbRegData8 (r : Byte) (d : Byte) : EncodeLength.Statement (.cmpbRegData8 r d) := rfl
theorem EncodeLength.cmpRwData3 (n : RegNo) (d : BitVec 3) : EncodeLength.Statement (.cmpRwData3 n d) := rfl
theorem EncodeLength.cmpRwInd (n : RegNo) (p : RegNo) : EncodeLength.Statement (.cmpRwInd n p) := rfl
theorem EncodeLength.cmpRwIndInc (n : RegNo) (p : RegNo) : EncodeLength.Statement (.cmpRwIndInc n p) := rfl
theorem EncodeLength.cmpbRbData3 (n : RegNo) (d : BitVec 3) : EncodeLength.Statement (.cmpbRbData3 n d) := rfl
theorem EncodeLength.cmpbRbInd (n : RegNo) (p : RegNo) : EncodeLength.Statement (.cmpbRbInd n p) := rfl
theorem EncodeLength.cmpbRbIndInc (n : RegNo) (p : RegNo) : EncodeLength.Statement (.cmpbRbIndInc n p) := rfl
theorem EncodeLength.bmov (zz : Byte) (z : BitVec 4) (qq : Byte) (q : BitVec 4) : EncodeLength.Statement (.bmov zz z qq q) := rfl
theorem EncodeLength.div (n : RegNo) : EncodeLength.Statement (.div n) := rfl
theorem EncodeLength.shlRwRw (n : RegNo) (m : RegNo) : EncodeLength.Statement (.shlRwRw n m) := rfl
theorem EncodeLength.xorRwRw (n : RegNo) (m : RegNo) : EncodeLength.Statement (.xorRwRw n m) := rfl
theorem EncodeLength.xorbRbRb (n : RegNo) (m : RegNo) : EncodeLength.Statement (.xorbRbRb n m) := rfl
theorem EncodeLength.xorRegMem (r : Byte) (a : Word) : EncodeLength.Statement (.xorRegMem r a) := rfl
theorem EncodeLength.xorbRegMem (r : Byte) (a : Word) : EncodeLength.Statement (.xorbRegMem r a) := rfl
theorem EncodeLength.xorMemReg (a : Word) (r : Byte) : EncodeLength.Statement (.xorMemReg a r) := rfl
theorem EncodeLength.xorbMemReg (a : Word) (r : Byte) : EncodeLength.Statement (.xorbMemReg a r) := rfl
theorem EncodeLength.xorRegData16 (r : Byte) (d : Word) : EncodeLength.Statement (.xorRegData16 r d) := rfl
theorem EncodeLength.xorbRegData8 (r : Byte) (d : Byte) : EncodeLength.Statement (.xorbRegData8 r d) := rfl
theorem EncodeLength.xorRwData3 (n : RegNo) (d : BitVec 3) : EncodeLength.Statement (.xorRwData3 n d) := rfl
theorem EncodeLength.xorRwInd (n : RegNo) (p : RegNo) : EncodeLength.Statement (.xorRwInd n p) := rfl
theorem EncodeLength.xorRwIndInc (n : RegNo) (p : RegNo) : EncodeLength.Statement (.xorRwIndInc n p) := rfl
theorem EncodeLength.xorbRbData3 (n : RegNo) (d : BitVec 3) : EncodeLength.Statement (.xorbRbData3 n d) := rfl
theorem EncodeLength.xorbRbInd (n : RegNo) (p : RegNo) : EncodeLength.Statement (.xorbRbInd n p) := rfl
theorem EncodeLength.xorbRbIndInc (n : RegNo) (p : RegNo) : EncodeLength.Statement (.xorbRbIndInc n p) := rfl
theorem EncodeLength.bor (zz : Byte) (z : BitVec 4) (qq : Byte) (q : BitVec 4) : EncodeLength.Statement (.bor zz z qq q) := rfl
theorem EncodeLength.divu (n : RegNo) : EncodeLength.Statement (.divu n) := rfl
theorem EncodeLength.shlRwData4 (n : RegNo) (d : BitVec 4) : EncodeLength.Statement (.shlRwData4 n d) := rfl
theorem EncodeLength.andRwRw (n : RegNo) (m : RegNo) : EncodeLength.Statement (.andRwRw n m) := rfl
theorem EncodeLength.andbRbRb (n : RegNo) (m : RegNo) : EncodeLength.Statement (.andbRbRb n m) := rfl
theorem EncodeLength.andRegMem (r : Byte) (a : Word) : EncodeLength.Statement (.andRegMem r a) := rfl
theorem EncodeLength.andbRegMem (r : Byte) (a : Word) : EncodeLength.Statement (.andbRegMem r a) := rfl
theorem EncodeLength.andMemReg (a : Word) (r : Byte) : EncodeLength.Statement (.andMemReg a r) := rfl
theorem EncodeLength.andbMemReg (a : Word) (r : Byte) : EncodeLength.Statement (.andbMemReg a r) := rfl
theorem EncodeLength.andRegData16 (r : Byte) (d : Word) : EncodeLength.Statement (.andRegData16 r d) := rfl
theorem EncodeLength.andbRegData8 (r : Byte) (d : Byte) : EncodeLength.Statement (.andbRegData8 r d) := rfl
theorem EncodeLength.andRwData3 (n : RegNo) (d : BitVec 3) : EncodeLength.Statement (.andRwData3 n d) := rfl
theorem EncodeLength.andRwInd (n : RegNo) (p : RegNo) : EncodeLength.Statement (.andRwInd n p) := rfl
theorem EncodeLength.andRwIndInc (n : RegNo) (p : RegNo) : EncodeLength.Statement (.andRwIndInc n p) := rfl
theorem EncodeLength.andbRbData3 (n : RegNo) (d : BitVec 3) : EncodeLength.Statement (.andbRbData3 n d) := rfl
theorem EncodeLength.andbRbInd (n : RegNo) (p : RegNo) : EncodeLength.Statement (.andbRbInd n p) := rfl
theorem EncodeLength.andbRbIndInc (n : RegNo) (p : RegNo) : EncodeLength.Statement (.andbRbIndInc n p) := rfl
theorem EncodeLength.band (zz : Byte) (z : BitVec 4) (qq : Byte) (q : BitVec 4) : EncodeLength.Statement (.band zz z qq q) := rfl
theorem EncodeLength.divl (n : RegNo) : EncodeLength.Statement (.divl n) := rfl
theorem EncodeLength.shrRwRw (n : RegNo) (m : RegNo) : EncodeLength.Statement (.shrRwRw n m) := rfl
theorem EncodeLength.orRwRw (n : RegNo) (m : RegNo) : EncodeLength.Statement (.orRwRw n m) := rfl
theorem EncodeLength.orbRbRb (n : RegNo) (m : RegNo) : EncodeLength.Statement (.orbRbRb n m) := rfl
theorem EncodeLength.orRegMem (r : Byte) (a : Word) : EncodeLength.Statement (.orRegMem r a) := rfl
theorem EncodeLength.orbRegMem (r : Byte) (a : Word) : EncodeLength.Statement (.orbRegMem r a) := rfl
theorem EncodeLength.orMemReg (a : Word) (r : Byte) : EncodeLength.Statement (.orMemReg a r) := rfl
theorem EncodeLength.orbMemReg (a : Word) (r : Byte) : EncodeLength.Statement (.orbMemReg a r) := rfl
theorem EncodeLength.orRegData16 (r : Byte) (d : Word) : EncodeLength.Statement (.orRegData16 r d) := rfl
theorem EncodeLength.orbRegData8 (r : Byte) (d : Byte) : EncodeLength.Statement (.orbRegData8 r d) := rfl
theorem EncodeLength.orRwData3 (n : RegNo) (d : BitVec 3) : EncodeLength.Statement (.orRwData3 n d) := rfl
theorem EncodeLength.orRwInd (n : RegNo) (p : RegNo) : EncodeLength.Statement (.orRwInd n p) := rfl
theorem EncodeLength.orRwIndInc (n : RegNo) (p : RegNo) : EncodeLength.Statement (.orRwIndInc n p) := rfl
theorem EncodeLength.orbRbData3 (n : RegNo) (d : BitVec 3) : EncodeLength.Statement (.orbRbData3 n d) := rfl
theorem EncodeLength.orbRbInd (n : RegNo) (p : RegNo) : EncodeLength.Statement (.orbRbInd n p) := rfl
theorem EncodeLength.orbRbIndInc (n : RegNo) (p : RegNo) : EncodeLength.Statement (.orbRbIndInc n p) := rfl
theorem EncodeLength.bxor (zz : Byte) (z : BitVec 4) (qq : Byte) (q : BitVec 4) : EncodeLength.Statement (.bxor zz z qq q) := rfl
theorem EncodeLength.divlu (n : RegNo) : EncodeLength.Statement (.divlu n) := rfl
theorem EncodeLength.shrRwData4 (n : RegNo) (d : BitVec 4) : EncodeLength.Statement (.shrRwData4 n d) := rfl
theorem EncodeLength.cmpi1RwData4 (n : RegNo) (d : BitVec 4) : EncodeLength.Statement (.cmpi1RwData4 n d) := rfl
theorem EncodeLength.neg (n : RegNo) : EncodeLength.Statement (.neg n) := rfl
theorem EncodeLength.cmpi1RwMem (n : RegNo) (a : Word) : EncodeLength.Statement (.cmpi1RwMem n a) := rfl
theorem EncodeLength.movIndMem (n : RegNo) (a : Word) : EncodeLength.Statement (.movIndMem n a) := rfl
theorem EncodeLength.cmpi1RwData16 (n : RegNo) (d : Word) : EncodeLength.Statement (.cmpi1RwData16 n d) := rfl
theorem EncodeLength.idle : EncodeLength.Statement (.idle) := rfl
theorem EncodeLength.movIndDecRw (m : RegNo) (n : RegNo) : EncodeLength.Statement (.movIndDecRw m n) := rfl
theorem EncodeLength.movbIndDecRb (m : RegNo) (n : RegNo) : EncodeLength.Statement (.movbIndDecRb m n) := rfl
theorem EncodeLength.jb (qq : Byte) (q : BitVec 4) (rel : Byte) : EncodeLength.Statement (.jb qq q rel) := rfl
theorem EncodeLength.cmpi2RwData4 (n : RegNo) (d : BitVec 4) : EncodeLength.Statement (.cmpi2RwData4 n d) := rfl
theorem EncodeLength.cpl (n : RegNo) : EncodeLength.Statement (.cpl n) := rfl
theorem EncodeLength.cmpi2RwMem (n : RegNo) (a : Word) : EncodeLength.Statement (.cmpi2RwMem n a) := rfl
theorem EncodeLength.movMemInd (a : Word) (n : RegNo) : EncodeLength.Statement (.movMemInd a n) := rfl
theorem EncodeLength.cmpi2RwData16 (n : RegNo) (d : Word) : EncodeLength.Statement (.cmpi2RwData16 n d) := rfl
theorem EncodeLength.pwrdn : EncodeLength.Statement (.pwrdn) := rfl
theorem EncodeLength.movRwIndInc (n : RegNo) (m : RegNo) : EncodeLength.Statement (.movRwIndInc n m) := rfl
theorem EncodeLength.movbRbIndInc (n : RegNo) (m : RegNo) : EncodeLength.Statement (.movbRbIndInc n m) := rfl
theorem EncodeLength.jnb (qq : Byte) (q : BitVec 4) (rel : Byte) : EncodeLength.Statement (.jnb qq q rel) := rfl
theorem EncodeLength.trap (t : BitVec 7) : EncodeLength.Statement (.trap t) := rfl
theorem EncodeLength.jmpi (cc : Cond) (n : RegNo) : EncodeLength.Statement (.jmpi cc n) := rfl
theorem EncodeLength.cmpd1RwData4 (n : RegNo) (d : BitVec 4) : EncodeLength.Statement (.cmpd1RwData4 n d) := rfl
theorem EncodeLength.negb (n : RegNo) : EncodeLength.Statement (.negb n) := rfl
theorem EncodeLength.cmpd1RwMem (n : RegNo) (a : Word) : EncodeLength.Statement (.cmpd1RwMem n a) := rfl
theorem EncodeLength.movbIndMem (n : RegNo) (a : Word) : EncodeLength.Statement (.movbIndMem n a) := rfl
theorem EncodeLength.diswdt : EncodeLength.Statement (.diswdt) := rfl
theorem EncodeLength.cmpd1RwData16 (n : RegNo) (d : Word) : EncodeLength.Statement (.cmpd1RwData16 n d) := rfl
theorem EncodeLength.srvwdt : EncodeLength.Statement (.srvwdt) := rfl
theorem EncodeLength.movRwInd (n : RegNo) (m : RegNo) : EncodeLength.Statement (.movRwInd n m) := rfl
theorem EncodeLength.movbRbInd (n : RegNo) (m : RegNo) : EncodeLength.Statement (.movbRbInd n m) := rfl
theorem EncodeLength.jbc (qq : Byte) (q : BitVec 4) (rel : Byte) : EncodeLength.Statement (.jbc qq q rel) := rfl
theorem EncodeLength.calli (cc : Cond) (n : RegNo) : EncodeLength.Statement (.calli cc n) := rfl
theorem EncodeLength.ashrRwRw (n : RegNo) (m : RegNo) : EncodeLength.Statement (.ashrRwRw n m) := rfl
theorem EncodeLength.cmpd2RwData4 (n : RegNo) (d : BitVec 4) : EncodeLength.Statement (.cmpd2RwData4 n d) := rfl
theorem EncodeLength.cplb (n : RegNo) : EncodeLength.Statement (.cplb n) := rfl
theorem EncodeLength.cmpd2RwMem (n : RegNo) (a : Word) : EncodeLength.Statement (.cmpd2RwMem n a) := rfl
theorem EncodeLength.movbMemInd (a : Word) (n : RegNo) : EncodeLength.Statement (.movbMemInd a n) := rfl
theorem EncodeLength.einit : EncodeLength.Statement (.einit) := rfl
theorem EncodeLength.cmpd2RwData16 (n : RegNo) (d : Word) : EncodeLength.Statement (.cmpd2RwData16 n d) := rfl
theorem EncodeLength.srst : EncodeLength.Statement (.srst) := rfl
theorem EncodeLength.movIndRw (m : RegNo) (n : RegNo) : EncodeLength.Statement (.movIndRw m n) := rfl
theorem EncodeLength.movbIndRb (m : RegNo) (n : RegNo) : EncodeLength.Statement (.movbIndRb m n) := rfl
theorem EncodeLength.jnbs (qq : Byte) (q : BitVec 4) (rel : Byte) : EncodeLength.Statement (.jnbs qq q rel) := rfl
theorem EncodeLength.callr (rel : Byte) : EncodeLength.Statement (.callr rel) := rfl
theorem EncodeLength.ashrRwData4 (n : RegNo) (d : BitVec 4) : EncodeLength.Statement (.ashrRwData4 n d) := rfl
theorem EncodeLength.movbzRwRb (n : RegNo) (m : RegNo) : EncodeLength.Statement (.movbzRwRb n m) := rfl
theorem EncodeLength.movbzRegMem (r : Byte) (a : Word) : EncodeLength.Statement (.movbzRegMem r a) := rfl
theorem EncodeLength.movDispRw (m : RegNo) (d : Word) (n : RegNo) : EncodeLength.Statement (.movDispRw m d n) := rfl
theorem EncodeLength.movbzMemReg (a : Word) (r : Byte) : EncodeLength.Statement (.movbzMemReg a r) := rfl
theorem EncodeLength.scxtRegData16 (r : Byte) (d : Word) : EncodeLength.Statement (.scxtRegData16 r d) := rfl
theorem EncodeLength.movIndInd (n : RegNo) (m : RegNo) : EncodeLength.Statement (.movIndInd n m) := rfl
theorem EncodeLength.movbIndInd (n : RegNo) (m : RegNo) : EncodeLength.Statement (.movbIndInd n m) := rfl
theorem EncodeLength.calla (cc : Cond) (a : Word) : EncodeLength.Statement (.calla cc a) := rfl
theorem EncodeLength.ret : EncodeLength.Statement (.ret) := rfl
theorem EncodeLength.nop : EncodeLength.Statement (.nop) := rfl
theorem EncodeLength.movbsRwRb (n : RegNo) (m : RegNo) : EncodeLength.Statement (.movbsRwRb n m) := rfl
theorem EncodeLength.atomic (count : Nat) : EncodeLength.Statement (.atomic count) := rfl
theorem EncodeLength.extr (count : Nat) : EncodeLength.Statement (.extr count) := rfl
theorem EncodeLength.movbsRegMem (r : Byte) (a : Word) : EncodeLength.Statement (.movbsRegMem r a) := rfl
theorem EncodeLength.movRwDisp (n : RegNo) (m : RegNo) (d : Word) : EncodeLength.Statement (.movRwDisp n m d) := rfl
theorem EncodeLength.movbsMemReg (a : Word) (r : Byte) : EncodeLength.Statement (.movbsMemReg a r) := rfl
theorem EncodeLength.scxtRegMem (r : Byte) (a : Word) : EncodeLength.Statement (.scxtRegMem r a) := rfl
theorem EncodeLength.extsSeg (seg : Byte) (count : Nat) : EncodeLength.Statement (.extsSeg seg count) := rfl
theorem EncodeLength.extpPag (page : BitVec 10) (count : Nat) : EncodeLength.Statement (.extpPag page count) := rfl
theorem EncodeLength.extsrSeg (seg : Byte) (count : Nat) : EncodeLength.Statement (.extsrSeg seg count) := rfl
theorem EncodeLength.extprPag (page : BitVec 10) (count : Nat) : EncodeLength.Statement (.extprPag page count) := rfl
theorem EncodeLength.movIndIncInd (n : RegNo) (m : RegNo) : EncodeLength.Statement (.movIndIncInd n m) := rfl
theorem EncodeLength.movbIndIncInd (n : RegNo) (m : RegNo) : EncodeLength.Statement (.movbIndIncInd n m) := rfl
theorem EncodeLength.calls (seg : Byte) (a : Word) : EncodeLength.Statement (.calls seg a) := rfl
theorem EncodeLength.rets : EncodeLength.Statement (.rets) := rfl
theorem EncodeLength.extsRw (m : RegNo) (count : Nat) : EncodeLength.Statement (.extsRw m count) := rfl
theorem EncodeLength.extpRw (m : RegNo) (count : Nat) : EncodeLength.Statement (.extpRw m count) := rfl
theorem EncodeLength.extsrRw (m : RegNo) (count : Nat) : EncodeLength.Statement (.extsrRw m count) := rfl
theorem EncodeLength.extprRw (m : RegNo) (count : Nat) : EncodeLength.Statement (.extprRw m count) := rfl
theorem EncodeLength.movRwData4 (n : RegNo) (d : BitVec 4) : EncodeLength.Statement (.movRwData4 n d) := rfl
theorem EncodeLength.movbRbData4 (n : RegNo) (d : BitVec 4) : EncodeLength.Statement (.movbRbData4 n d) := rfl
theorem EncodeLength.pcall (r : Byte) (a : Word) : EncodeLength.Statement (.pcall r a) := rfl
theorem EncodeLength.movbDispRb (m : RegNo) (d : Word) (n : RegNo) : EncodeLength.Statement (.movbDispRb m d n) := rfl
theorem EncodeLength.movRegData16 (r : Byte) (d : Word) : EncodeLength.Statement (.movRegData16 r d) := rfl
theorem EncodeLength.movbRegData8 (r : Byte) (d : Byte) : EncodeLength.Statement (.movbRegData8 r d) := rfl
theorem EncodeLength.movIndIndInc (n : RegNo) (m : RegNo) : EncodeLength.Statement (.movIndIndInc n m) := rfl
theorem EncodeLength.movbIndIndInc (n : RegNo) (m : RegNo) : EncodeLength.Statement (.movbIndIndInc n m) := rfl
theorem EncodeLength.jmpa (cc : Cond) (a : Word) : EncodeLength.Statement (.jmpa cc a) := rfl
theorem EncodeLength.retp (r : Byte) : EncodeLength.Statement (.retp r) := rfl
theorem EncodeLength.push (r : Byte) : EncodeLength.Statement (.push r) := rfl
theorem EncodeLength.movRwRw (n : RegNo) (m : RegNo) : EncodeLength.Statement (.movRwRw n m) := rfl
theorem EncodeLength.movbRbRb (n : RegNo) (m : RegNo) : EncodeLength.Statement (.movbRbRb n m) := rfl
theorem EncodeLength.movRegMem (r : Byte) (a : Word) : EncodeLength.Statement (.movRegMem r a) := rfl
theorem EncodeLength.movbRegMem (r : Byte) (a : Word) : EncodeLength.Statement (.movbRegMem r a) := rfl
theorem EncodeLength.movbRbDisp (n : RegNo) (m : RegNo) (d : Word) : EncodeLength.Statement (.movbRbDisp n m d) := rfl
theorem EncodeLength.movMemReg (a : Word) (r : Byte) : EncodeLength.Statement (.movMemReg a r) := rfl
theorem EncodeLength.movbMemReg (a : Word) (r : Byte) : EncodeLength.Statement (.movbMemReg a r) := rfl
theorem EncodeLength.jmps (seg : Byte) (a : Word) : EncodeLength.Statement (.jmps seg a) := rfl
theorem EncodeLength.reti : EncodeLength.Statement (.reti) := rfl
theorem EncodeLength.pop (r : Byte) : EncodeLength.Statement (.pop r) := rfl

end Sys2Proof.Laws
end

