-- ==== Sys2Proof/Laws/Registers.lean ====
section
/-! SUPPORT. What data reads answer at the address of a CPU register (10_state R45). -/

namespace Sys2Proof.Laws

open Sys2Proof.Machine

theorem isOdd_addr (r : CpuReg) : isOdd r.addr = false := by cases r <;> decide

/-- A register lies at the odd byte after its address too. -/
theorem cpuRegAt_addr_odd (r : CpuReg) : cpuRegAt (r.addr + 1) = some r ∧ isOdd (r.addr + 1) = true := by
  cases r <;> exact ⟨by decide, by decide⟩

theorem peekByte_addr (s : State) (r : CpuReg) : peekByte s r.addr = lowByte (getReg s r) := by
  simp only [peekByte, cpuRegAt_addr, isOdd_addr, Bool.false_eq_true, if_false]

theorem peekByte_addr_odd (s : State) (r : CpuReg) : peekByte s (r.addr + 1) = highByte (getReg s r) := by
  simp only [peekByte, cpuRegAt_addr_odd, if_true]

theorem peekWord_addr (s : State) (r : CpuReg) : peekWord s r.addr = getReg s r := by
  simp only [peekWord, peekByte_addr, peekByte_addr_odd, wordOf_bytes]

/-- A data read of a register always takes place. -/
theorem readMem_addr (s : State) (r : CpuReg) : readMem .word r.addr s = .ok (getReg s r, touch r.addr s) := by
  rw [readMem_of (by simp [canRead, readStop, misaligned, cpuRegAt_addr, isOdd_addr])]
  simp only [peek_word, peekWord_addr]

end Sys2Proof.Laws
end

