-- ==== Sys2Proof/Laws/Shapes.lean ====
section
/-! SUPPORT. Each execution template once: what it answers when its accesses take place. -/

namespace Sys2Proof.Laws

open Sys2Proof.Machine

/-- The two-operand template (40_arithmetic R221). -/
theorem alu2_of {op : AluOp} {w : Width} {dst : Loc} {src : Source} {s : State} {at1 : Addr}
    (hat : at1 = operandAddr s.cp s w dst) (hd : direct dst = true) (hn : noPreDec src = true)
    (hb : s.cp ≤ 0xFFE0) (hp : sourcePointerPlain s src = true) (hw : canWrite s w at1 = true)
    (hr : sourceReady s.cp (touch at1 s) w src = true) :
    alu2 op w dst src s =
      .ok (flagsUnlessPsw at1 (op.eval (peek s w at1) (sourceValue s.cp (touch at1 s) w src) s.flags).2
        (pokeTo dst w at1 (op.eval (peek s w at1) (sourceValue s.cp (touch at1 s) w src) s.flags).1
          (afterSource s.cp (touch at1 s) w src))) := by
  subst hat
  rw [sourcePointerPlain_eq, ← sourcePointerAt_touch s.cp (operandAddr s.cp s w dst)] at hp
  have hw' := ((sameControl_touch _ s).trans (sameControl_afterSource (w := w) hp)).canWrite
  have hwrite := fun v => writeTo_of (l := dst) (v := v) ((congrFun (congrFun hw' w) _).trans hw)
  simp only [alu2, locate_direct hd hb, ok_bind, readMem_of (canRead_of_canWrite hw), readSource_of hb hp hn hr]
  rw [hwrite]; rfl

/-- CMP and CMPB (43_compare_loop R296). -/
theorem compare2_of {w : Width} {op1 : Loc} {op2 : Source} {s : State} {at1 : Addr}
    (hat : at1 = operandAddr s.cp s w op1) (hd : direct op1 = true) (hn : noPreDec op2 = true)
    (hb : s.cp ≤ 0xFFE0) (hp : sourcePointerPlain s op2 = true) (hw : canRead s w at1 = true)
    (hr : sourceReady s.cp (touch at1 s) w op2 = true) :
    compare2 w op1 op2 s = .ok ((afterSource s.cp (touch at1 s) w op2).setFlags
      (compareFlags (peek s w at1) (sourceValue s.cp (touch at1 s) w op2))) := by
  subst hat
  rw [sourcePointerPlain_eq, ← sourcePointerAt_touch s.cp (operandAddr s.cp s w op1)] at hp
  have hset : settle s.cp w op1 (touch (operandAddr s.cp s w op1) s) = .ok (touch (operandAddr s.cp s w op1) s) := by
    rw [settle_of (pointerAt_direct hd), settled_direct hd]
  simp only [compare2, readLoc, locate_direct hd hb, ok_bind, readMem_of hw, hset, pure_bind_exec,
    readSource_of hb hp hn hr]
  rfl

/-- The compares with a step (43_compare_loop R292 to R296). -/
theorem compareStep_of {step : Word} {n : RegNo} {op2 : Source} {s : State} {at1 : Addr}
    (hat : at1 = gprAddr s.cp .word n) (hn : noPreDec op2 = true)
    (hb : s.cp ≤ 0xFFE0) (hp : sourcePointerPlain s op2 = true) (hw : canWrite s .word at1 = true)
    (hr : sourceReady s.cp (touch at1 s) .word op2 = true) :
    compareStep step n op2 s =
      .ok (flagsUnlessPsw at1 (compareFlags (peekWord s at1) (sourceValue s.cp (touch at1 s) .word op2 : Word))
        (pokeWord at1 (peekWord s at1 + step) (afterSource s.cp (touch at1 s) .word op2))) := by
  subst hat
  rw [sourcePointerPlain_eq, ← sourcePointerAt_touch s.cp (gprAddr s.cp .word n)] at hp
  have hw' := ((sameControl_touch _ s).trans (sameControl_afterSource (w := .word) hp)).canWrite
  have hwrite := fun v => writeMem_of (v := v) ((congrFun (congrFun hw' .word) _).trans hw)
  simp only [compareStep, locate_direct (l := .gpr n) rfl hb, ok_bind, operandAddr, readMem_of (canRead_of_canWrite hw),
    readSource_of hb hp hn hr]
  rw [hwrite]; rfl

/-- NEG, CPL and their byte forms (40_arithmetic R216 to R219). -/
theorem unary_of {w : Width} {f : BitVec w.bits → BitVec w.bits × CondFlags} {n : RegNo} {s : State} {at1 : Addr}
    (hat : at1 = gprAddr s.cp w n) (hb : s.cp ≤ 0xFFE0) (hw : canWrite s w at1 = true) :
    unary w f n s = .ok (flagsUnlessPsw at1 (f (peek s w at1)).2 (pokeTo (.gpr n) w at1 (f (peek s w at1)).1 (touch at1 s))) := by
  subst hat
  simp only [unary, locate_direct (l := .gpr n) rfl hb, ok_bind, operandAddr, readMem_of (canRead_of_canWrite hw)]
  rw [writeTo_of (by simpa using hw)]; rfl

/-- Shifts and rotates (44_shift_rotate R315). -/
theorem shift_of {op : ShiftOp} {n : RegNo} {src : Source} {s : State} {at1 : Addr}
    (hat : at1 = gprAddr s.cp .word n) (hn : noPreDec src = true) (hb : s.cp ≤ 0xFFE0)
    (hp : sourcePointerPlain s src = true) (hr : sourceReady s.cp s .word src = true)
    (hw : canWrite s .word at1 = true) :
    shift op n src s =
      .ok (flagsUnlessPsw at1
        (op.flags (peekWord (afterSource s.cp s .word src) at1) ((sourceValue s.cp s .word src : Word).toNat % 16))
        (pokeWord at1
          (op.value (peekWord (afterSource s.cp s .word src) at1) ((sourceValue s.cp s .word src : Word).toNat % 16))
          (touch at1 (afterSource s.cp s .word src)))) := by
  subst hat
  rw [sourcePointerPlain_eq] at hp
  have hw' : canWrite (afterSource s.cp s .word src) .word (gprAddr s.cp .word n) = true := by
    rw [(sameControl_afterSource hp).canWrite]; exact hw
  simp only [shift, readSource_of hb hp hn hr, ok_bind, locate_direct (l := .gpr n) rfl hb, operandAddr,
    readMem_of (canRead_of_canWrite hw')]
  rw [writeMem_of (by simpa using hw')]; rfl

/-- MOV, MOVB, MOVBS and MOVBZ (45_data_movement R334). -/
theorem move_of {wsrc wdst : Width} {ext : BitVec wsrc.bits → BitVec wdst.bits}
    {flags : BitVec wsrc.bits → CondFlags → CondFlags} {dst : Loc} {src : Source} {s s1 : State} {at1 : Addr}
    (hs1 : s1 = prepared s.cp wdst dst (afterSource s.cp s wsrc src)) (hat : at1 = operandAddr s.cp s1 wdst dst)
    (hn : noPreDec src = true) (hb : s.cp ≤ 0xFFE0)
    (hp : sourcePointerPlain s src = true) (hd : pointerPlain s dst = true)
    (hr : sourceReady s.cp s wsrc src = true) (hw : canWrite s wdst at1 = true) :
    move wsrc wdst ext flags dst src s =
      .ok (flagsUnlessPsw at1
        (flags (sourceValue s.cp s wsrc src)
          (settled s.cp wdst dst (pokeTo dst wdst at1 (ext (sourceValue s.cp s wsrc src)) s1)).flags)
        (settled s.cp wdst dst (pokeTo dst wdst at1 (ext (sourceValue s.cp s wsrc src)) s1))) := by
  subst hs1 hat
  rw [sourcePointerPlain_eq] at hp
  rw [pointerPlain_eq] at hd
  have c1 := sameControl_afterSource (w := wsrc) hp
  have hd1 := (c1.pointerAt s.cp dst).trans hd
  have c2 := c1.trans (sameControl_prepared (w := wdst) hd1)
  have hw2 := (congrFun (congrFun c2.canWrite wdst) _).trans hw
  have c3 := fun v => c2.trans (sameControl_pokeTo (l := dst) (w := wdst) v _ (ne_csp_of_canWrite hw2))
  have hset := fun v => settle_of (w := wdst) (((c3 v).pointerAt s.cp dst).trans hd)
  simp only [move, readSource_of hb hp hn hr, ok_bind, writeLoc, locate_of hb hd1, writeTo_of hw2, hset]
  rfl

/-- The operands of MUL and MULU (40_arithmetic R223). -/
theorem readProduct_of {f : Word → Word → BitVec 32 × Bool} {n m : RegNo} {s : State} {an am : Addr}
    (han : an = gprAddr s.cp .word n) (ham : am = gprAddr s.cp .word m) (hb : s.cp ≤ 0xFFE0)
    (hn : canRead s .word an = true) (hm : canRead s .word am = true) :
    readProduct f n m s = .ok (f (peekWord s an) (peekWord (touch an s) am), touch am (touch an s)) := by
  subst han ham
  have h2 : readGpr .word m (touch (gprAddr s.cp .word n) s) =
      .ok (peekWord (touch (gprAddr s.cp .word n) s) (gprAddr s.cp .word m),
        touch (gprAddr s.cp .word m) (touch (gprAddr s.cp .word n) s)) := by
    rw [readGpr_of (by simpa using hb) (by simpa using hm)]; simp
  simp only [readProduct, readGpr_of hb hn, ok_bind, h2]
  rfl

/-- MUL (40_arithmetic R210). -/
theorem multiply_of {f : Word → Word → BitVec 32 × Bool} {n m : RegNo} {s : State} {an am : Addr}
    (han : an = gprAddr s.cp .word n) (ham : am = gprAddr s.cp .word m) (hb : s.cp ≤ 0xFFE0)
    (hn : canRead s .word an = true) (hm : canRead s .word am = true) :
    multiply f n m s = .ok (finishProduct (f (peekWord s an) (peekWord (touch an s) am))
      (setMdriu (touch am (touch an s)))) := by
  simp only [multiply, readProduct_of han ham hb hn hm, ok_bind]
  rfl

/-- MULU (40_arithmetic R211). -/
theorem multiplyMarked_of {f : Word → Word → BitVec 32 × Bool} {n m : RegNo} {s s0 : State} {an am : Addr}
    (hs : s0 = setMdriu s) (han : an = gprAddr s.cp .word n) (ham : am = gprAddr s.cp .word m) (hb : s.cp ≤ 0xFFE0)
    (hn : canRead s .word an = true) (hm : canRead s .word am = true) :
    multiplyMarked f n m s = .ok (finishProduct (f (peekWord s0 an) (peekWord (touch an s0) am))
      (setMdriu (touch am (touch an s0)))) := by
  subst hs
  have hr : canRead (setMdriu s) = canRead s := by funext w b; exact canRead_congr rfl w b
  exact multiply_of (s := setMdriu s) han ham hb (by rw [hr]; exact hn) (by rw [hr]; exact hm)

/-- The divisions (40_arithmetic R224). -/
theorem divide_of {f : Word → Word → Word → Quotient} {n : RegNo} {s : State} {an : Addr}
    (han : an = gprAddr s.cp .word n) (hb : s.cp ≤ 0xFFE0) (hn : canRead s .word an = true) :
    divide f n s = .ok (finishDivision (f s.mdh s.mdl (peekWord s an)) (setMdriu (touch an s))) := by
  subst han
  simp only [divide, readGpr_of hb hn, ok_bind, touch_mdh, touch_mdl]
  rfl

/-- PRIOR (41_logical_prior R246). -/
theorem prioritize_of {n m : RegNo} {s : State} {an am : Addr}
    (han : an = gprAddr s.cp .word n) (ham : am = gprAddr s.cp .word m) (hb : s.cp ≤ 0xFFE0)
    (hm : canRead s .word am = true) (hw : canWrite s .word an = true) :
    prioritize n m s = .ok (flagsUnlessPsw an (priorFlags (peekWord s am))
      (pokeWord an (priorValue (peekWord s am)) (touch am s))) := by
  subst han ham
  have hl : locate (touch (gprAddr s.cp .word m) s).cp .word (.gpr n) (touch (gprAddr s.cp .word m) s) =
      .ok (gprAddr s.cp .word n, touch (gprAddr s.cp .word m) s) := by
    rw [locate_direct (l := .gpr n) rfl (by simpa using hb)]; simp [operandAddr]
  simp only [touch_cp] at hl
  simp only [prioritize, readGpr_of hb hm, ok_bind, hl]
  rw [writeMem_of (by simpa using hw)]; rfl

/-! ## Bits -/

theorem readBitWord_of {qq : Byte} {s : State} (hq : shortStop s.cp qq = none)
    (hr : canRead s .word (bitoffAddr s qq) = true) :
    readBitWord qq s = .ok (peekWord s (bitoffAddr s qq), touch (bitoffAddr s qq) s) := by
  simp [readBitWord, hq, readMem_of hr]

theorem readBit_of {qq : Byte} {q : BitVec 4} {s : State} (hq : shortStop s.cp qq = none)
    (hr : canRead s .word (bitoffAddr s qq) = true) :
    readBit qq q s = .ok ((peekWord s (bitoffAddr s qq)).getLsbD q.toNat, touch (bitoffAddr s qq) s) := by
  simp [readBit, readBitWord_of hq hr, pure, Except.pure]

/-- A bit write reads the word again and stores it with one bit replaced. -/
theorem writeBit_of {qq : Byte} {q : BitVec 4} {b : Bool} {s : State} (hq : shortStop s.cp qq = none)
    (hw : canWrite s .word (bitoffAddr s qq) = true) :
    writeBit qq q b s = .ok (pokeWord (bitoffAddr s qq) (setBit (peekWord s (bitoffAddr s qq)) q b)
      (touch (bitoffAddr s qq) s)) := by
  simp only [writeBit, readBitWord_of hq (canRead_of_canWrite hw), ok_bind, bitoffAddr_touch]
  rw [writeMem_of (by simpa using hw)]; rfl

theorem bitAssign_of {b : Bool} {qq : Byte} {q : BitVec 4} {s : State} {at1 : Addr} (hat : at1 = bitoffAddr s qq)
    (hq : shortStop s.cp qq = none) (hw : canWrite s .word at1 = true) :
    bitAssign b qq q s = .ok (flagsUnlessPsw at1 (examineFlags ((peekWord s at1).getLsbD q.toNat))
      (pokeWord at1 (setBit (peekWord s at1) q b) (touch at1 s))) := by
  subst hat
  have hr := canRead_of_canWrite hw
  have h2 := writeBit_of (q := q) (b := b) (s := touch (bitoffAddr s qq) s) (qq := qq) (by simpa using hq)
    (by simpa using hw)
  simp only [bitoffAddr_touch, peekWord_touch_self _ _ (even_of_canWrite hw), touch_touch] at h2
  simp only [bitAssign, readBit_of hq hr, ok_bind, h2]
  rfl

theorem bit2_of {op : BitOp} {zz : Byte} {z : BitVec 4} {qq : Byte} {q : BitVec 4} {s s1 s2 : State} {at1 at2 : Addr}
    (hat : at1 = bitoffAddr s zz) (hat2 : at2 = bitoffAddr s qq) (hs1 : s1 = touch at1 s) (hs2 : s2 = touch at2 s1)
    (hz : shortStop s.cp zz = none) (hq : shortStop s.cp qq = none) (hw : canWrite s .word at1 = true)
    (hr : canRead s .word at2 = true) :
    bit2 op zz z qq q s =
      .ok (flagsUnlessPsw at1
        (op.flags ((peekWord s at1).getLsbD z.toNat) ((peekWord s1 at2).getLsbD q.toNat))
        (pokeWord at1
          (setBit (peekWord s2 at1) z (op.value ((peekWord s at1).getLsbD z.toNat) ((peekWord s1 at2).getLsbD q.toNat)))
          s2)) := by
  subst hs2 hs1 hat hat2
  have h1 := readBit_of (q := q) (s := touch (bitoffAddr s zz) s) (qq := qq) (by simpa using hq) (by simpa using hr)
  have h2 := fun b => writeBit_of (q := z) (b := b) (s := touch (bitoffAddr s qq) (touch (bitoffAddr s zz) s)) (qq := zz)
    (by simpa using hz) (by simpa using hw)
  have h3 : touch (bitoffAddr s zz) (touch (bitoffAddr s qq) (touch (bitoffAddr s zz) s)) =
      touch (bitoffAddr s qq) (touch (bitoffAddr s zz) s) := by
    by_cases h : cpuRegAt (bitoffAddr s zz) = some .mdl
    · by_cases h' : cpuRegAt (bitoffAddr s qq) = some .mdl
      · simp [touch, h, h', BitVec.and_assoc]
      · rw [touch_of_plain (a := bitoffAddr s qq) h', touch_touch]
    · rw [touch_of_plain h]
  simp only [bitoffAddr_touch, h3] at h1 h2
  simp only [bit2, readBit_of hz (canRead_of_canWrite hw), ok_bind, h1, h2]
  rfl

theorem bitCompare_of {zz : Byte} {z : BitVec 4} {qq : Byte} {q : BitVec 4} {s s1 : State} {at1 at2 : Addr}
    (hat : at1 = bitoffAddr s zz) (hat2 : at2 = bitoffAddr s qq) (hs1 : s1 = touch at1 s)
    (hz : shortStop s.cp zz = none) (hq : shortStop s.cp qq = none) (hr1 : canRead s .word at1 = true)
    (hr : canRead s .word at2 = true) :
    bitCompare zz z qq q s =
      .ok ((touch at2 s1).setFlags (pairFlags ((peekWord s at1).getLsbD z.toNat) ((peekWord s1 at2).getLsbD q.toNat))) := by
  subst hs1 hat hat2
  have h1 := readBit_of (q := q) (s := touch (bitoffAddr s zz) s) (qq := qq) (by simpa using hq) (by simpa using hr)
  simp only [bitoffAddr_touch] at h1
  simp only [bitCompare, readBit_of hz hr1, ok_bind, h1]
  rfl

theorem bitField_of {qq : Byte} {mask data : Word} {s : State} {at1 : Addr} (hat : at1 = bitoffAddr s qq)
    (hq : shortStop s.cp qq = none) (hw : canWrite s .word at1 = true) :
    bitField qq mask data s = .ok (flagsUnlessPsw at1 (fieldFlags ((peekWord s at1 &&& ~~~mask) ||| data))
      (pokeWord at1 ((peekWord s at1 &&& ~~~mask) ||| data) (touch at1 s))) := by
  subst hat
  simp only [bitField, readBitWord_of hq (canRead_of_canWrite hw), ok_bind, bitoffAddr_touch]
  rw [writeMem_of (by simpa using hw)]; rfl

theorem relTarget_touch (a : Addr) (s : State) : relTarget (touch a s) = relTarget s := by
  funext r; simp [relTarget]

theorem jumpOnBit_of {b : Bool} {qq : Byte} {q : BitVec 4} {rel : Byte} {s : State} {at1 : Addr}
    (hat : at1 = bitoffAddr s qq) (hq : shortStop s.cp qq = none) (hr : canRead s .word at1 = true) :
    jumpOnBit b qq q rel s =
      .ok (if (peekWord s at1).getLsbD q.toNat == b then jumpNear (relTarget s rel) (touch at1 s) else touch at1 s) := by
  subst hat
  simp only [jumpOnBit, readBit_of hq hr, ok_bind]
  rfl

theorem jumpAndFlip_of {b : Bool} {qq : Byte} {q : BitVec 4} {rel : Byte} {s : State} {at1 : Addr}
    (hat : at1 = bitoffAddr s qq) (hq : shortStop s.cp qq = none) (hw : canWrite s .word at1 = true) :
    jumpAndFlip b qq q rel s =
      .ok (flagsUnlessPsw at1 (examineFlags ((peekWord s at1).getLsbD q.toNat))
        (if (peekWord s at1).getLsbD q.toNat == b then
          jumpNear (relTarget s rel) (pokeWord at1 (setBit (peekWord s at1) q (!b)) (touch at1 s))
        else touch at1 s)) := by
  subst hat
  have h2 := writeBit_of (q := q) (b := !b) (s := touch (bitoffAddr s qq) s) (qq := qq) (by simpa using hq)
    (by simpa using hw)
  simp only [bitoffAddr_touch, peekWord_touch_self _ _ (even_of_canWrite hw), touch_touch] at h2
  simp only [jumpAndFlip, readBit_of hq (canRead_of_canWrite hw), ok_bind, h2]
  split <;> rfl

end Sys2Proof.Laws
end

