-- ==== Sys2Proof/Laws/Stack.lean ====
section
/-! SUPPORT. Pushes and pops in ordinary memory: where the next pushes go, what they leave there, and the entry of a
trap or interrupt routine as the state it answers. -/

namespace Sys2Proof.Laws

open Sys2Proof.Machine

/-! ## The values SP can hold -/

theorem spStored_append (x : Word) : CpuReg.sp.stored x = (0xF#4 ++ x.extractLsb' 1 11 ++ 0#1 : BitVec 16) := by
  refine BitVec.eq_of_getLsbD_eq fun i hi => ?_
  rw [BitVec.getLsbD_append, BitVec.getLsbD_append]
  interval_cases i <;> simp [CpuReg.stored]

/-- SP holds an even value from F000H on. -/
theorem spStored_toNat (x : Word) : (CpuReg.sp.stored x).toNat = 0xF000 + x.toNat % 4096 / 2 * 2 := by
  rw [spStored_append]
  simp only [BitVec.toNat_append, BitVec.extractLsb'_toNat, BitVec.toNat_ofNat, Nat.shiftRight_eq_div_pow]
  rw [← Nat.shiftLeft_add_eq_or_of_lt (b := x.toNat / 2 ^ 1 % 2 ^ 11) (Nat.mod_lt _ (by decide)),
    ← Nat.shiftLeft_add_eq_or_of_lt (b := 0 % 2 ^ 1) (by decide)]
  simp only [Nat.shiftLeft_eq]
  omega

theorem toNat_sub_two (x : Word) : (x - 2).toNat = (x.toNat + 65534) % 65536 := by
  rw [BitVec.toNat_sub]; simp; omega

theorem spStored_idem (x : Word) : CpuReg.sp.stored (CpuReg.sp.stored x) = CpuReg.sp.stored x := by
  apply BitVec.eq_of_toNat_eq
  rw [spStored_toNat, spStored_toNat]; omega

/-- A pop after a push brings SP back, from a value SP can hold. -/
theorem spStored_back {x : Word} (h : CpuReg.sp.stored x = x) :
    CpuReg.sp.stored (CpuReg.sp.stored (x - 2) + 2) = x := by
  have h1 := spStored_toNat x
  rw [h] at h1
  apply BitVec.eq_of_toNat_eq
  have := x.isLt
  rw [spStored_toNat, BitVec.toNat_add, spStored_toNat, toNat_sub_two]
  simp
  omega

theorem spAfter_toNat (s : State) (k : Nat) :
    (spAfter s (k + 1)).toNat = 0xF000 + (((spAfter s k).toNat + 65534) % 65536) % 4096 / 2 * 2 := by
  rw [spAfter, spStored_toNat, toNat_sub_two]

/-- A push moves SP one place on. -/
theorem spAfter_shift {s t : State} (h : t.sp = spAfter s 1) (k : Nat) : spAfter t k = spAfter s (k + 1) := by
  induction k with
  | zero => exact h
  | succ k ih => rw [spAfter, ih]; rfl

theorem slot_shift {s t : State} (h : t.sp = spAfter s 1) (k : Nat) : slot t k = slot s (k + 1) := by
  rw [slot, spAfter_shift h]; rfl

theorem slot_toNat (s : State) (k : Nat) : (slot s k).toNat = (spAfter s k).toNat := by
  rw [slot, BitVec.toNat_setWidth, Nat.mod_eq_of_lt]
  exact Nat.lt_trans (spAfter s k).isLt (by decide)

theorem slot_even (s : State) (k : Nat) : isOdd (slot s (k + 1)) = false := by
  rw [isOdd, BitVec.getLsbD, slot_toNat, spAfter_toNat, Nat.testBit_zero]
  simp

/-- Two of three pushes in a row share no byte. -/
theorem slot_apart (s : State) {j k : Nat} (hjk : j < k) (hk : k ≤ j + 2) :
    slot s (j + 1) ∉ accessBytes .word (slot s (k + 1)) ∧ slot s (j + 1) + 1 ∉ accessBytes .word (slot s (k + 1)) := by
  have h1 := spAfter_toNat s j
  have h2 := spAfter_toNat s (j + 1)
  have h3 := spAfter_toNat s (j + 1 + 1)
  have e : ∀ a b : Addr, a = b → a.toNat = b.toNat := fun _ _ h => h ▸ rfl
  have n : ∀ i, (slot s i + 1).toNat = ((spAfter s i).toNat + 1) % 2 ^ 24 := fun i => by
    rw [BitVec.toNat_add, slot_toNat]; rfl
  obtain rfl | rfl : k = j + 1 ∨ k = j + 1 + 1 := by omega
  all_goals
    simp only [accessBytes, List.mem_cons, List.not_mem_nil, or_false, not_or]
    refine ⟨⟨fun h => ?_, fun h => ?_⟩, fun h => ?_, fun h => ?_⟩ <;>
      (have := e _ _ h; simp only [n, slot_toNat] at this; omega)

/-! ## Pushes into ordinary memory -/

/-- The word that a memory holds at an address, where no register lies. -/
def memWord (mem : List Host.Cell) (a : Addr) : Word := wordOf (Memory.read mem a.toNat) (Memory.read mem (a + 1).toNat)

theorem peekWord_plain {s : State} {a : Addr} (h : plainWord s a = true) (t : State) : peekWord t a = memWord t.mem a := by
  obtain ⟨hr, hw⟩ := plainWord_iff.mp h
  have h1 : cpuRegAt (a + 1) = none := by rw [cpuRegAt_succ (even_of_canWrite hw)]; exact hr
  rw [peekWord, peekByte_of_none hr, peekByte_of_none h1, memWord]

/-- A push into ordinary memory: it takes place, moves SP, changes the word at the new top and nothing else. -/
theorem push_plain (v : Word) {s : State} (hm : Memory.wf s.mem = true) (h : plainWord s (slot s 1) = true) :
    ∃ m, push v s = .ok { s with sp := spAfter s 1, mem := m } ∧ Memory.wf m = true ∧ memWord m (slot s 1) = v ∧
      ∀ b : Addr, b ∉ accessBytes .word (slot s 1) → Memory.read m b.toNat = Memory.read s.mem b.toNat := by
  obtain ⟨hr, hw⟩ := plainWord_iff.mp h
  have hr' : cpuRegAt ((CpuReg.sp.stored (s.sp - 2)).setWidth 24) = none := hr
  refine ⟨Memory.write (Memory.write s.mem (slot s 1).toNat (lowByte v)) (slot s 1 + 1).toNat (highByte v), ?_,
    wf_write _ _ (wf_write _ _ hm), ?_, fun b hb => ?_⟩
  · rw [push_of (pushReady_iff.mpr hw), pushed]
    simp only [stackAddr_setSp, pokeWord, hr']
    rfl
  · rw [memWord, read_write_other _ _ _ _ (toNat_ne (succ_ne _)).symm, read_write_same _ _ hm,
      read_write_same _ _ (wf_write _ _ hm), wordOf_bytes]
  · simp only [accessBytes, List.mem_cons, List.not_mem_nil, or_false, not_or] at hb
    rw [read_write_other _ _ _ _ (toNat_ne hb.2), read_write_other _ _ _ _ (toNat_ne hb.1)]

theorem memWord_congr {m n : List Host.Cell} {a : Addr} {stored : List Addr}
    (h : ∀ b : Addr, b ∉ stored → Memory.read m b.toNat = Memory.read n b.toNat) (h1 : a ∉ stored) (h2 : a + 1 ∉ stored) :
    memWord m a = memWord n a := by rw [memWord, memWord, h _ h1, h _ h2]

theorem stackPlain_slot {s : State} {k j : Nat} (h : stackPlain s k = true) (hj : j < k) :
    plainWord s (slot s (j + 1)) = true := by
  simp only [stackPlain, List.all_eq_true, List.mem_range] at h
  exact h j hj

theorem plainWord_slot_shift {s : State} {m : List Host.Cell} (k : Nat) :
    plainWord { s with sp := spAfter s 1, mem := m } (slot { s with sp := spAfter s 1, mem := m } k) =
      plainWord s (slot s (k + 1)) := by
  rw [slot_shift (s := s) rfl]
  exact plainWord_congr rfl rfl rfl rfl _

/-- Two pushes into ordinary memory. -/
theorem push_push (v1 v2 : Word) {s : State} (hm : Memory.wf s.mem = true) (h : stackPlain s 2 = true) :
    ∃ m s1, push v1 s = .ok s1 ∧ s1 = { s with sp := s1.sp, mem := s1.mem } ∧
      push v2 s1 = .ok { s with sp := spAfter s 2, mem := m } ∧ Memory.wf m = true ∧
      memWord m (slot s 1) = v1 ∧ memWord m (slot s 2) = v2 ∧
      ∀ b : Addr, b ∉ slotBytes s 2 → Memory.read m b.toNat = Memory.read s.mem b.toNat := by
  obtain ⟨m1, e1, w1, r1, o1⟩ := push_plain v1 hm (stackPlain_slot h (j := 0) (by omega))
  obtain ⟨m2, e2, w2, r2, o2⟩ := push_plain (s := { s with sp := spAfter s 1, mem := m1 }) v2 w1
    (by rw [plainWord_slot_shift]; exact stackPlain_slot h (by omega))
  rw [slot_shift (s := s) rfl] at r2 o2
  rw [spAfter_shift (s := s) (t := { s with sp := spAfter s 1, mem := m1 }) rfl] at e2
  have ap := slot_apart s (j := 0) (k := 1) (by omega) (by omega)
  refine ⟨m2, _, e1, rfl, e2, w2, (memWord_congr o2 ap.1 ap.2).trans r1, r2, fun b hb => ?_⟩
  have : slotBytes s 2 = accessBytes .word (slot s 1) ++ accessBytes .word (slot s 2) := by
    simp [slotBytes, List.range_succ]
  rw [this, List.mem_append, not_or] at hb
  exact (o2 b hb.2).trans (o1 b hb.1)

/-- Three pushes into ordinary memory. -/
theorem push_push_push (v1 v2 v3 : Word) {s : State} (hm : Memory.wf s.mem = true) (h : stackPlain s 3 = true) :
    ∃ m s1 s2, push v1 s = .ok s1 ∧ s1 = { s with sp := s1.sp, mem := s1.mem } ∧ push v2 s1 = .ok s2 ∧
      s2 = { s with sp := s2.sp, mem := s2.mem } ∧
      push v3 s2 = .ok { s with sp := spAfter s 3, mem := m } ∧ Memory.wf m = true ∧
      memWord m (slot s 1) = v1 ∧ memWord m (slot s 2) = v2 ∧ memWord m (slot s 3) = v3 ∧
      ∀ b : Addr, b ∉ slotBytes s 3 → Memory.read m b.toNat = Memory.read s.mem b.toNat := by
  obtain ⟨m1, e1, w1, r1, o1⟩ := push_plain v1 hm (stackPlain_slot h (j := 0) (by omega))
  have h2 : stackPlain { s with sp := spAfter s 1, mem := m1 } 2 = true := by
    simp only [stackPlain, List.all_eq_true, List.mem_range]
    intro j hj
    rw [plainWord_slot_shift]
    exact stackPlain_slot h (by omega)
  obtain ⟨m2, s2, e2, q2, e3, w2, r2, r3, o2⟩ := push_push (s := { s with sp := spAfter s 1, mem := m1 }) v2 v3 w1 h2
  rw [slot_shift (s := s) rfl] at r2 r3
  rw [spAfter_shift (s := s) (t := { s with sp := spAfter s 1, mem := m1 }) rfl] at e3
  have hs : ∀ t : State, t.sp = spAfter s 1 →
      slotBytes t 2 = accessBytes .word (slot s 2) ++ accessBytes .word (slot s 3) := fun t ht => by
    simp [slotBytes, List.range_succ, slot_shift ht]
  have a2 := slot_apart s (j := 0) (k := 1) (by omega) (by omega)
  have a3 := slot_apart s (j := 0) (k := 2) (by omega) (by omega)
  rw [hs _ rfl] at o2
  refine ⟨m2, _, s2, e1, rfl, e2, q2, e3, w2, (memWord_congr o2 ?_ ?_).trans r1, r2, r3, fun b hb => ?_⟩
  · simp only [List.mem_append, not_or]; exact ⟨a2.1, a3.1⟩
  · simp only [List.mem_append, not_or]; exact ⟨a2.2, a3.2⟩
  · have : slotBytes s 3 =
        accessBytes .word (slot s 1) ++ (accessBytes .word (slot s 2) ++ accessBytes .word (slot s 3)) := by
      simp [slotBytes, List.range_succ]
    rw [this, List.mem_append, not_or] at hb
    exact (o2 b hb.2).trans (o1 b hb.1)

/-- A pop from a word of ordinary memory, in any state with the same memory map. -/
theorem pop_plain {s u : State} {k : Nat} (h : plainWord s (slot s (k + 1)) = true) (hm : u.memMap = s.memMap)
    (hs : u.sp = spAfter s (k + 1)) :
    pop u = .ok (memWord u.mem (slot s (k + 1)), { u with sp := CpuReg.sp.stored (spAfter s (k + 1) + 2) }) := by
  have ea : stackAddr u = slot s (k + 1) := by rw [stackAddr, hs, slot]
  have hr : canRead u .word (slot s (k + 1)) = true := by
    rw [canRead_congr hm]; exact canRead_of_canWrite (plainWord_iff.mp h).2
  rw [pop_of (by rw [popReady, ea]; exact hr), topWord, popped, ea, touch_plain h, peekWord_plain h, hs]
  rfl

/-! ## The entry of a trap or interrupt routine -/

/-- With segmentation enabled and a stack in ordinary memory, an entry answers this state. -/
theorem enter_segmented (n : BitVec 7) (ret : Word) (level : Option (BitVec 4)) {s : State} (hm : Memory.wf s.mem = true)
    (h : stackPlain s 3 = true) (hd : segmentationDisabled s = false) :
    ∃ m target, enter n ret level s = .ok { s with
        ip := 4 * n.setWidth 16
        csp := 0
        sp := spAfter s 3
        psw := match level with
          | some level => entryPsw s.psw level
          | none => s.psw
        mem := m
        branchTarget := target } ∧
      Memory.wf m = true ∧ memWord m (slot s 1) = s.psw ∧ memWord m (slot s 2) = s.csp ∧ memWord m (slot s 3) = ret ∧
      ∀ b : Addr, b ∉ slotBytes s 3 → Memory.read m b.toNat = Memory.read s.mem b.toNat := by
  obtain ⟨m, s1, s2, e1, q1, e2, q2, e3, w, r1, r2, r3, o⟩ := push_push_push s.psw s.csp ret hm h
  have hd1 : segmentationDisabled s1 = false := by rw [q1]; exact hd
  have hc1 : s1.csp = s.csp := by rw [q1]
  refine ⟨m, ?_⟩
  apply Exists.intro
  refine ⟨?_, w, r1, r2, r3, o⟩
  simp only [enter, e1, ok_bind, hd1, Bool.false_eq_true, if_false, hc1, e2, e3]
  cases level <;> rfl

/-- With segmentation disabled the entry pushes no CSP. -/
theorem enter_unsegmented (n : BitVec 7) (ret : Word) (level : Option (BitVec 4)) {s : State}
    (hm : Memory.wf s.mem = true) (h : stackPlain s 2 = true) (hd : segmentationDisabled s = true) :
    ∃ m target, enter n ret level s = .ok { s with
        ip := 4 * n.setWidth 16
        sp := spAfter s 2
        psw := match level with
          | some level => entryPsw s.psw level
          | none => s.psw
        mem := m
        branchTarget := target } ∧
      Memory.wf m = true ∧ memWord m (slot s 1) = s.psw ∧ memWord m (slot s 2) = ret ∧
      ∀ b : Addr, b ∉ slotBytes s 2 → Memory.read m b.toNat = Memory.read s.mem b.toNat := by
  obtain ⟨m, s1, e1, q1, e2, w, r1, r2, o⟩ := push_push s.psw ret hm h
  have hd1 : segmentationDisabled s1 = true := by rw [q1]; exact hd
  refine ⟨m, ?_⟩
  apply Exists.intro
  refine ⟨?_, w, r1, r2, o⟩
  simp only [enter, e1, ok_bind, hd1, if_true, pure_bind_exec, e2]
  cases level <;> rfl

end Sys2Proof.Laws
end

