-- ==== Sys2Proof/Laws/Templates.lean ====
section
/-! SUPPORT. What each execution template leaves unchanged, and that its only trap is the illegal word operand access. -/

namespace Sys2Proof.Laws

open Sys2Proof.Machine

theorem locate_gpr {bank : Word} {w : Width} {n : RegNo} {s : State} {r : Addr × State}
    (h : locate bank w (.gpr n) s = .ok r) : r = (gprAddr bank w n, s) := by
  simp only [locate] at h
  split at h
  · cases h
  · cases h; rfl

theorem locate_reg {bank : Word} {w : Width} {n : Byte} {s : State} {r : Addr × State}
    (h : locate bank w (.reg n) s = .ok r) : r = (regAddr bank s w n, s) := by
  simp only [locate] at h
  split at h
  · cases h
  · cases h; rfl

theorem framed_anyFlags {regs : List CpuReg} {stored : List Addr} (a : Addr) (f : CondFlags) (s : State)
    (h : CpuReg.psw ∈ regs) : framed regs stored s (flagsUnlessPsw a f s) :=
  (framed_flagsUnlessPsw _ _ _).mono (by simpa using h) (by simp)

/-! ## Two operands -/

theorem onlyIllopa_alu2 (op : AluOp) (w : Width) (dst : Loc) (src : Source) (s : State) :
    onlyIllopa (alu2 op w dst src s) :=
  onlyIllopa_bind (onlyIllopa_locate _ _ _ _) fun _ => onlyIllopa_bind (onlyIllopa_readMem _ _ _) fun _ =>
    onlyIllopa_bind (onlyIllopa_readSource _ _ _ _) fun _ => onlyIllopa_bind (onlyIllopa_writeTo _ _ _ _ _) fun _ =>
      onlyIllopa_pure _

theorem framed_alu2 {op : AluOp} {w : Width} {dst : Loc} {src : Source} {s t : State} (hd : pointerBytes s.cp dst = [])
    (h : alu2 op w dst src s = .ok t) {at1 : Addr} {s1 : State} (hl : locate s.cp w dst s = .ok (at1, s1)) :
    framed [.psw, .mdc] (accessBytes w at1 ++ sourcePointerBytes s.cp src) s t := by
  simp only [alu2, bind_ok] at h
  obtain ⟨x, hx, a, ha, b, hb, u, hu, h⟩ := h
  obtain rfl := pure_eq_ok.mp h
  rw [hl] at hx
  cases hx
  have f1 := framed_locate hl
  rw [hd] at f1
  refine framed.trans (f1.mono (by simp) (by simp)) ?_
  refine framed.trans ((framed_readMem ha).mono (by simp) (by simp)) ?_
  refine framed.trans ((framed_readSource hb).mono (by simp) (by simp)) ?_
  exact framed.trans ((framed_writeTo hu).mono (by simp) (by simp)) (framed_anyFlags _ _ _ (by simp))

theorem onlyIllopa_compare2 (w : Width) (op1 : Loc) (op2 : Source) (s : State) : onlyIllopa (compare2 w op1 op2 s) :=
  onlyIllopa_bind (onlyIllopa_readLoc _ _ _ _) fun _ => onlyIllopa_bind (onlyIllopa_readSource _ _ _ _) fun _ =>
    onlyIllopa_pure _

theorem framed_compare2 {w : Width} {op1 : Loc} {op2 : Source} {s t : State} (hd : pointerBytes s.cp op1 = [])
    (h : compare2 w op1 op2 s = .ok t) : framed [.psw, .mdc] (sourcePointerBytes s.cp op2) s t := by
  simp only [compare2, bind_ok] at h
  obtain ⟨a, ha, b, hb, h⟩ := h
  obtain rfl := pure_eq_ok.mp h
  have f1 := framed_readLoc ha
  rw [hd] at f1
  refine framed.trans (f1.mono (by simp) (by simp)) ?_
  refine framed.trans ((framed_readSource hb).mono (by simp) (by simp)) ?_
  exact (framed_setFlags _ _).mono (by simp) (by simp)

/-! ## One GPR -/

theorem onlyIllopa_unary (w : Width) (f : BitVec w.bits → BitVec w.bits × CondFlags) (n : RegNo) (s : State) :
    onlyIllopa (unary w f n s) :=
  onlyIllopa_bind (onlyIllopa_locate _ _ _ _) fun _ => onlyIllopa_bind (onlyIllopa_readMem _ _ _) fun _ =>
    onlyIllopa_bind (onlyIllopa_writeTo _ _ _ _ _) fun _ => onlyIllopa_pure _

theorem framed_unary {w : Width} {f : BitVec w.bits → BitVec w.bits × CondFlags} {n : RegNo} {s t : State}
    (h : unary w f n s = .ok t) : framed [.psw, .mdc] (accessBytes w (gprAddr s.cp w n)) s t := by
  simp only [unary, bind_ok] at h
  obtain ⟨x, hx, a, ha, u, hu, h⟩ := h
  obtain rfl := pure_eq_ok.mp h
  obtain rfl := locate_gpr hx
  exact (((framed_readMem ha).mono (by simp) (by simp)).trans ((framed_writeTo hu).mono (by simp) (by simp))).trans
    (framed_anyFlags _ _ _ (by simp))

theorem onlyIllopa_compareStep (k : Word) (n : RegNo) (op2 : Source) (s : State) :
    onlyIllopa (compareStep k n op2 s) :=
  onlyIllopa_bind (onlyIllopa_locate _ _ _ _) fun _ => onlyIllopa_bind (onlyIllopa_readMem .word _ _) fun _ =>
    onlyIllopa_bind (onlyIllopa_readSource _ .word _ _) fun _ => onlyIllopa_bind (onlyIllopa_writeMem .word _ _ _)
      fun _ => onlyIllopa_pure _

theorem framed_compareStep {k : Word} {n : RegNo} {op2 : Source} {s t : State} (hp : sourcePointerBytes s.cp op2 = [])
    (h : compareStep k n op2 s = .ok t) : framed [.psw, .mdc] (accessBytes .word (gprAddr s.cp .word n)) s t := by
  simp only [compareStep, bind_ok] at h
  obtain ⟨x, hx, a, ha, b, hb, u, hu, h⟩ := h
  obtain rfl := pure_eq_ok.mp h
  obtain rfl := locate_gpr hx
  have f0 := framed_readMem (w := .word) ha
  have f1 := framed_readSource (w := .word) hb
  have f2 := framed_writeMem (w := .word) hu
  rw [hp] at f1
  exact (((f0.mono (by simp) (by simp)).trans (f1.mono (by simp) (by simp))).trans (f2.mono (by simp) (by simp))).trans
    (framed_anyFlags _ _ _ (by simp))

theorem onlyIllopa_shift (op : ShiftOp) (n : RegNo) (src : Source) (s : State) : onlyIllopa (shift op n src s) :=
  onlyIllopa_bind (onlyIllopa_readSource _ .word _ _) fun _ => onlyIllopa_bind (onlyIllopa_locate _ _ _ _) fun _ =>
    onlyIllopa_bind (onlyIllopa_readMem .word _ _) fun _ => onlyIllopa_bind (onlyIllopa_writeMem .word _ _ _) fun _ =>
      onlyIllopa_pure _

theorem framed_shift {op : ShiftOp} {n : RegNo} {src : Source} {s t : State} (hp : sourcePointerBytes s.cp src = [])
    (h : shift op n src s = .ok t) : framed [.psw, .mdc] (accessBytes .word (gprAddr s.cp .word n)) s t := by
  simp only [shift, bind_ok] at h
  obtain ⟨b, hb, x, hx, a, ha, u, hu, h⟩ := h
  obtain rfl := pure_eq_ok.mp h
  obtain rfl := locate_gpr hx
  have f0 := framed_readMem (w := .word) ha
  have f1 := framed_readSource (w := .word) hb
  have f2 := framed_writeMem (w := .word) hu
  rw [hp] at f1
  exact (((f1.mono (by simp) (by simp)).trans (f0.mono (by simp) (by simp))).trans (f2.mono (by simp) (by simp))).trans
    (framed_anyFlags _ _ _ (by simp))

theorem onlyIllopa_prioritize (n m : RegNo) (s : State) : onlyIllopa (prioritize n m s) :=
  onlyIllopa_bind (onlyIllopa_readGpr _ _ _) fun _ => onlyIllopa_bind (onlyIllopa_locate _ _ _ _) fun _ =>
    onlyIllopa_bind (onlyIllopa_writeMem .word _ _ _) fun _ => onlyIllopa_pure _

theorem framed_prioritize {n m : RegNo} {s t : State} (h : prioritize n m s = .ok t) :
    framed [.psw, .mdc] (accessBytes .word (gprAddr s.cp .word n)) s t := by
  simp only [prioritize, bind_ok] at h
  obtain ⟨b, hb, x, hx, u, hu, h⟩ := h
  obtain rfl := pure_eq_ok.mp h
  obtain rfl := locate_gpr hx
  have f0 := framed_readGpr (w := .word) hb
  have f2 := framed_writeMem (w := .word) hu
  exact ((f0.mono (by simp) (by simp)).trans (f2.mono (by simp) (by simp))).trans (framed_anyFlags _ _ _ (by simp))

/-! ## Moves -/

theorem onlyIllopa_move (wsrc wdst : Width) (ext : BitVec wsrc.bits → BitVec wdst.bits)
    (flags : BitVec wsrc.bits → CondFlags → CondFlags) (dst : Loc) (src : Source) (s : State) :
    onlyIllopa (move wsrc wdst ext flags dst src s) :=
  onlyIllopa_bind (onlyIllopa_readSource _ _ _ _) fun _ => onlyIllopa_bind (onlyIllopa_writeLoc _ _ _ _ _) fun _ =>
    onlyIllopa_pure _

theorem framed_move {wsrc wdst : Width} {ext : BitVec wsrc.bits → BitVec wdst.bits}
    {flags : BitVec wsrc.bits → CondFlags → CondFlags} {dst : Loc} {src : Source} {s t : State}
    (h : move wsrc wdst ext flags dst src s = .ok t) {v : BitVec wsrc.bits} {at1 : Addr} {s1 s2 : State}
    (hs : readSource s.cp wsrc src s = .ok (v, s1)) (hl : locate s.cp wdst dst s1 = .ok (at1, s2)) :
    framed [.psw, .mdc] (accessBytes wdst at1 ++ pointerBytes s.cp dst ++ sourcePointerBytes s.cp src) s t := by
  simp only [move, bind_ok] at h
  obtain ⟨a, ha, b, hb, h⟩ := h
  obtain rfl := pure_eq_ok.mp h
  rw [hs] at ha; cases ha
  obtain ⟨f2, s3, hl'⟩ := framed_writeLoc hb
  rw [hl] at hl'; cases hl'
  refine framed.trans ((framed_readSource hs).mono (by simp) (by simp)) ?_
  exact framed.trans (f2.mono (by simp) (by simp)) (framed_anyFlags _ _ _ (by simp))

/-- A move whose flags keep V and C changes only E, Z and N of PSW, and not IP. -/
theorem onlyEzn_move {wsrc wdst : Width} {ext : BitVec wsrc.bits → BitVec wdst.bits}
    {flags : BitVec wsrc.bits → CondFlags → CondFlags} (hf : ∀ v f, (flags v f).v = f.v ∧ (flags v f).c = f.c)
    {dst : Loc} {src : Source} {s t : State} (h : move wsrc wdst ext flags dst src s = .ok t) {v : BitVec wsrc.bits}
    {at1 : Addr} {s1 s2 : State} (hs : readSource s.cp wsrc src s = .ok (v, s1))
    (hl : locate s.cp wdst dst s1 = .ok (at1, s2)) :
    onlyEzn (accessBytes wdst at1 ++ pointerBytes s.cp dst ++ sourcePointerBytes s.cp src) s t ∧ t.ip = s.ip := by
  simp only [move, bind_ok] at h
  obtain ⟨a, ha, b, hb, h⟩ := h
  obtain rfl := pure_eq_ok.mp h
  rw [hs] at ha; cases ha
  obtain ⟨f2, s3, hl'⟩ := framed_writeLoc hb
  rw [hl] at hl'; cases hl'
  have f1 := framed.trans ((framed_readSource hs).mono (fun _ h => h) (by simp))
    (f2.mono (fun _ h => h) (List.subset_append_left _ (sourcePointerBytes s.cp src)))
  exact ⟨onlyEzn_flagsUnlessPsw f1 (by simp) _ (hf _ _).1 (hf _ _).2,
    by rw [ip_flagsUnlessPsw, ip_writeLoc hb, ip_readSource hs]⟩

/-! ## Multiplication and division -/

theorem framed_md (s : State) (low high : Word) (free : Nat) :
    framed [.psw, .mdl, .mdh, .mdc] [] s { s with mdl := low, mdh := high, free := free } :=
  ⟨⟨fun b hb _ => by rw [peekByte_of_none hb, peekByte_of_none hb],
    fun r hr _ => by cases r <;> first | rfl | simp at hr, by simp⟩, fun _ => rfl, fun _ => rfl⟩

theorem framed_finishDivision (r : Quotient) (s : State) :
    framed [.psw, .mdl, .mdh, .mdc] [] s (finishDivision r s) := by
  cases r <;> exact (framed_md s _ _ _).trans ((framed_setFlags _ _).mono (by simp) (by simp))

theorem framed_finishProduct (r : BitVec 32 × Bool) (s : State) :
    framed [.psw, .mdl, .mdh, .mdc] [] s (finishProduct r s) :=
  (framed_md s _ _ s.free).trans ((framed_setFlags _ _).mono (by simp) (by simp))

theorem framed_readProduct {f : Word → Word → BitVec 32 × Bool} {n m : RegNo} {s : State}
    {r : (BitVec 32 × Bool) × State} (h : readProduct f n m s = .ok r) : framed [.mdc] [] s r.2 ∧ r.2.ip = s.ip := by
  simp only [readProduct, bind_ok] at h
  obtain ⟨a, ha, b, hb, h⟩ := h
  obtain rfl := pure_eq_ok.mp h
  exact ⟨(framed_readGpr (w := .word) ha).trans (framed_readGpr (w := .word) hb),
    (ip_readGpr (w := .word) hb).trans (ip_readGpr (w := .word) ha)⟩

theorem onlyIllopa_readProduct (f : Word → Word → BitVec 32 × Bool) (n m : RegNo) (s : State) :
    onlyIllopa (readProduct f n m s) :=
  onlyIllopa_bind (onlyIllopa_readGpr _ _ _) fun _ => onlyIllopa_bind (onlyIllopa_readGpr _ _ _) fun _ =>
    onlyIllopa_pure _

theorem onlyIllopa_multiply (f : Word → Word → BitVec 32 × Bool) (n m : RegNo) (s : State) :
    onlyIllopa (multiply f n m s) :=
  onlyIllopa_bind (onlyIllopa_readProduct _ _ _ _) fun _ => onlyIllopa_pure _

theorem onlyIllopa_multiplyMarked (f : Word → Word → BitVec 32 × Bool) (n m : RegNo) (s : State) :
    onlyIllopa (multiplyMarked f n m s) :=
  onlyIllopa_multiply f n m _

theorem onlyIllopa_divide (f : Word → Word → Word → Quotient) (n : RegNo) (s : State) : onlyIllopa (divide f n s) :=
  onlyIllopa_bind (onlyIllopa_readGpr _ _ _) fun _ => onlyIllopa_pure _

/-! ## Bits -/

theorem onlyIllopa_bitAssign (b : Bool) (qq : Byte) (q : BitVec 4) (s : State) : onlyIllopa (bitAssign b qq q s) :=
  onlyIllopa_bind (onlyIllopa_readBit _ _ _) fun _ => onlyIllopa_bind (onlyIllopa_writeBit _ _ _ _) fun _ =>
    onlyIllopa_pure _

theorem onlyIllopa_bit2 (op : BitOp) (zz : Byte) (z : BitVec 4) (qq : Byte) (q : BitVec 4) (s : State) :
    onlyIllopa (bit2 op zz z qq q s) :=
  onlyIllopa_bind (onlyIllopa_readBit _ _ _) fun _ => onlyIllopa_bind (onlyIllopa_readBit _ _ _) fun _ =>
    onlyIllopa_bind (onlyIllopa_writeBit _ _ _ _) fun _ => onlyIllopa_pure _

theorem onlyIllopa_bitCompare (zz : Byte) (z : BitVec 4) (qq : Byte) (q : BitVec 4) (s : State) :
    onlyIllopa (bitCompare zz z qq q s) :=
  onlyIllopa_bind (onlyIllopa_readBit _ _ _) fun _ => onlyIllopa_bind (onlyIllopa_readBit _ _ _) fun _ =>
    onlyIllopa_pure _

theorem onlyIllopa_bitField (qq : Byte) (mask data : Word) (s : State) : onlyIllopa (bitField qq mask data s) :=
  onlyIllopa_bind (onlyIllopa_readBitWord _ _) fun _ => onlyIllopa_bind (onlyIllopa_writeMem .word _ _ _) fun _ =>
    onlyIllopa_pure _

theorem onlyIllopa_jumpOnBit (b : Bool) (qq : Byte) (q : BitVec 4) (rel : Byte) (s : State) :
    onlyIllopa (jumpOnBit b qq q rel s) :=
  onlyIllopa_bind (onlyIllopa_readBit _ _ _) fun _ => onlyIllopa_pure _

theorem onlyIllopa_jumpAndFlip (b : Bool) (qq : Byte) (q : BitVec 4) (rel : Byte) (s : State) :
    onlyIllopa (jumpAndFlip b qq q rel s) := by
  refine onlyIllopa_bind (onlyIllopa_readBit _ _ _) fun x => ?_
  dsimp only
  split
  · exact onlyIllopa_bind (onlyIllopa_writeBit _ _ _ _) fun _ => onlyIllopa_pure _
  · exact onlyIllopa_pure _

theorem framed_writtenBit {qq : Byte} {q q' : BitVec 4} {b : Bool} {s u : State} {r : Bool × State}
    (h1 : readBit qq q s = .ok r) (h2 : writeBit qq q' b r.2 = .ok u) :
    framed [.psw, .mdc] (accessBytes .word (bitoffAddr s qq)) s u := by
  have f := framed_writeBit h2
  rw [(framed_readBit h1).2, bitoffAddr_touch] at f
  rw [(framed_readBit h1).2] at h2
  exact ((framed_touch _ s).mono (by simp) (by simp)).trans (f.mono (by simp) (by simp))

theorem framed_bitAssign {b : Bool} {qq : Byte} {q : BitVec 4} {s t : State} (h : bitAssign b qq q s = .ok t) :
    framed [.psw, .mdc] (accessBytes .word (bitoffAddr s qq)) s t := by
  simp only [bitAssign, bind_ok] at h
  obtain ⟨x, hx, u, hu, h⟩ := h
  obtain rfl := pure_eq_ok.mp h
  exact (framed_writtenBit hx hu).trans (framed_anyFlags _ _ _ (by simp))

theorem framed_bit2 {op : BitOp} {zz : Byte} {z : BitVec 4} {qq : Byte} {q : BitVec 4} {s t : State}
    (h : bit2 op zz z qq q s = .ok t) : framed [.psw, .mdc] (accessBytes .word (bitoffAddr s zz)) s t := by
  simp only [bit2, bind_ok] at h
  obtain ⟨x, hx, y, hy, u, hu, h⟩ := h
  obtain rfl := pure_eq_ok.mp h
  have e : bitoffAddr y.2 zz = bitoffAddr s zz := by
    rw [(framed_readBit hy).2, bitoffAddr_touch, (framed_readBit hx).2, bitoffAddr_touch]
  have f := framed_writeBit hu
  rw [e] at f
  have f1 := (framed_readBit hx).1
  have f2 := (framed_readBit hy).1
  exact (((f1.mono (by simp) (by simp)).trans (f2.mono (by simp) (by simp))).trans (f.mono (by simp) (by simp))).trans
    (framed_anyFlags _ _ _ (by simp))

theorem framed_bitCompare {zz : Byte} {z : BitVec 4} {qq : Byte} {q : BitVec 4} {s t : State}
    (h : bitCompare zz z qq q s = .ok t) : framed [.psw, .mdc] [] s t := by
  simp only [bitCompare, bind_ok] at h
  obtain ⟨a, ha, b, hb, h⟩ := h
  obtain rfl := pure_eq_ok.mp h
  refine framed.trans ((framed_readBit ha).1.mono (by simp) (by simp)) ?_
  refine framed.trans ((framed_readBit hb).1.mono (by simp) (by simp)) ?_
  exact (framed_setFlags _ _).mono (by simp) (by simp)

theorem framed_bitField {qq : Byte} {mask data : Word} {s t : State} (h : bitField qq mask data s = .ok t) :
    framed [.psw, .mdc] (accessBytes .word (bitoffAddr s qq)) s t := by
  simp only [bitField, bind_ok] at h
  obtain ⟨x, hx, u, hu, h⟩ := h
  obtain rfl := pure_eq_ok.mp h
  have f1 := framed_writeMem (w := .word) hu
  obtain ⟨f0, e⟩ := framed_readBitWord hx
  rw [e, bitoffAddr_touch] at f1
  rw [e] at f0
  exact ((f0.mono (by simp) (by simp)).trans (f1.mono (by simp) (by simp))).trans (framed_anyFlags _ _ _ (by simp))

theorem framed_jumpAndFlip {b : Bool} {qq : Byte} {q : BitVec 4} {rel : Byte} {s t : State}
    (h : jumpAndFlip b qq q rel s = .ok t) : framed [.psw, .mdc] (accessBytes .word (bitoffAddr s qq)) s t := by
  simp only [jumpAndFlip, bind_ok] at h
  obtain ⟨x, hx, h⟩ := h
  split at h
  · simp only [bind_ok] at h
    obtain ⟨u, hu, h⟩ := h
    obtain rfl := pure_eq_ok.mp h
    exact ((framed_writtenBit hx hu).trans (framed_jumpNear _ _ _ _)).trans (framed_anyFlags _ _ _ (by simp))
  · obtain rfl := pure_eq_ok.mp h
    exact ((framed_readBit hx).1.mono (by simp) (by simp)).trans (framed_anyFlags _ _ _ (by simp))

/-! ## The stack -/

theorem pushBytes_congr {s t : State} (h : t.sp = s.sp) : pushBytes t = pushBytes s := by simp [pushBytes, h]

theorem onlyIllopa_callNear (v : Word) (s : State) : onlyIllopa (callNear v s) :=
  onlyIllopa_bind (onlyIllopa_push _ _) fun _ => onlyIllopa_pure _

theorem framed_callNear {v : Word} {s t : State} (h : callNear v s = .ok t) :
    framed [.sp, .mdc] (pushBytes s) s t := by
  simp only [callNear, bind_ok] at h
  obtain ⟨a, ha, h⟩ := h
  obtain rfl := pure_eq_ok.mp h
  exact (framed_push ha).trans (framed_jumpNear _ _ _ _)

theorem onlyIllopa_popTo (dst : Addr) (s : State) : onlyIllopa (popTo dst s) :=
  onlyIllopa_bind (onlyIllopa_pop _) fun _ => onlyIllopa_bind (onlyIllopa_writeMem .word _ _ _) fun _ =>
    onlyIllopa_pure _

theorem framed_popTo {dst : Addr} {s t : State} (h : popTo dst s = .ok t) :
    framed [.sp, .psw, .mdc] (accessBytes .word dst) s t := by
  simp only [popTo, bind_ok] at h
  obtain ⟨x, hx, a, ha, h⟩ := h
  obtain rfl := pure_eq_ok.mp h
  exact (((framed_pop hx).mono (by simp) (by simp)).trans
    ((framed_writeMem (w := .word) ha).mono (by simp) (by simp))).trans (framed_anyFlags _ _ _ (by simp))

end Sys2Proof.Laws
end

