-- ==== Sys2Proof/Tests/Slice0.lean ====
section
/-! SUPPORT. The model's own tests: the well-formedness smoke tests, the decoding of a word of every constructor,
single steps from spec/95_test_vectors.md, and a witness for the hypotheses of every statement that has some. -/

namespace Sys2Proof.Tests

set_option Elab.async false

open Sys2Proof.Machine

/-! ## Well-formedness -/

theorem test_wellFormed_pointer_4_refused : wellFormed (.addRwInd 0 4) = false := by decide

theorem test_wellFormed_pointer_3_accepted : wellFormed (.cmpbRbIndInc 15 3) = true := by decide

theorem test_wellFormed_length_0_refused : wellFormed (.atomic 0) = false := by decide

theorem test_wellFormed_length_5_refused : wellFormed (.extprPag 0x3FF 5) = false := by decide

theorem test_wellFormed_length_4_accepted : wellFormed (.extsRw 15 4) = true := by decide

/-! ## Decoding: bytes written out from the encoding column of spec/opcode_table.json

With n = 10, m = 3, i = 2, reg = F4H, mem = 1234H, data16 = 8765H, data8 = 9CH, data3 = 5, data4 = 11, QQ = 81H,
q = 13, ZZ = 42H, z = 6, mask = 3EH, rel = FEH, cc = cc_SLT (code CH), trap 55H, length 3, segment 27H, page 2A7H,
and xx = 5AH. -/

/-- Every row's bytes decode to its instruction, with nothing left over. -/
def readsAll (rows : List (List Byte × Instr)) : Bool :=
  rows.all fun row => decodeBytes row.1 == .ok (row.2, [])

theorem test_decode_01 : readsAll [
    ([0x00, 0xA3], .addRwRw 10 3),
    ([0x01, 0xA3], .addbRbRb 10 3),
    ([0x02, 0xF4, 0x34, 0x12], .addRegMem 0xF4 0x1234),
    ([0x03, 0xF4, 0x34, 0x12], .addbRegMem 0xF4 0x1234),
    ([0x04, 0xF4, 0x34, 0x12], .addMemReg 0x1234 0xF4),
    ([0x05, 0xF4, 0x34, 0x12], .addbMemReg 0x1234 0xF4),
    ([0x06, 0xF4, 0x65, 0x87], .addRegData16 0xF4 0x8765),
    ([0x07, 0xF4, 0x9C, 0x5A], .addbRegData8 0xF4 0x9C),
    ([0x08, 0xA5], .addRwData3 10 5),
    ([0x08, 0xAA], .addRwInd 10 2),
    ([0x08, 0xAE], .addRwIndInc 10 2),
    ([0x09, 0xA5], .addbRbData3 10 5),
    ([0x09, 0xAA], .addbRbInd 10 2),
    ([0x09, 0xAE], .addbRbIndInc 10 2),
    ([0x0A, 0x81, 0x3E, 0x9C], .bfldl 0x81 0x3E 0x9C),
    ([0x0B, 0xA3], .mul 10 3),
    ([0x0C, 0xA3], .rolRwRw 10 3),
    ([0xCD, 0xFE], .jmpr .slt 0xFE),
    ([0xDE, 0x81], .bclr 0x81 13),
    ([0xDF, 0x81], .bset 0x81 13)] = true := by decide +kernel

theorem test_decode_02 : readsAll [
    ([0x10, 0xA3], .addcRwRw 10 3),
    ([0x11, 0xA3], .addcbRbRb 10 3),
    ([0x12, 0xF4, 0x34, 0x12], .addcRegMem 0xF4 0x1234),
    ([0x13, 0xF4, 0x34, 0x12], .addcbRegMem 0xF4 0x1234),
    ([0x14, 0xF4, 0x34, 0x12], .addcMemReg 0x1234 0xF4),
    ([0x15, 0xF4, 0x34, 0x12], .addcbMemReg 0x1234 0xF4),
    ([0x16, 0xF4, 0x65, 0x87], .addcRegData16 0xF4 0x8765),
    ([0x17, 0xF4, 0x9C, 0x5A], .addcbRegData8 0xF4 0x9C),
    ([0x18, 0xA5], .addcRwData3 10 5),
    ([0x18, 0xAA], .addcRwInd 10 2),
    ([0x18, 0xAE], .addcRwIndInc 10 2),
    ([0x19, 0xA5], .addcbRbData3 10 5),
    ([0x19, 0xAA], .addcbRbInd 10 2),
    ([0x19, 0xAE], .addcbRbIndInc 10 2),
    ([0x1A, 0x81, 0x9C, 0x3E], .bfldh 0x81 0x3E 0x9C),
    ([0x1B, 0xA3], .mulu 10 3),
    ([0x1C, 0xBA], .rolRwData4 10 11),
    ([0x20, 0xA3], .subRwRw 10 3),
    ([0x21, 0xA3], .subbRbRb 10 3),
    ([0x22, 0xF4, 0x34, 0x12], .subRegMem 0xF4 0x1234)] = true := by decide +kernel

theorem test_decode_03 : readsAll [
    ([0x23, 0xF4, 0x34, 0x12], .subbRegMem 0xF4 0x1234),
    ([0x24, 0xF4, 0x34, 0x12], .subMemReg 0x1234 0xF4),
    ([0x25, 0xF4, 0x34, 0x12], .subbMemReg 0x1234 0xF4),
    ([0x26, 0xF4, 0x65, 0x87], .subRegData16 0xF4 0x8765),
    ([0x27, 0xF4, 0x9C, 0x5A], .subbRegData8 0xF4 0x9C),
    ([0x28, 0xA5], .subRwData3 10 5),
    ([0x28, 0xAA], .subRwInd 10 2),
    ([0x28, 0xAE], .subRwIndInc 10 2),
    ([0x29, 0xA5], .subbRbData3 10 5),
    ([0x29, 0xAA], .subbRbInd 10 2),
    ([0x29, 0xAE], .subbRbIndInc 10 2),
    ([0x2A, 0x81, 0x42, 0xD6], .bcmp 0x42 6 0x81 13),
    ([0x2B, 0xA3], .prior 10 3),
    ([0x2C, 0xA3], .rorRwRw 10 3),
    ([0x30, 0xA3], .subcRwRw 10 3),
    ([0x31, 0xA3], .subcbRbRb 10 3),
    ([0x32, 0xF4, 0x34, 0x12], .subcRegMem 0xF4 0x1234),
    ([0x33, 0xF4, 0x34, 0x12], .subcbRegMem 0xF4 0x1234),
    ([0x34, 0xF4, 0x34, 0x12], .subcMemReg 0x1234 0xF4),
    ([0x35, 0xF4, 0x34, 0x12], .subcbMemReg 0x1234 0xF4)] = true := by decide +kernel

theorem test_decode_04 : readsAll [
    ([0x36, 0xF4, 0x65, 0x87], .subcRegData16 0xF4 0x8765),
    ([0x37, 0xF4, 0x9C, 0x5A], .subcbRegData8 0xF4 0x9C),
    ([0x38, 0xA5], .subcRwData3 10 5),
    ([0x38, 0xAA], .subcRwInd 10 2),
    ([0x38, 0xAE], .subcRwIndInc 10 2),
    ([0x39, 0xA5], .subcbRbData3 10 5),
    ([0x39, 0xAA], .subcbRbInd 10 2),
    ([0x39, 0xAE], .subcbRbIndInc 10 2),
    ([0x3A, 0x81, 0x42, 0xD6], .bmovn 0x42 6 0x81 13),
    ([0x3C, 0xBA], .rorRwData4 10 11),
    ([0x40, 0xA3], .cmpRwRw 10 3),
    ([0x41, 0xA3], .cmpbRbRb 10 3),
    ([0x42, 0xF4, 0x34, 0x12], .cmpRegMem 0xF4 0x1234),
    ([0x43, 0xF4, 0x34, 0x12], .cmpbRegMem 0xF4 0x1234),
    ([0x46, 0xF4, 0x65, 0x87], .cmpRegData16 0xF4 0x8765),
    ([0x47, 0xF4, 0x9C, 0x5A], .cmpbRegData8 0xF4 0x9C),
    ([0x48, 0xA5], .cmpRwData3 10 5),
    ([0x48, 0xAA], .cmpRwInd 10 2),
    ([0x48, 0xAE], .cmpRwIndInc 10 2),
    ([0x49, 0xA5], .cmpbRbData3 10 5)] = true := by decide +kernel

theorem test_decode_05 : readsAll [
    ([0x49, 0xAA], .cmpbRbInd 10 2),
    ([0x49, 0xAE], .cmpbRbIndInc 10 2),
    ([0x4A, 0x81, 0x42, 0xD6], .bmov 0x42 6 0x81 13),
    ([0x4B, 0xAA], .div 10),
    ([0x4C, 0xA3], .shlRwRw 10 3),
    ([0x50, 0xA3], .xorRwRw 10 3),
    ([0x51, 0xA3], .xorbRbRb 10 3),
    ([0x52, 0xF4, 0x34, 0x12], .xorRegMem 0xF4 0x1234),
    ([0x53, 0xF4, 0x34, 0x12], .xorbRegMem 0xF4 0x1234),
    ([0x54, 0xF4, 0x34, 0x12], .xorMemReg 0x1234 0xF4),
    ([0x55, 0xF4, 0x34, 0x12], .xorbMemReg 0x1234 0xF4),
    ([0x56, 0xF4, 0x65, 0x87], .xorRegData16 0xF4 0x8765),
    ([0x57, 0xF4, 0x9C, 0x5A], .xorbRegData8 0xF4 0x9C),
    ([0x58, 0xA5], .xorRwData3 10 5),
    ([0x58, 0xAA], .xorRwInd 10 2),
    ([0x58, 0xAE], .xorRwIndInc 10 2),
    ([0x59, 0xA5], .xorbRbData3 10 5),
    ([0x59, 0xAA], .xorbRbInd 10 2),
    ([0x59, 0xAE], .xorbRbIndInc 10 2),
    ([0x5A, 0x81, 0x42, 0xD6], .bor 0x42 6 0x81 13)] = true := by decide +kernel

theorem test_decode_06 : readsAll [
    ([0x5B, 0xAA], .divu 10),
    ([0x5C, 0xBA], .shlRwData4 10 11),
    ([0x60, 0xA3], .andRwRw 10 3),
    ([0x61, 0xA3], .andbRbRb 10 3),
    ([0x62, 0xF4, 0x34, 0x12], .andRegMem 0xF4 0x1234),
    ([0x63, 0xF4, 0x34, 0x12], .andbRegMem 0xF4 0x1234),
    ([0x64, 0xF4, 0x34, 0x12], .andMemReg 0x1234 0xF4),
    ([0x65, 0xF4, 0x34, 0x12], .andbMemReg 0x1234 0xF4),
    ([0x66, 0xF4, 0x65, 0x87], .andRegData16 0xF4 0x8765),
    ([0x67, 0xF4, 0x9C, 0x5A], .andbRegData8 0xF4 0x9C),
    ([0x68, 0xA5], .andRwData3 10 5),
    ([0x68, 0xAA], .andRwInd 10 2),
    ([0x68, 0xAE], .andRwIndInc 10 2),
    ([0x69, 0xA5], .andbRbData3 10 5),
    ([0x69, 0xAA], .andbRbInd 10 2),
    ([0x69, 0xAE], .andbRbIndInc 10 2),
    ([0x6A, 0x81, 0x42, 0xD6], .band 0x42 6 0x81 13),
    ([0x6B, 0xAA], .divl 10),
    ([0x6C, 0xA3], .shrRwRw 10 3),
    ([0x70, 0xA3], .orRwRw 10 3)] = true := by decide +kernel

theorem test_decode_07 : readsAll [
    ([0x71, 0xA3], .orbRbRb 10 3),
    ([0x72, 0xF4, 0x34, 0x12], .orRegMem 0xF4 0x1234),
    ([0x73, 0xF4, 0x34, 0x12], .orbRegMem 0xF4 0x1234),
    ([0x74, 0xF4, 0x34, 0x12], .orMemReg 0x1234 0xF4),
    ([0x75, 0xF4, 0x34, 0x12], .orbMemReg 0x1234 0xF4),
    ([0x76, 0xF4, 0x65, 0x87], .orRegData16 0xF4 0x8765),
    ([0x77, 0xF4, 0x9C, 0x5A], .orbRegData8 0xF4 0x9C),
    ([0x78, 0xA5], .orRwData3 10 5),
    ([0x78, 0xAA], .orRwInd 10 2),
    ([0x78, 0xAE], .orRwIndInc 10 2),
    ([0x79, 0xA5], .orbRbData3 10 5),
    ([0x79, 0xAA], .orbRbInd 10 2),
    ([0x79, 0xAE], .orbRbIndInc 10 2),
    ([0x7A, 0x81, 0x42, 0xD6], .bxor 0x42 6 0x81 13),
    ([0x7B, 0xAA], .divlu 10),
    ([0x7C, 0xBA], .shrRwData4 10 11),
    ([0x80, 0xBA], .cmpi1RwData4 10 11),
    ([0x81, 0xA0], .neg 10),
    ([0x82, 0xFA, 0x34, 0x12], .cmpi1RwMem 10 0x1234),
    ([0x84, 0x0A, 0x34, 0x12], .movIndMem 10 0x1234)] = true := by decide +kernel

theorem test_decode_08 : readsAll [
    ([0x86, 0xFA, 0x65, 0x87], .cmpi1RwData16 10 0x8765),
    ([0x87, 0x78, 0x87, 0x87], .idle),
    ([0x88, 0xA3], .movIndDecRw 3 10),
    ([0x89, 0xA3], .movbIndDecRb 3 10),
    ([0x8A, 0x81, 0xFE, 0xD0], .jb 0x81 13 0xFE),
    ([0x90, 0xBA], .cmpi2RwData4 10 11),
    ([0x91, 0xA0], .cpl 10),
    ([0x92, 0xFA, 0x34, 0x12], .cmpi2RwMem 10 0x1234),
    ([0x94, 0x0A, 0x34, 0x12], .movMemInd 0x1234 10),
    ([0x96, 0xFA, 0x65, 0x87], .cmpi2RwData16 10 0x8765),
    ([0x97, 0x68, 0x97, 0x97], .pwrdn),
    ([0x98, 0xA3], .movRwIndInc 10 3),
    ([0x99, 0xA3], .movbRbIndInc 10 3),
    ([0x9A, 0x81, 0xFE, 0xD0], .jnb 0x81 13 0xFE),
    ([0x9B, 0xAA], .trap 0x55),
    ([0x9C, 0xCA], .jmpi .slt 10),
    ([0xA0, 0xBA], .cmpd1RwData4 10 11),
    ([0xA1, 0xA0], .negb 10),
    ([0xA2, 0xFA, 0x34, 0x12], .cmpd1RwMem 10 0x1234),
    ([0xA4, 0x0A, 0x34, 0x12], .movbIndMem 10 0x1234)] = true := by decide +kernel

theorem test_decode_09 : readsAll [
    ([0xA5, 0x5A, 0xA5, 0xA5], .diswdt),
    ([0xA6, 0xFA, 0x65, 0x87], .cmpd1RwData16 10 0x8765),
    ([0xA7, 0x58, 0xA7, 0xA7], .srvwdt),
    ([0xA8, 0xA3], .movRwInd 10 3),
    ([0xA9, 0xA3], .movbRbInd 10 3),
    ([0xAA, 0x81, 0xFE, 0xD0], .jbc 0x81 13 0xFE),
    ([0xAB, 0xCA], .calli .slt 10),
    ([0xAC, 0xA3], .ashrRwRw 10 3),
    ([0xB0, 0xBA], .cmpd2RwData4 10 11),
    ([0xB1, 0xA0], .cplb 10),
    ([0xB2, 0xFA, 0x34, 0x12], .cmpd2RwMem 10 0x1234),
    ([0xB4, 0x0A, 0x34, 0x12], .movbMemInd 0x1234 10),
    ([0xB5, 0x4A, 0xB5, 0xB5], .einit),
    ([0xB6, 0xFA, 0x65, 0x87], .cmpd2RwData16 10 0x8765),
    ([0xB7, 0x48, 0xB7, 0xB7], .srst),
    ([0xB8, 0xA3], .movIndRw 3 10),
    ([0xB9, 0xA3], .movbIndRb 3 10),
    ([0xBA, 0x81, 0xFE, 0xD0], .jnbs 0x81 13 0xFE),
    ([0xBB, 0xFE], .callr 0xFE),
    ([0xBC, 0xBA], .ashrRwData4 10 11)] = true := by decide +kernel

theorem test_decode_10 : readsAll [
    ([0xC0, 0x3A], .movbzRwRb 10 3),
    ([0xC2, 0xF4, 0x34, 0x12], .movbzRegMem 0xF4 0x1234),
    ([0xC4, 0xA3, 0x65, 0x87], .movDispRw 3 0x8765 10),
    ([0xC5, 0xF4, 0x34, 0x12], .movbzMemReg 0x1234 0xF4),
    ([0xC6, 0xF4, 0x65, 0x87], .scxtRegData16 0xF4 0x8765),
    ([0xC8, 0xA3], .movIndInd 10 3),
    ([0xC9, 0xA3], .movbIndInd 10 3),
    ([0xCA, 0xC0, 0x34, 0x12], .calla .slt 0x1234),
    ([0xCB, 0x00], .ret),
    ([0xCC, 0x00], .nop),
    ([0xD0, 0x3A], .movbsRwRb 10 3),
    ([0xD1, 0x20], .atomic 3),
    ([0xD1, 0xA0], .extr 3),
    ([0xD2, 0xF4, 0x34, 0x12], .movbsRegMem 0xF4 0x1234),
    ([0xD4, 0xA3, 0x65, 0x87], .movRwDisp 10 3 0x8765),
    ([0xD5, 0xF4, 0x34, 0x12], .movbsMemReg 0x1234 0xF4),
    ([0xD6, 0xF4, 0x34, 0x12], .scxtRegMem 0xF4 0x1234),
    ([0xD7, 0x20, 0x27, 0x00], .extsSeg 0x27 3),
    ([0xD7, 0x60, 0xA7, 0x02], .extpPag 0x2A7 3),
    ([0xD7, 0xA0, 0x27, 0x00], .extsrSeg 0x27 3)] = true := by decide +kernel

theorem test_decode_11 : readsAll [
    ([0xD7, 0xE0, 0xA7, 0x02], .extprPag 0x2A7 3),
    ([0xD8, 0xA3], .movIndIncInd 10 3),
    ([0xD9, 0xA3], .movbIndIncInd 10 3),
    ([0xDA, 0x27, 0x34, 0x12], .calls 0x27 0x1234),
    ([0xDB, 0x00], .rets),
    ([0xDC, 0x23], .extsRw 3 3),
    ([0xDC, 0x63], .extpRw 3 3),
    ([0xDC, 0xA3], .extsrRw 3 3),
    ([0xDC, 0xE3], .extprRw 3 3),
    ([0xE0, 0xBA], .movRwData4 10 11),
    ([0xE1, 0xBA], .movbRbData4 10 11),
    ([0xE2, 0xF4, 0x34, 0x12], .pcall 0xF4 0x1234),
    ([0xE4, 0xA3, 0x65, 0x87], .movbDispRb 3 0x8765 10),
    ([0xE6, 0xF4, 0x65, 0x87], .movRegData16 0xF4 0x8765),
    ([0xE7, 0xF4, 0x9C, 0x5A], .movbRegData8 0xF4 0x9C),
    ([0xE8, 0xA3], .movIndIndInc 10 3),
    ([0xE9, 0xA3], .movbIndIndInc 10 3),
    ([0xEA, 0xC0, 0x34, 0x12], .jmpa .slt 0x1234),
    ([0xEB, 0xF4], .retp 0xF4),
    ([0xEC, 0xF4], .push 0xF4)] = true := by decide +kernel

theorem test_decode_12 : readsAll [
    ([0xF0, 0xA3], .movRwRw 10 3),
    ([0xF1, 0xA3], .movbRbRb 10 3),
    ([0xF2, 0xF4, 0x34, 0x12], .movRegMem 0xF4 0x1234),
    ([0xF3, 0xF4, 0x34, 0x12], .movbRegMem 0xF4 0x1234),
    ([0xF4, 0xA3, 0x65, 0x87], .movbRbDisp 10 3 0x8765),
    ([0xF6, 0xF4, 0x34, 0x12], .movMemReg 0x1234 0xF4),
    ([0xF7, 0xF4, 0x34, 0x12], .movbMemReg 0x1234 0xF4),
    ([0xFA, 0x27, 0x34, 0x12], .jmps 0x27 0x1234),
    ([0xFB, 0x88], .reti),
    ([0xFC, 0xF4], .pop 0xF4)] = true := by decide +kernel


/-- The encodings that are no instruction: an undefined opcode (30_encoding R162), SRST with a wrong last byte
(R145), NOP and EXTP with a wrong fixed field (R144), and a missing byte. -/
theorem test_decode_rejects :
    decodeBytes [0x3B, 0x00] = .error .undefinedOpcode ∧ decodeBytes [0xF9, 0xFF, 0, 0] = .error .undefinedOpcode ∧
    decodeBytes [0xB7, 0x48, 0xB7, 0xB6] = .error .protectedMismatch ∧
    decodeBytes [0xCC, 0x01] = .error .nonCanonical ∧ decodeBytes [0xD7, 0x41, 0x40, 0x00] = .error .nonCanonical ∧
    decodeBytes [0x4B, 0x12] = .error .nonCanonical ∧ decodeBytes [0x9B, 0x21] = .error .nonCanonical ∧
    decodeBytes [0x02, 0xF4, 0x34] = .error .truncated := by decide +kernel

/-! ## Single steps (spec/95_test_vectors.md; each row names its vector) -/

/-- The machine after reset with IP at 100H, code there, and words at the given addresses (registers included). -/
def start (code : List Byte) (words : List (Addr × Word)) : State :=
  words.foldl (fun s p => pokeWord p.1 p.2 s)
    ((List.range code.length).foldl (fun s k => pokeByte (0x100 + BitVec.ofNat 24 k) (code.getD k 0) s)
      { State.reset with ip := 0x100 })

/-- The address of word GPR `n` in the bank at FC00H. -/
def r (n : Nat) : Addr := BitVec.ofNat 24 (0xFC00 + 2 * n)

/-- One step leaves IP, PSW and the words at the listed addresses as listed. -/
def yields (row : State × List Addr × List Word) : Bool :=
  match step row.1 with
  | .next t => (t.ip :: t.psw :: row.2.1.map (peekWord t)) == row.2.2
  | .fault _ => false
  | .refused _ => false

/-- One step refuses, for the given reason. -/
def refuses (row : State × Refusal) : Bool :=
  match step row.1 with
  | .refused why => why == row.2
  | .next _ => false
  | .fault _ => false

/-- Vectors A1 A4 A7 A9. -/
theorem test_step_add : [
    (start [0x08, 0x11] [(r 1, 0x7FFF)], [r 1], [0x102, 0x5, 0x8000]),
    (start [0x08, 0x0D] [(0x400, 0x5), (r 1, 0x400), (r 0, 0x10)], [r 0, r 1], [0x102, 0x0, 0x15, 0x402]),
    (start [0x01, 0x01] [(r 0, 0x1FF)], [r 0], [0x102, 0xA, 0x100]),
    (start [0x10, 0x01] [(r 0, 0xFFFF), (0xFF10, 0xA)], [r 0], [0x102, 0xA, 0x0])].all
      yields = true := by decide +kernel

/-- Vectors A12 A13 A14 A15. -/
theorem test_step_subtract : [
    (start [0x28, 0x21] [], [r 2], [0x102, 0x3, 0xFFFF]),
    (start [0x20, 0x01] [(r 1, 0x1), (r 0, 0x8000)], [r 0], [0x102, 0x4, 0x7FFF]),
    (start [0x29, 0x01] [(r 0, 0x80)], [r 0], [0x102, 0x4, 0x7F]),
    (start [0x30, 0x01] [(0xFF10, 0xA)], [r 0], [0x102, 0x3, 0xFFFF])].all
      yields = true := by decide +kernel

/-- Vectors A18 A20 A21 A22. -/
theorem test_step_complement : [
    (start [0x81, 0x00] [(r 0, 0x8000)], [r 0], [0x102, 0x17, 0x8000]),
    (start [0xA1, 0x40] [(r 2, 0x1)], [r 2], [0x102, 0x3, 0xFF]),
    (start [0x91, 0x50] [], [r 5], [0x102, 0x1, 0xFFFF]),
    (start [0xB1, 0x30] [(r 1, 0x8000)], [r 1], [0x102, 0x10, 0x7F00])].all
      yields = true := by decide +kernel

/-- Vectors A24 A28. -/
theorem test_step_multiply : [
    (start [0x0B, 0x12] [(r 2, 0x2), (r 1, 0xFFFF)], [0xFE0C, 0xFE0E, 0xFF0E], [0x102, 0x1, 0xFFFF, 0xFFFE, 0x10]),
    (start [0x1B, 0x01] [(r 1, 0xFFFF), (r 0, 0xFFFF)], [0xFE0C, 0xFE0E, 0xFF0E], [0x102, 0x5, 0xFFFE, 0x1, 0x10])].all
      yields = true := by decide +kernel

/-- Vectors A30 A38 A34 A36. -/
theorem test_step_divide : [
    (start [0x4B, 0x33] [(r 3, 0xFFFE), (0xFE0E, 0x7)], [0xFE0C, 0xFE0E, 0xFF0E], [0x102, 0x1, 0x1, 0xFFFD, 0x10]),
    (start [0x5B, 0x22] [(r 2, 0x10), (0xFE0E, 0xFFFF)], [0xFE0C, 0xFE0E, 0xFF0E], [0x102, 0x0, 0xF, 0xFFF, 0x10]),
    (start [0x6B, 0x00] [(r 0, 0x2), (0xFE0C, 0xFFFF), (0xFE0E, 0xFFF9)],
      [0xFE0C, 0xFE0E, 0xFF0E], [0x102, 0x1, 0xFFFF, 0xFFFD, 0x10]),
    (start [0x7B, 0x11] [(r 1, 0x2), (0xFE0C, 0x1), (0xFE0E, 0x5)],
      [0xFE0C, 0xFE0E, 0xFF0E], [0x102, 0x1, 0x1, 0x8002, 0x10])].all
      yields = true := by decide +kernel

/-- Vectors B1 B4 B6 B9. -/
theorem test_step_logic : [
    (start [0x60, 0x12] [(r 2, 0x8000), (r 1, 0xF0F0), (0xFF10, 0x6)], [r 1], [0x102, 0x11, 0x8000]),
    (start [0x77, 0xF1, 0x80, 0x00] [(r 0, 0x100)], [r 0], [0x104, 0x11, 0x8100]),
    (start [0x50, 0x33] [(r 3, 0x1234)], [r 3], [0x102, 0x8, 0x0]),
    (start [0x2B, 0x12] [(r 1, 0xFFFF), (r 2, 0x123)], [r 1], [0x102, 0x0, 0x7])].all
      yields = true := by decide +kernel

/-- Vectors C1 C3 C6 C7 C8 C10 C11 C13 C14 C15. -/
theorem test_step_bits : [
    (start [0x3E, 0xF0] [(r 0, 0x9)], [r 0], [0x102, 0x1, 0x1]),
    (start [0xFF, 0x00] [], [0xFD00], [0x102, 0x8, 0x8000]),
    (start [0x4A, 0xF1, 0xF2, 0x20] [(r 1, 0x4)], [r 2], [0x104, 0x1, 0x1]),
    (start [0x3A, 0xF1, 0xF2, 0x20] [(r 2, 0x1), (r 1, 0x4)], [r 2], [0x104, 0x1, 0x0]),
    (start [0x6A, 0xF0, 0xF0, 0x20] [(r 0, 0x3)], [r 0], [0x104, 0x5, 0x2]),
    (start [0x7A, 0xF0, 0xF0, 0x0F] [(r 0, 0x8001)], [r 0], [0x104, 0x6, 0x1]),
    (start [0x2A, 0xF3, 0xF3, 0x01] [(r 3, 0x2)], [r 3], [0x104, 0x5, 0x2]),
    (start [0x6A, 0x88, 0x88, 0x31] [(0xFF10, 0x2)], [], [0x104, 0x0]),
    (start [0x1A, 0xF0, 0x50, 0xF0] [(r 0, 0x12FF)], [r 0], [0x104, 0x0, 0x52FF]),
    (start [0x0A, 0xF1, 0x0F, 0x03] [(r 1, 0x80A5)], [r 1], [0x104, 0x1, 0x80A3])].all
      yields = true := by decide +kernel

/-- Vectors D1 D3 D5 D7 D9 D10. -/
theorem test_step_compare : [
    (start [0x40, 0x12] [(r 2, 0x2), (r 1, 0x1)], [r 1], [0x102, 0x3, 0x1]),
    (start [0x48, 0x2D] [(0x400, 0x5), (r 1, 0x400), (r 2, 0x5)], [r 1, r 2], [0x102, 0x8, 0x402, 0x5]),
    (start [0xA0, 0x50] [(r 0, 0x5)], [r 0], [0x102, 0x8, 0x4]),
    (start [0xB0, 0x03] [(r 3, 0x1)], [r 3], [0x102, 0x0, 0xFFFF]),
    (start [0x86, 0xF1, 0x00, 0x80] [(r 1, 0xFFFF)], [r 1], [0x104, 0x10, 0x0]),
    (start [0x90, 0xF2] [(r 2, 0x10)], [r 2], [0x102, 0x0, 0x12])].all
      yields = true := by decide +kernel

/-- Vectors S2 S6 S11 S13 S15. -/
theorem test_step_shift : [
    (start [0x5C, 0x41] [(r 1, 0xFFFF)], [r 1], [0x102, 0x3, 0xFFF0]),
    (start [0x7C, 0x20] [(r 0, 0x7)], [r 0], [0x102, 0x6, 0x1]),
    (start [0x1C, 0x42] [(r 2, 0x8001)], [r 2], [0x102, 0x0, 0x18]),
    (start [0x3C, 0x23] [(r 3, 0x3)], [r 3], [0x102, 0x7, 0xC000]),
    (start [0xBC, 0x24] [(r 4, 0x8005)], [r 4], [0x102, 0x5, 0xE001])].all
      yields = true := by decide +kernel

/-- Vectors M3 M4 M6 M7 M12 M17 M20 M22. -/
theorem test_step_move : [
    (start [0x98, 0x52] [(0xFE04, 0x3), (0xC000, 0x8000), (r 2, 0x8000)], [r 5, r 2], [0x102, 0x11, 0x8000, 0x8002]),
    (start [0x88, 0x01] [(r 1, 0x402), (r 0, 0xBEEF)], [r 1, 0x400], [0x102, 0x1, 0x400, 0xBEEF]),
    (start [0xE8, 0x21] [(0x400, 0x8000), (r 2, 0x500), (r 1, 0x400)], [r 1, 0x500], [0x102, 0x11, 0x402, 0x8000]),
    (start [0xD4, 0x01, 0xFE, 0xFF] [(0x400, 0xAA), (r 1, 0x402)], [r 0], [0x104, 0x0, 0xAA]),
    (start [0xF6, 0xF0, 0x10, 0xFF] [(r 0, 0xBC2)], [], [0x104, 0x842]),
    (start [0x89, 0x01] [(r 1, 0x402), (r 0, 0xEE)], [r 1, 0x400], [0x102, 0x1, 0x401, 0xEE00]),
    (start [0xD0, 0x01] [(r 0, 0x80)], [r 1], [0x102, 0x1, 0xFF80]),
    (start [0xC0, 0x10] [(r 0, 0xFF12)], [r 0], [0x102, 0x0, 0xFF])].all
      yields = true := by decide +kernel

/-- Vectors K1 K4 K5 K9 K12. -/
theorem test_step_stack : [
    (start [0xEC, 0xF2] [(0xFBFE, 0x5555)], [0xFE12, 0xFBFE], [0x102, 0x8, 0xFBFE, 0x0]),
    (start [0xEC, 0x07] [(0xFE0E, 0x42)], [0xFE12, 0xFBFE, 0xFF0E], [0x102, 0x0, 0xFBFE, 0x42, 0x0]),
    (start [0xFC, 0xF1] [(0xFBFE, 0x8000), (0xFE12, 0xFBFE)], [r 1, 0xFE12], [0x102, 0x11, 0x8000, 0xFC00]),
    (start [0xC6, 0x08, 0x20, 0xFC] [(0xFF10, 0x2)], [0xFE10, 0xFE12, 0xFBFE], [0x104, 0x2, 0xFC20, 0xFBFE, 0xFC00]),
    (start [0xCC, 0x00] [(0xFF10, 0x1F)], [], [0x102, 0x1F])].all
      yields = true := by decide +kernel

/-- Vectors J1 J5 J7 J14 J16 J17 J20 J21, moved to 100H. -/
theorem test_step_jump : [
    (start [0xEA, 0x20, 0x34, 0x12] [(0xFF10, 0x8)], [], [0x1234, 0x8]),
    (start [0x9C, 0x04] [(r 4, 0x400), (0xFE00, 0x55)], [], [0x400, 0x0]),
    (start [0x0D, 0xFF] [], [], [0x100, 0x0]),
    (start [0xFA, 0x02, 0x00, 0x80] [], [0xFE08], [0x8000, 0x0, 0x2]),
    (start [0x8A, 0xF0, 0x02, 0x00] [(r 0, 0x1)], [], [0x108, 0x0]),
    (start [0xAA, 0x00, 0xFE, 0x80] [(0xFD00, 0x100)], [0xFD00], [0x100, 0x1, 0x0]),
    (start [0x9A, 0xF1, 0x10, 0xF0] [], [], [0x124, 0x0]),
    (start [0xBA, 0xF2, 0x01, 0x00] [], [r 2], [0x106, 0x8, 0x1])].all
      yields = true := by decide +kernel

/-- Vectors J23 J25 J26 J27 J28 J29. -/
theorem test_step_call : [
    (start [0xCA, 0x00, 0x00, 0x20] [], [0xFE12, 0xFBFE], [0x2000, 0x0, 0xFBFE, 0x104]),
    (start [0xAB, 0x01] [(r 1, 0x3000)], [0xFE12, 0xFBFE], [0x3000, 0x0, 0xFBFE, 0x102]),
    (start [0xBB, 0x7F] [], [0xFE12, 0xFBFE], [0x200, 0x0, 0xFBFE, 0x102]),
    (start [0xDA, 0x01, 0x00, 0x00] [], [0xFE08, 0xFE12, 0xFBFE, 0xFBFC], [0x0, 0x0, 0x1, 0xFBFC, 0x0, 0x104]),
    (start [0xE2, 0xF3, 0x00, 0x05] [(r 3, 0x8000)], [0xFE12, 0xFBFE, 0xFBFC], [0x500, 0x11, 0xFBFC, 0x8000, 0x104]),
    (start [0x9B, 0x20] [(0xFF10, 0x800), (0xFBFC, 0x5555)],
      [0xFE12, 0xFBFE, 0xFBFC, 0xFBFA], [0x40, 0x800, 0xFBFA, 0x800, 0x0, 0x102])].all
      yields = true := by decide +kernel

/-- Vectors R1 R3 R5 R6. -/
theorem test_step_return : [
    (start [0xCB, 0x00] [(0xFE12, 0xFBFE), (0xFBFE, 0x104)], [0xFE12], [0x104, 0x0, 0xFC00]),
    (start [0xDB, 0x00] [(0xFE12, 0xFBFC), (0xFBFE, 0x2), (0xFBFC, 0x104)],
      [0xFE08, 0xFE12], [0x104, 0x0, 0x2, 0xFC00]),
    (start [0xEB, 0xF3] [(0xFE12, 0xFBFC), (0xFBFE, 0x8000), (0xFBFC, 0x104)],
      [r 3, 0xFE12], [0x104, 0x11, 0x8000, 0xFC00]),
    (start [0xFB, 0x88] [(0xFE12, 0xFBFA), (0xFF10, 0xF01F), (0xFBFE, 0x800), (0xFBFC, 0x0), (0xFBFA, 0x102)],
      [0xFE08, 0xFE12], [0x102, 0x800, 0x0, 0xFC00])].all
      yields = true := by decide +kernel

/-- Vectors A5 Y10 Y2: an odd word address, an undefined opcode, a damaged protected instruction; the return address is
the next IP for the first and the trapping IP for the others (60_exceptions R511). -/
theorem test_step_trap : [
    (start [0x08, 0x09] [(r 1, 0x401), (r 0, 0x10)],
      [0xFFAC, r 0, 0xFBFE, 0xFBFA], [0x28, 0xF000, 0x4, 0x10, 0x0, 0x102]),
    (start [0x3B, 0x00] [], [0xFFAC, 0xFE12, 0xFBFA], [0x28, 0xF000, 0x80, 0xFBFA, 0x100]),
    (start [0xB7, 0x48, 0xB7, 0xB6] [], [0xFFAC, 0xFE12, 0xFBFA], [0x28, 0xF000, 0x8, 0xFBFA, 0x100])].all
      yields = true := by decide +kernel

/-- Vectors K13, Y22 (a fixed field), J15 (SGTDIS), R8 (MULIP), M14 (CSP), J32. -/
theorem test_step_refusals : [
    (start [0xCC, 0x01] [], Refusal.nonCanonical), (start [0xD1, 0x40] [], .nonCanonical),
    (start [0xFA, 0x02, 0x00, 0x80] [(0xFF12, 0x800)], .segmentation),
    (start [0xFB, 0x88] [(0xFE12, 0xFBFA), (0xFBFE, 0x20), (0xFBFA, 0x102)], .mulip),
    (start [0xE6, 0x04, 0x01, 0x00] [], .cspWrite), (start [0x9B, 0x21] [], .nonCanonical)].all refuses = true := by
  decide +kernel

/-- What has no address after one step: the sequence, the watchdog, EINIT's pin, the run mode, the reset cause. -/
def controls (s : State) : Option (Sequence × Watchdog × Bool × RunMode × ResetCause) :=
  match step s with
  | .next t => some (t.seq, t.wdt, t.initDone, t.run, t.resetCause)
  | .fault _ => none
  | .refused _ => none

/-- One step leaves that state as listed. -/
def leaves (row : State × Sequence × Watchdog × Bool × RunMode × ResetCause) : Bool := controls row.1 == some row.2

/-- Vectors Y3, Y4, Y5: IDLE, and PWRDN with the NMI pin high and low. -/
theorem test_step_low_power : [
    (start [0x87, 0x78, 0x87, 0x87] [], Sequence.idle, Watchdog.mk true true 0, false, .idle, .hardware),
    (start [0x97, 0x68, 0x97, 0x97] [], .idle, ⟨true, true, 0⟩, false, .running, .hardware),
    ({ start [0x97, 0x68, 0x97, 0x97] [] with nmiPinLow := true }, .idle, ⟨true, true, 0⟩, false, .powerdown, .hardware)].all
      leaves = true := by decide +kernel

/-- Vectors Y6 to Y9: SRVWDT, DISWDT in time and too late, EINIT. -/
theorem test_step_watchdog : [
    (start [0xA7, 0x58, 0xA7, 0xA7] [], Sequence.idle, Watchdog.mk true false 0, false, RunMode.running, .hardware),
    (start [0xA5, 0x5A, 0xA5, 0xA5] [], .idle, ⟨false, true, 0⟩, false, .running, .hardware),
    ({ start [0xA5, 0x5A, 0xA5, 0xA5] [] with wdt := ⟨true, false, 0⟩ }, .idle, ⟨true, false, 0⟩, false, .running, .hardware),
    (start [0xB5, 0x4A, 0xB5, 0xB5] [], .idle, ⟨true, false, 0⟩, true, .running, .hardware)].all leaves = true := by
  decide +kernel

/-- Vectors Y11, Y14, Y15, Y17, Y18, Y19, Y20, Y21: ATOMIC and the EXTend instructions. -/
theorem test_step_sequence :
    ([start [0xD1, 0x10] [], start [0xD1, 0x80] [], start [0xD7, 0x40, 0x40, 0x00] [], start [0xDC, 0x51] [(r 1, 0xFC03)],
      start [0xDC, 0xD5] [(r 5, 3)], start [0xD7, 0x00, 0x01, 0x00] [], start [0xDC, 0x31] [(r 1, 0x1205)],
      start [0xD7, 0xB0, 0x02, 0x00] []].map fun s => (controls s).map Prod.fst) =
    [some ⟨2, true, .none, false⟩, some ⟨1, true, .none, true⟩, some ⟨1, true, .page 0x040, false⟩,
      some ⟨2, true, .page 3, false⟩, some ⟨2, true, .page 3, true⟩, some ⟨1, true, .seg 1, false⟩,
      some ⟨4, true, .seg 5, false⟩, some ⟨4, true, .seg 2, true⟩] := by decide +kernel

/-- Vector Y1: SRST. -/
theorem test_step_software_reset :
    yields (start [0xB7, 0x48, 0xB7, 0xB7] [(0xFF10, 0xF81F), (0xFE12, 0xFA00), (0xFE10, 0xFB00), (0xFE00, 7), (0xFFAC, 4)],
      [0xFE12, 0xFE10, 0xFE00, 0xFE02, 0xFFAC], [0, 0, 0xFC00, 0xFC00, 0, 1, 0]) = true ∧
    (controls (start [0xB7, 0x48, 0xB7, 0xB7] [])).map (fun x => x.2.2.2.2) = some .software := by decide +kernel

/-- The host's interface: the word 2128H, SUB R2, #1 (vector A12), decodes and runs first after reset. -/
theorem test_fetch_word :
    decodeTableWord 16 0x2128 = some (.subRwData3 2 1) ∧
    yields (State.reset.withFetchWord 16 0x2128, [r 2], [2, 3, 0xFFFF]) = true := by decide +kernel

/-! ## Witnesses: a state and operands that meet a statement's hypotheses, for each clause, at boundary values -/

/-- The machine after reset. -/
def s0 : State := State.reset

/-- The highest register bank. -/
def high : State := { State.reset with cp := 0xFFE0 }

/-- Segmentation disabled. -/
def flat : State := { State.reset with syscon := 0x0800 }

/-- A bank above FFE0H. -/
def tooHigh : State := { State.reset with cp := 0xFFE2 }

/-- The outcome is a next state. -/
def goesOn (o : Host.Outcome State Fault Refusal) : Bool :=
  match o with
  | .next _ => true
  | .fault _ => false
  | .refused _ => false

/-- The outcome is a next state in which no trap flag is set. -/
def noTrap (o : Host.Outcome State Fault Refusal) : Bool :=
  match o with
  | .next t => t.tfr == 0
  | .fault _ => false
  | .refused _ => false

theorem exists_next (o : Host.Outcome State Fault Refusal) (h : goesOn o = true) : ∃ t, o = .next t := by
  cases o with
  | next t => exact ⟨t, rfl⟩
  | fault f => cases h
  | refused e => cases h

theorem exists_next_noTrap (o : Host.Outcome State Fault Refusal) (h : noTrap o = true) :
    ∃ t, o = .next t ∧ t.tfr = 0 := by
  cases o with
  | next t => exact ⟨t, rfl, by simpa [noTrap] using h⟩
  | fault f => cases h
  | refused e => cases h

theorem test_witness_EncodeThenDecode :
    wellFormed (.extprPag 0x3FF 4) = true ∧ wellFormed (.orbRbInd 15 3) = true := by decide

theorem test_witness_DecodedIsWellFormed :
    decode 0xD7 0xF0 0xFF 0x03 = .ok (.extprPag 0x3FF 4) ∧ decode 0x79 0xFB 0 0 = .ok (.orbRbInd 15 3) := by
  decide +kernel

/-- A four-byte instruction across the end of a segment, with segmentation disabled. -/
def wrapping : State := { flat with ip := 0xFFFE }.withFetchWord 32 0x1234F102

theorem test_witness_StepRunsDecoded :
    nextEvent wrapping = none ∧ wrapping.run = .running ∧ wrapping.ip.getLsbD 0 = false ∧
    (segmentationDisabled wrapping = true ∧ wrapping.csp = 0) ∧
    readStop wrapping .word (codeAddr (lowByte wrapping.csp) wrapping.ip) = none ∧
    readStop wrapping .word (codeAddr (lowByte wrapping.csp) (wrapping.ip + 2)) = none ∧
    decode (peekByte wrapping 0xFFFE) (peekByte wrapping 0xFFFF) (peekByte wrapping 0) (peekByte wrapping 1) =
      .ok (.addRegMem 0xF1 0x1234) := by
  refine ⟨?_, ?_, ?_, ?_, ?_, ?_, ?_⟩ <;> decide +kernel

theorem test_witness_FetchTraps :
    (nextEvent s0 = none ∧ s0.run = .running ∧ segmentationDisabled s0 = false) ∧
    (nextEvent flat = none ∧ flat.run = .running ∧ segmentationDisabled flat = true ∧ flat.csp = 0) ∧
    (segmentationDisabled { flat with csp := 0xFF } = true ∧ ({ flat with csp := 0xFF } : State).csp ≠ 0 ∧
      ({ flat with csp := 0xFF } : State).ip.getLsbD 0 = false) ∧
    ({ s0 with ip := 0xFFFF } : State).ip.getLsbD 0 = true ∧
    peekByte (start [0x3B, 0x00] []) 0x100 ∈ undefinedOpcodes ∧
    decodeBytes ([0, 1, 2, 3].map fun k => peekByte (start [0xB7, 0x48, 0xB7, 0xB6] []) (0x100 + k)) =
      .error .protectedMismatch ∧
    decode 0xCC 0x01 0 0 = .error .nonCanonical ∧
    readStop s0 .word 0x100 = none ∧ readStop s0 .word 0x102 = none := by
  refine ⟨⟨?_, ?_, ?_⟩, ⟨?_, ?_, ?_, ?_⟩, ⟨?_, ?_, ?_⟩, ?_, ?_, ?_, ?_, ?_, ?_⟩ <;> decide +kernel

theorem test_witness_AluResult :
    (aluForm (.orbRbIndInc 15 3) = some (.or, .byte, .gpr 15, .loc (.ind 3 .postInc)) ∧ high.cp ≤ 0xFFE0 ∧
      sourcePointerPlain high (.loc (.ind 3 .postInc)) = true ∧ canWrite high .byte 0xFFEF = true ∧
      sourceReady high.cp (touch 0xFFEF high) .byte (.loc (.ind 3 .postInc)) = true) ∧
    (aluForm (.addMemReg 0xFFFE 0x88) = some (.add, .word, .mem 0xFFFE, .loc (.reg 0x88)) ∧ s0.cp ≤ 0xFFE0 ∧
      canWrite s0 .word (operandAddr s0.cp s0 .word (.mem 0xFFFE)) = true ∧
      sourceReady s0.cp s0 .word (.loc (.reg 0x88)) = true) := by
  refine ⟨⟨?_, ?_, ?_, ?_, ?_⟩, ?_, ?_, ?_, ?_⟩ <;> decide +kernel

theorem test_witness_contextPointer :
    0xFFE0 < tooHigh.cp ∧
    (aluForm (.addRwRw 0 0) = some (.add, .word, .gpr 0, .loc (.gpr 0)) ∧ (Loc.gpr 0).isGpr = true) ∧
    (compareForm (.cmpbRegData8 0xF0 1) = some (.byte, .reg 0xF0, .imm 1) ∧ (Loc.reg 0xF0).isGpr = true) ∧
    stepForm (.cmpi1RwData4 0 1) = some (1, 0, .imm 1) ∧
    moveForm (.movMemInd 0 15) = some (.same .word, .mem 0, .loc (.ind 15 .plain)) ∧
    moveForm (.movRwData4 0 1) = some (.same .word, .gpr 0, .imm 1) := by
  refine ⟨?_, ⟨?_, ?_⟩, ⟨?_, ?_⟩, ?_, ?_, ?_⟩ <;> decide +kernel

theorem test_witness_ComplementResult :
    high.cp ≤ 0xFFE0 ∧ canWrite high .word (gprAddr high.cp .word 15) = true ∧
    canWrite high .byte (gprAddr high.cp .byte 15) = true := by decide +kernel

theorem test_witness_ProductResult :
    high.cp ≤ 0xFFE0 ∧ canRead high .word (gprAddr high.cp .word 0) = true ∧
    canRead high .word (gprAddr high.cp .word 15) = true := by decide +kernel

/-- Register 1 holds `y`, and MDH and MDL hold `h` and `l`. -/
def dividing (h l y : Word) : State := start [] [(r 1, y), (0xFE0C, h), (0xFE0E, l)]

theorem test_witness_QuotientResult :
    canRead (dividing 0 0 1) .word (r 1) = true ∧ (dividing 0 0 1).cp ≤ 0xFFE0 ∧
    peekWord (dividing 0 0 1) (gprAddr 0xFC00 .word 1) = 1 ∧
    (dividing 0 0x8000 1).mdl.toInt.tdiv (peekWord (dividing 0 0x8000 1) (r 1)).toInt = -32768 ∧
    (dividing 0 0x8001 0xFFFF).mdl.toInt.tdiv (peekWord (dividing 0 0x8001 0xFFFF) (r 1)).toInt = 32767 ∧
    ((dividing 0xFFFF 0x8000 1).mdh ++ (dividing 0xFFFF 0x8000 1).mdl : BitVec 32).toInt.tdiv 1 = -32768 ∧
    (dividing 0 0xFFFF 1).mdl.toNat / 1 = 65535 ∧
    ((dividing 1 0xFFFF 2).mdh.toNat * 65536 + (dividing 1 0xFFFF 2).mdl.toNat) / 2 = 65535 := by
  refine ⟨?_, ?_, ?_, ?_, ?_, ?_, ?_, ?_⟩ <;> decide +kernel

theorem test_witness_InvalidQuotientResult :
    canRead s0 .word (gprAddr s0.cp .word 1) = true ∧ peekWord s0 (gprAddr s0.cp .word 1) = 0 ∧
    ((dividing 0 0x8000 1).mdh ++ (dividing 0 0x8000 1).mdl : BitVec 32).toInt.tdiv (1 : Word).toInt = 32768 ∧
    ((dividing 0xFFFF 0x7FFF 1).mdh ++ (dividing 0xFFFF 0x7FFF 1).mdl : BitVec 32).toInt.tdiv (1 : Word).toInt = -32769 ∧
    (peekWord (dividing 1 0 1) (r 1)).toNat ≤ (dividing 1 0 1).mdh.toNat ∧
    (dividing 0 0x8000 0xFFFF).mdl = 0x8000 ∧ peekWord (dividing 0 0x8000 0xFFFF) (r 1) = 0xFFFF := by
  refine ⟨?_, ?_, ?_, ?_, ?_, ?_, ?_⟩ <;> decide +kernel

theorem test_witness_PriorResult :
    high.cp ≤ 0xFFE0 ∧ canRead high .word (gprAddr high.cp .word 0) = true ∧
    canWrite high .word (gprAddr high.cp .word 15) = true := by decide +kernel

theorem test_witness_CompareResult :
    (compareForm (.cmpbRbIndInc 15 3) = some (.byte, .gpr 15, .loc (.ind 3 .postInc)) ∧
      sourcePointerPlain high (.loc (.ind 3 .postInc)) = true ∧ canRead high .byte 0xFFEF = true ∧
      sourceReady high.cp (touch 0xFFEF high) .byte (.loc (.ind 3 .postInc)) = true) ∧
    (stepForm (.cmpd2RwMem 15 0xFFFE) = some (-2, 15, .loc (.mem 0xFFFE)) ∧
      canWrite s0 .word (gprAddr s0.cp .word 15) = true ∧ sourceReady s0.cp s0 .word (.loc (.mem 0xFFFE)) = true) := by
  refine ⟨⟨?_, ?_, ?_, ?_⟩, ?_, ?_, ?_⟩ <;> decide +kernel

theorem test_witness_ShiftResult :
    shiftForm (.ashrRwRw 15 15) = some (.ashr, 15, .loc (.gpr 15)) ∧ high.cp ≤ 0xFFE0 ∧
    sourceReady high.cp high .word (.loc (.gpr 15)) = true ∧ canWrite high .word (gprAddr high.cp .word 15) = true := by
  refine ⟨?_, ?_, ?_, ?_⟩ <;> decide +kernel

theorem test_witness_BitAssignResult :
    [(0x00 : Byte), 0x7F, 0x88, 0xF0, 0xFF].all (fun qq =>
      (shortStop s0.cp qq).isNone && canWrite s0 .word (bitoffAddr s0 qq)) = true := by decide +kernel

theorem test_witness_BitPairResult :
    bitForm (.bmovn 0x88 15 0xFF 0) = some (.movn, 0x88, 15, 0xFF, 0) ∧ shortStop s0.cp 0x88 = none ∧
    shortStop s0.cp 0xFF = none ∧ canRead s0 .word (bitoffAddr s0 0x88) = true ∧
    canRead s0 .word (bitoffAddr s0 0xFF) = true ∧ canWrite s0 .word (bitoffAddr s0 0x88) = true := by
  refine ⟨?_, ?_, ?_, ?_, ?_, ?_⟩ <;> decide +kernel

theorem test_witness_BitFieldResult :
    shortStop s0.cp 0xFF = none ∧ canWrite s0 .word (bitoffAddr s0 0xFF) = true ∧
    shortStop s0.cp 0x88 = none ∧ canWrite s0 .word (bitoffAddr s0 0x88) = true := by
  refine ⟨?_, ?_, ?_, ?_⟩ <;> decide +kernel

theorem test_witness_MoveResult :
    (moveForm (.movbIndDecRb 15 0) = some (.same .byte, .ind 15 .preDec, .loc (.gpr 0)) ∧
      pointerPlain s0 (.ind 15 .preDec) = true ∧ sourceReady s0.cp s0 .byte (.loc (.gpr 0)) = true ∧
      operandAddr s0.cp (prepared s0.cp .byte (.ind 15 .preDec) s0) .byte (.ind 15 .preDec) = 0xFFFF ∧
      canWrite (prepared s0.cp .byte (.ind 15 .preDec) s0) .byte 0xFFFF = true) ∧
    (moveForm (.movbsMemReg 0xFFFE 0xFF) = some (.signed, .mem 0xFFFE, .loc (.reg 0xFF)) ∧
      sourceReady s0.cp s0 .byte (.loc (.reg 0xFF)) = true ∧ canWrite s0 .word (dataAddr s0 0xFFFE) = true) := by
  refine ⟨⟨?_, ?_, ?_, ?_, ?_⟩, ?_, ?_, ?_⟩ <;> decide +kernel

theorem test_witness_JumpResult :
    condHolds .uc s0.flags = true ∧ condHolds .z s0.flags = false ∧ s0.cp ≤ 0xFFE0 ∧
    canRead s0 .word (gprAddr s0.cp .word 15) = true ∧ segmentationDisabled s0 = false ∧
    segmentationDisabled flat = true ∧ (0xFF : Byte) ≠ 0 := by
  refine ⟨?_, ?_, ?_, ?_, ?_, ?_, ?_⟩ <;> decide +kernel

theorem test_witness_RelativeTargets :
    s0.ip.getLsbD 0 = false ∧ s0.ip = (0xFFFE : Word) + 2 ∧ s0.ip = (0xFFFC : Word) + 4 := by decide

theorem test_witness_BitJumpResult :
    [(0x00 : Byte), 0x7F, 0x88, 0xF0, 0xFF].all (fun qq => (shortStop s0.cp qq).isNone &&
      canRead s0 .word (bitoffAddr s0 qq) && canWrite s0 .word (bitoffAddr s0 qq)) = true := by decide +kernel

theorem test_witness_CallResult :
    condHolds .uc s0.flags = true ∧ condHolds .ule s0.flags = false ∧ pushReady s0 = true ∧ s0.cp ≤ 0xFFE0 ∧
    canRead s0 .word (gprAddr s0.cp .word 15) = true := by
  refine ⟨?_, ?_, ?_, ?_, ?_⟩ <;> decide +kernel

theorem test_witness_LongCallResult :
    segmentationDisabled s0 = false ∧ segmentationDisabled flat = true ∧ pushReady s0 = true ∧
    pushReady (pushed s0.csp s0) = true ∧ shortStop s0.cp 0xFF = none ∧
    canRead s0 .word (regAddr s0.cp s0 .word 0xFF) = true ∧
    pushReady (pushed (peekWord s0 (regAddr s0.cp s0 .word 0xFF)) (touch (regAddr s0.cp s0 .word 0xFF) s0)) = true := by
  refine ⟨?_, ?_, ?_, ?_, ?_, ?_, ?_⟩ <;> decide +kernel

theorem test_witness_SoftwareTrapResult :
    Memory.wf s0.mem = true ∧ stackPlain s0 3 = true ∧ segmentationDisabled s0 = false ∧
    stackPlain flat 3 = true ∧ segmentationDisabled flat = true := by
  refine ⟨?_, ?_, ?_, ?_, ?_⟩ <;> decide +kernel

theorem test_witness_ReturnResult :
    popReady s0 = true ∧ popReady (popped s0) = true ∧ segmentationDisabled s0 = false ∧
    lowByte (topWord (popped s0)) = 0 ∧
    (segmentationDisabled { start [] [(0xFC02, 1)] with syscon := 0x0800 } = true ∧
      lowByte (topWord (popped (start [] [(0xFC02, 1)]))) ≠ 0) ∧
    shortStop s0.cp 0xFF = none ∧ canWrite s0 .word (regAddr s0.cp s0 .word 0xFF) = true := by
  refine ⟨?_, ?_, ?_, ?_, ⟨?_, ?_⟩, ?_, ?_⟩ <;> decide +kernel

theorem test_witness_ReturnFromInterruptResult :
    (popReady s0 = true ∧ popReady (popped s0) = true ∧ popReady { popped (popped s0) with csp := 0 } = true ∧
      segmentationDisabled s0 = false ∧ (topWord { popped (popped s0) with csp := 0 }).getLsbD 5 = false) ∧
    (topWord { popped (popped (start [] [(0xFC04, 0x20)])) with csp := 0 }).getLsbD 5 = true ∧
    (popReady flat = true ∧ popReady (popped flat) = true ∧ segmentationDisabled flat = true ∧
      (topWord (popped flat)).getLsbD 5 = false) ∧
    segmentationDisabled (start [] [(0xFF12, 0x0800), (0xFC02, 0x20)]) = true ∧
    (topWord (popped (start [] [(0xFF12, 0x0800), (0xFC02, 0x20)]))).getLsbD 5 = true := by
  refine ⟨⟨?_, ?_, ?_, ?_, ?_⟩, ?_, ⟨?_, ?_, ?_, ?_⟩, ?_, ?_⟩ <;> decide +kernel

theorem test_witness_SequenceResult :
    sequenceForm (.extprPag 0x3FF 4) = some ⟨4, true, .page 0x3FF, true⟩ ∧
    (∃ f, registerSequenceForm (.extsrRw 15 4) = some (15, f)) ∧ high.cp ≤ 0xFFE0 ∧
    canRead high .word (gprAddr high.cp .word 15) = true :=
  ⟨rfl, ⟨_, rfl⟩, by decide +kernel, by decide +kernel⟩

theorem test_witness_StackMoveResult :
    [(0x00 : Byte), 0x88, 0xF0, 0xFF].all (fun reg => (shortStop s0.cp reg).isNone && pushReady s0 && popReady s0 &&
      canRead s0 .word (regAddr s0.cp s0 .word reg) && canWrite s0 .word (regAddr s0.cp s0 .word reg) &&
      canRead s0 .word (dataAddr s0 0xFFFE)) = true := by decide +kernel

theorem test_witness_AluFrame :
    aluForm (.subcRegMem 0xFF 0xFFFE) = some (.subc, .word, .reg 0xFF, .loc (.mem 0xFFFE)) ∧
    locate s0.cp .word (.reg 0xFF) s0 = .ok (0x00FC1E, s0) ∧
    ∃ t, exec (.subcRegMem 0xFF 0xFFFE) s0 = .next t ∧ t.tfr = 0 :=
  ⟨rfl, rfl, exists_next_noTrap _ (by decide +kernel)⟩

theorem test_witness_CompareFrame :
    compareForm (.cmpRwIndInc 15 3) = some (.word, .gpr 15, .loc (.ind 3 .postInc)) ∧
    (∃ t, exec (.cmpRwIndInc 15 3) s0 = .next t ∧ t.tfr = 0) ∧
    (∃ t, exec (.bcmp 0x88 15 0xFF 0) s0 = .next t ∧ t.tfr = 0) :=
  ⟨rfl, exists_next_noTrap _ (by decide +kernel), exists_next_noTrap _ (by decide +kernel)⟩

theorem test_witness_GprFrame :
    gprDestination (.prior 15 0) = some (.word, 15) ∧ (∃ t, exec (.prior 15 0) s0 = .next t ∧ t.tfr = 0) ∧
    gprDestination (.negb 15) = some (.byte, 15) ∧ (∃ t, exec (.negb 15) s0 = .next t ∧ t.tfr = 0) :=
  ⟨rfl, exists_next_noTrap _ (by decide +kernel), rfl, exists_next_noTrap _ (by decide +kernel)⟩

theorem test_witness_MultiplyDivideFrame :
    Instr.divlu 1 ∈ [Instr.mul 1 2, .mulu 1 2, .div 1, .divu 1, .divl 1, .divlu 1] ∧
    ∃ t, exec (.divlu 1) (dividing 1 0xFFFF 2) = .next t ∧ t.tfr = 0 :=
  ⟨by decide, exists_next_noTrap _ (by decide +kernel)⟩

theorem test_witness_MoveFrame :
    moveForm (.movIndDecRw 15 0) = some (.same .word, .ind 15 .preDec, .loc (.gpr 0)) ∧
    (∃ t, exec (.movIndDecRw 15 0) s0 = .next t ∧ t.tfr = 0) ∧
    readSource s0.cp .word (.loc (.gpr 0)) s0 = .ok (0, s0) ∧
    locate s0.cp .word (.ind 15 .preDec) s0 = .ok (0x00FFFE, pokeWord 0x00FC1E 0xFFFE s0) :=
  ⟨rfl, exists_next_noTrap _ (by decide +kernel), rfl, rfl⟩

theorem test_witness_BitFrame :
    bitDestination (.jnbs 0xFF 15 0x80) = some 0xFF ∧ (∃ t, exec (.jnbs 0xFF 15 0x80) s0 = .next t ∧ t.tfr = 0) ∧
    bitDestination (.bset 0x88 15) = some 0x88 ∧ (∃ t, exec (.bset 0x88 15) s0 = .next t ∧ t.tfr = 0) :=
  ⟨rfl, exists_next_noTrap _ (by decide +kernel), rfl, exists_next_noTrap _ (by decide +kernel)⟩

theorem test_witness_NoStoreFrame :
    (∃ t, exec (.jnb 0x87 4 0x80) s0 = .next t ∧ t.tfr = 0) ∧ (∃ t, exec (.jmpi .uc 15) s0 = .next t ∧ t.tfr = 0) ∧
    (∃ f, registerSequenceForm (.extpRw 15 4) = some (15, f)) ∧
    (∃ t, exec (.extpRw 15 4) s0 = .next t ∧ t.tfr = 0) :=
  ⟨exists_next_noTrap _ (by decide +kernel), exists_next_noTrap _ (by decide +kernel), ⟨_, rfl⟩,
    exists_next_noTrap _ (by decide +kernel)⟩

theorem test_witness_PushFrame :
    (∃ t, exec (.push 0x88) s0 = .next t ∧ t.tfr = 0) ∧ (∃ t, exec (.calla .uc 0xFFFE) s0 = .next t ∧ t.tfr = 0) ∧
    (∃ t, exec (.scxtRegData16 0xFF 1) s0 = .next t ∧ t.tfr = 0) ∧
    locate s0.cp .word (.reg 0xFF) s0 = .ok (0x00FC1E, s0) ∧
    (∃ t, exec (.calls 0xFF 0xFFFE) s0 = .next t ∧ t.tfr = 0) ∧ (∃ t, exec (.pcall 0xFF 0) s0 = .next t ∧ t.tfr = 0) ∧
    readLoc s0.cp .word (.reg 0xFF) s0 = .ok (0, s0) ∧ push 0 s0 = .ok (pushed 0 s0) ∧
    push 0 (pushed 0 s0) = .ok (pushed 0 (pushed 0 s0)) :=
  ⟨exists_next_noTrap _ (by decide +kernel), exists_next_noTrap _ (by decide +kernel),
    exists_next_noTrap _ (by decide +kernel), rfl, exists_next_noTrap _ (by decide +kernel),
    exists_next_noTrap _ (by decide +kernel), rfl, rfl, rfl⟩

theorem test_witness_PopFrame :
    (∃ t, exec (.pop 0xFF) s0 = .next t ∧ t.tfr = 0) ∧ (∃ t, exec (.retp 0xFF) s0 = .next t ∧ t.tfr = 0) ∧
    locate s0.cp .word (.reg 0xFF) s0 = .ok (0x00FC1E, s0) ∧ (∃ t, exec .ret s0 = .next t ∧ t.tfr = 0) ∧
    (∃ t, exec .rets s0 = .next t ∧ t.tfr = 0) ∧ (∃ t, exec .reti s0 = .next t ∧ t.tfr = 0) :=
  ⟨exists_next_noTrap _ (by decide +kernel), exists_next_noTrap _ (by decide +kernel), rfl,
    exists_next_noTrap _ (by decide +kernel), exists_next_noTrap _ (by decide +kernel),
    exists_next_noTrap _ (by decide +kernel)⟩

theorem test_witness_HardwareTrapEntry : Memory.wf s0.mem = true ∧ stackPlain s0 3 = true := by decide +kernel

/-- R15 holds an odd address. -/
def oddPointer : State := start [] [(r 15, 1)]

/-- A register bank at an odd CP, which no run reaches. -/
def oddBank : State := { State.reset with cp := 0xFC01 }

theorem test_witness_OddWordTraps :
    ((1 : Addr).getLsbD 0 = true ∧ oddPointer.cp ≤ 0xFFE0) ∧
    (aluForm (.addMemReg 0xFFFF 0xFF) = some (.add, .word, .mem 0xFFFF, .loc (.reg 0xFF)) ∧
      meetsOdd oddPointer.cp oddPointer .word (.mem 0xFFFF) = true) ∧
    (compareForm (.cmpRegMem 0xFF 0xFFFF) = some (.word, .reg 0xFF, .loc (.mem 0xFFFF)) ∧
      canRead oddPointer .word (regAddr oddPointer.cp oddPointer .word 0xFF) = true ∧
      sourceMeetsOdd oddPointer.cp (touch (regAddr oddPointer.cp oddPointer .word 0xFF) oddPointer) .word (.loc (.mem 0xFFFF)) =
        true) ∧
    (aluForm (.addbRbInd 15 3) = some (.add, .byte, .gpr 15, .loc (.ind 3 .plain)) ∧
      canRead oddBank .byte (gprAddr oddBank.cp .byte 15) = true ∧
      sourceMeetsOdd oddBank.cp (touch (gprAddr oddBank.cp .byte 15) oddBank) .byte (.loc (.ind 3 .plain)) = true) ∧
    (stepForm (.cmpi1RwMem 15 0xFFFF) = some (1, 15, .loc (.mem 0xFFFF)) ∧
      canRead s0 .word (gprAddr s0.cp .word 15) = true ∧
      sourceMeetsOdd s0.cp (touch (gprAddr s0.cp .word 15) s0) .word (.loc (.mem 0xFFFF)) = true) ∧
    (moveForm (.movRwIndInc 0 15) = some (.same .word, .gpr 0, .loc (.ind 15 .postInc)) ∧
      sourceMeetsOdd oddPointer.cp oddPointer .word (.loc (.ind 15 .postInc)) = true) ∧
    (moveForm (.movIndDecRw 15 0) = some (.same .word, .ind 15 .preDec, .loc (.gpr 0)) ∧
      sourcePointerPlain oddPointer (.loc (.gpr 0)) = true ∧ sourceReady oddPointer.cp oddPointer .word (.loc (.gpr 0)) = true ∧
      meetsOdd oddPointer.cp (prepared oddPointer.cp .word (.ind 15 .preDec) (afterSource oddPointer.cp oddPointer .word
        (.loc (.gpr 0)))) .word (.ind 15 .preDec) = true) := by
  refine ⟨⟨?_, ?_⟩, ⟨?_, ?_⟩, ⟨?_, ?_, ?_⟩, ⟨?_, ?_, ?_⟩, ⟨?_, ?_, ?_⟩, ⟨?_, ?_⟩, ?_, ?_, ?_, ?_⟩ <;> decide +kernel

theorem test_witness_OddWordTraps_bank :
    (oddBank.cp.getLsbD 0 = true ∧ oddBank.cp ≤ 0xFFE0 ∧ gprDestination (.neg 15) = some (.word, 15) ∧
      condHolds .uc oddBank.flags = true ∧ ∃ f, registerSequenceForm (.extpRw 15 4) = some (15, f)) ∧
    (bitDestination (.bset 0xFF 15) = some 0xFF ∧ (bitoffAddr oddBank 0xFF).getLsbD 0 = true ∧
      bitForm (.bmov 0x7F 15 0xFF 0) = some (.mov, 0x7F, 15, 0xFF, 0) ∧
      canRead oddBank .word (bitoffAddr oddBank 0x7F) = true) ∧
    ((regAddr oddBank.cp oddBank .word 0xFF).getLsbD 0 = true ∧ popReady oddBank = true ∧
      popReady (popped oddBank) = true) ∧
    (canRead s0 .word (regAddr s0.cp s0 .word 0xFF) = true ∧
      (dataAddr (touch (regAddr s0.cp s0 .word 0xFF) s0) 0xFFFF).getLsbD 0 = true) ∧
    ({ s0 with sp := 0xFC01 } : State).sp.getLsbD 0 = true :=
  ⟨⟨by decide +kernel, by decide +kernel, rfl, by decide +kernel, _, rfl⟩,
    by refine ⟨?_, ?_, ?_, ?_⟩ <;> decide +kernel, by refine ⟨?_, ?_, ?_⟩ <;> decide +kernel,
    by refine ⟨?_, ?_⟩ <;> decide +kernel, by decide +kernel⟩

theorem test_witness_ClassBEndsSequence :
    (HwTrap.illopa.classB = true ∧ ∃ t, raise .illopa 0 { s0 with seq := ⟨4, true, .page 0x3FF, true⟩ } = .next t) ∧
    ({ s0 with tfr := 0x0080 } : State).tfr &&& 0x008F ≠ 0 ∧ Memory.wf s0.mem = true ∧ stackPlain s0 3 = true ∧
    ({ s0 with seq := ⟨1, true, .none, false⟩ } : State).seq.lock = true :=
  ⟨⟨rfl, exists_next _ (by decide +kernel)⟩, by decide, by decide, by decide +kernel, rfl⟩

theorem test_witness_EntryThenReturn :
    (StateInv s0 ∧ stackPlain s0 3 = true ∧ s0.psw.getLsbD 5 = false ∧
      ∃ t, exec (.trap 0x7F) s0 = .next t ∧ t.tfr = 0) ∧
    (StateInv flat ∧ stackPlain flat 3 = true ∧ ∃ t, exec (.trap 0x7F) flat = .next t ∧ t.tfr = 0) ∧
    (StateInv { s0 with psw := 0x0020 } ∧ stackPlain { s0 with psw := 0x0020 } 3 = true ∧
      ({ s0 with psw := 0x0020 } : State).psw.getLsbD 5 = true ∧
      ∃ t, exec (.trap 0) { s0 with psw := 0x0020 } = .next t ∧ t.tfr = 0) :=
  ⟨⟨by unfold StateInv; decide +kernel, by decide +kernel, rfl, exists_next_noTrap _ (by decide +kernel)⟩,
    ⟨by unfold StateInv; decide +kernel, by decide +kernel, exists_next_noTrap _ (by decide +kernel)⟩,
    ⟨by unfold StateInv; decide +kernel, by decide +kernel, rfl, exists_next_noTrap _ (by decide +kernel)⟩⟩

theorem test_witness_EventAcceptance :
    nextEvent { s0 with pending := [.irq 15 0x7F], psw := 0xE800 } = some (.irq 15 0x7F) ∧
    nextEvent { s0 with pending := [.irq 15 0x7F], psw := 0xF800 } = none ∧
    nextEvent { s0 with pending := [.pec 1 .byte 0 0], psw := 0x0800 } = some (.pec 1 .byte 0 0) ∧
    nextEvent { s0 with pending := [.nmi] } = some .nmi ∧
    nextEvent { s0 with pending := [.wdtOverflow], run := .powerdown } = none ∧
    nextEvent { s0 with pending := [.hardwareReset], run := .powerdown } = some .hardwareReset := by
  refine ⟨?_, ?_, ?_, ?_, ?_, ?_⟩ <;> decide +kernel

theorem test_witness_InterruptEntry :
    nextEvent { s0 with pending := [.irq 1 0x7F], psw := 0x0800, run := .idle } = some (.irq 1 0x7F) ∧
    Memory.wf s0.mem = true ∧ stackPlain { s0 with pending := [.irq 1 0x7F], psw := 0x0800, run := .idle } 3 = true := by
  refine ⟨?_, ?_, ?_⟩ <;> decide +kernel

theorem test_witness_PoweredDownWaits :
    Event.hardwareReset ∉ ({ s0 with run := .powerdown, pending := [.nmi] } : State).pending ∧
    Event.hardwareReset ∈ ({ s0 with run := .powerdown, pending := [.nmi, .hardwareReset] } : State).pending ∧
    nextEvent { s0 with run := .idle } = none := by decide +kernel

theorem test_witness_SequenceCountsDown :
    (sequenceForm (.atomic 4)).isSome ∧ (registerSequenceForm (.extpRw 15 1)).isSome ∧
    sequenceForm .nop = none ∧ (registerSequenceForm .nop).isNone ∧
    sequenceOk ⟨4, true, .page 0x3FF, true⟩ = true ∧ sequenceOk ⟨2, true, .seg 0xFF, false⟩ = true ∧
    sequenceOk ⟨1, true, .none, false⟩ = true ∧ sequenceOk s0.seq = true ∧ Instr.idle ≠ .nop ∧
    ({ s0 with seq := ⟨1, true, .none, false⟩ } : State).seq.count = 1 ∧ sequenceForm .idle = none ∧ (registerSequenceForm .idle).isNone := by decide

theorem test_witness_AddressOverrides :
    ({ s0 with seq := ⟨1, true, .page 0x3FF, false⟩ } : State).tfr &&& 0x008F = 0 ∧
    ({ s0 with seq := ⟨1, true, .seg 0xFF, false⟩ } : State).tfr &&& 0x008F = 0 := by decide

theorem test_witness_DataPagePointers :
    s0.seq.override = .none ∧ s0.dpp0 = 0 ∧ s0.dpp1 = 1 ∧ s0.dpp2 = 2 ∧ s0.dpp3 = 3 := by decide

theorem test_witness_BitoffAddresses :
    (bitoffAddr s0 0x7F).toNat = 0xFDFE ∧ (bitoffAddr s0 0x80).toNat = 0xFF00 ∧ (bitoffAddr s0 0xEF).toNat = 0xFFDE ∧
    (bitoffAddr { s0 with seq := ⟨1, true, .none, true⟩ } 0x80).toNat = 0xF100 ∧
    (bitoffAddr { s0 with seq := ⟨1, true, .none, true⟩ } 0xEF).toNat = 0xF1DE ∧
    (bitoffAddr s0 0xF0).toNat = 0xFC00 ∧ (bitoffAddr s0 0xFF).toNat = 0xFC1E := by decide +kernel

/-- The register bank lies over the CPU registers: RL7 and RH7 are the bytes of MDL. -/
def overMdl : State := { State.reset with cp := 0xFE00, mdl := 0x1234 }

theorem test_witness_StoreThenLoad :
    (Memory.wf s0.mem = true ∧ plainWord s0 0xFFFFFE = true ∧ stackPlain s0 1 = true ∧ CpuReg.sp.stored s0.sp = s0.sp) ∧
    (Memory.wf overMdl.mem = true ∧ (Loc.gpr 15).isGpr = true ∧ (Loc.reg 0xFF).isGpr = true ∧
      canWrite overMdl .byte (gprAddr overMdl.cp .byte 15) = true ∧ registersOk overMdl = true ∧
      cpuRegAt (gprAddr overMdl.cp .byte 15) = some .mdl) ∧
    (canWrite s0 .word 0x00FE10 = true ∧ canWrite s0 .word 0x00FFAC = true) := by
  refine ⟨⟨?_, ?_, ?_, ?_⟩, ⟨?_, ?_, ?_, ?_, ?_, ?_⟩, ?_, ?_⟩ <;> decide +kernel

theorem test_witness_StoreThenLoad_registers :
    (0x00FE10, s0.cp, fun v => { s0 with cp := (v ||| 0xF000) &&& 0xFFFE }) ∈ dataRegisters s0 ∧
    (0x00FFAC, s0.tfr, fun v => { s0 with tfr := v }) ∈ dataRegisters s0 :=
  ⟨.head _, List.mem_of_getElem? (i := 10) rfl⟩

/-- R15 points at the high byte of PSW. -/
def atPsw : State := start [] [(r 15, 0xFF11)]

theorem test_witness_PswDestination :
    canWrite atPsw .word 0x00FF10 = true ∧ atPsw.seq.esfr = false ∧ atPsw.psw &&& 0x0380 = 0 ∧ dataAddr atPsw 0xFF11 = 0x00FF11 ∧ atPsw.cp ≤ 0xFFE0 ∧
    plainWord atPsw (gprAddr atPsw.cp .word 15) = true ∧ pointerWord atPsw.cp atPsw 15 = 0xFF11 ∧
    canRead atPsw .byte (gprAddr atPsw.cp .byte 15) = true ∧ cpuRegAt (gprAddr atPsw.cp .byte 15) = none := by
  refine ⟨?_, ?_, ?_, ?_, ?_, ?_, ?_, ?_, ?_⟩ <;> decide +kernel

theorem test_witness_MultiplyDivideInUse :
    readMem .byte 0x00FE0F s0 = .ok (0, s0) ∧ readMem .word 0x00FE0C s0 = .ok (0, s0) ∧
    writeMem .word 0x00FE0E (0x1234 : Word) s0 = .ok { s0 with mdl := 0x1234, mdc := 0x0010 } ∧
    writeMem .word 0x00FE0C (0x1234 : Word) s0 = .ok { s0 with mdh := 0x1234, mdc := 0x0010 } ∧
    (0x00FE0F : Addr).toNat / 2 = 0x00FE0E / 2 :=
  ⟨rfl, rfl, rfl, rfl, by decide⟩

theorem test_witness_StepKeepsInvariant :
    (StateInv s0 ∧ ∃ t, step s0 = .next t ∧ t.tfr = 0) ∧
    (StateInv { s0 with run := .idle, seq := lockedWait } ∧ ∃ t, step { s0 with run := .idle, seq := lockedWait } = .next t ∧
      t.tfr = 0) :=
  ⟨⟨by unfold StateInv; decide +kernel, exists_next_noTrap _ (by decide +kernel)⟩,
    ⟨by unfold StateInv; decide +kernel, exists_next_noTrap _ (by decide +kernel)⟩⟩

theorem test_witness_EventEffects :
    (nextEvent { s0 with pending := [.nmi], run := .idle } = some .nmi ∧ Memory.wf s0.mem = true ∧
      stackPlain { s0 with pending := [.nmi], run := .idle } 3 = true) ∧
    (nextEvent { s0 with pending := [.pec 1 .word 0xFFFFFE 0xFFFF], psw := 0x0800 } = some (.pec 1 .word 0xFFFFFE 0xFFFF) ∧
      canWrite { s0 with pending := [.pec 1 .word 0xFFFFFE 0xFFFF], psw := 0x0800 } .word 0xFFFFFE = true) ∧
    (nextEvent { s0 with pending := [.pec 15 .word 0xFFFFFF 0], psw := 0xE800 } = some (.pec 15 .word 0xFFFFFF 0) ∧
      (0xFFFFFF : Addr).getLsbD 0 = true) ∧
    nextEvent { s0 with pending := [.wdtOverflow] } = some .wdtOverflow ∧
    nextEvent { s0 with pending := [.hardwareReset], run := .powerdown } = some .hardwareReset := by
  refine ⟨⟨?_, ?_, ?_⟩, ⟨?_, ?_⟩, ⟨?_, ?_⟩, ?_, ?_⟩ <;> decide +kernel

/-! ## Points of the review -/

/-- Both a store ahead in ordinary memory and one in MDL, where code is fetched too, are refused (20_memory R120). -/
theorem test_store_ahead_in_register :
    writeMem .word 0x00FE0E (0 : Word) { s0 with ip := 0xFE0A } = .error (.refused .storeAhead) ∧
    writeMem .word 0x00FE0E (0 : Word) { s0 with ip := 0xFE06 } = .ok { s0 with ip := 0xFE06, mdc := 0x0010 } :=
  ⟨rfl, rfl⟩

/-- SP = FF12H, so that the pushed word lands on PSW; its flags are set all the same (49_stack_misc R461). -/
theorem test_push_onto_psw_sets_flags :
    (match exec (.push 0xF1) (start [] [(r 1, 0x8000), (0xFE12, 0xFF12)]) with
      | .next t => some (t.psw, t.sp)
      | _ => none) = some (0x8011, 0xFF10) := by decide +kernel

/-- An IDLE that is the last instruction of a sequence is counted and keeps the lock, so that no request wakes it
(48_system_control R431, 60_exceptions R532). -/
theorem test_idle_keeps_lock :
    (match step (({ s0 with seq := ⟨1, true, .seg 5, true⟩ } : State).withFetchWord 32 0x87877887) with
      | .next t => some (t.run, t.seq)
      | _ => none) = some (.idle, ⟨0, true, .none, false⟩) := by decide +kernel

/-- CPLB RH7 and CPLB RL7 with the bank over MDL = 1234H: the other byte is unchanged (40_arithmetic R217). -/
theorem test_cplb_over_register :
    [exec (.cplb 15) overMdl, exec (.cplb 14) overMdl].map (fun o => match o with
      | .next t => some t.mdl
      | _ => none) = [some 0xED34, some 0x12CB] := by decide +kernel

/-- MOVB reg F0H + 14, #5AH is a byte GPR too; at the even address of PSW the other byte is cleared (10_state R30). -/
theorem test_byte_gpr_by_reg :
    [exec (.movbRegData8 0xFE 0x5A) overMdl, exec (.movbRbData4 12 5) { s0 with cp := 0xFF04, psw := 0x1000 }].map (fun o =>
      match o with
      | .next t => some (t.mdl, t.psw)
      | _ => none) = [some (0x125A, 0), some (0, 5)] := by decide +kernel

/-- The bank lies so that R7 is MDC: MUL reads it before MDRIU is set, MULU after (40_arithmetic R210, R211). -/
theorem test_product_over_mdc :
    [exec (.mul 7 7) { s0 with cp := 0xFF00, mdc := 2 }, exec (.mulu 7 7) { s0 with cp := 0xFF00, mdc := 2 }].map
      (fun o => match o with
      | .next t => some (t.mdl, t.mdc)
      | _ => none) = [some (4, 0x12), some (0x144, 0x12)] := by decide +kernel

/-- The bank lies so that R7 is MDL: MDRIU is set after MUL and MULU, though their read clears it (10_state R36, 92 D16). -/
theorem test_product_over_mdl :
    [exec (.mul 7 7) { s0 with cp := 0xFE00, mdl := 3 }, exec (.mulu 7 7) { s0 with cp := 0xFE00, mdl := 3 }].map
      (fun o => match o with
      | .next t => some (t.mdl, t.mdc)
      | _ => none) = [some (9, 0x10), some (9, 0x10)] := by decide +kernel

/-- A stack over DPP2, DPP3 and CSP: RETI pops IP = 2, CSP = 3, and then PSW from the CSP just popped (47_return R423). -/
theorem test_reti_over_csp :
    (match exec .reti { s0 with sp := 0xFE04 } with
      | .next t => some (t.ip, t.csp, t.psw, t.sp)
      | _ => none) = some (2, 3, 3, 0xFE0A) := by decide +kernel

end Sys2Proof.Tests
end

section
/-! PROOFS. The statements of 00_scope: the value and flags of a sum and a difference (R11), and the step that runs
the decoded instruction (R10). -/

namespace Sys2Proof.Laws

open Sys2Proof.Machine

/-! ## Signed readings -/

theorem msb_eq_iff {n : Nat} (x y : BitVec n) :
    x.msb = y.msb ↔ (2 ^ n ≤ 2 * x.toNat ↔ 2 ^ n ≤ 2 * y.toNat) := by
  rw [Bool.eq_iff_iff, BitVec.msb_eq_true_iff_two_mul_ge, BitVec.msb_eq_true_iff_two_mul_ge]

theorem outOfRange_iff {n : Nat} (x : Int) :
    outOfRange n x = true ↔ x < -((2 ^ (n - 1) : Nat) : Int) ∨ ((2 ^ (n - 1) : Nat) : Int) ≤ x := by
  simp [outOfRange]

theorem setWidth_ofBool {n : Nat} (c : Bool) : (BitVec.ofBool c).setWidth n = BitVec.ofNat n c.toNat := by
  rw [← BitVec.toNat_ofBool, BitVec.ofNat_toNat]

/-! ## Sums and differences of any width -/

section Exact

variable {n : Nat} (a b : BitVec n) (c : Bool)

theorem addExact_value : (addExact a b c).value = a + b + (BitVec.ofBool c).setWidth n := by
  simp [addExact, setWidth_ofBool, BitVec.ofNat_add]

theorem addExact_carry_iff : (addExact a b c).carry = true ↔ 2 ^ n ≤ a.toNat + b.toNat + c.toNat := by
  simp [addExact]

theorem addExact_overflow :
    (addExact a b c).overflow = outOfRange n (a.toInt + b.toInt + c.toNat) := rfl

theorem subExact_carry_iff : (subExact a b c).carry = true ↔ a.toNat < b.toNat + c.toNat := by
  simp only [subExact, decide_eq_true_eq]
  omega

theorem subExact_overflow :
    (subExact a b c).overflow = outOfRange n (a.toInt - b.toInt - c.toNat) := rfl

/-- Narrowing a sum drops the modulus exactly when it carries. -/
theorem addExact_toNat :
    (addExact a b c).value.toNat + (if (addExact a b c).carry then 2 ^ n else 0) =
      a.toNat + b.toNat + c.toNat := by
  have ha := a.isLt
  have hb := b.isLt
  have hc := c.toNat_le
  have hv : (addExact a b c).value.toNat = (a.toNat + b.toNat + c.toNat) % 2 ^ n := by simp [addExact]
  simp only [hv, addExact_carry_iff]
  split
  case isTrue carry => rw [Nat.mod_eq_sub_mod carry, Nat.mod_eq_of_lt (by omega)]; omega
  case isFalse => rw [Nat.mod_eq_of_lt (by omega)]; omega

/-- Narrowing a difference adds the modulus exactly when it borrows. -/
theorem subExact_toNat :
    (subExact a b c).value.toNat + b.toNat + c.toNat =
      a.toNat + (if (subExact a b c).carry then 2 ^ n else 0) := by
  have ha := a.isLt
  have hb := b.isLt
  have hc := c.toNat_le
  have hv : (subExact a b c).value.toNat = (((a.toNat : Int) - b.toNat - c.toNat) % (2 ^ n : Nat)).toNat := by
    simp [subExact]
  simp only [hv, subExact_carry_iff]
  split
  case isTrue => rw [← Int.add_emod_right, Int.emod_eq_of_lt (by omega) (by omega)]; omega
  case isFalse => rw [Int.emod_eq_of_lt (by omega) (by omega)]; omega

theorem subExact_value : (subExact a b c).value = a - b - (BitVec.ofBool c).setWidth n := by
  have residue : ((subExact a b c).value.toNat + c.toNat + b.toNat) % 2 ^ n = a.toNat := by
    rw [Nat.add_right_comm, subExact_toNat]
    split <;> simp [Nat.mod_eq_of_lt a.isLt]
  rw [setWidth_ofBool, BitVec.eq_sub_iff_add_eq, BitVec.eq_sub_iff_add_eq]
  apply BitVec.eq_of_toNat_eq
  simpa using residue

/-- A signed reading is the unsigned one less `2 ^ n` where the sign is set, so that with the carry known
(`addExact_toNat`) the range and the three signs are linear in the unsigned readings. -/
theorem addExact_overflow_iff (h : 0 < n) :
    (addExact a b c).overflow = true ↔ a.msb = b.msb ∧ (addExact a b c).value.msb ≠ a.msb := by
  have half := Nat.two_pow_pred_add_two_pow_pred h
  have ha := a.isLt
  have hb := b.isLt
  have hr := (addExact a b c).value.isLt
  have hc := c.toNat_le
  have hv := addExact_toNat a b c
  rw [addExact_overflow, outOfRange_iff, BitVec.toInt_eq_toNat_cond, BitVec.toInt_eq_toNat_cond]
  simp only [ne_eq, msb_eq_iff]
  split at hv <;> omega

/-- As for the sum, with the borrow known (`subExact_toNat`). -/
theorem subExact_overflow_iff (h : 0 < n) :
    (subExact a b c).overflow = true ↔ a.msb ≠ b.msb ∧ (subExact a b c).value.msb ≠ a.msb := by
  have half := Nat.two_pow_pred_add_two_pow_pred h
  have ha := a.isLt
  have hb := b.isLt
  have hr := (subExact a b c).value.isLt
  have hc := c.toNat_le
  have hv := subExact_toNat a b c
  rw [subExact_overflow, outOfRange_iff, BitVec.toInt_eq_toNat_cond, BitVec.toInt_eq_toNat_cond]
  simp only [ne_eq, msb_eq_iff]
  split at hv <;> omega

end Exact

theorem bits_pos (w : Width) : 0 < w.bits := by cases w <;> decide

/-! ## Opcode bytes -/

/-- Each undefined opcode is refused by its column of the opcode map, whatever bytes follow (30_encoding R162). -/
theorem decode_of_undefined {b0 : Byte} (b1 b2 b3 : Byte) (h : b0 ∈ undefinedOpcodes) :
    decode b0 b1 b2 b3 = .error .undefinedOpcode := by
  fin_cases h <;> rfl

theorem not_undefined_of_decode {b0 b1 b2 b3 : Byte} {i : Instr} (h : decode b0 b1 b2 b3 = .ok i) :
    b0 ∉ undefinedOpcodes := by
  intro hu
  rw [decode_of_undefined b1 b2 b3 hu] at h
  cases h

theorem lengthOf_cases (b0 : Byte) : lengthOf b0 = 4 ∨ lengthOf b0 = 2 := by
  unfold lengthOf
  split <;> simp

/-! ## Fetching -/

/-- The byte of code `k` bytes past IP, in the segment of CSP. -/
def codeByte (s : State) (k : Word) : Byte := peekByte s (codeAddr (lowByte s.csp) (s.ip + k))

theorem codeByte_zero (s : State) : peekByte s (codeAddr (lowByte s.csp) s.ip) = codeByte s 0 := by
  rw [codeByte, show s.ip + 0 = s.ip from BitVec.add_zero s.ip]

theorem codeByte_succ {s : State} {k : Word} (even : (s.ip + k).getLsbD 0 = false) :
    peekByte s (codeAddr (lowByte s.csp) (s.ip + k) + 1) = codeByte s (k + 1) := by
  rw [codeAddr_succ _ _ even, codeByte, BitVec.add_assoc]

theorem even_add_two {o : Word} (h : o.getLsbD 0 = false) : (o + 2).getLsbD 0 = false := by
  rw [← BitVec.testBit_toNat] at h ⊢
  simp only [Nat.testBit_zero, decide_eq_false_iff_not, BitVec.toNat_add,
    BitVec.ofNat_eq_ofNat, BitVec.toNat_ofNat] at h ⊢
  omega

/-- Where every check of 30_encoding R131 passes, the fetch answers what the four bytes at CSP:IP decode to; the last
two are not read by a two-byte instruction, whose decoding does not regard them. -/
theorem fetch_eq_decoded {s : State} (even : s.ip.getLsbD 0 = false)
    (segment : segmentationDisabled s = true → s.csp = 0)
    (word0 : readStop s .word (codeAddr (lowByte s.csp) s.ip) = none) (defined : codeByte s 0 ∉ undefinedOpcodes)
    (word1 : lengthOf (codeByte s 0) = 4 → readStop s .word (codeAddr (lowByte s.csp) (s.ip + 2)) = none) :
    fetch s = decoded (BitVec.ofNat 16 (lengthOf (codeByte s 0)))
      (decode (codeByte s 0) (codeByte s 1) (codeByte s 2) (codeByte s 3)) := by
  have inSegment : (segmentationDisabled s && s.csp != 0) = false := by simpa using segment
  have byte1 : peekByte s (codeAddr (lowByte s.csp) s.ip + 1) = codeByte s 1 := by
    rw [codeAddr_succ _ _ even, codeByte]
  have byte3 : peekByte s (codeAddr (lowByte s.csp) (s.ip + 2) + 1) = codeByte s 3 := codeByte_succ (even_add_two even)
  have byte2 : peekByte s (codeAddr (lowByte s.csp) (s.ip + 2)) = codeByte s 2 := rfl
  simp only [fetch, even, inSegment, word0, codeByte_zero, List.contains_eq_mem, defined, decide_false,
    Bool.false_eq_true, if_false, byte1, byte2, byte3]
  rcases lengthOf_cases (codeByte s 0) with long | short
  · simp only [long, word1 long, if_true]; rfl
  · rw [short, if_neg (by decide), decode_short (b2 := codeByte s 2) (by omega)]; rfl

/-! ## One step -/

theorem step_running {s : State} (h : nextEvent s = none) (hr : s.run = .running) : step s = runInstr s := by
  simp only [step, h, hr]

theorem afterInstr_eq (i : Instr) (t : State) : afterInstr i t =
    if (sequenceForm i).isSome ∨ (registerSequenceForm i).isSome then t
    else if i = .idle then { countDown t with seq := { (countDown t).seq with lock := t.seq.lock } }
    else countDown t := by
  simp only [afterInstr, keepLock, beginsSequence_eq, Bool.or_eq_true]

end Sys2Proof.Laws

namespace Sys2Proof.Proofs

open Sys2Proof.Machine Sys2Proof.Laws

/-- Settles O8, by the facts about `addExact` and `subExact` for every width of at least one bit. -/
theorem sumAndDifferenceFlags : Obligations.SumAndDifferenceFlags := by
  intro w a b cin
  have pos := bits_pos w
  refine ⟨addExact_value a b cin, addExact_carry_iff a b cin, addExact_overflow_iff a b cin pos,
    subExact_value a b cin, subExact_carry_iff a b cin, subExact_overflow_iff a b cin pos, ?_⟩
  simpa [subExact_overflow] using outOfRange_iff (n := w.bits) (a.toInt - b.toInt - cin.toNat)

/-- Settles O5: the fetch passes its checks, and what follows `exec` is the sequence counter's update. -/
theorem stepRunsDecoded : Obligations.StepRunsDecoded := by
  intro s i byteAt event running even segment word0 word1 bytes
  have fetched : fetch s = decoded (BitVec.ofNat 16 (lengthOf (byteAt 0)))
      (decode (byteAt 0) (byteAt 1) (byteAt 2) (byteAt 3)) :=
    fetch_eq_decoded even segment word0 (not_undefined_of_decode bytes) word1
  rw [step_running event running, runInstr, fetched, bytes]
  simp only [decoded]
  cases exec i { s with ip := s.ip + BitVec.ofNat 16 (lengthOf (byteAt 0)) } with
  | next t => exact congrArg Host.Outcome.next (afterInstr_eq i t)
  | fault f => rfl
  | refused r => rfl

end Sys2Proof.Proofs
end

section
/-! PROOFS. The statements of 10_state: the invariant after reset and after every step (R40, R46), MDRIU (R36), and PSW
as a destination (R27, R30, R31). -/

namespace Sys2Proof.Laws

open Sys2Proof.Machine

/-! ## What the decoder yields -/

/-- An instruction that the decoder yields is one that the encodings can express. -/
def expressible (d : Decoded) : Prop := ∀ i, d = .ok i → wellFormed i = true

@[simp] theorem expressible_ok (i : Instr) : expressible (.ok i) ↔ wellFormed i = true := by
  simp [expressible]

@[simp] theorem expressible_error (e : DecodeError) : expressible (.error e) := nofun

@[simp] theorem expressible_ite {c : Prop} [Decidable c] {d d' : Decoded} :
    expressible (if c then d else d') ↔ (c → expressible d) ∧ (¬ c → expressible d') := by
  split <;> simp [*]

theorem expressible_fmtAtomic (b1 : Byte) : expressible (fmtAtomic b1) := by
  unfold fmtAtomic
  split
  · split <;> simp [wellFormed, rangeOk_rangeOf]
  · simp

theorem expressible_fmtExtImmediate (b1 b2 b3 : Byte) : expressible (fmtExtImmediate b1 b2 b3) := by
  unfold fmtExtImmediate
  split
  · split <;> simp [wellFormed, rangeOk_rangeOf]
  · simp

theorem expressible_fmtExtRegister (b1 : Byte) : expressible (fmtExtRegister b1) := by
  unfold fmtExtRegister
  split <;> simp [wellFormed, rangeOk_rangeOf]

section Columns

variable (row : Nat) (b1 b2 b3 : Byte)

theorem expressible_column0 : expressible (column0 row b1) := by
  unfold column0
  split <;> simp [fmtNM, fmtMN, wellFormed]

theorem expressible_column1 : expressible (column1 row b1) := by
  unfold column1
  split <;> simp [fmtNM, fmtMN, fmtN0, expressible_fmtAtomic, wellFormed]

theorem expressible_column2 : expressible (column2 row b1 b2 b3) := by
  unfold column2
  split <;> simp [fmtRegWord, fmtFixedN, wellFormed]

theorem expressible_column3 : expressible (column3 row b1 b2 b3) := by
  unfold column3
  split <;> simp [fmtRegWord, wellFormed]

theorem expressible_column4 : expressible (column4 row b1 b2 b3) := by
  unfold column4
  split <;> simp [fmtRegWord, fmtFixedN, fmtNMWord, wellFormed]

theorem expressible_column5 : expressible (column5 row b1 b2 b3) := by
  unfold column5
  split <;> simp [fmtRegWord, fmtProtected, wellFormed]

theorem expressible_column6 : expressible (column6 row b1 b2 b3) := by
  unfold column6
  split <;> simp [fmtRegWord, fmtFixedN, wellFormed]

theorem expressible_column7 : expressible (column7 row b1 b2 b3) := by
  unfold column7
  split <;> simp [fmtRegByte, fmtRegWord, fmtProtected, expressible_fmtExtImmediate, wellFormed]

theorem expressible_column8 : expressible (column8 row b1) := by
  unfold column8
  split <;> simp [fmtShort, fmtNM, wellFormed, pointerOk_pointerOf]

theorem expressible_column9 : expressible (column9 row b1) := by
  unfold column9
  split <;> simp [fmtShort, fmtNM, wellFormed, pointerOk_pointerOf]

theorem expressible_columnA : expressible (columnA row b1 b2 b3) := by
  unfold columnA
  split <;> simp [fmtBits, fmtBitJump, fmtCond, fmtRegWord, wellFormed]

theorem expressible_columnB : expressible (columnB row b1) := by
  unfold columnB
  split <;> simp [fmtNM, fmtNN, fmtTrap, fmtCondN, fmtFixed, wellFormed]

theorem expressible_columnC : expressible (columnC row b1) := by
  unfold columnC
  split <;> simp [fmtNM, fmtMN, fmtCondN, fmtFixed, expressible_fmtExtRegister, wellFormed]

end Columns

/-- The decoder yields only what the encodings can express: a sequence has one to four instructions (30_encoding R141). -/
theorem expressible_decode (b0 b1 b2 b3 : Byte) : expressible (decode b0 b1 b2 b3) := by
  unfold decode
  split
  · exact expressible_column0 _ _
  · exact expressible_column1 _ _
  · exact expressible_column2 _ _ _ _
  · exact expressible_column3 _ _ _ _
  · exact expressible_column4 _ _ _ _
  · exact expressible_column5 _ _ _ _
  · exact expressible_column6 _ _ _ _
  · exact expressible_column7 _ _ _ _
  · exact expressible_column8 _ _
  · exact expressible_column9 _ _
  · exact expressible_columnA _ _ _ _
  · exact expressible_columnB _ _
  · exact expressible_columnC _ _
  · exact (expressible_ok _).mpr rfl
  · exact (expressible_ok _).mpr rfl
  · exact (expressible_ok _).mpr rfl

theorem decoded_ok {n : Word} {d : Decoded} {r : Instr × Word} (h : decoded n d = .ok r) : d = .ok r.1 := by
  match d, h with
  | .ok i, h => cases h; rfl

/-- A fetched instruction is one that the decoder yields. -/
theorem fetch_wellFormed {s : State} {r : Instr × Word} (h : fetch s = .ok r) : wellFormed r.1 = true := by
  simp only [fetch] at h
  split at h
  · cases h
  split at h
  · cases h
  split at h
  · cases h
  split at h
  · cases h
  split at h
  · split at h
    · cases h
    · exact expressible_decode _ _ _ _ _ (decoded_ok h)
  · exact expressible_decode _ _ _ _ _ (decoded_ok h)

/-! ## The instruction families -/

theorem exec_aluForm {i : Instr} {op : AluOp} {w : Width} {dst : Loc} {src : Source}
    (h : aluForm i = some (op, w, dst, src)) (s : State) : exec i s = conclude s (alu2 op w dst src s) := by
  cases i <;> cases h <;> rfl

theorem exec_compareForm {i : Instr} {w : Width} {op1 : Loc} {op2 : Source}
    (h : compareForm i = some (w, op1, op2)) (s : State) : exec i s = conclude s (compare2 w op1 op2 s) := by
  cases i <;> cases h <;> rfl

theorem exec_stepForm {i : Instr} {k : Int} {n : RegNo} {op2 : Source}
    (h : stepForm i = some (k, n, op2)) (s : State) : exec i s = conclude s (compareStep (BitVec.ofInt 16 k) n op2 s) := by
  cases i <;> cases h <;> rfl

theorem exec_shiftForm {i : Instr} {op : ShiftOp} {n : RegNo} {src : Source}
    (h : shiftForm i = some (op, n, src)) (s : State) : exec i s = conclude s (shift op n src s) := by
  cases i <;> cases h <;> rfl

/-- The move template that a kind of data movement uses. -/
def moveOf (kind : MoveKind) (dst : Loc) (src : Source) (s : State) : Exec State :=
  match kind with
  | .same w => moveSame w dst src s
  | .signed => moveSigned dst src s
  | .zero => moveZero dst src s

theorem exec_moveForm {i : Instr} {kind : MoveKind} {dst : Loc} {src : Source}
    (h : moveForm i = some (kind, dst, src)) (s : State) : exec i s = conclude s (moveOf kind dst src s) := by
  cases i <;> cases h <;> rfl

theorem exec_bitForm {i : Instr} {op : BitOp} {zz : Byte} {z : BitVec 4} {qq : Byte} {q : BitVec 4}
    (h : bitForm i = some (op, zz, z, qq, q)) (s : State) : exec i s = conclude s (bit2 op zz z qq q s) := by
  cases i <;> cases h <;> rfl

theorem exec_sequenceForm {i : Instr} {q : Sequence} (h : sequenceForm i = some q) (s : State) :
    exec i s = .next { s with seq := q } := by
  cases i <;> cases h <;> rfl

theorem exec_registerSequenceForm {i : Instr} {m : RegNo} {q : Word → Sequence}
    (h : registerSequenceForm i = some (m, q)) (s : State) :
    exec i s = conclude s (do
      let (v, s1) ← readGpr .word m s
      return { s1 with seq := q v }) := by
  cases i <;> cases h <;> rfl

/-! ## What a step preserves -/

/-- From `s` to `t` soundness is kept, and a sequence that is as 10_state R40 says stays so. -/
def preserves (s t : State) : Prop := (sound s → sound t) ∧ (sequenceOk s.seq = true → sequenceOk t.seq = true)

theorem kept.preserves {s t : State} (h : kept s t) : preserves s t := ⟨h.1, fun hq => by rw [h.2]; exact hq⟩

theorem preserves.trans {s t u : State} (h1 : preserves s t) (h2 : preserves t u) : preserves s u :=
  ⟨fun h => h2.1 (h1.1 h), fun h => h2.2 (h1.2 h)⟩

theorem kept_of_same {s t : State} (hm : t.mem = s.mem) (hr : ∀ r, getReg t r = getReg s r) (hq : t.seq = s.seq) :
    kept s t := ⟨sound_of_same hm hr, hq⟩

theorem preserves_seq {q : Sequence} (s : State) (hq : sequenceOk q = true) : preserves s { s with seq := q } :=
  ⟨sound_of_same rfl fun r => by cases r <;> rfl, fun _ => hq⟩

theorem stateInv_of_preserves {s t : State} (h : preserves s t) (hs : sound s) (hq : sequenceOk s.seq = true) :
    StateInv t := by
  rw [stateInv_iff, sequenceInv, h.2 hq]
  exact ⟨h.1 hs, rfl⟩

/-! ## Reset -/

theorem getReg_reset (r : CpuReg) : getReg State.reset r = r.resetValue := by cases r <;> rfl

theorem stored_resetValue (r : CpuReg) : r.stored r.resetValue = r.resetValue := by cases r <;> rfl

theorem preserves_resetWith (cause : ResetCause) (s : State) : preserves s (resetWith cause s) := by
  refine ⟨fun ⟨wf, apart, _⟩ => ⟨wf, apart, fun r => ?_⟩, fun _ => rfl⟩
  have reg : getReg (resetWith cause s) r = getReg State.reset r := by cases r <;> rfl
  rw [reg, getReg_reset, stored_resetValue]

/-! ## Traps -/

theorem preserves_trapped (t : HwTrap) (s : State) : preserves s (trapped t s) := by
  refine ⟨fun ⟨wf, apart, regs⟩ => ⟨wf, apart, fun r => ?_⟩, fun hq => ?_⟩
  · cases r
    case tfr => rfl
    all_goals exact regs _
  · simp only [trapped]
    split
    · rfl
    · exact hq

/-- An entry goes on only with its own effect: a trap inside one is refused (60_exceptions R515). -/
theorem entryOutcome_next {x : Exec State} {t : State} (h : entryOutcome x = .next t) : x = .ok t := by
  match x, h with
  | .ok _, h => simpa [entryOutcome] using h
  | .error (.trap _), h => cases h

theorem preserves_raise {trap : HwTrap} {ret : Word} {s t : State} (h : raise trap ret s = .next t) :
    preserves s t :=
  (preserves_trapped trap s).trans (kept_enter (entryOutcome_next h)).preserves

/-- An instruction preserves what its effect preserves: where it traps instead, the entry does. -/
theorem preserves_conclude {s t : State} {x : Exec State} (h : conclude s x = .next t)
    (effect : ∀ u, x = .ok u → preserves s u) : preserves s t := by
  rcases conclude_next h with done | ⟨trap, -, raised⟩
  · exact effect t done
  · exact preserves_raise raised

theorem preserves_conclude_error {s t : State} {stop : Stop} (h : conclude s (.error stop) = .next t) :
    preserves s t :=
  preserves_conclude h fun _ completed => nomatch completed

theorem preserves_conclude_kept {s t : State} {x : Exec State} (h : conclude s x = .next t)
    (effect : ∀ {u}, x = .ok u → kept s u) : preserves s t :=
  preserves_conclude h fun _ hu => (effect hu).preserves

/-! ## The instruction families -/

theorem kept_moveOf {kind : MoveKind} {dst : Loc} {src : Source} {s t : State} (h : moveOf kind dst src s = .ok t) :
    kept s t := by
  cases kind with
  | same w => rw [moveOf, moveSame] at h; exact kept_move h
  | signed => rw [moveOf, moveSigned] at h; exact kept_move h
  | zero => rw [moveOf, moveZero] at h; exact kept_move h

/-- The instruction is of one of the families that the statements tabulate. -/
def inFamily (i : Instr) : Bool :=
  (aluForm i).isSome || (compareForm i).isSome || (stepForm i).isSome || (shiftForm i).isSome || (moveForm i).isSome ||
    (bitForm i).isSome || (sequenceForm i).isSome || (registerSequenceForm i).isSome

/-- A sequence of one to four instructions, begun with the lock, is as 10_state R40 says. -/
theorem sequenceOk_begun {count : Nat} {override : Override} {esfr : Bool} (h : rangeOk count = true) :
    sequenceOk ⟨count, true, override, esfr⟩ = true := by
  simp only [rangeOk, Bool.and_eq_true, decide_eq_true_eq] at h
  obtain ⟨one, four⟩ := h
  simp only [sequenceOk, decide_eq_true four, decide_eq_true (show 0 < count by omega)]
  rfl

theorem sequenceOk_sequenceForm {i : Instr} {q : Sequence} (h : sequenceForm i = some q) (hi : wellFormed i = true) :
    sequenceOk q = true := by
  cases i <;> cases h <;> exact sequenceOk_begun hi

theorem sequenceOk_registerSequenceForm {i : Instr} {m : RegNo} {q : Word → Sequence}
    (h : registerSequenceForm i = some (m, q)) (hi : wellFormed i = true) (v : Word) : sequenceOk (q v) = true := by
  cases i <;> cases h <;> exact sequenceOk_begun hi

theorem preserves_exec_family {i : Instr} {s t : State} (family : inFamily i = true) (hi : wellFormed i = true)
    (h : exec i s = .next t) : preserves s t := by
  simp only [inFamily, Bool.or_eq_true, or_assoc, Option.isSome_iff_exists] at family
  rcases family with ⟨_, alu⟩ | ⟨_, compare⟩ | ⟨_, step⟩ | ⟨_, shift⟩ | ⟨_, move⟩ | ⟨_, bit⟩ | ⟨_, seq⟩ | ⟨_, reg⟩
  · rw [exec_aluForm alu] at h
    exact preserves_conclude_kept h kept_alu2
  · rw [exec_compareForm compare] at h
    exact preserves_conclude_kept h kept_compare2
  · rw [exec_stepForm step] at h
    exact preserves_conclude_kept h kept_compareStep
  · rw [exec_shiftForm shift] at h
    exact preserves_conclude_kept h kept_shift
  · rw [exec_moveForm move] at h
    exact preserves_conclude_kept h kept_moveOf
  · rw [exec_bitForm bit] at h
    exact preserves_conclude_kept h kept_bit2
  · rw [exec_sequenceForm seq] at h
    cases h
    exact preserves_seq s (sequenceOk_sequenceForm seq hi)
  · rw [exec_registerSequenceForm reg] at h
    refine preserves_conclude h fun u hu => ?_
    obtain ⟨x, hx, hu⟩ := bind_ok.mp hu
    obtain rfl := pure_eq_ok.mp hu
    exact (kept_readGpr (w := .word) hx).preserves.trans
      (preserves_seq x.2 (sequenceOk_registerSequenceForm reg hi x.1))

/-! ## The other instructions -/

theorem kept_jumpIf (c : Bool) (target : Word) (s : State) : kept s (if c then jumpNear target s else s) := by
  split
  · exact kept_jumpNear target s
  · exact kept_refl s

/-- An effect on a condition keeps what it keeps where the condition holds. -/
theorem kept_onCondition {c : Bool} {x : Exec State} {s t : State} (h : (if c then x else pure s) = .ok t)
    (effect : x = .ok t → kept s t) : kept s t := by
  split at h
  · exact effect h
  · obtain rfl := pure_eq_ok.mp h
    exact kept_refl s

section SingleInstructions

variable {s t : State}

theorem preserves_jmpi {cc : Cond} {n : RegNo} (h : exec (.jmpi cc n) s = .next t) : preserves s t := by
  refine preserves_conclude_kept h fun hu => kept_onCondition hu fun hu => ?_
  obtain ⟨x, hx, hu⟩ := bind_ok.mp hu
  obtain rfl := pure_eq_ok.mp hu
  exact (kept_readGpr (w := .word) hx).trans (kept_jumpNear x.1 x.2)

theorem preserves_calli {cc : Cond} {n : RegNo} (h : exec (.calli cc n) s = .next t) : preserves s t := by
  refine preserves_conclude_kept h fun hu => kept_onCondition hu fun hu => ?_
  obtain ⟨x, hx, hu⟩ := bind_ok.mp hu
  exact (kept_readGpr (w := .word) hx).trans (kept_callNear hu)

theorem preserves_calls {seg : Byte} {a : Word} (h : exec (.calls seg a) s = .next t) : preserves s t := by
  rw [show exec (.calls seg a) s = execCalls seg a s from rfl, execCalls] at h
  split at h
  · cases h
  · refine preserves_conclude_kept h fun hu => ?_
    obtain ⟨s1, h1, hu⟩ := bind_ok.mp hu
    obtain ⟨s2, h2, hu⟩ := bind_ok.mp hu
    obtain rfl := pure_eq_ok.mp hu
    exact ((kept_push h1).trans (kept_push h2)).trans (kept_jumpFar seg a s2)

theorem preserves_jmps {seg : Byte} {a : Word} (h : exec (.jmps seg a) s = .next t) : preserves s t := by
  rw [show exec (.jmps seg a) s = execJmps seg a s from rfl, execJmps] at h
  split at h
  · cases h
  · cases h
    exact (kept_jumpFar seg a s).preserves

theorem preserves_pcall {r : Byte} {a : Word} (h : exec (.pcall r a) s = .next t) : preserves s t := by
  refine preserves_conclude_kept h fun hu => ?_
  obtain ⟨x, hx, hu⟩ := bind_ok.mp hu
  obtain ⟨y, hy, hu⟩ := bind_ok.mp hu
  obtain ⟨s2, h2, hu⟩ := bind_ok.mp hu
  obtain ⟨s3, h3, hu⟩ := bind_ok.mp hu
  obtain rfl := pure_eq_ok.mp hu
  exact ((((kept_locate hx).trans (kept_readMem (w := .word) hy)).trans (kept_push h2)).trans (kept_push h3)).trans
    ((kept_jumpNear a s3).trans (kept_setFlags _ _))

theorem preserves_ret (h : exec .ret s = .next t) : preserves s t := by
  refine preserves_conclude_kept h fun hu => ?_
  obtain ⟨x, hx, hu⟩ := bind_ok.mp hu
  obtain rfl := pure_eq_ok.mp hu
  exact (kept_pop hx).trans (kept_jumpNear x.1 x.2)

theorem preserves_rets (h : exec .rets s = .next t) : preserves s t := by
  refine preserves_conclude_kept h fun hu => ?_
  obtain ⟨x, hx, hu⟩ := bind_ok.mp hu
  obtain ⟨y, hy, hu⟩ := bind_ok.mp hu
  dsimp only at hu
  split at hu
  · cases hu
  · obtain rfl := pure_eq_ok.mp hu
    exact ((kept_pop hx).trans (kept_pop hy)).trans (kept_jumpFar (lowByte y.1) x.1 y.2)

theorem preserves_retp {r : Byte} (h : exec (.retp r) s = .next t) : preserves s t := by
  refine preserves_conclude_kept h fun hu => ?_
  obtain ⟨x, hx, hu⟩ := bind_ok.mp hu
  obtain ⟨y, hy, hu⟩ := bind_ok.mp hu
  obtain ⟨s2, h2, hu⟩ := bind_ok.mp hu
  obtain rfl := pure_eq_ok.mp hu
  exact (((kept_locate hx).trans (kept_pop hy)).trans (kept_popTo h2)).trans (kept_jumpNear y.1 s2)

theorem preserves_push {r : Byte} (h : exec (.push r) s = .next t) : preserves s t := by
  refine preserves_conclude_kept h fun hu => ?_
  obtain ⟨x, hx, hu⟩ := bind_ok.mp hu
  obtain ⟨y, hy, hu⟩ := bind_ok.mp hu
  obtain ⟨s2, h2, hu⟩ := bind_ok.mp hu
  obtain rfl := pure_eq_ok.mp hu
  exact (((kept_locate hx).trans (kept_readMem (w := .word) hy)).trans (kept_push h2)).trans (kept_setFlags _ _)

theorem preserves_pop {r : Byte} (h : exec (.pop r) s = .next t) : preserves s t := by
  refine preserves_conclude_kept h fun hu => ?_
  obtain ⟨x, hx, hu⟩ := bind_ok.mp hu
  exact (kept_locate hx).trans (kept_popTo hu)

/-- The exchange of a CPU register's word with the stack's, which both forms of SCXT make. -/
theorem preserves_scxt {r : Byte} {src : Source}
    (h : conclude s (do
      let (at1, s0) ← locate s.cp .word (.reg r) s
      let (old, s1) ← readMem .word at1 s0
      let (v, s2) ← readSource s.cp .word src s1
      let s3 ← push old s2
      writeMem .word at1 v s3) = .next t) : preserves s t := by
  refine preserves_conclude_kept h fun hu => ?_
  obtain ⟨x, hx, hu⟩ := bind_ok.mp hu
  obtain ⟨y, hy, hu⟩ := bind_ok.mp hu
  obtain ⟨z, hz, hu⟩ := bind_ok.mp hu
  obtain ⟨s3, h3, hu⟩ := bind_ok.mp hu
  exact ((((kept_locate hx).trans (kept_readMem (w := .word) hy)).trans (kept_readSource (w := .word) hz)).trans
    (kept_push h3)).trans (kept_writeMem (w := .word) hu)

/-- The system control instructions change neither memory, registers nor the sequence. -/
theorem preserves_control {u : State} (h : (.next u : Result) = .next t)
    (hm : u.mem = s.mem) (hr : ∀ r, getReg u r = getReg s r) (hq : u.seq = s.seq) : preserves s t := by
  cases h
  exact (kept_of_same hm hr hq).preserves

end SingleInstructions

/-- Every instruction that the encodings can express keeps soundness and the form of the sequence. -/
theorem preserves_exec {i : Instr} {s t : State} (hi : wellFormed i = true) (h : exec i s = .next t) :
    preserves s t := by
  by_cases family : inFamily i = true
  · exact preserves_exec_family family hi h
  cases i
  case bfldl => exact preserves_conclude_kept h kept_bitField
  case bfldh => exact preserves_conclude_kept h kept_bitField
  case bclr => exact preserves_conclude_kept h kept_bitAssign
  case bset => exact preserves_conclude_kept h kept_bitAssign
  case bcmp => exact preserves_conclude_kept h kept_bitCompare
  case mul => exact preserves_conclude_kept h kept_multiply
  case mulu => exact preserves_conclude_kept h kept_multiplyMarked
  case div => exact preserves_conclude_kept h kept_divide
  case divu => exact preserves_conclude_kept h kept_divide
  case divl => exact preserves_conclude_kept h kept_divide
  case divlu => exact preserves_conclude_kept h kept_divide
  case neg => exact preserves_conclude_kept h kept_unary
  case cpl => exact preserves_conclude_kept h kept_unary
  case negb => exact preserves_conclude_kept h kept_unary
  case cplb => exact preserves_conclude_kept h kept_unary
  case prior => exact preserves_conclude_kept h kept_prioritize
  case jb => exact preserves_conclude_kept h kept_jumpOnBit
  case jnb => exact preserves_conclude_kept h kept_jumpOnBit
  case jbc => exact preserves_conclude_kept h kept_jumpAndFlip
  case jnbs => exact preserves_conclude_kept h kept_jumpAndFlip
  case jmpr cc rel => cases h; exact (kept_jumpIf _ _ s).preserves
  case jmpa cc a => cases h; exact (kept_jumpIf _ _ s).preserves
  case jmpi => exact preserves_jmpi h
  case jmps => exact preserves_jmps h
  case callr => exact preserves_conclude_kept h kept_callNear
  case calla => exact preserves_conclude_kept h fun hu => kept_onCondition hu kept_callNear
  case calli => exact preserves_calli h
  case calls => exact preserves_calls h
  case pcall => exact preserves_pcall h
  case trap => exact preserves_conclude_kept h kept_enter
  case ret => exact preserves_ret h
  case rets => exact preserves_rets h
  case retp => exact preserves_retp h
  case reti => exact preserves_conclude_kept h kept_returnFromEntry
  case push => exact preserves_push h
  case pop => exact preserves_pop h
  case scxtRegData16 => exact preserves_scxt h
  case scxtRegMem => exact preserves_scxt h
  case nop => cases h; exact (kept_refl s).preserves
  case idle => exact preserves_control h rfl (fun r => by cases r <;> rfl) rfl
  case pwrdn =>
    cases h
    split
    · exact (kept_of_same rfl (fun r => by cases r <;> rfl) rfl).preserves
    · exact (kept_refl s).preserves
  case diswdt => exact preserves_control h rfl (fun r => by cases r <;> rfl) rfl
  case srvwdt => exact preserves_control h rfl (fun r => by cases r <;> rfl) rfl
  case einit => exact preserves_control h rfl (fun r => by cases r <;> rfl) rfl
  case srst => cases h; exact preserves_resetWith .software s
  all_goals exact absurd rfl family

/-! ## Events and steps -/

theorem acceptable_of_nextEvent {s : State} {event : Event} (h : nextEvent s = some event) :
    acceptable s event = true := by
  obtain ⟨rank, -, found⟩ := List.exists_of_findSome?_eq_some h
  have both := List.find?_some found
  simp only [Bool.and_eq_true] at both
  exact both.1

/-- Outside a reset no event is accepted while the sequence is locked (60_exceptions R508, R521). -/
theorem open_of_acceptable {s : State} {event : Event} (h : acceptable s event = true) :
    event = .wdtOverflow ∨ event = .hardwareReset ∨ s.seq.lock = false := by
  cases event <;> simp_all [acceptable]

theorem kept_running (s : State) : kept s { s with run := .running } :=
  kept_of_same rfl (fun r => by cases r <;> rfl) rfl

theorem preserves_takeEvent {event : Event} {s t : State} (h : takeEvent event s = .next t) : preserves s t := by
  cases event with
  | irq level number => exact ((kept_running s).trans (kept_enter (entryOutcome_next h))).preserves
  | pec level w a v => exact (kept_writeMem (entryOutcome_next h)).preserves
  | nmi => exact (kept_running s).preserves.trans (preserves_raise h)
  | wdtOverflow => cases h; exact preserves_resetWith .watchdog s
  | hardwareReset => cases h; exact preserves_resetWith .hardware s

theorem stateInv_resetWith {s : State} (cause : ResetCause) (h : sound s) : StateInv (resetWith cause s) :=
  stateInv_iff.mpr ⟨(preserves_resetWith cause s).1 h, rfl⟩

theorem stateInv_takeEvent {event : Event} {s t : State} (inv : StateInv s) (accepted : acceptable s event = true)
    (h : takeEvent event { s with pending := s.pending.erase event } = .next t) : StateInv t := by
  obtain ⟨hs, hq⟩ := stateInv_iff.mp inv
  have offered : kept s { s with pending := s.pending.erase event } :=
    kept_of_same rfl (fun r => by cases r <;> rfl) rfl
  rcases open_of_acceptable accepted with rfl | rfl | isOpen
  · cases h; exact stateInv_resetWith .watchdog (offered.1 hs)
  · cases h; exact stateInv_resetWith .hardware (offered.1 hs)
  · refine stateInv_of_preserves (offered.preserves.trans (preserves_takeEvent h)) hs ?_
    rw [seq_of_open hq isOpen]
    rfl

/-! ## The sequence counter -/

theorem sequenceOk_iff {q : Sequence} : sequenceOk q = true ↔
    q.count ≤ 4 ∧ (q.lock = true ↔ 0 < q.count) ∧ (q.count = 0 → q = Sequence.idle) := by
  rcases Nat.eq_zero_or_pos q.count with zero | covers
  · simp [sequenceOk, zero]
  · simp [sequenceOk, covers, Nat.ne_of_gt covers]

/-- One covered instruction less leaves a sequence that covers another. -/
theorem sequenceOk_pred {q : Sequence} (h : sequenceOk q = true) (more : 1 < q.count) :
    sequenceOk { q with count := q.count - 1 } = true := by
  obtain ⟨four, lock, -⟩ := sequenceOk_iff.mp h
  refine sequenceOk_iff.mpr ⟨by simp only; omega, ?_, by simp only; omega⟩
  simp only [lock]
  omega

theorem preserves_countDown (s : State) : preserves s (countDown s) := by
  refine ⟨sound_of_same (by simp) fun r => by cases r <;> simp [getReg], fun hq => ?_⟩
  unfold countDown
  split
  case isTrue => exact hq
  case isFalse covers =>
    split
    case isTrue => rfl
    case isFalse more => exact sequenceOk_pred hq (by omega)

theorem preserves_afterInstr {i : Instr} (hi : i ≠ .idle) (s : State) : preserves s (afterInstr i s) := by
  by_cases begins : beginsSequence i = true
  · rw [afterInstr_begins begins]; exact (kept_refl s).preserves
  · rw [afterInstr_counts (by simpa using begins) hi]; exact preserves_countDown s

/-- IDLE as the last instruction of a sequence ends it but for the lock: the CPU waits with it (log 21). -/
theorem seq_afterIdle {s : State} (h : sequenceOk s.seq = true) :
    sequenceOk (afterInstr .idle s).seq = true ∨ (afterInstr .idle s).seq = lockedWait := by
  rw [afterInstr_idle]
  simp only [keepLock, countDown]
  split
  case isTrue => exact .inl h
  case isFalse covers =>
    split
    case isTrue last =>
      have locked : s.seq.lock = true := (sequenceOk_iff.mp h).2.1.mpr (by omega)
      exact .inr (by rw [locked]; rfl)
    case isFalse more => exact .inl (sequenceOk_pred h (by omega))

theorem sound_afterIdle {s : State} (h : sound s) : sound (afterInstr .idle s) :=
  sound_of_same (by simp [keepLock]) (fun r => by cases r <;> simp [keepLock, getReg]) h

theorem run_idle {s t : State} (h : exec .idle s = .next t) : t.run = .idle := by
  cases h
  rfl

theorem stateInv_afterIdle {s : State} (hs : sound s) (hq : sequenceOk s.seq = true) (idle : s.run = .idle) :
    StateInv (afterInstr .idle s) := by
  have waits : (afterInstr .idle s).run = .idle := by simp [keepLock, idle]
  have form := seq_afterIdle hq
  refine stateInv_iff.mpr ⟨sound_afterIdle hs, ?_⟩
  simpa only [sequenceInv, waits, Bool.or_eq_true, Bool.and_eq_true, beq_iff_eq, true_and] using form

theorem stateInv_runInstr {s t : State} (hs : sound s) (hq : sequenceOk s.seq = true) (h : runInstr s = .next t) :
    StateInv t := by
  unfold runInstr at h
  split at h
  case h_1 stop _ => exact stateInv_of_preserves (preserves_conclude_error h) hs hq
  case h_2 i length fetched =>
    have advanced : kept s { s with ip := s.ip + length } := kept_of_same rfl (fun r => by cases r <;> rfl) rfl
    split at h
    case h_1 u executed =>
      cases h
      have effect := advanced.preserves.trans (preserves_exec (fetch_wellFormed fetched) executed)
      by_cases idle : i = .idle
      · subst idle
        exact stateInv_afterIdle (effect.1 hs) (effect.2 hq) (run_idle executed)
      · exact stateInv_of_preserves (effect.trans (preserves_afterInstr idle u)) hs hq
    all_goals cases h

/-! ## MDRIU -/

theorem evenAddr_half (a : Addr) : (evenAddr a).toNat / 2 = a.toNat / 2 := by
  refine Nat.eq_of_testBit_eq fun i => ?_
  have bit := evenAddr_bit a (i + 1)
  simpa [Nat.testBit_succ, ← BitVec.testBit_toNat] using bit

/-- A CPU register lies at both bytes of the word at its address. -/
theorem cpuRegAt_iff_half {a : Addr} {r : CpuReg} : cpuRegAt a = some r ↔ a.toNat / 2 = r.addr.toNat / 2 := by
  rw [cpuRegAt_eq_some, ← evenAddr_half a]
  have even : (evenAddr a).toNat % 2 = 0 := by
    have bit := evenAddr_bit a 0
    rw [← BitVec.testBit_toNat] at bit
    simpa using bit
  have even' : r.addr.toNat % 2 = 0 := by cases r <;> rfl
  rw [← BitVec.toNat_inj]
  omega

theorem cpuRegAt_mdl_iff {a : Addr} : cpuRegAt a = some .mdl ↔ a = 0x00FE0E ∨ a = 0x00FE0F := by
  rw [cpuRegAt_iff_half, ← BitVec.toNat_inj, ← BitVec.toNat_inj]
  simp only [CpuReg.addr, BitVec.ofNat_eq_ofNat, BitVec.toNat_ofNat]
  omega

theorem mdc_setReg_multiplyDivide {r : CpuReg} (hr : r = .mdl ∨ r = .mdh) (v : Word) (s : State) :
    (setReg r v s).mdc = s.mdc ||| mdriuMask := by
  rcases hr with rfl | rfl <;> rfl

/-- A store to either byte, or to the word, of MDL or MDH sets MDRIU (10_state R36). -/
theorem mdc_poke_multiplyDivide {w : Width} {a : Addr} {r : CpuReg} (v : BitVec w.bits) (s : State)
    (ha : cpuRegAt a = some r) (hr : r = .mdl ∨ r = .mdh) : (poke w a v s).mdc = s.mdc ||| mdriuMask := by
  cases w with
  | byte =>
    simp only [poke_byte, pokeByte, ha, setRegByte]
    split
    · split
      · exact mdc_setReg_multiplyDivide hr _ _
      · exact mdc_setReg_multiplyDivide hr _ _
    · exact mdc_setReg_multiplyDivide hr _ _
  | word =>
    simp only [poke_word, pokeWord, ha]
    exact mdc_setReg_multiplyDivide hr _ _

/-! ## PSW as a destination -/

theorem withFlags_getLsbD (psw : Word) (f : CondFlags) {j : Nat} (hj : j < 16) : (withFlags psw f).getLsbD j =
    if j = 4 then f.e else if j = 3 then f.z else if j = 2 then f.v else if j = 1 then f.c else if j = 0 then f.n
    else psw.getLsbD j := by
  simp only [withFlags, BitVec.getLsbD_append, BitVec.getLsbD_extractLsb', BitVec.getLsbD_ofBool]
  interval_cases j <;> simp

theorem setBit_getLsbD (v : Word) (q : BitVec 4) (b : Bool) {j : Nat} (hj : j < 16) :
    (setBit v q b).getLsbD j = if j = q.toNat then b else v.getLsbD j := by
  have one : ((1 : Word) <<< q.toNat).getLsbD j = decide (j = q.toNat) := by
    rw [BitVec.getLsbD_shiftLeft, show (1 : Word) = 1#16 from rfl, BitVec.getLsbD_one, Bool.eq_iff_iff]
    simp only [hj, decide_true, Bool.true_and, Bool.and_eq_true, Bool.not_eq_true', decide_eq_false_iff_not,
      decide_eq_true_eq]
    omega
  unfold setBit
  split
  · rw [BitVec.getLsbD_or, one]
    split <;> simp [*]
  · rw [BitVec.getLsbD_and, BitVec.getLsbD_not, one]
    split <;> simp [*]

/-- A bit of PSW after a word is written to it: bits 9 to 7 read as 0 (log 13). -/
theorem psw_stored_getLsbD (v : Word) {j : Nat} (hj : j < 16) :
    (CpuReg.psw.stored v).getLsbD j = (v.getLsbD j && !decide (7 ≤ j ∧ j ≤ 9)) := by
  rw [CpuReg.stored, BitVec.getLsbD_and]
  congr 1
  interval_cases j <;> rfl

theorem aheadStop_none {s : State} {w : Width} {a : Addr} :
    aheadStop s w a = none ↔ ∀ b ∈ accessBytes w a, fetchedAhead s b = false := by
  simp [aheadStop]

theorem writeStop_register {s : State} {w : Width} {a : Addr} {r : CpuReg} (here : cpuRegAt a = some r)
    (aligned : misaligned w a = false) (notCsp : r ≠ .csp) : writeStop s w a = aheadStop s w a := by
  rw [writeStop, aligned, here]
  cases r
  case csp => exact absurd rfl notCsp
  all_goals rfl

/-- Where the word of a register can be written, so can each of its bytes. -/
theorem canWrite_byte_of_register {s : State} {r : CpuReg} {a : Addr} (h : canWrite s .word r.addr = true)
    (ha : a ∈ accessBytes .word r.addr) : canWrite s .byte a = true := by
  have here : cpuRegAt a = some r := by
    simp only [accessBytes, List.mem_cons, List.not_mem_nil, or_false] at ha
    rcases ha with rfl | rfl
    · exact cpuRegAt_addr r
    · exact (cpuRegAt_addr_odd r).1
  have notCsp : r ≠ .csp := fun e => ne_csp_of_canWrite h (by rw [cpuRegAt_addr, e])
  rw [canWrite_iff, writeStop_register (cpuRegAt_addr r) (by simp [misaligned, isOdd_addr]) notCsp, aheadStop_none] at h
  rw [canWrite_iff, writeStop_register here rfl notCsp, aheadStop_none]
  intro b hb
  obtain rfl : b = a := by simpa [accessBytes] using hb
  exact h b ha

/-- An operand named by a short address outside the GPRs needs no bank (20_memory R82). -/
theorem locate_sfr {bank : Word} {w : Width} {r : Byte} {s : State} (h : namesGpr r = false) :
    locate bank w (.reg r) s = .ok (regAddr bank s w r, s) := by
  simp [locate, shortStop, h]

/-- A constant moved to a short address outside the GPRs. -/
theorem move_imm_sfr {w : Width} {ext : BitVec w.bits → BitVec w.bits} {flags : BitVec w.bits → CondFlags → CondFlags}
    {r : Byte} {d : Word} {s : State} {a : Addr} (hr : namesGpr r = false) (hat : a = regAddr s.cp s w r)
    (hw : canWrite s w a = true) :
    move w w ext flags (.reg r) (.imm d) s =
      .ok (flagsUnlessPsw a (flags (d.setWidth w.bits) (pokeTo (.reg r) w a (ext (d.setWidth w.bits)) s).flags)
        (pokeTo (.reg r) w a (ext (d.setWidth w.bits)) s)) := by
  subst hat
  simp only [move, readSource, ok_bind, writeLoc, locate_sfr hr, writeTo_of hw, settle]
  rfl

/-- The instruction's own flags are not set where PSW is its destination (10_state R30). -/
theorem flagsUnlessPsw_psw {a : Addr} (h : cpuRegAt a = some .psw) (f : CondFlags) (s : State) :
    flagsUnlessPsw a f s = s := by
  rw [flagsUnlessPsw, if_pos (hitsPsw_iff.mpr h)]

section Psw

variable {s : State}

theorem regAddr_psw (w : Width) (standard : s.seq.esfr = false) : regAddr s.cp s w 0x88 = CpuReg.psw.addr := by
  simp [regAddr, namesGpr, standard, CpuReg.addr]

theorem bitoffAddr_psw (standard : s.seq.esfr = false) : bitoffAddr s 0x88 = CpuReg.psw.addr := by
  simp [bitoffAddr, namesGpr, standard, CpuReg.addr]

/-- `MOV PSW, #data16` (45_data_movement R330). -/
theorem exec_mov_psw (standard : s.seq.esfr = false) (writable : canWrite s .word CpuReg.psw.addr = true) (d : Word) :
    exec (.movRegData16 0x88 d) s = .next { s with psw := CpuReg.psw.stored d } := by
  have moved : moveSame .word (.reg 0x88) (.imm d) s = _ :=
    move_imm_sfr rfl (regAddr_psw .word standard).symm writable
  rw [exec_moveForm rfl, moveOf, moved, flagsUnlessPsw_psw (cpuRegAt_addr .psw)]
  simp only [Width.bits, BitVec.setWidth_eq]
  rfl

/-- `MOVB PSW, #data8` (45_data_movement R331). -/
theorem exec_movb_psw (standard : s.seq.esfr = false) (writable : canWrite s .word CpuReg.psw.addr = true) (v : Byte) :
    exec (.movbRegData8 0x88 v) s = .next { s with psw := CpuReg.psw.stored (wordOf v 0) } := by
  have low := canWrite_byte_of_register writable (mem_accessBytes .word _)
  have moved : moveSame .byte (.reg 0x88) (.imm (v.setWidth 16)) s = _ :=
    move_imm_sfr rfl (regAddr_psw .byte standard).symm low
  rw [exec_moveForm rfl, moveOf, moved, flagsUnlessPsw_psw (cpuRegAt_addr .psw)]
  have narrowed : (v.setWidth 16).setWidth 8 = v := by simp
  simp only [Width.bits, narrowed]
  rfl

/-- `MOVB [Rwp], Rbk` with the pointer at the high byte of PSW (45_data_movement R331, 10_state R30). -/
theorem exec_movb_ind_psw {p k : RegNo} (writable : canWrite s .word CpuReg.psw.addr = true) (bank : s.cp ≤ 0xFFE0)
    (pointer : plainWord s (gprAddr s.cp .word p) = true)
    (target : dataAddr s (pointerWord s.cp s p) = CpuReg.psw.addr + 1)
    (readable : canRead s .byte (gprAddr s.cp .byte k) = true) (plain : cpuRegAt (gprAddr s.cp .byte k) = none) :
    exec (.movbIndRb p k) s =
      .next { s with psw := CpuReg.psw.stored (wordOf 0 (peekByte s (gprAddr s.cp .byte k))) } := by
  have high := canWrite_byte_of_register writable (a := CpuReg.psw.addr + 1) (by simp [accessBytes])
  have unchanged : touch (gprAddr s.cp .byte k) s = s := touch_of_none plain
  have moved : moveSame .byte (.ind p .plain) (.loc (.gpr k)) s = _ :=
    move_of (s1 := s) (at1 := CpuReg.psw.addr + 1) unchanged.symm target.symm rfl bank rfl pointer readable high
  rw [exec_moveForm rfl, moveOf, moved, flagsUnlessPsw_psw (cpuRegAt_addr_odd .psw).1]
  rfl

/-- `BSET PSW.q` (42_bit R261). -/
theorem exec_bset_psw (standard : s.seq.esfr = false) (writable : canWrite s .word CpuReg.psw.addr = true)
    (q : BitVec 4) :
    exec (.bset 0x88 q) s = .next { s with psw := CpuReg.psw.stored (setBit s.psw q true) } := by
  have assigned := bitAssign_of (b := true) (q := q) (bitoffAddr_psw standard).symm (by simp [shortStop, namesGpr]) writable
  rw [show exec (.bset 0x88 q) s = conclude s (bitAssign true 0x88 q s) from rfl, assigned,
    flagsUnlessPsw_psw (cpuRegAt_addr .psw), peekWord_addr]
  rfl

theorem psw_fixed_bits (h : s.psw &&& 0x0380 = 0) {j : Nat} (hj : 7 ≤ j ∧ j ≤ 9) : s.psw.getLsbD j = false := by
  have bit : (s.psw &&& 0x0380).getLsbD j = false := by rw [h]; exact BitVec.getLsbD_zero
  rw [BitVec.getLsbD_and, show (0x0380 : Word).getLsbD j = true by obtain ⟨_, _⟩ := hj; interval_cases j <;> rfl,
    Bool.and_true] at bit
  exact bit

end Psw

end Sys2Proof.Laws

namespace Sys2Proof.Proofs

open Sys2Proof.Machine Sys2Proof.Laws

/-- Settles O59: an accepted event, an instruction and waiting each keep the invariant. -/
theorem stepKeepsInvariant : Obligations.StepKeepsInvariant := by
  intro s t inv h
  unfold step at h
  split at h
  case h_1 event accepted => exact stateInv_takeEvent inv (acceptable_of_nextEvent accepted) h
  case h_2 =>
    split at h
    case h_1 => cases h; exact inv
    case h_2 => cases h; exact inv
    case h_3 running =>
      obtain ⟨hs, hq⟩ := stateInv_iff.mp inv
      exact stateInv_runInstr hs (sequenceOk_of_not_idle hq (by simp [running])) h

/-- Settles O55: PSW is the register at 00FF10H, so that each of the four writes stores to it and suppresses the flags
(`flagsUnlessPsw_psw`). -/
theorem pswDestination : Obligations.PswDestination := by
  intro d v q s standard fixed
  refine ⟨fun f j hj => withFlags_getLsbD s.psw f hj, fun writable => ?_⟩
  refine ⟨exec_mov_psw standard writable d, exec_movb_psw standard writable v, ?_, _,
    exec_bset_psw standard writable q, fun j hj => ?_⟩
  · intro target bank p pointer word k readable plain
    exact exec_movb_ind_psw writable bank pointer (by rw [word]; exact target) readable plain
  · rw [psw_stored_getLsbD _ hj, setBit_getLsbD _ _ _ hj]
    by_cases reserved : 7 ≤ j ∧ j ≤ 9
    · simp [reserved, psw_fixed_bits fixed reserved]
    · simp [reserved]

/-- Settles O56: what a data read touches, and what a store to MDL or MDH leaves in MDC. -/
theorem multiplyDivideInUse : Obligations.MultiplyDivideInUse := by
  intro s t w a v
  refine ⟨fun x read => ?_, fun written half => ?_⟩
  · obtain ⟨-, answer⟩ := readMem_ok.mp read
    obtain ⟨-, rfl⟩ := Prod.mk.inj answer
    simp only [touch, cpuRegAt_mdl_iff]
    rfl
  · obtain ⟨-, rfl⟩ := writeMem_ok.mp written
    rcases half with mdl | mdh
    · exact mdc_poke_multiplyDivide v s ((cpuRegAt_iff_half (r := .mdl)).mpr mdl) (.inl rfl)
    · exact mdc_poke_multiplyDivide v s ((cpuRegAt_iff_half (r := .mdh)).mpr mdh) (.inr rfl)

/-- Settles O57: the reset state lists these values. -/
theorem resetValues : Obligations.ResetValues :=
  ⟨rfl, rfl, rfl, rfl, rfl, rfl, rfl, rfl, rfl, rfl⟩

/-- Settles O58: no memory is listed, no sequence in progress, and each register keeps its reset value. -/
theorem resetInvariant : Obligations.ResetInvariant :=
  stateInv_iff.mpr ⟨⟨rfl, rfl, fun r => by rw [getReg_reset, stored_resetValue]⟩, rfl⟩

end Sys2Proof.Proofs
end

section
/-! PROOFS. The statements of 20_memory: stores and loads (R72 to R74, R83), word accesses at odd addresses (R76), data
addresses (R90 to R93) and the words that a `bitoff` names (R84). -/

namespace Sys2Proof.Laws

open Sys2Proof.Machine

/-! ## A word of ordinary memory, stored and read back (20_memory R72 to R74) -/

theorem peekByte_eq_low (s : State) (a : Addr) : peekByte s a = lowByte (peekWord s a) := (wordOf_low _ _).symm

theorem peekByte_succ_eq_high (s : State) (a : Addr) : peekByte s (a + 1) = highByte (peekWord s a) :=
  (wordOf_high _ _).symm

/-- A word stored to ordinary memory leaves every other byte of the address space, those of the registers too. -/
theorem peekByte_pokeWord_apart {a b : Addr} (v : Word) (s : State) (plain : cpuRegAt a = none) (h : b ≠ a)
    (h1 : b ≠ a + 1) : peekByte (pokeWord a v s) b = peekByte s b := by
  cases here : cpuRegAt b with
  | none => exact peekByte_pokeWord_other v s here h h1
  | some r => exact peekByte_congr (by simp [here]) fun q _ => getReg_pokeWord_none v s plain q

theorem readMem_pokeWord {s : State} {a : Addr} (v : Word) (wf : Memory.wf s.mem = true) (h : plainWord s a = true) :
    readMem .word a (pokeWord a v s) = .ok (v, pokeWord a v s) := by
  obtain ⟨plain, writable⟩ := plainWord_iff.mp h
  have readable : canRead (pokeWord a v s) .word a = true := by simpa using canRead_of_canWrite writable
  rw [readMem_of readable, peek_word, peekWord_pokeWord v s wf plain (even_of_canWrite writable), touch_of_none plain]

/-! ## CPU registers as data (10_state R45) -/

/-- The registers that data writes reach are the CPU registers but PSW and CSP. -/
theorem dataRegisters_eq (s : State) : dataRegisters s =
    [CpuReg.cp, .sp, .dpp0, .dpp1, .dpp2, .dpp3, .mdh, .mdl, .mdc, .syscon, .tfr].map
      fun r => (r.addr, getReg s r, fun v => setReg r v s) := rfl

theorem mem_dataRegisters {s : State} {x : Addr × Word × (Word → State)} (h : x ∈ dataRegisters s) :
    ∃ r : CpuReg, r ≠ .psw ∧ x = (r.addr, getReg s r, fun v => setReg r v s) := by
  rw [dataRegisters_eq] at h
  obtain ⟨r, mem, rfl⟩ := List.mem_map.mp h
  exact ⟨r, by rintro rfl; simp at mem, rfl⟩

theorem mem_readableRegisters {s : State} {x : Addr × Word}
    (h : x ∈ (0x00FF10, s.psw) :: (0x00FE08, s.csp) :: (dataRegisters s).map (fun x => (x.1, x.2.1))) :
    ∃ r : CpuReg, x = (r.addr, getReg s r) := by
  rcases List.mem_cons.mp h with rfl | h
  · exact ⟨.psw, rfl⟩
  rcases List.mem_cons.mp h with rfl | h
  · exact ⟨.csp, rfl⟩
  obtain ⟨y, mem, rfl⟩ := List.mem_map.mp h
  obtain ⟨r, -, rfl⟩ := mem_dataRegisters mem
  exact ⟨r, rfl⟩

theorem touch_addr (r : CpuReg) (s : State) :
    touch r.addr s = if r.addr = 0x00FE0E then { s with mdc := s.mdc &&& 0xFFEF } else s := by
  cases r <;> rfl

theorem pokeWord_addr (r : CpuReg) (v : Word) (s : State) : pokeWord r.addr v s = setReg r v s := by
  simp only [pokeWord, cpuRegAt_addr]

theorem setReg_withFree (r : CpuReg) (v : Word) (s : State) (n : Nat) :
    setReg r v { s with free := n } = { setReg r v s with free := n } := by
  cases r <;> rfl

/-- A byte written through a register's even address clears the high byte (20_memory R83), unless it is a byte GPR
(93 U10). -/
theorem pokeTo_addr {r : CpuReg} (notPsw : r ≠ .psw) (l : Loc) (x : Byte) (s : State) :
    pokeTo l .byte r.addr x s = setReg r (wordOf x (if l.isGpr then highByte (getReg s r) else 0)) s := by
  simp only [pokeTo, pokeByteGpr, pokeByte, cpuRegAt_addr, isOdd_addr, if_neg notPsw, setRegByte]
  split <;> rfl

/-- A byte written through a register's odd address leaves a free value in the low byte (log 6), unless it is a byte
GPR (93 U10). -/
theorem pokeTo_addr_odd {r : CpuReg} (notPsw : r ≠ .psw) (l : Loc) (x : Byte) (s : State) :
    pokeTo l .byte (r.addr + 1) x s =
      if l.isGpr then setReg r (wordOf (lowByte (getReg s r)) x) s
      else { setReg r (wordOf (lowByte (Config.freeWord s.free)) x) s with free := s.free + 1 } := by
  simp only [pokeTo, pokeByteGpr, pokeByte, cpuRegAt_addr_odd, if_neg notPsw, setRegByte, setReg_withFree, if_true]

/-- In PSW the other byte is cleared in every mode (10_state R30). -/
theorem pokeTo_psw {a : Addr} (here : cpuRegAt a = some .psw) (l : Loc) (x : Byte) (s : State) :
    pokeTo l .byte a x s = { s with psw := (if isOdd a then wordOf 0 x else wordOf x 0) &&& 0xFC7F } := by
  simp only [pokeTo, pokeByteGpr, pokeByte, here, setRegByte, if_true, ite_self]
  split <;> rfl

theorem writeMem_csp {w : Width} {a : Addr} (v : BitVec w.bits) (s : State) (here : cpuRegAt a = some .csp)
    (aligned : misaligned w a = false) : writeMem w a v s = .error (.refused .cspWrite) := by
  simp only [writeMem, writeStop, here, aligned]
  rfl

/-! ## A byte GPR changes one byte (40_arithmetic R217, 93 U10) -/

/-- What a register stores of a word it stores of each of its bytes. -/
theorem lowByte_stored {v v' : Word} (r : CpuReg) (h : lowByte v = lowByte v') :
    lowByte (r.stored v) = lowByte (r.stored v') := by
  unfold lowByte at *
  cases r <;> simp only [CpuReg.stored, BitVec.extractLsb'_and, BitVec.extractLsb'_or, h]

theorem highByte_stored {v v' : Word} (r : CpuReg) (h : highByte v = highByte v') :
    highByte (r.stored v) = highByte (r.stored v') := by
  unfold highByte at *
  cases r <;> simp only [CpuReg.stored, BitVec.extractLsb'_and, BitVec.extractLsb'_or, h]

/-- The two bytes of a register differ in the last bit of their addresses. -/
theorem isOdd_sibling {a b : Addr} {r : CpuReg} (ha : cpuRegAt a = some r) (hb : cpuRegAt b = some r) (h : b ≠ a) :
    isOdd b = !isOdd a := by
  rw [cpuRegAt_iff_half] at ha hb
  have apart := toNat_ne h
  simp only [isOdd, BitVec.getLsbD, Nat.testBit_zero, ← decide_not, decide_eq_decide]
  omega

/-- The other byte of the register that holds the byte GPR. -/
theorem peekByte_pokeByteGpr_sibling {a b : Addr} {r : CpuReg} (x : Byte) {s : State} (ha : cpuRegAt a = some r)
    (hb : cpuRegAt b = some r) (notPsw : r ≠ .psw) (stored : r.stored (getReg s r) = getReg s r) (h : b ≠ a) :
    peekByte (pokeByteGpr a x s) b = peekByte s b := by
  have other := isOdd_sibling ha hb h
  simp only [pokeByteGpr, ha, if_neg notPsw, peekByte, hb, getReg_setReg, if_true, other]
  cases isOdd a
  · simpa [stored] using highByte_stored r (wordOf_high x (highByte (getReg s r)))
  · simpa [stored] using lowByte_stored r (wordOf_low (lowByte (getReg s r)) x)

theorem peekByte_pokeByteGpr_other {a b : Addr} (x : Byte) {s : State} (ok : registersOk s = true)
    (notPsw : cpuRegAt a ≠ some .psw) (h : b ≠ a) (mdc : cpuRegAt b = some .mdc → cpuRegAt a = some .mdc) :
    peekByte (pokeByteGpr a x s) b = peekByte s b := by
  cases hb : cpuRegAt b with
  | none => exact peekByte_pokeTo_other (.gpr 0) .byte x s hb (by simpa [accessBytes] using h)
  | some q =>
    by_cases same : cpuRegAt a = some q
    · exact peekByte_pokeByteGpr_sibling x same hb (fun e => notPsw (e ▸ same)) (registersOk_iff.mp ok q) h
    · refine peekByte_congr (by simp [hb]) fun r hr => ?_
      obtain rfl : q = r := Option.some.inj (hb.symm.trans hr)
      exact getReg_pokeTo_other (.gpr 0) .byte x s same fun e => same (e ▸ mdc (e ▸ hb))

theorem peekByte_pokeByteGpr_same {a : Addr} (x : Byte) {s : State} (wf : Memory.wf s.mem = true)
    (plain : cpuRegAt a = none) : peekByte (pokeByteGpr a x s) a = x := by
  rw [peekByte_of_none plain]
  simp only [pokeByteGpr, pokeByte, plain]
  exact read_write_same _ x wf

/-! ## The stack -/

/-- A pushed word pops back, and SP returns to a value it can hold (20_memory R107, R108). -/
theorem push_pop {s : State} (v : Word) (wf : Memory.wf s.mem = true) (h : stackPlain s 1 = true)
    (stored : CpuReg.sp.stored s.sp = s.sp) : ∃ t u, push v s = .ok t ∧ pop t = .ok (v, u) ∧ u.sp = s.sp := by
  have plain := stackPlain_slot h (j := 0) (by omega)
  obtain ⟨m, pushes, -, top, -⟩ := push_plain v wf plain
  have pops := pop_plain (u := { s with sp := spAfter s 1, mem := m }) plain rfl rfl
  rw [top] at pops
  exact ⟨_, _, pushes, pops, spStored_back stored⟩

/-! ## Accesses and the odd-address trap -/

/-- A byte access is never misaligned, and no other reason against an access is a trap (20_memory R76). -/
theorem readStop_byte_ne_trap (s : State) (a : Addr) : readStop s .byte a ≠ some (.trap .illopa) := by
  unfold readStop
  split
  case isTrue odd => cases odd
  case isFalse =>
    split
    · simp
    · split <;> simp

theorem writeStop_byte_ne_trap (s : State) (a : Addr) : writeStop s .byte a ≠ some (.trap .illopa) := by
  have ahead : aheadStop s .byte a ≠ some (.trap .illopa) := fun h => by cases aheadStop_some h
  unfold writeStop
  split
  case isTrue odd => cases odd
  case isFalse =>
    split
    · simp
    · exact ahead
    · split
      · exact ahead
      all_goals simp

theorem misaligned_word {a : Addr} (h : a.getLsbD 0 = true) : misaligned .word a = true := by
  simpa [misaligned, isOdd] using h

/-- An operand without a pointer register meets an odd word access only at its own address. -/
theorem misaligned_operand {bank : Word} {w : Width} {l : Loc} {s : State} (hd : direct l = true)
    (h : meetsOdd bank s w l = true) : misaligned w (operandAddr bank s w l) = true := by
  cases l with
  | ind p mode => cases hd
  | _ => exact h

/-- An instruction one of whose parts meets the trap does nothing but take it, from the state in which it began
(60_exceptions R511). -/
theorem conclude_trap {s : State} {x : Exec State} (h : x = .error (.trap .illopa)) :
    conclude s x = raise .illopa s.ip s := by
  rw [h]; rfl

/-! ## The operand forms of the instruction families -/

theorem aluForm_operands {i : Instr} {op : AluOp} {w : Width} {dst : Loc} {src : Source}
    (h : aluForm i = some (op, w, dst, src)) : direct dst = true ∧ noPreDec src = true := by
  cases i <;> cases h <;> exact ⟨rfl, rfl⟩

theorem compareForm_operands {i : Instr} {w : Width} {op1 : Loc} {op2 : Source}
    (h : compareForm i = some (w, op1, op2)) : direct op1 = true ∧ noPreDec op2 = true := by
  cases i <;> cases h <;> exact ⟨rfl, rfl⟩

theorem stepForm_operands {i : Instr} {k : Int} {n : RegNo} {op2 : Source}
    (h : stepForm i = some (k, n, op2)) : noPreDec op2 = true := by
  cases i <;> cases h <;> rfl

theorem moveForm_operands {i : Instr} {kind : MoveKind} {dst : Loc} {src : Source}
    (h : moveForm i = some (kind, dst, src)) : noPreDec src = true := by
  cases i <;> cases h <;> rfl

theorem shiftForm_operands {i : Instr} {op : ShiftOp} {n : RegNo} {src : Source}
    (h : shiftForm i = some (op, n, src)) : (∃ m, src = .loc (.gpr m)) ∨ ∃ v, src = .imm v := by
  cases i <;> cases h <;> simp

/-- The instructions that write a word GPR and have no other destination. -/
theorem gprDestination_word {i : Instr} {n : RegNo} (h : gprDestination i = some (.word, n)) :
    i = .neg n ∨ i = .cpl n ∨ (∃ m, i = .prior n m) ∨ (∃ op src, shiftForm i = some (op, n, src)) ∨
      ∃ k op2, stepForm i = some (k, n, op2) := by
  cases i <;> cases h <;> simp [shiftForm, stepForm]

/-! ## Each template at an odd word

In a template the accesses before the odd one take place; the odd one ends it with the trap. -/

section OddWords

variable {s : State}

theorem alu2_odd_op1 {op : AluOp} {w : Width} {dst : Loc} {src : Source} (bank : s.cp ≤ 0xFFE0) (hd : direct dst = true)
    (h : meetsOdd s.cp s w dst = true) : alu2 op w dst src s = .error (.trap .illopa) := by
  simp only [alu2, locate_direct hd bank, ok_bind, readMem_misaligned _ (misaligned_operand hd h), error_bind]

theorem alu2_odd_op2 {op : AluOp} {w : Width} {dst : Loc} {src : Source} (bank : s.cp ≤ 0xFFE0) (hd : direct dst = true)
    (hn : noPreDec src = true) (hr : canRead s w (operandAddr s.cp s w dst) = true)
    (h : sourceMeetsOdd s.cp (touch (operandAddr s.cp s w dst) s) w src = true) :
    alu2 op w dst src s = .error (.trap .illopa) := by
  simp only [alu2, locate_direct hd bank, ok_bind, readMem_of hr, readSource_meetsOdd bank hn h, error_bind]

theorem compare2_odd_op1 {w : Width} {op1 : Loc} {op2 : Source} (bank : s.cp ≤ 0xFFE0) (hd : direct op1 = true)
    (h : meetsOdd s.cp s w op1 = true) : compare2 w op1 op2 s = .error (.trap .illopa) := by
  simp only [compare2, readLoc, locate_direct hd bank, ok_bind, readMem_misaligned _ (misaligned_operand hd h),
    error_bind]

theorem compare2_odd_op2 {w : Width} {op1 : Loc} {op2 : Source} (bank : s.cp ≤ 0xFFE0) (hd : direct op1 = true)
    (hn : noPreDec op2 = true) (hr : canRead s w (operandAddr s.cp s w op1) = true)
    (h : sourceMeetsOdd s.cp (touch (operandAddr s.cp s w op1) s) w op2 = true) :
    compare2 w op1 op2 s = .error (.trap .illopa) := by
  simp only [compare2, readLoc, locate_direct hd bank, ok_bind, readMem_of hr, settle_of (pointerAt_direct hd),
    settled_direct hd, pure_bind_exec, readSource_meetsOdd bank hn h, error_bind]

theorem compareStep_odd_op2 {step : Word} {n : RegNo} {op2 : Source} (bank : s.cp ≤ 0xFFE0) (hn : noPreDec op2 = true)
    (hr : canRead s .word (gprAddr s.cp .word n) = true)
    (h : sourceMeetsOdd s.cp (touch (gprAddr s.cp .word n) s) .word op2 = true) :
    compareStep step n op2 s = .error (.trap .illopa) := by
  simp only [compareStep, locate_direct (l := .gpr n) rfl bank, operandAddr, ok_bind, readMem_of hr,
    readSource_meetsOdd bank hn h, error_bind]

theorem move_odd_source {wsrc wdst : Width} {ext : BitVec wsrc.bits → BitVec wdst.bits}
    {flags : BitVec wsrc.bits → CondFlags → CondFlags} {dst : Loc} {src : Source} (bank : s.cp ≤ 0xFFE0)
    (hn : noPreDec src = true) (h : sourceMeetsOdd s.cp s wsrc src = true) :
    move wsrc wdst ext flags dst src s = .error (.trap .illopa) := by
  simp only [move, readSource_meetsOdd bank hn h, error_bind]

theorem writeLoc_meetsOdd {bank : Word} {w : Width} {l : Loc} {v : BitVec w.bits} (hb : bank ≤ 0xFFE0)
    (h : meetsOdd bank (prepared bank w l s) w l = true) : writeLoc bank w l v s = .error (.trap .illopa) := by
  rcases locate_meetsOdd hb h with pointer | ⟨located, odd⟩
  · simp only [writeLoc, pointer, error_bind]
  · simp only [writeLoc, located, ok_bind, writeTo_misaligned _ _ odd, error_bind]

theorem move_odd_destination {wsrc wdst : Width} {ext : BitVec wsrc.bits → BitVec wdst.bits}
    {flags : BitVec wsrc.bits → CondFlags → CondFlags} {dst : Loc} {src : Source} (bank : s.cp ≤ 0xFFE0)
    (hn : noPreDec src = true) (hp : sourcePointerPlain s src = true) (hr : sourceReady s.cp s wsrc src = true)
    (h : meetsOdd s.cp (prepared s.cp wdst dst (afterSource s.cp s wsrc src)) wdst dst = true) :
    move wsrc wdst ext flags dst src s = .error (.trap .illopa) := by
  rw [sourcePointerPlain_eq] at hp
  simp only [move, readSource_of bank hp hn hr, ok_bind, writeLoc_meetsOdd bank h, error_bind]

theorem moveOf_odd_source {kind : MoveKind} {dst : Loc} {src : Source} (bank : s.cp ≤ 0xFFE0) (hn : noPreDec src = true)
    (h : sourceMeetsOdd s.cp s kind.src src = true) : moveOf kind dst src s = .error (.trap .illopa) := by
  cases kind with
  | same w => rw [moveOf, moveSame]; exact move_odd_source bank hn h
  | signed => exact move_odd_source (wsrc := .byte) bank hn h
  | zero => exact move_odd_source (wsrc := .byte) bank hn h

theorem moveOf_odd_destination {kind : MoveKind} {dst : Loc} {src : Source} (bank : s.cp ≤ 0xFFE0)
    (hn : noPreDec src = true) (hp : sourcePointerPlain s src = true) (hr : sourceReady s.cp s kind.src src = true)
    (h : meetsOdd s.cp (prepared s.cp kind.dst dst (afterSource s.cp s kind.src src)) kind.dst dst = true) :
    moveOf kind dst src s = .error (.trap .illopa) := by
  cases kind with
  | same w => rw [moveOf, moveSame]; exact move_odd_destination bank hn hp hr h
  | signed => exact move_odd_destination (wsrc := .byte) (wdst := .word) bank hn hp hr h
  | zero => exact move_odd_destination (wsrc := .byte) (wdst := .word) bank hn hp hr h

/-! ### Word GPRs of a bank at an odd CP -/

section OddBank

variable (bank : s.cp ≤ 0xFFE0) (odd : s.cp.getLsbD 0 = true)
include bank odd

theorem readSource_gpr_odd (m : RegNo) : readSource s.cp .word (.loc (.gpr m)) s = .error (.trap .illopa) :=
  readSource_meetsOdd bank rfl (gprAddr_misaligned odd)

theorem unary_odd (f : Word → Word × CondFlags) (n : RegNo) : unary .word f n s = .error (.trap .illopa) := by
  simp only [unary, locate_direct (l := .gpr n) rfl bank, operandAddr, ok_bind,
    readMem_misaligned _ (gprAddr_misaligned odd), error_bind]

theorem compareStep_odd (step : Word) (n : RegNo) (op2 : Source) :
    compareStep step n op2 s = .error (.trap .illopa) := by
  simp only [compareStep, locate_direct (l := .gpr n) rfl bank, operandAddr, ok_bind,
    readMem_misaligned _ (gprAddr_misaligned odd), error_bind]

theorem shift_gpr_odd (op : ShiftOp) (n m : RegNo) : shift op n (.loc (.gpr m)) s = .error (.trap .illopa) := by
  simp only [shift, readSource_gpr_odd bank odd, error_bind]

theorem shift_imm_odd (op : ShiftOp) (n : RegNo) (v : Word) : shift op n (.imm v) s = .error (.trap .illopa) := by
  simp only [shift, readSource, locate_direct (l := .gpr n) rfl bank, operandAddr, ok_bind,
    readMem_misaligned _ (gprAddr_misaligned odd), error_bind]

theorem prioritize_odd (n m : RegNo) : prioritize n m s = .error (.trap .illopa) := by
  simp only [prioritize, readGpr_odd bank odd, error_bind]

theorem multiply_odd (f : Word → Word → BitVec 32 × Bool) (n m : RegNo) :
    multiply f n m s = .error (.trap .illopa) := by
  simp only [multiply, readProduct, readGpr_odd bank odd, error_bind]

theorem divide_odd (f : Word → Word → Word → Quotient) (n : RegNo) : divide f n s = .error (.trap .illopa) := by
  simp only [divide, readGpr_odd bank odd, error_bind]

theorem exec_gprDestination_odd {i : Instr} {n : RegNo} (h : gprDestination i = some (.word, n)) :
    exec i s = raise .illopa s.ip s := by
  rcases gprDestination_word h with rfl | rfl | ⟨m, rfl⟩ | ⟨op, src, form⟩ | ⟨k, op2, form⟩
  · exact conclude_trap (unary_odd bank odd _ n)
  · exact conclude_trap (unary_odd bank odd _ n)
  · exact conclude_trap (prioritize_odd bank odd n m)
  · rw [exec_shiftForm form]
    rcases shiftForm_operands form with ⟨m, rfl⟩ | ⟨v, rfl⟩
    · exact conclude_trap (shift_gpr_odd bank odd op n m)
    · exact conclude_trap (shift_imm_odd bank odd op n v)
  · rw [exec_stepForm form]
    exact conclude_trap (compareStep_odd bank odd _ n op2)

theorem exec_product_odd {i : Instr} {n m : RegNo}
    (h : i ∈ [Instr.mul n m, .mulu n m, .div n, .divu n, .divl n, .divlu n]) : exec i s = raise .illopa s.ip s := by
  simp only [List.mem_cons, List.not_mem_nil, or_false] at h
  rcases h with rfl | rfl | rfl | rfl | rfl | rfl
  · exact conclude_trap (multiply_odd bank odd _ n m)
  · exact conclude_trap (multiply_odd (s := setMdriu s) bank odd _ n m)
  all_goals exact conclude_trap (divide_odd bank odd _ n)

theorem exec_jmpi_odd {cc : Cond} {n : RegNo} (h : condHolds cc s.flags = true) :
    exec (.jmpi cc n) s = raise .illopa s.ip s :=
  conclude_trap (by simp only [h, if_true, readGpr_odd bank odd, error_bind])

theorem exec_calli_odd {cc : Cond} {n : RegNo} (h : condHolds cc s.flags = true) :
    exec (.calli cc n) s = raise .illopa s.ip s :=
  conclude_trap (by simp only [h, if_true, readGpr_odd bank odd, error_bind])

theorem exec_registerSequenceForm_odd {i : Instr} {m : RegNo} {f : Word → Sequence}
    (h : registerSequenceForm i = some (m, f)) : exec i s = raise .illopa s.ip s := by
  rw [exec_registerSequenceForm h]
  exact conclude_trap (by simp only [readGpr_odd bank odd, error_bind])

end OddBank

/-! ### Bit words -/

section OddBitWord

variable (bank : s.cp ≤ 0xFFE0) {qq zz : Byte} (odd : (bitoffAddr s qq).getLsbD 0 = true)
include bank odd

theorem bitAssign_odd (b : Bool) (q : BitVec 4) : bitAssign b qq q s = .error (.trap .illopa) := by
  simp only [bitAssign, readBit_odd bank odd, error_bind]

theorem bitField_odd (mask data : Word) : bitField qq mask data s = .error (.trap .illopa) := by
  simp only [bitField, readBitWord_odd bank odd, error_bind]

theorem jumpOnBit_odd (b : Bool) (q : BitVec 4) (rel : Byte) : jumpOnBit b qq q rel s = .error (.trap .illopa) := by
  simp only [jumpOnBit, readBit_odd bank odd, error_bind]

theorem jumpAndFlip_odd (b : Bool) (q : BitVec 4) (rel : Byte) : jumpAndFlip b qq q rel s = .error (.trap .illopa) := by
  simp only [jumpAndFlip, readBit_odd bank odd, error_bind]

theorem bit2_odd_op1 (op : BitOp) (q : BitVec 4) (z : BitVec 4) : bit2 op qq q zz z s = .error (.trap .illopa) := by
  simp only [bit2, readBit_odd bank odd, error_bind]

theorem bitCompare_odd_op1 (q z : BitVec 4) : bitCompare qq q zz z s = .error (.trap .illopa) := by
  simp only [bitCompare, readBit_odd bank odd, error_bind]

theorem readBit_touch_odd (a : Addr) (q : BitVec 4) : readBit qq q (touch a s) = .error (.trap .illopa) :=
  readBit_odd (by simpa using bank) (by simpa using odd)

theorem bit2_odd_op2 (hr : canRead s .word (bitoffAddr s zz) = true) (op : BitOp) (z q : BitVec 4) :
    bit2 op zz z qq q s = .error (.trap .illopa) := by
  simp only [bit2, readBit_of (shortStop_of_bank bank zz) hr, ok_bind, readBit_touch_odd bank odd, error_bind]

theorem bitCompare_odd_op2 (hr : canRead s .word (bitoffAddr s zz) = true) (z q : BitVec 4) :
    bitCompare zz z qq q s = .error (.trap .illopa) := by
  simp only [bitCompare, readBit_of (shortStop_of_bank bank zz) hr, ok_bind, readBit_touch_odd bank odd, error_bind]

theorem exec_bitDestination_odd {i : Instr} (h : bitDestination i = some qq) : exec i s = raise .illopa s.ip s := by
  cases i <;> cases h
  case bclr | bset => exact conclude_trap (bitAssign_odd bank odd _ _)
  case bfldl | bfldh => exact conclude_trap (bitField_odd bank odd _ _)
  case jbc | jnbs => exact conclude_trap (jumpAndFlip_odd bank odd _ _ _)
  case bmov | bmovn | band | bor | bxor => exact conclude_trap (bit2_odd_op1 bank odd _ _ _)

end OddBitWord

/-! ### The stack and short addresses -/

theorem push_even (s : State) : (stackAddr (setReg .sp (s.sp - 2) s)).getLsbD 0 = false := slot_even s 0

theorem popTo_odd_destination {dst : Addr} (top : popReady s = true) (odd : dst.getLsbD 0 = true) :
    popTo dst s = .error (.trap .illopa) := by
  simp only [popTo, pop_of top, ok_bind, writeMem_misaligned _ _ (misaligned_word odd), error_bind]

theorem popTo_odd_stack {dst : Addr} (odd : s.sp.getLsbD 0 = true) : popTo dst s = .error (.trap .illopa) := by
  simp only [popTo, pop_odd odd, error_bind]

section ShortAddress

variable (bank : s.cp ≤ 0xFFE0) {r : Byte}
include bank

theorem locate_short (r : Byte) : locate s.cp .word (.reg r) s = .ok (regAddr s.cp s .word r, s) :=
  locate_direct rfl bank

theorem exec_shortRead_odd {i : Instr} {a d : Word} (odd : (regAddr s.cp s .word r).getLsbD 0 = true)
    (h : i ∈ [Instr.push r, .pcall r a, .scxtRegData16 r d, .scxtRegMem r a]) : exec i s = raise .illopa s.ip s := by
  simp only [List.mem_cons, List.not_mem_nil, or_false] at h
  rcases h with rfl | rfl | rfl | rfl
  all_goals
    exact conclude_trap
      (by simp only [locate_short bank, ok_bind, readMem_misaligned _ (misaligned_word odd), error_bind])

theorem exec_pop_odd (odd : (regAddr s.cp s .word r).getLsbD 0 = true) (top : popReady s = true) :
    exec (.pop r) s = raise .illopa s.ip s :=
  conclude_trap (by simp only [locate_short bank, ok_bind, popTo_odd_destination top odd])

theorem exec_retp_odd (odd : (regAddr s.cp s .word r).getLsbD 0 = true) (top : popReady s = true)
    (second : popReady (popped s) = true) : exec (.retp r) s = raise .illopa s.ip s :=
  conclude_trap
    (by simp only [locate_short bank, ok_bind, pop_of top, popTo_odd_destination second odd, error_bind])

theorem exec_scxt_odd_source {a : Word} (hr : canRead s .word (regAddr s.cp s .word r) = true)
    (odd : (dataAddr (touch (regAddr s.cp s .word r) s) a).getLsbD 0 = true) :
    exec (.scxtRegMem r a) s = raise .illopa s.ip s := by
  have source := readSource_meetsOdd (w := .word) (src := .loc (.mem a)) (s := touch (regAddr s.cp s .word r) s) bank rfl
    (by simpa [sourceMeetsOdd, meetsOdd, operandAddr] using odd)
  exact conclude_trap (by simp only [locate_short bank, ok_bind, readMem_of hr, source, error_bind])

theorem exec_pops_odd {i : Instr} (odd : s.sp.getLsbD 0 = true) (h : i ∈ [Instr.ret, .rets, .reti, .pop r, .retp r]) :
    exec i s = raise .illopa s.ip s := by
  simp only [List.mem_cons, List.not_mem_nil, or_false] at h
  rcases h with rfl | rfl | rfl | rfl | rfl
  · exact conclude_trap (by simp only [pop_odd odd, error_bind])
  · exact conclude_trap (by simp only [pop_odd odd, error_bind])
  · exact conclude_trap (by simp only [returnFromEntry, pop_odd odd, error_bind])
  · exact conclude_trap (by simp only [locate_short bank, ok_bind, popTo_odd_stack odd])
  · exact conclude_trap (by simp only [locate_short bank, ok_bind, pop_odd odd, error_bind])

end ShortAddress

end OddWords

/-! ## Data addresses (20_memory R90 to R93) -/

theorem pageAddr_page (p : BitVec 10) (a : Word) : (pageAddr p a).extractLsb' 14 10 = p :=
  BitVec.extractLsb'_append_eq_left

theorem pageAddr_offset (p : BitVec 10) (a : Word) : (pageAddr p a).extractLsb' 0 14 = a.extractLsb' 0 14 :=
  BitVec.extractLsb'_append_eq_right

theorem pageAddr_toNat (p : BitVec 10) (a : Word) :
    (pageAddr p a).toNat = p.toNat * 0x4000 + a.toNat % 0x4000 := by
  have offset : (a.extractLsb' 0 14).toNat = a.toNat % 0x4000 := by simp
  rw [pageAddr, BitVec.toNat_append, ← Nat.shiftLeft_add_eq_or_of_lt (BitVec.isLt _), Nat.shiftLeft_eq, offset]

/-- The page offset is the low 14 bits: bits 15 and 14 are ignored. -/
theorem pageAddr_mask (p : BitVec 10) (a : Word) : pageAddr p (a &&& 0x3FFF) = pageAddr p a := by
  have ones : (0x3FFF : Word).extractLsb' 0 14 = BitVec.allOnes 14 := by decide
  rw [pageAddr, pageAddr, BitVec.extractLsb'_and, ones, BitVec.and_allOnes]

theorem codeAddr_segment (g : Byte) (a : Word) : (codeAddr g a).extractLsb' 16 8 = g :=
  BitVec.extractLsb'_append_eq_left

theorem codeAddr_offset (g : Byte) (a : Word) : (codeAddr g a).extractLsb' 0 16 = a :=
  BitVec.extractLsb'_append_eq_right

theorem overrideActive_iff {s : State} : overrideActive s = true ↔ s.tfr &&& 0x008F = 0 := by
  simp only [overrideActive, classBFlags, beq_iff_eq]

section DataAddress

variable {s : State} (a : Word)

theorem dataAddr_page {p : BitVec 10} (active : overrideActive s = true) (h : s.seq.override = .page p) :
    dataAddr s a = pageAddr p a := by
  simp only [dataAddr, h, active]

theorem dataAddr_segment {g : Byte} (active : overrideActive s = true) (h : s.seq.override = .seg g) :
    dataAddr s a = codeAddr g a := by
  simp only [dataAddr, h, active]

theorem dataAddr_standard (h : s.seq.override = .none) :
    dataAddr s a = pageAddr ((dppOf s a).extractLsb' 0 10) a := by
  simp only [dataAddr, h]

/-- Bits 15 and 14 name the quarter of the 64 KByte in which a long address lies. -/
theorem dppOf_eq (s : State) : dppOf s a =
    if a.toNat < 0x4000 then s.dpp0 else if a.toNat < 0x8000 then s.dpp1 else if a.toNat < 0xC000 then s.dpp2
    else s.dpp3 := by
  have range := a.isLt
  have quarter : (a.extractLsb' 14 2).toNat = a.toNat / 0x4000 := by
    rw [BitVec.extractLsb'_toNat, Nat.shiftRight_eq_div_pow]
    omega
  unfold dppOf
  rw [quarter]
  split_ifs
  · rw [show a.toNat / 0x4000 = 0 by omega]; rfl
  · rw [show a.toNat / 0x4000 = 1 by omega]; rfl
  · rw [show a.toNat / 0x4000 = 2 by omega]; rfl
  · rw [show a.toNat / 0x4000 = 3 by omega]; rfl

/-- With the reset values of the DPPs each quarter is mapped to itself (10_state R34). -/
theorem page_resetDpps (h0 : s.dpp0 = 0) (h1 : s.dpp1 = 1) (h2 : s.dpp2 = 2) (h3 : s.dpp3 = 3) :
    ((dppOf s a).extractLsb' 0 10).toNat = a.toNat / 0x4000 := by
  have range := a.isLt
  rw [dppOf_eq]
  split_ifs
  · rw [h0, show a.toNat / 0x4000 = 0 by omega]; rfl
  · rw [h1, show a.toNat / 0x4000 = 1 by omega]; rfl
  · rw [h2, show a.toNat / 0x4000 = 2 by omega]; rfl
  · rw [h3, show a.toNat / 0x4000 = 3 by omega]; rfl

end DataAddress

/-! ## Short addresses (20_memory R82, R84) -/

/-- The words of a table below 64 KByte, numbered by a byte. -/
theorem wordTable_toNat {base : Addr} (h : base.toNat < 0x10000) (k : Byte) :
    (base + 2 * k.setWidth 24).toNat = base.toNat + 2 * k.toNat := by
  have range := k.isLt
  simp only [BitVec.toNat_add, BitVec.toNat_mul, BitVec.toNat_setWidth, BitVec.ofNat_eq_ofNat, BitVec.toNat_ofNat]
  omega

theorem gprAddr_toNat (bank : Word) (n : RegNo) : (gprAddr bank .word n).toNat = bank.toNat + 2 * n.toNat := by
  have range := bank.isLt
  have number := n.isLt
  simp only [gprAddr, BitVec.toNat_add, BitVec.toNat_mul, BitVec.toNat_setWidth, BitVec.ofNat_eq_ofNat,
    BitVec.toNat_ofNat]
  omega

theorem namesGpr_iff {b : Byte} : namesGpr b = true ↔ 0xF0 ≤ b.toNat := by
  simp [namesGpr, BitVec.le_def]

theorem namesGpr_false {b : Byte} (h : b.toNat < 0xF0) : namesGpr b = false := by
  rw [← Bool.not_eq_true, namesGpr_iff]
  omega

section Bitoff

variable {s : State} {b : Byte}

theorem bitoffAddr_ram (h : b.toNat < 0x80) : (bitoffAddr s b).toNat = 0xFD00 + 2 * b.toNat := by
  have ram : b < 0x80 := BitVec.lt_def.mpr h
  rw [bitoffAddr, namesGpr_false (by omega), if_neg Bool.false_ne_true, if_pos ram]
  exact wordTable_toNat (by decide) b

theorem bitoffAddr_sfr (low : 0x80 ≤ b.toNat) (high : b.toNat < 0xF0) :
    (bitoffAddr s b).toNat = (if s.seq.esfr then 0xF100 else 0xFF00) + 2 * (b.toNat - 0x80) := by
  have notRam : ¬ b < 0x80 := fun h => absurd (BitVec.lt_def.mp h) (Nat.not_lt.mpr low)
  have number : (b &&& 0x7F).toNat = b.toNat - 0x80 := by
    rw [BitVec.toNat_and]
    exact (Nat.and_two_pow_sub_one_eq_mod b.toNat 7).trans (by omega)
  rw [bitoffAddr, namesGpr_false high, if_neg Bool.false_ne_true, if_neg notRam]
  cases s.seq.esfr
  · exact (wordTable_toNat (by decide) _).trans (by rw [number]; rfl)
  · exact (wordTable_toNat (by decide) _).trans (by rw [number]; rfl)

theorem bitoffAddr_gpr (h : 0xF0 ≤ b.toNat) : (bitoffAddr s b).toNat = s.cp.toNat + 2 * (b.toNat - 0xF0) := by
  have number : (b.extractLsb' 0 4).toNat = b.toNat - 0xF0 := by
    have range := b.isLt
    rw [BitVec.extractLsb'_toNat, Nat.shiftRight_zero]
    omega
  rw [bitoffAddr, if_pos (namesGpr_iff.mpr h), gprAddr_toNat, number]

/-- From 80H to EFH outside an EXTR sequence a `bitoff` names the word that `reg` names (20_memory R84). -/
theorem bitoffAddr_eq_regAddr (low : 0x80 ≤ b.toNat) (high : b.toNat < 0xF0) (standard : s.seq.esfr = false) :
    bitoffAddr s b = regAddr s.cp s .word b := by
  apply BitVec.eq_of_toNat_eq
  rw [bitoffAddr_sfr low high, regAddr, namesGpr_false high, standard]
  simp only [Bool.false_eq_true, if_false]
  rw [wordTable_toNat (by decide)]
  simp only [BitVec.ofNat_eq_ofNat, BitVec.toNat_ofNat]
  omega

end Bitoff

end Sys2Proof.Laws

namespace Sys2Proof.Proofs

open Sys2Proof.Machine Sys2Proof.Laws

/-- Settles O44: each template ends with the trap at its odd word, and an instruction that ends so takes the trap from the
state in which it began (`conclude_trap`). -/
theorem oddWordTraps : Obligations.OddWordTraps := by
  refine ⟨fun s a odd => ?_, fun s a => ⟨readStop_byte_ne_trap s a, writeStop_byte_ne_trap s a⟩, push_even, ?_⟩
  · exact ⟨fun v => writeMem_misaligned v s (misaligned_word odd), readMem_misaligned s (misaligned_word odd)⟩
  intro s bank traps
  refine ⟨?two, ?step, ?move, ?bank, ?bit, ?bits, ?short⟩
  case two =>
    rintro i w op1 src (⟨op, form⟩ | form) at1
    · obtain ⟨hd, hn⟩ := aluForm_operands form
      exact ⟨fun h => (exec_aluForm form s).trans (conclude_trap (alu2_odd_op1 bank hd h)),
        fun hr h => (exec_aluForm form s).trans (conclude_trap (alu2_odd_op2 bank hd hn hr h))⟩
    · obtain ⟨hd, hn⟩ := compareForm_operands form
      exact ⟨fun h => (exec_compareForm form s).trans (conclude_trap (compare2_odd_op1 bank hd h)),
        fun hr h => (exec_compareForm form s).trans (conclude_trap (compare2_odd_op2 bank hd hn hr h))⟩
  case step =>
    intro i k n op2 form at1 hr h
    exact (exec_stepForm form s).trans (conclude_trap (compareStep_odd_op2 bank (stepForm_operands form) hr h))
  case move =>
    intro i kind dst src form s1
    have hn := moveForm_operands form
    exact ⟨fun h => (exec_moveForm form s).trans (conclude_trap (moveOf_odd_source bank hn h)),
      fun hp hr h => (exec_moveForm form s).trans (conclude_trap (moveOf_odd_destination bank hn hp hr h))⟩
  case bank =>
    intro odd
    exact ⟨fun i n form => exec_gprDestination_odd bank odd form, fun n m i mem => exec_product_odd bank odd mem,
      fun cc n holds => ⟨exec_jmpi_odd bank odd holds, exec_calli_odd bank odd holds⟩,
      fun i m f form => exec_registerSequenceForm_odd bank odd form⟩
  case bit =>
    rintro i qq (form | ⟨q, rel, rfl | rfl⟩) odd
    · exact exec_bitDestination_odd bank odd form
    · exact conclude_trap (jumpOnBit_odd bank odd true q rel)
    · exact conclude_trap (jumpOnBit_odd bank odd false q rel)
  case bits =>
    rintro i zz z qq q (⟨op, form⟩ | rfl)
    · exact ⟨fun odd => (exec_bitForm form s).trans (conclude_trap (bit2_odd_op1 bank odd op z q)),
        fun hr odd => (exec_bitForm form s).trans (conclude_trap (bit2_odd_op2 bank odd hr op z q))⟩
    · exact ⟨fun odd => conclude_trap (bitCompare_odd_op1 bank odd z q),
        fun hr odd => conclude_trap (bitCompare_odd_op2 bank odd hr z q)⟩
  case short =>
    intro r a d at1
    exact ⟨fun odd => ⟨fun i mem => exec_shortRead_odd bank odd mem,
        fun top => ⟨exec_pop_odd bank odd top, exec_retp_odd bank odd top⟩⟩,
      fun hr odd => exec_scxt_odd_source bank hr odd, fun sp i mem => exec_pops_odd bank sp mem⟩

/-- Settles O54: a store changes its bytes alone, and a CPU register keeps what it stores of each byte. -/
theorem storeThenLoad : Obligations.StoreThenLoad := by
  intro s a v wf
  refine ⟨?plain, ?read, ?write, ?psw, ?csp, ?gpr, push_pop v wf⟩
  case plain =>
    intro h
    obtain ⟨plain, writable⟩ := plainWord_iff.mp h
    have back : peekWord (pokeWord a v s) a = v := peekWord_pokeWord v s wf plain (even_of_canWrite writable)
    exact ⟨pokeWord a v s, writeMem_of writable, by rw [peekByte_eq_low, back], by rw [peekByte_succ_eq_high, back],
      readMem_pokeWord v wf h, fun b => peekByte_pokeWord_apart v s plain⟩
  case read =>
    intro x mem
    obtain ⟨r, rfl⟩ := mem_readableRegisters mem
    exact ⟨peekWord_addr s r, peekByte_addr s r, peekByte_addr_odd s r, by rw [readMem_addr, touch_addr]⟩
  case write =>
    intro at1 held write mem l x
    obtain ⟨r, notPsw, entry⟩ := mem_dataRegisters mem
    cases entry
    exact ⟨pokeWord_addr r v s, fun writable => (writeMem_of writable).trans (congrArg _ (pokeWord_addr r v s)),
      pokeTo_addr notPsw l x s, _, pokeTo_addr_odd notPsw l x s⟩
  case psw => exact fun l x => ⟨rfl, pokeTo_psw rfl l x s, pokeTo_psw rfl l x s⟩
  case csp =>
    exact fun x =>
      ⟨writeMem_csp (w := .word) v s rfl rfl, writeMem_csp (w := .byte) x s rfl rfl,
        writeMem_csp (w := .byte) x s rfl rfl⟩
  case gpr =>
    intro l x isGpr writable ok notPsw
    have stored : pokeTo l .byte a x s = pokeByteGpr a x s := by simp only [pokeTo, isGpr, if_true]
    exact ⟨_, (writeTo_of writable).trans (congrArg _ stored), peekByte_pokeByteGpr_same x wf,
      fun b => peekByte_pokeByteGpr_other x ok notPsw⟩

/-- Settles O51: inside a sequence `dataAddr` joins the instruction's page or segment to the offset. -/
theorem addressOverrides : Obligations.AddressOverrides := by
  intro s a flags
  have active := overrideActive_iff.mpr flags
  refine ⟨fun p page => ?_, fun g segment => ?_⟩
  · rw [dataAddr_page a active page, dataAddr_page _ active page]
    exact ⟨pageAddr_page p a, pageAddr_offset p a, pageAddr_mask p a⟩
  · rw [dataAddr_segment a active segment]
    exact ⟨codeAddr_segment g a, codeAddr_offset g a⟩

/-- Settles O52: the selected DPP is that of the address's quarter (`dppOf_eq`), which the reset values map to itself. -/
theorem dataPagePointers : Obligations.DataPagePointers := by
  refine ⟨fun s a standard => ?_, fun s a standard h0 h1 h2 h3 => BitVec.eq_of_toNat_eq ?_⟩
  · rw [dataAddr_standard a standard, ← dppOf_eq]
    exact ⟨pageAddr_offset _ a, pageAddr_page _ a⟩
  · have range := a.isLt
    rw [dataAddr_standard a standard, pageAddr_toNat, page_resetDpps a h0 h1 h2 h3, BitVec.toNat_setWidth]
    omega

/-- Settles O53, range by range. -/
theorem bitoffAddresses : Obligations.BitoffAddresses := by
  refine fun s b => ⟨bitoffAddr_ram, fun low high standard => ?_, fun low high extended => ?_, bitoffAddr_gpr⟩
  · exact ⟨(bitoffAddr_sfr low high).trans (by rw [standard]; rfl), bitoffAddr_eq_regAddr low high standard⟩
  · exact (bitoffAddr_sfr low high).trans (by rw [extended]; rfl)

end Sys2Proof.Proofs
end

section
/-! PROOFS. The statements of 30_encoding: decoding and encoding (R130 to R145), the undefined opcodes (R162), the traps
at the fetch (R131; 60_exceptions R503, R504, R506), and the condition codes after a compare (R150, 43_compare_loop
R296). -/

namespace Sys2Proof.Laws

open Sys2Proof.Machine

/-! ## The other formats read what the encoder wrote

A constructor whose operands do not stand in the order of the format's fields is decoded through a function that
exchanges them; `_flipped` says the same of such a function. -/

theorem fmtNM_encoded {f : RegNo → RegNo → Instr} (n m : RegNo) : fmtNM f (n ++ m) = .ok (f n m) := by simp [fmtNM]

theorem fmtMN_encoded {f : RegNo → BitVec 4 → Instr} (n : RegNo) (d : BitVec 4) : fmtMN f (d ++ n) = .ok (f n d) := by
  simp [fmtMN]

theorem fmtRegWord_encoded {f : Byte → Word → Instr} (r : Byte) (a : Word) :
    fmtRegWord f r (lowByte a) (highByte a) = .ok (f r a) := by simp [fmtRegWord]

theorem fmtNMWord_encoded {f : RegNo → RegNo → Word → Instr} (n m : RegNo) (d : Word) :
    fmtNMWord f (n ++ m) (lowByte d) (highByte d) = .ok (f n m d) := by simp [fmtNMWord]

theorem fmtNM_flipped {f : RegNo → RegNo → Instr} (n m : RegNo) :
    fmtNM (fun n m => f m n) (n ++ m) = .ok (f m n) := fmtNM_encoded n m

theorem fmtRegWord_flipped {f : Word → Byte → Instr} (r : Byte) (a : Word) :
    fmtRegWord (fun r a => f a r) r (lowByte a) (highByte a) = .ok (f a r) := fmtRegWord_encoded r a

theorem fmtFixedN_flipped {f : Word → RegNo → Instr} (c n : RegNo) (a : Word) :
    fmtFixedN c (fun n a => f a n) (c ++ n) (lowByte a) (highByte a) = .ok (f a n) := fmtFixedN_encoded c n a

theorem fmtNMWord_flipped {f : RegNo → Word → RegNo → Instr} (n m : RegNo) (d : Word) :
    fmtNMWord (fun n m d => f m d n) (n ++ m) (lowByte d) (highByte d) = .ok (f m d n) := fmtNMWord_encoded n m d

theorem fmtBits_encoded {f : Byte → BitVec 4 → Byte → BitVec 4 → Instr} (zz : Byte) (z : BitVec 4) (qq : Byte)
    (q : BitVec 4) : fmtBits f qq zz (q ++ z) = .ok (f zz z qq q) := by simp [fmtBits]

theorem fmtCondN_encoded {f : Cond → RegNo → Instr} (cc : Cond) (n : RegNo) :
    fmtCondN f (cc.code ++ n) = .ok (f cc n) := by simp [fmtCondN]

/-- The round trip, format by format: the opcode byte leads the decoder to the format's reader, which gives back the
operands that the encoder packed. -/
theorem decodeBytes_encode {i : Instr} (h : wellFormed i = true) : decodeBytes (encode i) = .ok (i, []) := by
  cases i with
  | addRwRw | addbRbRb | mul | rolRwRw | addcRwRw | addcbRbRb | mulu | subRwRw | subbRbRb | prior | rorRwRw
    | subcRwRw | subcbRbRb | cmpRwRw | cmpbRbRb | shlRwRw | xorRwRw | xorbRbRb | andRwRw | andbRbRb | shrRwRw
    | orRwRw | orbRbRb | movRwIndInc | movbRbIndInc | movRwInd | movbRbInd | ashrRwRw | movIndInd | movbIndInd
    | movIndIncInd | movbIndIncInd | movIndIndInc | movbIndIndInc | movRwRw | movbRbRb =>
    exact decodeBytes_two rfl (fmtNM_encoded _ _)
  | movIndDecRw | movbIndDecRb | movIndRw | movbIndRb => exact decodeBytes_two rfl (fmtNM_flipped _ _)
  | rolRwData4 | rorRwData4 | shlRwData4 | shrRwData4 | cmpi1RwData4 | cmpi2RwData4 | cmpd1RwData4 | cmpd2RwData4
    | ashrRwData4 | movbzRwRb | movbsRwRb | movRwData4 | movbRbData4 =>
    exact decodeBytes_two rfl (fmtMN_encoded _ _)
  | div | divu | divl | divlu => exact decodeBytes_two rfl (fmtNN_encoded _)
  | addRegMem | addbRegMem | addRegData16 | addcRegMem | addcbRegMem | addcRegData16 | subRegMem | subbRegMem
    | subRegData16 | subcRegMem | subcbRegMem | subcRegData16 | cmpRegMem | cmpbRegMem | cmpRegData16 | xorRegMem
    | xorbRegMem | xorRegData16 | andRegMem | andbRegMem | andRegData16 | orRegMem | orbRegMem | orRegData16
    | movbzRegMem | scxtRegData16 | movbsRegMem | scxtRegMem | calls | pcall | movRegData16 | movRegMem | movbRegMem
    | jmps =>
    exact decodeBytes_four rfl (fmtRegWord_encoded _ _)
  | addMemReg | addbMemReg | addcMemReg | addcbMemReg | subMemReg | subbMemReg | subcMemReg | subcbMemReg
    | xorMemReg | xorbMemReg | andMemReg | andbMemReg | orMemReg | orbMemReg | movbzMemReg | movbsMemReg | movMemReg
    | movbMemReg =>
    exact decodeBytes_four rfl (fmtRegWord_flipped _ _)
  | addbRegData8 | addcbRegData8 | subbRegData8 | subcbRegData8 | cmpbRegData8 | xorbRegData8 | andbRegData8
    | orbRegData8 | movbRegData8 | bfldl | bfldh =>
    exact decodeBytes_four rfl rfl
  | addRwData3 | addbRbData3 | addcRwData3 | addcbRbData3 | subRwData3 | subbRbData3 | subcRwData3 | subcbRbData3
    | cmpRwData3 | cmpbRbData3 | xorRwData3 | xorbRbData3 | andRwData3 | andbRbData3 | orRwData3 | orbRbData3 =>
    exact decodeBytes_two rfl (fmtShort_data _ _)
  | addRwInd | addbRbInd | addcRwInd | addcbRbInd | subRwInd | subbRbInd | subcRwInd | subcbRbInd | cmpRwInd
    | cmpbRbInd | xorRwInd | xorbRbInd | andRwInd | andbRbInd | orRwInd | orbRbInd =>
    exact decodeBytes_two rfl (fmtShort_ind _ _ h)
  | addRwIndInc | addbRbIndInc | addcRwIndInc | addcbRbIndInc | subRwIndInc | subbRbIndInc | subcRwIndInc
    | subcbRbIndInc | cmpRwIndInc | cmpbRbIndInc | xorRwIndInc | xorbRbIndInc | andRwIndInc | andbRbIndInc
    | orRwIndInc | orbRbIndInc =>
    exact decodeBytes_two rfl (fmtShort_inc _ _ h)
  | bcmp | bmovn | bmov | bor | band | bxor => exact decodeBytes_four rfl (fmtBits_encoded _ _ _ _)
  | neg | cpl | negb | cplb => exact decodeBytes_two rfl (fmtN0_encoded _)
  | cmpi1RwMem | cmpi1RwData16 | cmpi2RwMem | cmpi2RwData16 | cmpd1RwMem | cmpd1RwData16 | cmpd2RwMem
    | cmpd2RwData16 | movIndMem | movbIndMem =>
    exact decodeBytes_four rfl (fmtFixedN_encoded _ _ _)
  | movMemInd | movbMemInd => exact decodeBytes_four rfl (fmtFixedN_flipped _ _ _)
  | idle | pwrdn | diswdt | srvwdt | einit | srst => exact decodeBytes_four rfl rfl
  | jb | jnb | jbc | jnbs => exact decodeBytes_four rfl (fmtBitJump_encoded _ _ _)
  | trap => exact decodeBytes_two rfl (fmtTrap_encoded _)
  | jmpi | calli => exact decodeBytes_two rfl (fmtCondN_encoded _ _)
  | callr | retp | push | pop => exact decodeBytes_two rfl rfl
  | movRwDisp | movbRbDisp => exact decodeBytes_four rfl (fmtNMWord_encoded _ _ _)
  | movDispRw | movbDispRb => exact decodeBytes_four rfl (fmtNMWord_flipped _ _ _)
  | calla | jmpa => exact decodeBytes_four rfl (fmtCond_encoded _ _)
  | ret | nop | rets | reti => exact decodeBytes_two rfl rfl
  | atomic => exact decodeBytes_two rfl (fmtAtomic_atomic h)
  | extr => exact decodeBytes_two rfl (fmtAtomic_extr h)
  | extsSeg => exact decodeBytes_four rfl (fmtExtImmediate_exts _ h)
  | extsrSeg => exact decodeBytes_four rfl (fmtExtImmediate_extsr _ h)
  | extpPag => exact decodeBytes_four rfl (fmtExtImmediate_extp _ h)
  | extprPag => exact decodeBytes_four rfl (fmtExtImmediate_extpr _ h)
  | jmpr cc _ => exact decodeBytes_two (length_nibble cc.code).1 (by rw [(decode_nibble cc.code _).1, condOf_code])
  | bclr _ q => exact decodeBytes_two (length_nibble q).2.1 (decode_nibble q _).2.1
  | bset _ q => exact decodeBytes_two (length_nibble q).2.2 (decode_nibble q _).2.2
  | extsRw | extpRw | extsrRw | extprRw => exact decodeBytes_two rfl (fmtExtRegister_encoded _ _ h)

/-! ## Undefined opcodes (30_encoding R162) -/

/-- The rows of the opcode map where a column has no instruction: the dashes of R160. -/
def undefinedRows : Nat → List Nat
  | 1 => [12]
  | 3 => [8, 9, 10, 11, 12, 13, 14]
  | 4 => [4]
  | 5 => [4, 8, 9, 14, 15]
  | 7 => [12]
  | 8 | 9 => [15]
  | 11 => [3, 8]
  | 12 => [8]
  | _ => []

theorem mem_undefinedOpcodes_of_row : ∀ b0 : Byte,
    (hiNib b0).toNat ∈ undefinedRows (loNib b0).toNat → b0 ∈ undefinedOpcodes := by decide

/-- The bytes are no undefined opcode: they are an instruction, or they are refused for another reason. -/
def definedOpcode (d : Decoded) : Prop := d ≠ .error .undefinedOpcode

@[simp] theorem definedOpcode_ok (i : Instr) : definedOpcode (.ok i) := nofun

@[simp] theorem definedOpcode_error (e : DecodeError) : definedOpcode (.error e) ↔ e ≠ .undefinedOpcode := by
  simp [definedOpcode]

@[simp] theorem definedOpcode_ite {c : Prop} [Decidable c] {d d' : Decoded} :
    definedOpcode (if c then d else d') ↔ (c → definedOpcode d) ∧ (¬ c → definedOpcode d') := by
  split <;> simp [*]

theorem definedOpcode_fmtAtomic (b1 : Byte) : definedOpcode (fmtAtomic b1) := by
  unfold fmtAtomic
  split
  · split <;> simp
  · simp

theorem definedOpcode_fmtExtImmediate (b1 b2 b3 : Byte) : definedOpcode (fmtExtImmediate b1 b2 b3) := by
  unfold fmtExtImmediate
  split
  · split <;> simp
  · simp

theorem definedOpcode_fmtExtRegister (b1 : Byte) : definedOpcode (fmtExtRegister b1) := by
  unfold fmtExtRegister
  split <;> simp

section DefinedRows

variable {row : Nat} (b1 b2 b3 : Byte)

theorem definedOpcode_column0 : definedOpcode (column0 row b1) := by
  unfold column0
  split <;> simp [fmtNM, fmtMN]

theorem definedOpcode_column1 (h : row ∉ undefinedRows 1) : definedOpcode (column1 row b1) := by
  unfold column1
  split <;> simp_all [undefinedRows, fmtNM, fmtMN, fmtN0, definedOpcode_fmtAtomic]

theorem definedOpcode_column2 : definedOpcode (column2 row b1 b2 b3) := by
  unfold column2
  split <;> simp [fmtRegWord, fmtFixedN]

theorem definedOpcode_column3 (h : row ∉ undefinedRows 3) : definedOpcode (column3 row b1 b2 b3) := by
  unfold column3
  split <;> simp_all [undefinedRows, fmtRegWord]

theorem definedOpcode_column4 (h : row ∉ undefinedRows 4) : definedOpcode (column4 row b1 b2 b3) := by
  unfold column4
  split <;> simp_all [undefinedRows, fmtRegWord, fmtFixedN, fmtNMWord]

theorem definedOpcode_column5 (range : row < 16) (h : row ∉ undefinedRows 5) :
    definedOpcode (column5 row b1 b2 b3) := by
  unfold column5
  split <;> simp_all [undefinedRows, fmtRegWord, fmtProtected]
  omega

theorem definedOpcode_column6 : definedOpcode (column6 row b1 b2 b3) := by
  unfold column6
  split <;> simp [fmtRegWord, fmtFixedN]

theorem definedOpcode_column7 (h : row ∉ undefinedRows 7) : definedOpcode (column7 row b1 b2 b3) := by
  unfold column7
  split <;> simp_all [undefinedRows, fmtRegByte, fmtRegWord, fmtProtected, definedOpcode_fmtExtImmediate]

theorem definedOpcode_column8 (range : row < 16) (h : row ∉ undefinedRows 8) : definedOpcode (column8 row b1) := by
  unfold column8
  split <;> simp_all [undefinedRows, fmtShort, fmtNM]
  omega

theorem definedOpcode_column9 (range : row < 16) (h : row ∉ undefinedRows 9) : definedOpcode (column9 row b1) := by
  unfold column9
  split <;> simp_all [undefinedRows, fmtShort, fmtNM]
  omega

theorem definedOpcode_columnA : definedOpcode (columnA row b1 b2 b3) := by
  unfold columnA
  split <;> simp [fmtBits, fmtBitJump, fmtCond, fmtRegWord]

theorem definedOpcode_columnB (h : row ∉ undefinedRows 11) : definedOpcode (columnB row b1) := by
  unfold columnB
  split <;> simp_all [undefinedRows, fmtNM, fmtNN, fmtTrap, fmtCondN, fmtFixed]

theorem definedOpcode_columnC (h : row ∉ undefinedRows 12) : definedOpcode (columnC row b1) := by
  unfold columnC
  split <;> simp_all [undefinedRows, fmtNM, fmtMN, fmtCondN, fmtFixed, definedOpcode_fmtExtRegister]

end DefinedRows

/-- Outside the dashes of the opcode map every column has an instruction or refuses the bytes after the opcode. -/
theorem definedOpcode_decode {b0 : Byte} (b1 b2 b3 : Byte) (h : b0 ∉ undefinedOpcodes) :
    definedOpcode (decode b0 b1 b2 b3) := by
  have range : (hiNib b0).toNat < 16 := (hiNib b0).isLt
  have row : ∀ column, (loNib b0).toNat = column → (hiNib b0).toNat ∉ undefinedRows column := by
    rintro _ rfl hr
    exact h (mem_undefinedOpcodes_of_row b0 hr)
  unfold decode
  split <;> rename_i column
  · exact definedOpcode_column0 _
  · exact definedOpcode_column1 _ (row _ column)
  · exact definedOpcode_column2 _ _ _
  · exact definedOpcode_column3 _ _ _ (row _ column)
  · exact definedOpcode_column4 _ _ _ (row _ column)
  · exact definedOpcode_column5 _ _ _ range (row _ column)
  · exact definedOpcode_column6 _ _ _
  · exact definedOpcode_column7 _ _ _ (row _ column)
  · exact definedOpcode_column8 _ range (row _ column)
  · exact definedOpcode_column9 _ range (row _ column)
  · exact definedOpcode_columnA _ _ _
  · exact definedOpcode_columnB _ (row _ column)
  · exact definedOpcode_columnC _ (row _ column)
  · exact definedOpcode_ok _
  · exact definedOpcode_ok _
  · exact definedOpcode_ok _

theorem decode_undefined_iff (b0 b1 b2 b3 : Byte) :
    decode b0 b1 b2 b3 = .error .undefinedOpcode ↔ b0 ∈ undefinedOpcodes :=
  ⟨fun undefined => by_contra fun h => definedOpcode_decode b1 b2 b3 h undefined, decode_of_undefined b1 b2 b3⟩

/-! ## Condition codes after a compare (43_compare_loop R296) -/

section Compare

variable {n : Nat} (a b : BitVec n)

theorem compareFlags_z : (compareFlags a b).z = true ↔ a = b := by
  simp [compareFlags, arithFlags, subExact_value, BitVec.sub_eq_iff_eq_add]

theorem compareFlags_c : (compareFlags a b).c = true ↔ a.toNat < b.toNat := subExact_carry_iff a b false

theorem compareFlags_e : (compareFlags a b).e = true ↔ b = BitVec.intMin n := beq_iff_eq

/-- N and V differ exactly when the exact difference is negative: it is then either in range and read as it is, or out
of range, and its residue has the other sign. -/
theorem compareFlags_less (h : 0 < n) :
    ((compareFlags a b).n != (compareFlags a b).v) = true ↔ a.toInt < b.toInt := by
  have sign : (compareFlags a b).n = true ↔ 2 ^ n ≤ 2 * (subExact a b false).value.toNat :=
    BitVec.msb_eq_true_iff_two_mul_ge
  have overflow : (compareFlags a b).v = true ↔ a.msb ≠ b.msb ∧ (subExact a b false).value.msb ≠ a.msb :=
    subExact_overflow_iff a b false h
  have ha := a.isLt
  have hb := b.isLt
  have hr := (subExact a b false).value.isLt
  have hv := subExact_toNat a b false
  have borrow := subExact_carry_iff a b false
  rw [bne_iff_ne, ne_eq, Bool.eq_iff_iff, sign, overflow, BitVec.toInt_eq_toNat_cond, BitVec.toInt_eq_toNat_cond]
  simp only [ne_eq, msb_eq_iff]
  simp only [Bool.toNat_false] at hv
  split at hv <;> omega

end Compare

/-! ## The traps at the fetch (30_encoding R131, R145, R162) -/

theorem fetch_odd {s : State} (odd : s.ip.getLsbD 0 = true) : fetch s = .error (.trap .illina) := by
  simp only [fetch, odd, if_true]

theorem fetch_outside_segment {s : State} (even : s.ip.getLsbD 0 = false) (disabled : segmentationDisabled s = true)
    (h : s.csp ≠ 0) : fetch s = .error (.refused .segmentation) := by
  have outside : (segmentationDisabled s && s.csp != 0) = true := by simpa [disabled] using h
  simp only [fetch, even, Bool.false_eq_true, if_false, outside, if_true]

theorem fetch_undefined {s : State} (even : s.ip.getLsbD 0 = false)
    (segment : segmentationDisabled s = true → s.csp = 0)
    (word0 : readStop s .word (codeAddr (lowByte s.csp) s.ip) = none)
    (h : peekByte s (codeAddr (lowByte s.csp) s.ip) ∈ undefinedOpcodes) : fetch s = .error (.trap .undopc) := by
  have inSegment : (segmentationDisabled s && s.csp != 0) = false := by simpa using segment
  have undefined : undefinedOpcodes.contains (peekByte s (codeAddr (lowByte s.csp) s.ip)) = true :=
    List.contains_iff_mem.mpr h
  simp only [fetch, even, inSegment, Bool.false_eq_true, if_false, word0, undefined, if_true]

/-- A fetch that stops is the end of the step: its trap is taken with the current IP as return address (R511). -/
theorem step_of_fetch_error {s : State} {stop : Stop} (event : nextEvent s = none) (running : s.run = .running)
    (h : fetch s = .error stop) : step s = conclude s (.error stop) := by
  rw [step_running event running, runInstr, h]

/-- The bytes of the second code word, and the second byte of the first, lie in the segment of CSP past IP. -/
theorem decode_codeBytes {s : State} (even : s.ip.getLsbD 0 = false) :
    let a0 := codeAddr (lowByte s.csp) s.ip
    let a2 := codeAddr (lowByte s.csp) (s.ip + 2)
    decode (peekByte s a0) (peekByte s (a0 + 1)) (peekByte s a2) (peekByte s (a2 + 1)) =
      decode (codeByte s 0) (codeByte s 1) (codeByte s 2) (codeByte s 3) := by
  have byte1 : peekByte s (codeAddr (lowByte s.csp) s.ip + 1) = codeByte s 1 := by
    rw [codeAddr_succ _ _ even, codeByte]
  have byte3 : peekByte s (codeAddr (lowByte s.csp) (s.ip + 2) + 1) = codeByte s 3 := codeByte_succ (even_add_two even)
  simp only [codeByte_zero, byte1, byte3]
  rfl

/-- Bytes that are no instruction, but not for an undefined opcode, stop the fetch after both words are read. -/
theorem fetch_of_decode_error {s : State} {e : DecodeError} (even : s.ip.getLsbD 0 = false)
    (segment : segmentationDisabled s = true → s.csp = 0)
    (word0 : readStop s .word (codeAddr (lowByte s.csp) s.ip) = none)
    (word1 : readStop s .word (codeAddr (lowByte s.csp) (s.ip + 2)) = none) (defined : e ≠ .undefinedOpcode)
    (h : decode (codeByte s 0) (codeByte s 1) (codeByte s 2) (codeByte s 3) = .error e) :
    fetch s = decoded (BitVec.ofNat 16 (lengthOf (codeByte s 0))) (.error e) := by
  have opcode : codeByte s 0 ∉ undefinedOpcodes := fun hu =>
    defined (Except.error.inj (h.symm.trans (decode_of_undefined _ _ _ hu)))
  rw [fetch_eq_decoded even segment word0 opcode fun _ => word1, h]

end Sys2Proof.Laws

namespace Sys2Proof.Proofs

open Sys2Proof.Machine Sys2Proof.Laws

/-- Settles O1, by the round trip of each format. -/
theorem encodeThenDecode : Obligations.EncodeThenDecode := fun _ => decodeBytes_encode

/-- Settles O2: each column of the opcode map yields only what the encodings can express. -/
theorem decodedIsWellFormed : Obligations.DecodedIsWellFormed := expressible_decode

/-- Settles O4: a byte outside the list lies off the dashes of the opcode map, where no column answers so. -/
theorem undefinedOpcodes : Obligations.UndefinedOpcodes := decode_undefined_iff

/-- Settles O15: the codes read as what Z, C and E alone, and N with V, tell of the operands. -/
theorem compareOrders : Obligations.CompareOrders := by
  refine ⟨fun e z v c n => rfl, ?_⟩
  intro w a b holds
  have equal := compareFlags_z a b
  have below := compareFlags_c a b
  have less := compareFlags_less a b (bits_pos w)
  have lowest := compareFlags_e a b
  have belowOrEqual : a = b ∨ a.toNat < b.toNat ↔ a.toNat ≤ b.toNat := by
    rw [← BitVec.toNat_inj, le_iff_eq_or_lt]
  have lessOrEqual : a = b ∨ a.toInt < b.toInt ↔ a.toInt ≤ b.toInt := by
    rw [← BitVec.toInt_inj, le_iff_eq_or_lt]
  simp only [holds, condHolds, Bool.not_eq_true', Bool.or_eq_true, ← Bool.not_eq_true, equal, below, less, lowest,
    belowOrEqual, lessOrEqual, not_lt, not_le, not_or, ne_eq, and_self]

/-- Settles O3: the decoder evaluates on each of the ten words. -/
theorem writtenWordsDecode : Obligations.WrittenWordsDecode :=
  ⟨rfl, rfl, rfl, rfl, rfl, rfl, rfl, rfl, rfl, rfl⟩

/-- Settles O6: each clause names where the fetch stops, and the step ends with that stop. -/
theorem fetchTraps : Obligations.FetchTraps := by
  intro s a0 a2 bytes event running
  have stops := fun stop => step_of_fetch_error (stop := stop) event running
  refine ⟨fun odd => ?odd, fun even disabled outside => ?segment, fun even segment word0 => ⟨fun undefined => ?opcode,
    fun word1 => ⟨fun damaged => ?damaged, fun fixedField => ?fixedField⟩⟩⟩
  case odd => exact stops _ (fetch_odd odd)
  case segment => exact stops _ (fetch_outside_segment even disabled outside)
  case opcode => exact stops _ (fetch_undefined even segment word0 undefined)
  case damaged =>
    have bytesError := (decode_codeBytes even).symm.trans damaged
    exact stops _ (fetch_of_decode_error even segment word0 word1 (by decide) bytesError)
  case fixedField =>
    have bytesError := (decode_codeBytes even).symm.trans fixedField
    exact stops _ (fetch_of_decode_error even segment word0 word1 (by decide) bytesError)

end Sys2Proof.Proofs
end

section
/-! PROOFS. The statements of 40_arithmetic: values and flags of the two-operand instructions, complements, products and
quotients (R200 to R224), and what these and the other GPR instructions leave unchanged. -/

namespace Sys2Proof.Laws

open Sys2Proof.Machine

/-! ## Values and flags of the two-operand instructions (40_arithmetic R200 to R207) -/

section Values

variable {n : Nat} (a b : BitVec n) (c z : Bool)

/-- The flags of a sum, written out: V where both operands have one sign and the result the other. -/
theorem arithFlags_addExact (h : 0 < n) : arithFlags b (addExact a b c) z =
    { e := b == BitVec.intMin n, z := (addExact a b c).value == 0 && z,
      v := a.msb == b.msb && (addExact a b c).value.msb != a.msb,
      c := decide (2 ^ n ≤ a.toNat + b.toNat + c.toNat), n := (addExact a b c).value.msb } := by
  have carry : (addExact a b c).carry = decide (2 ^ n ≤ a.toNat + b.toNat + c.toNat) := rfl
  have overflow : (addExact a b c).overflow = (a.msb == b.msb && (addExact a b c).value.msb != a.msb) := by
    rw [Bool.eq_iff_iff, addExact_overflow_iff a b c h, Bool.and_eq_true, beq_iff_eq, bne_iff_ne]
  rw [arithFlags, carry, overflow, isLowest]

/-- The flags of a difference, written out: V where the operands' signs differ and the result's is not the minuend's. -/
theorem arithFlags_subExact (h : 0 < n) : arithFlags b (subExact a b c) z =
    { e := b == BitVec.intMin n, z := (subExact a b c).value == 0 && z,
      v := a.msb != b.msb && (subExact a b c).value.msb != a.msb,
      c := decide (a.toNat < b.toNat + c.toNat), n := (subExact a b c).value.msb } := by
  have borrow : (subExact a b c).carry = decide (a.toNat < b.toNat + c.toNat) := by
    rw [Bool.eq_iff_iff, subExact_carry_iff, decide_eq_true_eq]
  have overflow : (subExact a b c).overflow = (a.msb != b.msb && (subExact a b c).value.msb != a.msb) := by
    rw [Bool.eq_iff_iff, subExact_overflow_iff a b c h, Bool.and_eq_true, bne_iff_ne, bne_iff_ne]
  rw [arithFlags, borrow, overflow, isLowest]

theorem addExact_value_false : (addExact a b false).value = a + b := by simp [addExact_value]

theorem subExact_value_false : (subExact a b false).value = a - b := by simp [subExact_value]

/-- What the pages of ADD to XOR spell out is what the model computes exactly and then narrows. -/
theorem eval_eq_spelled (op : AluOp) (f : CondFlags) (h : 0 < n) : op.eval a b f = op.spelled a b f := by
  cases op with
  | add => simp [AluOp.eval, AluOp.spelled, arithFlags_addExact a b _ _ h, addExact_value_false]
  | addc => simp [AluOp.eval, AluOp.spelled, arithFlags_addExact a b _ _ h, addExact_value]
  | sub => simp [AluOp.eval, AluOp.spelled, arithFlags_subExact a b _ _ h, subExact_value_false]
  | subc => simp [AluOp.eval, AluOp.spelled, arithFlags_subExact a b _ _ h, subExact_value]
  | and => rfl
  | or => rfl
  | xor => rfl

/-! ## Complements (40_arithmetic R216 to R219) -/

/-- The negative of `a` overflows for the lowest negative number alone, and borrows for all but 0. -/
theorem negEval_eq (h : 0 < n) : negEval a = (-a,
    { e := a == BitVec.intMin n, z := a == 0, v := a == BitVec.intMin n, c := a != 0, n := (-a).msb }) := by
  have value : (subExact 0 a false).value = -a := by rw [subExact_value_false]; exact BitVec.zero_sub a
  have zero : (-a == 0) = (a == 0) := by rw [Bool.eq_iff_iff, beq_iff_eq, beq_iff_eq]; exact BitVec.neg_eq_zero_iff
  have borrow : decide ((0 : BitVec n).toNat < a.toNat + false.toNat) = (a != 0) := by
    rw [Bool.eq_iff_iff, decide_eq_true_eq, bne_iff_ne, ne_eq, ← BitVec.toNat_inj]
    simp [Nat.pos_iff_ne_zero]
  have overflow : ((0 : BitVec n).msb != a.msb && (-a).msb != (0 : BitVec n).msb) = (a == BitVec.intMin n) := by
    by_cases lowest : a = BitVec.intMin n
    · subst lowest
      simp [BitVec.msb_intMin, h]
    · cases sign : a.msb with
      | false => simp [lowest]
      | true => simp [sign, lowest]
  rw [negEval, arithFlags_subExact 0 a _ _ h, value, zero, borrow, overflow, Bool.and_true]

theorem cplEval_eq (h : 0 < n) : cplEval a = (~~~a,
    { e := a == BitVec.intMin n, z := ~~~a == 0, v := false, c := false, n := !a.msb }) := by
  rw [cplEval, logicFlags, BitVec.msb_not, decide_eq_true h, Bool.true_and, isLowest]

end Values

/-! ## Numbers that fit their words -/

theorem ofInt_beq_zero {n : Nat} {p : Int} (fits : (BitVec.ofInt n p).toInt = p) : (BitVec.ofInt n p == 0) = (p == 0) := by
  rw [Bool.eq_iff_iff, beq_iff_eq, beq_iff_eq, ← BitVec.toInt_inj, fits]
  exact iff_of_eq (congrArg _ BitVec.toInt_zero)

theorem ofInt_msb {n : Nat} {p : Int} (fits : (BitVec.ofInt n p).toInt = p) :
    (BitVec.ofInt n p).msb = decide (p < 0) := by
  rw [BitVec.msb_eq_toInt, fits]

theorem ofNat_beq_zero {n p : Nat} (fits : p < 2 ^ n) : (BitVec.ofNat n p == 0) = (p == 0) := by
  rw [Bool.eq_iff_iff, beq_iff_eq, beq_iff_eq, ← BitVec.toNat_inj, BitVec.toNat_ofNat, Nat.mod_eq_of_lt fits]
  exact iff_of_eq (congrArg _ BitVec.toNat_zero)

theorem ofNat_msb {n p : Nat} (fits : p < 2 ^ n) : (BitVec.ofNat n p).msb = decide (2 ^ (n - 1) ≤ p) := by
  rw [BitVec.msb_eq_decide, BitVec.toNat_ofNat, Nat.mod_eq_of_lt fits]

/-- Two words as one double word (40_arithmetic R213, R214). -/
theorem append_toNat (high low : Word) : (high ++ low : BitVec 32).toNat = high.toNat * 65536 + low.toNat := by
  rw [BitVec.toNat_append, ← Nat.shiftLeft_add_eq_or_of_lt low.isLt, Nat.shiftLeft_eq]

/-! ## Products (40_arithmetic R210, R211) -/

theorem mulFlags_mulSigned (x y : Word) : mulFlags (mulSigned x y) =
    { e := false, z := x.toInt * y.toInt == 0, v := decide (x.toInt * y.toInt < -32768 ∨ 32767 < x.toInt * y.toInt),
      c := false, n := decide (x.toInt * y.toInt < 0) } := by
  have high : x.toInt * y.toInt ≤ 2 ^ 30 := BitVec.toInt_mul_toInt_le
  have low : -2 ^ 30 ≤ x.toInt * y.toInt := BitVec.le_toInt_mul_toInt
  have fits : (BitVec.ofInt 32 (x.toInt * y.toInt)).toInt = x.toInt * y.toInt :=
    BitVec.toInt_ofInt_eq_self (by decide) (by omega) (by omega)
  have range : outOfRange 16 (x.toInt * y.toInt) = decide (x.toInt * y.toInt < -32768 ∨ 32767 < x.toInt * y.toInt) := by
    rw [Bool.eq_iff_iff, outOfRange_iff, decide_eq_true_eq]
    omega
  simp only [mulFlags, mulSigned, ofInt_beq_zero fits, ofInt_msb fits, range]

theorem mulFlags_mulUnsigned (x y : Word) : mulFlags (mulUnsigned x y) =
    { e := false, z := x.toNat * y.toNat == 0, v := decide (65535 < x.toNat * y.toNat), c := false,
      n := decide (2 ^ 31 ≤ x.toNat * y.toNat) } := by
  have fits : x.toNat * y.toNat < 2 ^ 32 := (Nat.mul_lt_mul'' x.isLt y.isLt).trans_eq rfl
  simp only [mulFlags, mulUnsigned, ofNat_beq_zero fits, ofNat_msb fits]

/-! ## Quotients (40_arithmetic R212 to R215) -/

/-- A signed division whose quotient fits a word. -/
theorem divideSigned_fits {x y : Int} (nonzero : y ≠ 0) (low : -32768 ≤ x.tdiv y) (high : x.tdiv y ≤ 32767) :
    divideSigned x y = .result (BitVec.ofInt 16 (x.tdiv y)) (BitVec.ofInt 16 (x - x.tdiv y * y)) := by
  have range : ¬ outOfRange 16 (x.tdiv y) = true := by rw [outOfRange_iff]; omega
  rw [divideSigned, if_neg nonzero, if_neg range, Int.tmod_def, Int.mul_comm]

theorem divideSigned_invalid {x y : Int} (h : y = 0 ∨ x.tdiv y < -32768 ∨ 32767 < x.tdiv y) :
    divideSigned x y = .invalid := by
  by_cases zero : y = 0
  · rw [divideSigned, if_pos zero]
  · have range : outOfRange 16 (x.tdiv y) = true := by rw [outOfRange_iff]; omega
    rw [divideSigned, if_neg zero, if_pos range]

/-- An unsigned division whose quotient fits a word. -/
theorem divideUnsigned_fits {x y : Nat} (nonzero : y ≠ 0) (high : x / y ≤ 65535) :
    divideUnsigned x y = .result (BitVec.ofNat 16 (x / y)) (BitVec.ofNat 16 (x % y)) := by
  rw [divideUnsigned, if_neg nonzero, if_neg (by omega)]

theorem divideUnsigned_invalid {x y : Nat} (h : y = 0 ∨ 65535 < x / y) : divideUnsigned x y = .invalid := by
  by_cases zero : y = 0
  · rw [divideUnsigned, if_pos zero]
  · rw [divideUnsigned, if_neg zero, if_pos (by omega)]

/-- The one quotient of DIV that the source leaves open, 8000H by FFFFH, does not fit a word: it is 8000H (R212). -/
theorem divWord_of_fits {mdl y : Word} (h : mdl.toInt.tdiv y.toInt ≤ 32767) :
    divWord mdl y = divideSigned mdl.toInt y.toInt := by
  refine if_neg fun ⟨lowest, minusOne⟩ => ?_
  subst lowest minusOne
  revert h
  decide

theorem divWord_zero (mdl : Word) : divWord mdl 0 = .invalid := by
  rw [divWord, if_neg (by simp)]
  exact divideSigned_invalid (.inl rfl)

theorem divFlags_ofInt {q : Int} (low : -32768 ≤ q) (high : q ≤ 32767) : divFlags (BitVec.ofInt 16 q) =
    { e := false, z := q == 0, v := false, c := false, n := decide (q < 0) } := by
  have fits : (BitVec.ofInt 16 q).toInt = q := BitVec.toInt_ofInt_eq_self (by decide) (by omega) (by omega)
  rw [divFlags, ofInt_beq_zero fits, ofInt_msb fits]

theorem divFlags_ofNat {q : Nat} (high : q ≤ 65535) : divFlags (BitVec.ofNat 16 q) =
    { e := false, z := q == 0, v := false, c := false, n := decide (32768 ≤ q) } := by
  have fits : q < 2 ^ 16 := by omega
  rw [divFlags, ofNat_beq_zero fits, ofNat_msb fits]
  rfl

/-- What a division leaves where its result is not valid: values the source does not state, with V among them only for
the quotient it leaves open (93 U6, U7). -/
theorem finishDivision_free {r : Quotient} (s : State) (h : ∀ q rem, r ≠ .result q rem) :
    ∃ low high z v sign, (r = .invalid → v = true) ∧
      finishDivision r s = { s with mdl := low, mdh := high, free := s.free + 3 }.setFlags
        { e := false, z := z, v := v, c := false, n := sign } := by
  cases r with
  | result q rem => exact absurd rfl (h q rem)
  | invalid => exact ⟨_, _, _, _, _, fun _ => rfl, rfl⟩
  | unstated => exact ⟨_, _, _, _, _, nofun, rfl⟩

/-! ## GPRs of a bank above FFE0H (10_state R21) -/

/-- An operand that is a GPR is refused while CP is above FFE0H (log 10). -/
theorem locate_gpr_refused {bank : Word} {w : Width} {l : Loc} {s : State} (above : 0xFFE0 < bank)
    (isGpr : l.isGpr = true) : locate bank w l s = .error (.refused .contextPointer) := by
  have stop : bankStop bank = some (.refused .contextPointer) := if_pos above
  cases l with
  | gpr n => simp only [locate, stop]
  | reg r =>
    have named : namesGpr r = true := isGpr
    simp only [locate, shortStop, named, if_true, stop]
  | mem a => cases isGpr
  | ind p mode => cases isGpr

/-! ## Frames -/

/-- An instruction goes on with the odd-address trap, or within the frame of its effect. -/
theorem conclude_framed {regs : List CpuReg} {stored : List Addr} {s t : State} {x : Exec State}
    (h : conclude s x = .next t) (trap : onlyIllopa x)
    (effect : ∀ {u}, x = .ok u → framed regs stored s u ∧ u.ip = s.ip) :
    raise .illopa s.ip s = .next t ∨ (framed regs stored s t ∧ t.ip = s.ip) :=
  (conclude_illopa h trap).imp_right effect

theorem pointerBytes_direct {bank : Word} {l : Loc} (h : direct l = true) : pointerBytes bank l = [] := by
  cases l with
  | ind p mode => cases h
  | _ => rfl

theorem stepForm_pointerBytes {i : Instr} {k : Int} {n : RegNo} {op2 : Source} (bank : Word)
    (h : stepForm i = some (k, n, op2)) : sourcePointerBytes bank op2 = [] := by
  cases i <;> cases h <;> rfl

theorem shiftForm_pointerBytes {i : Instr} {op : ShiftOp} {n : RegNo} {src : Source} (bank : Word)
    (h : shiftForm i = some (op, n, src)) : sourcePointerBytes bank src = [] := by
  rcases shiftForm_operands h with ⟨m, rfl⟩ | ⟨v, rfl⟩ <;> rfl

section Ip

variable {n m : RegNo} {s t : State}

theorem ip_alu2 {op : AluOp} {w : Width} {dst : Loc} {src : Source} (h : alu2 op w dst src s = .ok t) :
    t.ip = s.ip := by
  simp only [alu2, bind_ok] at h
  obtain ⟨x, hx, a, ha, b, hb, u, hu, h⟩ := h
  obtain rfl := pure_eq_ok.mp h
  rw [ip_flagsUnlessPsw, ip_writeTo hu, ip_readSource hb, ip_readMem ha, ip_locate hx]

theorem ip_unary {w : Width} {f : BitVec w.bits → BitVec w.bits × CondFlags} (h : unary w f n s = .ok t) :
    t.ip = s.ip := by
  simp only [unary, bind_ok] at h
  obtain ⟨x, hx, a, ha, u, hu, h⟩ := h
  obtain rfl := pure_eq_ok.mp h
  rw [ip_flagsUnlessPsw, ip_writeTo hu, ip_readMem ha, ip_locate hx]

theorem ip_compareStep {k : Word} {op2 : Source} (h : compareStep k n op2 s = .ok t) : t.ip = s.ip := by
  simp only [compareStep, bind_ok] at h
  obtain ⟨x, hx, a, ha, b, hb, u, hu, h⟩ := h
  obtain rfl := pure_eq_ok.mp h
  rw [ip_flagsUnlessPsw, ip_writeMem (w := .word) hu, ip_readSource (w := .word) hb, ip_readMem (w := .word) ha,
    ip_locate hx]

theorem ip_shift {op : ShiftOp} {src : Source} (h : shift op n src s = .ok t) : t.ip = s.ip := by
  simp only [shift, bind_ok] at h
  obtain ⟨b, hb, x, hx, a, ha, u, hu, h⟩ := h
  obtain rfl := pure_eq_ok.mp h
  rw [ip_flagsUnlessPsw, ip_writeMem (w := .word) hu, ip_readMem (w := .word) ha, ip_locate hx,
    ip_readSource (w := .word) hb]

theorem ip_prioritize (h : prioritize n m s = .ok t) : t.ip = s.ip := by
  simp only [prioritize, bind_ok] at h
  obtain ⟨b, hb, x, hx, u, hu, h⟩ := h
  obtain rfl := pure_eq_ok.mp h
  rw [ip_flagsUnlessPsw, ip_writeMem (w := .word) hu, ip_locate hx, ip_readGpr (w := .word) hb]

end Ip

section Gpr

variable {i : Instr} {n : RegNo} {s t : State}

/-- The instructions that write a byte GPR and have no other destination. -/
theorem gprDestination_byte (h : gprDestination i = some (.byte, n)) : i = .negb n ∨ i = .cplb n := by
  cases i <;> cases h <;> simp

/-- NEG, CPL and their byte forms (40_arithmetic R216 to R219). -/
theorem conclude_unary_framed {w : Width} {f : BitVec w.bits → BitVec w.bits × CondFlags}
    (h : conclude s (unary w f n s) = .next t) : raise .illopa s.ip s = .next t ∨
      (framed [.psw, .mdc] (accessBytes w (gprAddr s.cp w n)) s t ∧ t.ip = s.ip) :=
  conclude_framed h (onlyIllopa_unary _ _ _ _) fun hu => ⟨framed_unary hu, ip_unary hu⟩

/-- An instruction whose only destination is a word GPR, by the template it uses. -/
theorem exec_gprDestination_framed (form : gprDestination i = some (.word, n)) (h : exec i s = .next t) :
    raise .illopa s.ip s = .next t ∨
      (framed [.psw, .mdc] (accessBytes .word (gprAddr s.cp .word n)) s t ∧ t.ip = s.ip) := by
  rcases gprDestination_word form with rfl | rfl | ⟨m, rfl⟩ | ⟨op, src, shift⟩ | ⟨k, op2, step⟩
  · exact conclude_unary_framed (w := .word) h
  · exact conclude_unary_framed (w := .word) h
  · exact conclude_framed h (onlyIllopa_prioritize _ _ _) fun hu => ⟨framed_prioritize hu, ip_prioritize hu⟩
  · rw [exec_shiftForm shift] at h
    exact conclude_framed h (onlyIllopa_shift _ _ _ _) fun hu =>
      ⟨framed_shift (shiftForm_pointerBytes s.cp shift) hu, ip_shift hu⟩
  · rw [exec_stepForm step] at h
    exact conclude_framed h (onlyIllopa_compareStep _ _ _ _) fun hu =>
      ⟨framed_compareStep (stepForm_pointerBytes s.cp step) hu, ip_compareStep hu⟩

end Gpr

section Md

variable {n m : RegNo} {s t : State}

theorem ip_finishDivision (r : Quotient) (s : State) : (finishDivision r s).ip = s.ip := by cases r <;> rfl

theorem framed_multiply {f : Word → Word → BitVec 32 × Bool} (h : multiply f n m s = .ok t) :
    framed [.psw, .mdl, .mdh, .mdc] [] s t ∧ t.ip = s.ip := by
  simp only [multiply, bind_ok] at h
  obtain ⟨r, hr, h⟩ := h
  obtain rfl := pure_eq_ok.mp h
  obtain ⟨operands, ip⟩ := framed_readProduct hr
  exact ⟨((operands.trans (framed_setMdriu _)).mono (by simp) (by simp)).trans (framed_finishProduct _ _), ip⟩

theorem framed_multiplyMarked {f : Word → Word → BitVec 32 × Bool} (h : multiplyMarked f n m s = .ok t) :
    framed [.psw, .mdl, .mdh, .mdc] [] s t ∧ t.ip = s.ip := by
  obtain ⟨product, ip⟩ := framed_multiply (s := setMdriu s) h
  exact ⟨((framed_setMdriu s).mono (by simp) (by simp)).trans product, ip⟩

theorem framed_divide {f : Word → Word → Word → Quotient} (h : divide f n s = .ok t) :
    framed [.psw, .mdl, .mdh, .mdc] [] s t ∧ t.ip = s.ip := by
  simp only [divide, bind_ok] at h
  obtain ⟨y, hy, h⟩ := h
  obtain rfl := pure_eq_ok.mp h
  have operand := framed_readGpr (w := .word) hy
  exact ⟨((operand.trans (framed_setMdriu _)).mono (by simp) (by simp)).trans (framed_finishDivision _ _),
    (ip_finishDivision _ _).trans (ip_readGpr (w := .word) hy)⟩

theorem conclude_divide_framed {f : Word → Word → Word → Quotient} (h : conclude s (divide f n s) = .next t) :
    raise .illopa s.ip s = .next t ∨ (framed [.psw, .mdl, .mdh, .mdc] [] s t ∧ t.ip = s.ip) :=
  conclude_framed h (onlyIllopa_divide _ _ _) framed_divide

theorem exec_multiplyDivide_framed {i : Instr}
    (mem : i ∈ [Instr.mul n m, .mulu n m, .div n, .divu n, .divl n, .divlu n]) (h : exec i s = .next t) :
    raise .illopa s.ip s = .next t ∨ (framed [.psw, .mdl, .mdh, .mdc] [] s t ∧ t.ip = s.ip) := by
  simp only [List.mem_cons, List.not_mem_nil, or_false] at mem
  rcases mem with rfl | rfl | rfl | rfl | rfl | rfl
  · exact conclude_framed h (onlyIllopa_multiply _ _ _ _) framed_multiply
  · exact conclude_framed h (onlyIllopa_multiplyMarked _ _ _ _) framed_multiplyMarked
  · exact conclude_divide_framed h
  · exact conclude_divide_framed h
  · exact conclude_divide_framed h
  · exact conclude_divide_framed h

end Md

end Sys2Proof.Laws

namespace Sys2Proof.Proofs

open Sys2Proof.Machine Sys2Proof.Laws

/-- Settles O7: the two-operand template, with the value and flags that the pages spell out. -/
theorem aluResult : Obligations.AluResult := by
  intro i op w dst src s form at1 s1
  obtain ⟨hd, hn⟩ := aluForm_operands form
  refine ⟨fun bank pointer writable ready => ?_, fun above isGpr => ?_⟩
  · rw [exec_aluForm form, alu2_of rfl hd hn bank pointer writable ready, eval_eq_spelled _ _ _ _ (bits_pos w)]
    rfl
  · rw [exec_aluForm form, alu2, locate_gpr_refused above isGpr]
    rfl

/-- Settles O9, by the value and flags of each complement. -/
theorem complementResult : Obligations.ComplementResult := by
  intro n s bank
  refine ⟨fun w i form writable => ?neg, fun w i form writable => ?cpl⟩
  case neg =>
    have run : exec i s = conclude s (unary w negEval n s) := by
      rcases form with ⟨rfl, rfl⟩ | ⟨rfl, rfl⟩ <;> rfl
    rw [run, unary_of rfl bank writable, negEval_eq _ (bits_pos w)]
    rfl
  case cpl =>
    have run : exec i s = conclude s (unary w cplEval n s) := by
      rcases form with ⟨rfl, rfl⟩ | ⟨rfl, rfl⟩ <;> rfl
    rw [run, unary_of rfl bank writable, cplEval_eq _ (bits_pos w)]
    rfl

/-- Settles O10: the templates of MUL and MULU differ in when MDRIU is set, and the product fits 32 bits. -/
theorem productResult : Obligations.ProductResult := by
  intro n m s bank an am readableN readableM
  refine ⟨?mul, ?mulu⟩
  case mul =>
    intro x s1 y s2 p
    rw [show exec (.mul n m) s = conclude s (multiply mulSigned n m s) from rfl,
      multiply_of rfl rfl bank readableN readableM, finishProduct, mulFlags_mulSigned]
    rfl
  case mulu =>
    intro s0 x s1 y s2 p
    rw [show exec (.mulu n m) s = conclude s (multiplyMarked mulUnsigned n m s) from rfl,
      multiplyMarked_of rfl rfl rfl bank readableN readableM, finishProduct, mulFlags_mulUnsigned]
    rfl

/-- Settles O11: a quotient that fits is answered with its remainder and regarded by Z and N. -/
theorem quotientResult : Obligations.QuotientResult := by
  intro n s bank an readable s1
  have run := fun f => congrArg (conclude s) (divide_of (f := f) rfl bank readable)
  refine ⟨?signed, ?unsigned⟩
  case signed =>
    intro i x form y nonzero low high
    have quotient : exec i s = .next (finishDivision (divideSigned x y) s1) := by
      rcases form with ⟨rfl, rfl⟩ | ⟨rfl, rfl⟩
      · rw [← divWord_of_fits high]; exact run _
      · exact run _
    rw [quotient, divideSigned_fits nonzero low high, finishDivision, divFlags_ofInt low high]
  case unsigned =>
    intro i x form y nonzero high
    have quotient : exec i s = .next (finishDivision (divideUnsigned x y) s1) := by
      rcases form with ⟨rfl, rfl⟩ | ⟨rfl, rfl⟩
      · exact run _
      · rw [← append_toNat]; exact run _
    rw [quotient, divideUnsigned_fits nonzero high, finishDivision, divFlags_ofNat high]

/-- Settles O12: each clause names a division without a valid quotient, which leaves free values (`finishDivision_free`). -/
theorem invalidQuotientResult : Obligations.InvalidQuotientResult := by
  intro n s bank an readable y x s1 free
  have run := fun f => congrArg (conclude s) (divide_of (f := f) rfl bank readable)
  have invalid : ∀ {i : Instr}, exec i s = .next (finishDivision .invalid s1) → free i (· = true) := by
    intro i h
    obtain ⟨low, high, z, v, sign, set, finish⟩ := finishDivision_free s1 (r := .invalid) nofun
    exact ⟨low, high, z, v, sign, set rfl, h.trans (congrArg _ finish)⟩
  refine ⟨fun zero => ⟨invalid ?div, invalid ?divu⟩, fun h => invalid ?divl, fun h => invalid ?divlu, ?unstated⟩
  case div => rw [← divWord_zero s.mdl, ← zero]; exact run _
  case divu =>
    have noQuotient : divWordUnsigned s.mdl y = .invalid := divideUnsigned_invalid (.inl (by rw [zero]; rfl))
    rw [← noQuotient]; exact run _
  case divl =>
    have noQuotient : divLong s.mdh s.mdl y = .invalid :=
      divideSigned_invalid (h.imp_left fun zero => by rw [zero]; rfl)
    rw [← noQuotient]; exact run _
  case divlu =>
    have noQuotient : divLongUnsigned s.mdh s.mdl y = .invalid := by
      refine divideUnsigned_invalid ?_
      rw [append_toNat]
      by_cases zero : y.toNat = 0
      · exact .inl zero
      · have below : y.toNat ≤ s.mdh.toNat := h.resolve_left fun e => zero (by rw [e]; rfl)
        exact .inr ((Nat.le_div_iff_mul_le (by omega)).mpr (by omega))
    rw [← noQuotient]; exact run _
  case unstated =>
    intro lowest minusOne
    have unstated : divWord s.mdl y = .unstated := if_pos ⟨lowest, minusOne⟩
    obtain ⟨low, high, z, v, sign, -, finish⟩ := finishDivision_free s1 (r := divWord s.mdl y) (by rw [unstated]; nofun)
    exact ⟨low, high, z, v, sign, trivial, (run _).trans (congrArg _ finish)⟩

/-- Settles O34: the frame of the two-operand template, whose destination has no pointer. -/
theorem aluFrame : Obligations.AluFrame := by
  intro i op w dst src s t form h
  obtain ⟨hd, -⟩ := aluForm_operands form
  rw [exec_aluForm form] at h
  refine (conclude_illopa h (onlyIllopa_alu2 _ _ _ _ _)).imp_right fun effect at1 s1 located => ?_
  exact ⟨framed_alu2 (pointerBytes_direct hd) effect located, ip_alu2 effect⟩

/-- Settles O36: byte GPRs are the destinations of NEGB and CPLB alone; a word GPR is one by its template. -/
theorem gprFrame : Obligations.GprFrame := by
  intro i w n s t form h
  cases w with
  | byte => rcases gprDestination_byte form with rfl | rfl <;> exact conclude_unary_framed (w := .byte) h
  | word => exact exec_gprDestination_framed form h

/-- Settles O37: operands, MDRIU and MD in turn. -/
theorem multiplyDivideFrame : Obligations.MultiplyDivideFrame := by
  intro i n m s t mem h
  refine (exec_multiplyDivide_framed mem h).imp_right fun ⟨frame, ip⟩ => ?_
  obtain ⟨kept, flags, mdriu⟩ := frame
  exact ⟨kept, flags, mdriu, ip⟩

end Sys2Proof.Proofs
end

section
/-! PROOFS. The statement of 41_logical_prior about PRIOR (R246): the page's loop and the count of leading zeros. -/

namespace Sys2Proof.Laws

open Sys2Proof.Machine

/-- An operand of 0 ends the loop before its first pass, whatever it has counted. -/
theorem priorLoop_of_zero (fuel : Nat) (tmp : Word) (count : Nat) : priorLoop 0 fuel tmp count = count := by
  cases fuel <;> simp [priorLoop]

/-- After `count` passes the loop's temporary value is `b <<< count`, and its top bit is the highest of the `k` bits of `b`
not yet seen. While a 1 is among these, the passes still to come are their leading zeros. -/
theorem priorLoop_eq_leadingZeros {b : Word} {k count : Nat} (passes : count + k = 16)
    (one : ∃ i < k, b.getLsbD i = true) :
    priorLoop b k (b <<< count) count = count + leadingZeros b k := by
  induction k generalizing count with
  | zero => obtain ⟨i, below, -⟩ := one; omega
  | succ k ih =>
    obtain ⟨i, below, bit⟩ := one
    have top : (b <<< count).getLsbD 15 = b.getLsbD k := by
      rw [BitVec.getLsbD_shiftLeft, show 15 - count = k by omega]
      simp [show ¬ 15 < count by omega]
    simp only [priorLoop, leadingZeros, top]
    cases seen : b.getLsbD k with
    | true => simp
    | false =>
      have lower : i < k := Nat.lt_of_le_of_ne (Nat.le_of_lt_succ below) fun same => by simp [same, seen] at bit
      have nonzero : b ≠ 0 := fun zero => by simp [zero] at bit
      have notLast : count ≠ 15 := by omega
      rw [if_pos ⟨rfl, notLast, nonzero⟩, if_neg Bool.false_ne_true, ← BitVec.shiftLeft_add,
        ih (by omega) ⟨i, lower, bit⟩]
      omega

/-- The page's loop ends with the value in closed form. -/
theorem priorValue_eq_priorLoop (b : Word) : priorValue b = BitVec.ofNat 16 (priorLoop b 16 b 0) := by
  by_cases zero : b = 0
  · rw [zero, priorLoop_of_zero]; rfl
  · have one : ∃ i < 16, b.getLsbD i = true := by
      by_contra none
      exact zero (BitVec.eq_of_getLsbD_eq fun i below => by simpa using fun bit => none ⟨i, below, bit⟩)
    have loop := priorLoop_eq_leadingZeros (count := 0) rfl one
    rw [BitVec.shiftLeft_zero, Nat.zero_add] at loop
    rw [priorValue, if_neg zero, loop]

end Sys2Proof.Laws

namespace Sys2Proof.Proofs

open Sys2Proof.Machine Sys2Proof.Laws

/-- Settles O13: the template of PRIOR, with the closed value read back as the page's loop. -/
theorem priorResult : Obligations.PriorResult := by
  intro n m s bank an am readable writable b
  rw [show exec (.prior n m) s = conclude s (prioritize n m s) from rfl,
    prioritize_of rfl rfl bank readable writable, priorValue_eq_priorLoop]
  rfl

end Sys2Proof.Proofs
end

section
/-! PROOFS. The statements of 42_bit: the bit instructions (R260 to R267, R270, R276, R277), the bit fields (R268, R269),
and the frame of all that write a bit or bit field, JBC and JNBS among them (46_jump_call R388, R390). -/

namespace Sys2Proof.Laws

open Sys2Proof.Machine

/-! ## The bit and the flags of a pair (42_bit R262 to R267) -/

theorem spelled_eq_value_flags (op : BitOp) (d b : Bool) : op.spelled d b = (op.value d b, op.flags d b) := by
  cases op <;> rfl

/-! ## A masked field, byte by byte (42_bit R268, R269) -/

theorem wordOf_getLsbD (low high : Byte) (i : Nat) :
    (wordOf low high).getLsbD i = if i < 8 then low.getLsbD i else high.getLsbD (i - 8) := BitVec.getLsbD_append

/-- The masks and data of a bit field act on each byte of the word by itself. -/
theorem field_wordOf (low high maskLow maskHigh dataLow dataHigh : Byte) :
    (wordOf low high &&& ~~~wordOf maskLow maskHigh) ||| wordOf dataLow dataHigh =
      wordOf ((low &&& ~~~maskLow) ||| dataLow) ((high &&& ~~~maskHigh) ||| dataHigh) := by
  refine BitVec.eq_of_getLsbD_eq fun i below => ?_
  simp only [BitVec.getLsbD_or, BitVec.getLsbD_and, BitVec.getLsbD_not, wordOf_getLsbD]
  by_cases inLow : i < 8
  · simp [inLow, below]
  · simp [inLow, below, show i - 8 < 8 by omega]

/-- A byte of a word stays where neither mask nor data have a bit. -/
theorem field_zero (x : Byte) : (x &&& ~~~0) ||| 0 = x := BitVec.or_zero.trans BitVec.and_allOnes

theorem setWidth_eq_wordOf (x : Byte) : x.setWidth 16 = wordOf x 0 := by
  refine BitVec.eq_of_getLsbD_eq fun i below => ?_
  rw [wordOf_getLsbD, BitVec.getLsbD_setWidth]
  split
  · simp [below]
  · simp [BitVec.getLsbD_of_ge x i (by omega)]

theorem setWidth_shiftLeft_eq_wordOf (x : Byte) : x.setWidth 16 <<< 8 = wordOf 0 x := by
  refine BitVec.eq_of_getLsbD_eq fun i below => ?_
  rw [wordOf_getLsbD, BitVec.getLsbD_shiftLeft, BitVec.getLsbD_setWidth]
  split
  · simp [*]
  · simp [*, show i - 8 < 16 by omega]

/-- BFLDL's masked bits lie in the low byte. -/
theorem field_low (v : Word) (mask data : Byte) :
    (v &&& ~~~mask.setWidth 16) ||| data.setWidth 16 = wordOf ((lowByte v &&& ~~~mask) ||| data) (highByte v) := by
  conv_lhs => rw [← wordOf_bytes v, setWidth_eq_wordOf, setWidth_eq_wordOf, field_wordOf, field_zero]

/-- BFLDH's masked bits lie in the high byte. -/
theorem field_high (v : Word) (mask data : Byte) :
    (v &&& ~~~(mask.setWidth 16 <<< 8)) ||| (data.setWidth 16 <<< 8) =
      wordOf (lowByte v) ((highByte v &&& ~~~mask) ||| data) := by
  conv_lhs => rw [← wordOf_bytes v, setWidth_shiftLeft_eq_wordOf, setWidth_shiftLeft_eq_wordOf, field_wordOf, field_zero]

/-! ## IP and the frame -/

section Frame

variable {qq zz : Byte} {q z : BitVec 4} {s t : State}

theorem ip_bitAssign {b : Bool} (h : bitAssign b qq q s = .ok t) : t.ip = s.ip := by
  simp only [bitAssign, bind_ok] at h
  obtain ⟨old, hold, u, hu, h⟩ := h
  obtain rfl := pure_eq_ok.mp h
  rw [ip_flagsUnlessPsw, ip_writeBit hu, ip_readBit hold]

theorem ip_bit2 {op : BitOp} (h : bit2 op zz z qq q s = .ok t) : t.ip = s.ip := by
  simp only [bit2, bind_ok] at h
  obtain ⟨d, hd, b, hb, u, hu, h⟩ := h
  obtain rfl := pure_eq_ok.mp h
  rw [ip_flagsUnlessPsw, ip_writeBit hu, ip_readBit hb, ip_readBit hd]

theorem ip_bitField {mask data : Word} (h : bitField qq mask data s = .ok t) : t.ip = s.ip := by
  simp only [bitField, bind_ok] at h
  obtain ⟨v, hv, u, hu, h⟩ := h
  obtain rfl := pure_eq_ok.mp h
  rw [ip_flagsUnlessPsw, ip_writeMem (w := .word) hu, (framed_readBitWord hv).2, touch_ip]

/-- An instruction whose template never jumps: IP stays, whatever else is known of the instruction. -/
theorem conclude_framed_stays {regs : List CpuReg} {stored : List Addr} {x : Exec State} {other : Prop}
    (h : conclude s x = .next t) (trap : onlyIllopa x)
    (effect : ∀ {u}, x = .ok u → framed regs stored s u ∧ u.ip = s.ip) :
    raise .illopa s.ip s = .next t ∨ (framed regs stored s t ∧ (other → t.ip = s.ip)) :=
  (conclude_framed h trap effect).imp_right (And.imp_right fun ip _ => ip)

/-- JBC and JNBS: the frame, and nothing about IP (46_jump_call R388, R390). -/
theorem conclude_jumpAndFlip_framed {b : Bool} {rel : Byte} {other : Prop}
    (h : conclude s (jumpAndFlip b qq q rel s) = .next t) (jumps : ¬ other) :
    raise .illopa s.ip s = .next t ∨
      (framed [.psw, .mdc] (accessBytes .word (bitoffAddr s qq)) s t ∧ (other → t.ip = s.ip)) :=
  (conclude_illopa h (onlyIllopa_jumpAndFlip _ _ _ _ _)).imp_right fun effect =>
    ⟨framed_jumpAndFlip effect, fun stays => absurd stays jumps⟩

end Frame

end Sys2Proof.Laws

namespace Sys2Proof.Proofs

open Sys2Proof.Machine Sys2Proof.Laws

/-- Settles O17: the template of BCLR and BSET, and the bits of the word it writes. -/
theorem bitAssignResult : Obligations.BitAssignResult := by
  intro b qq q s at1 short writable old
  have run := congrArg (conclude s) (bitAssign_of (b := b) (q := q) rfl short writable)
  refine ⟨setBit old q b, fun j below => setBit_getLsbD old q b below, ?_⟩
  cases b <;> exact run

/-- Settles O18: the template of the bit pairs and that of BCMP. -/
theorem bitPairResult : Obligations.BitPairResult := by
  intro zz z qq q s at1 at2 shortZ shortQ readable1 readable2 d s1 b s2
  refine ⟨fun i op form writable => ?writes, ?bcmp⟩
  case writes =>
    rw [spelled_eq_value_flags, exec_bitForm form]
    exact ⟨setBit (peekWord s2 at1) z (op.value d b), fun j below => setBit_getLsbD _ _ _ below,
      congrArg (conclude s) (bit2_of rfl rfl rfl rfl shortZ shortQ writable readable2)⟩
  case bcmp => exact congrArg (conclude s) (bitCompare_of rfl rfl rfl shortZ shortQ readable1 readable2)

/-- Settles O19: the template of the bit fields, with the word it writes taken byte by byte. -/
theorem bitFieldResult : Obligations.BitFieldResult := by
  intro qq mask data s at1 short writable old answer
  have run := fun wideMask wideData =>
    congrArg (conclude s) (bitField_of (mask := wideMask) (data := wideData) rfl short writable)
  constructor
  · rw [← field_high]; exact run _ _
  · rw [← field_low]; exact run _ _

/-- Settles O39: the frame of each template, and IP of all but that of JBC and JNBS. -/
theorem bitFrame : Obligations.BitFrame := by
  intro i qq s t form h
  cases i <;> cases form
  case bclr | bset =>
    exact conclude_framed_stays h (onlyIllopa_bitAssign _ _ _ _) fun hu => ⟨framed_bitAssign hu, ip_bitAssign hu⟩
  case bfldl | bfldh =>
    exact conclude_framed_stays h (onlyIllopa_bitField _ _ _ _) fun hu => ⟨framed_bitField hu, ip_bitField hu⟩
  case bmov | bmovn | band | bor | bxor =>
    exact conclude_framed_stays h (onlyIllopa_bit2 _ _ _ _ _ _) fun hu => ⟨framed_bit2 hu, ip_bit2 hu⟩
  case jbc q rel => exact conclude_jumpAndFlip_framed h fun stays => (stays q rel).1 rfl
  case jnbs q rel => exact conclude_jumpAndFlip_framed h fun stays => (stays q rel).2 rfl

end Sys2Proof.Proofs
end

section
/-! PROOFS. The statements of 43_compare_loop: the flags of a compare and the step after it (R290 to R296), and what CMP,
CMPB and BCMP (42_bit R267) leave unchanged. -/

namespace Sys2Proof.Laws

open Sys2Proof.Machine

/-! ## The flags of a compare (43_compare_loop R296) -/

/-- The flags of `a - b`, written out. -/
theorem compareFlags_eq {n : Nat} (a b : BitVec n) : compareFlags a b =
    { e := b == BitVec.intMin n, z := a == b, v := (subExact a b false).overflow, c := decide (a.toNat < b.toNat),
      n := (a - b).msb } := by
  have equal : (compareFlags a b).z = (a == b) := by rw [Bool.eq_iff_iff, compareFlags_z, beq_iff_eq]
  have below : (compareFlags a b).c = decide (a.toNat < b.toNat) := by
    rw [Bool.eq_iff_iff, compareFlags_c, decide_eq_true_eq]
  have sign : (compareFlags a b).n = (a - b).msb := congrArg BitVec.msb (subExact_value_false a b)
  rw [← equal, ← below, ← sign]
  rfl

/-! ## The operands of the compares -/

/-- No compare with a step has a pointer. -/
theorem stepForm_sourcePointerPlain {i : Instr} {k : Int} {n : RegNo} {op2 : Source}
    (h : stepForm i = some (k, n, op2)) (s : State) : sourcePointerPlain s op2 = true := by
  cases i <;> cases h <;> rfl

/-! ## IP -/

section Ip

variable {s t : State}

theorem ip_compare2 {w : Width} {op1 : Loc} {op2 : Source} (h : compare2 w op1 op2 s = .ok t) : t.ip = s.ip := by
  simp only [compare2, bind_ok] at h
  obtain ⟨a, ha, b, hb, h⟩ := h
  obtain rfl := pure_eq_ok.mp h
  rw [setFlags_ip, ip_readSource hb, ip_readLoc ha]

theorem ip_bitCompare {zz qq : Byte} {z q : BitVec 4} (h : bitCompare zz z qq q s = .ok t) : t.ip = s.ip := by
  simp only [bitCompare, bind_ok] at h
  obtain ⟨a, ha, b, hb, h⟩ := h
  obtain rfl := pure_eq_ok.mp h
  rw [setFlags_ip, ip_readBit hb, ip_readBit ha]

end Ip

end Sys2Proof.Laws

namespace Sys2Proof.Proofs

open Sys2Proof.Machine Sys2Proof.Laws

/-- Settles O14: the template of the compares and that of the compares with a step, with the flags spelled out. -/
theorem compareResult : Obligations.CompareResult := by
  intro s
  refine ⟨fun i w op1 op2 form => ⟨fun bank pointer readable ready => ?compare, fun above isGpr => ?compareRefused⟩,
    fun i k n op2 form => ⟨fun bank writable ready => ?step, fun above => ?stepRefused⟩⟩
  case compare =>
    obtain ⟨hd, hn⟩ := compareForm_operands form
    rw [exec_compareForm form, compare2_of rfl hd hn bank pointer readable ready, compareFlags_eq]
    rfl
  case compareRefused =>
    rw [exec_compareForm form, compare2, readLoc, locate_gpr_refused above isGpr]
    rfl
  case step =>
    have pointer := stepForm_sourcePointerPlain form s
    rw [exec_stepForm form, compareStep_of rfl (stepForm_operands form) bank pointer writable ready, compareFlags_eq]
    rfl
  case stepRefused =>
    rw [exec_stepForm form, compareStep, locate_gpr_refused above rfl]
    rfl

/-- Settles O35: the frame and the IP of the two templates, that of CMP and CMPB and that of BCMP. -/
theorem compareFrame : Obligations.CompareFrame := by
  intro s t
  refine ⟨fun i w op1 op2 form h => ?compare, fun zz z qq q h => ?bcmp⟩
  case compare =>
    obtain ⟨hd, -⟩ := compareForm_operands form
    rw [exec_compareForm form] at h
    exact conclude_framed h (onlyIllopa_compare2 _ _ _ _) fun hu =>
      ⟨framed_compare2 (pointerBytes_direct hd) hu, ip_compare2 hu⟩
  case bcmp =>
    exact conclude_framed h (onlyIllopa_bitCompare _ _ _ _ _) fun hu => ⟨framed_bitCompare hu, ip_bitCompare hu⟩

end Sys2Proof.Proofs
end

section
/-! PROOFS. The statement of 44_shift_rotate (R310 to R315): as many passes of the page's loop as the count says leave the
word, the carry and the rounding flag of the closed forms. -/

namespace Sys2Proof.Laws

open Sys2Proof.Machine

/-! ## Rotates -/

/-- A rotate is the library's, for the counts an instruction can have. -/
theorem value_rol {a : Word} {k : Nat} (small : k < 16) : ShiftOp.rol.value a k = a.rotateLeft k := by
  rw [BitVec.rotateLeft_eq_rotateLeftAux_of_lt small]
  cases k with
  | zero => simp [ShiftOp.value, BitVec.rotateLeftAux, BitVec.ushiftRight_eq_zero]
  | succ k => rfl

theorem value_ror {a : Word} {k : Nat} (small : k < 16) : ShiftOp.ror.value a k = a.rotateRight k := by
  rw [BitVec.rotateRight_eq_rotateRightAux_of_lt small]
  cases k with
  | zero => simp [ShiftOp.value, BitVec.rotateRightAux, BitVec.shiftLeft_eq_zero]
  | succ k => rfl

theorem rotateLeft_succ {a : Word} {k : Nat} (small : k + 1 < 16) :
    a.rotateLeft (k + 1) = (a.rotateLeft k).rotateLeft 1 := by
  refine BitVec.eq_of_getLsbD_eq fun i below => ?_
  simp only [BitVec.getLsbD_rotateLeft_of_le small, BitVec.getLsbD_rotateLeft_of_le (Nat.lt_of_succ_lt small),
    BitVec.getLsbD_rotateLeft_of_le (show 1 < 16 by decide)]
  grind

theorem rotateRight_succ {a : Word} {k : Nat} (small : k + 1 < 16) :
    a.rotateRight (k + 1) = (a.rotateRight k).rotateRight 1 := by
  refine BitVec.eq_of_getLsbD_eq fun i below => ?_
  simp only [BitVec.getLsbD_rotateRight_of_lt small, BitVec.getLsbD_rotateRight_of_lt (Nat.lt_of_succ_lt small),
    BitVec.getLsbD_rotateRight_of_lt (show 1 < 16 by decide)]
  grind

/-! ## The closed forms, one place further -/

theorem value_succ (op : ShiftOp) (a : Word) {k : Nat} (small : k + 1 < 16) :
    op.value a (k + 1) = op.value (op.value a k) 1 := by
  cases op with
  | shl => exact BitVec.shiftLeft_add a k 1
  | shr => exact BitVec.shiftRight_add a k 1
  | rol => rw [value_rol small, value_rol (k := 1) (by decide), value_rol (Nat.lt_of_succ_lt small), rotateLeft_succ small]
  | ror => rw [value_ror small, value_ror (k := 1) (by decide), value_ror (Nat.lt_of_succ_lt small), rotateRight_succ small]
  | ashr => exact BitVec.sshiftRight_add

/-- The last bit out is the one that leaves the word shifted so far. -/
theorem carry_succ (op : ShiftOp) (a : Word) {k : Nat} (small : k + 1 < 16) :
    op.carry a (k + 1) = op.carry (op.value a k) 1 := by
  cases op with
  | shl =>
    show a.getLsbD (16 - (k + 1)) = (a <<< k).getLsbD 15
    rw [BitVec.getLsbD_shiftLeft]
    grind
  | shr => exact (BitVec.getLsbD_ushiftRight a k 0).symm
  | rol =>
    rw [value_rol (Nat.lt_of_succ_lt small)]
    show a.getLsbD (16 - (k + 1)) = (a.rotateLeft k).getLsbD 15
    rw [BitVec.getLsbD_rotateLeft_of_le (Nat.lt_of_succ_lt small)]
    grind
  | ror =>
    rw [value_ror (Nat.lt_of_succ_lt small)]
    show a.getLsbD k = (a.rotateRight k).getLsbD 0
    rw [BitVec.getLsbD_rotateRight_of_lt (Nat.lt_of_succ_lt small)]
    grind
  | ashr =>
    show a.getLsbD k = (a.sshiftRight k).getLsbD 0
    rw [BitVec.getLsbD_sshiftRight]
    grind

theorem lowBits_ne_zero_succ (a : Word) (k : Nat) :
    (a.toNat % 2 ^ (k + 1) != 0) = (a.getLsbD k || a.toNat % 2 ^ k != 0) := by
  rw [Nat.mod_pow_succ, ← Nat.toNat_testBit, BitVec.testBit_toNat]
  cases a.getLsbD k <;> simp

/-- The rounding flag of a shift to the right regards the bits out before the last one: one place further, these are the
carry of the shift so far and the bits its rounding flag regards. -/
theorem overflow_shr_succ (a : Word) (k : Nat) :
    ShiftOp.shr.overflow a (k + 1) = (ShiftOp.shr.carry a k || ShiftOp.shr.overflow a k) := by
  have overflow_eq : ∀ j, ShiftOp.shr.overflow a (j + 1) = (a.toNat % 2 ^ j != 0) := fun j => by
    cases j <;> simp [ShiftOp.overflow, Nat.mod_one]
  cases k with
  | zero => rfl
  | succ k =>
    rw [overflow_eq, overflow_eq, lowBits_ne_zero_succ]
    simp [ShiftOp.carry]

/-! ## The page's loop (44_shift_rotate R310 to R314) -/

/-- What the loop holds after `k` passes from the word `a`, in closed form. -/
def shiftClosed (op : ShiftOp) (a : Word) (k : Nat) : ShiftLoop where
  op1 := op.value a k
  c := op.carry a k
  v := op.overflow a k

theorem shiftClosed_zero (op : ShiftOp) (a : Word) : shiftClosed op a 0 = { op1 := a, c := false, v := false } := by
  cases op <;> simp [shiftClosed, ShiftOp.value, ShiftOp.carry, ShiftOp.overflow]

theorem pass_op1 (op : ShiftOp) (x : ShiftLoop) : (op.pass x).op1 = op.value x.op1 1 := by
  cases op with
  | shl | shr => rfl
  | rol =>
    refine BitVec.eq_of_getLsbD_eq fun i below => ?_
    rw [value_rol (by decide), BitVec.getLsbD_rotateLeft_of_le (by decide), ShiftOp.pass, BitVec.getLsbD_or,
      BitVec.getLsbD_shiftLeft, BitVec.getLsbD_setWidth, BitVec.getLsbD_ofBool]
    grind
  | ror =>
    refine BitVec.eq_of_getLsbD_eq fun i below => ?_
    rw [value_ror (by decide), BitVec.getLsbD_rotateRight_of_lt (by decide), ShiftOp.pass, BitVec.getLsbD_or,
      BitVec.getLsbD_ushiftRight, BitVec.getLsbD_shiftLeft, BitVec.getLsbD_setWidth, BitVec.getLsbD_ofBool]
    grind
  | ashr =>
    refine BitVec.eq_of_getLsbD_eq fun i below => ?_
    rw [ShiftOp.value, BitVec.getLsbD_sshiftRight, ShiftOp.pass, BitVec.getLsbD_or, BitVec.getLsbD_ushiftRight,
      BitVec.getLsbD_and, show (0x8000 : Word) = BitVec.intMin 16 from rfl, BitVec.getLsbD_intMin,
      BitVec.msb_eq_getLsbD_last]
    grind

theorem pass_c (op : ShiftOp) (x : ShiftLoop) : (op.pass x).c = op.carry x.op1 1 := by
  cases op <;> rfl

theorem pass_shiftClosed_v (op : ShiftOp) (a : Word) (k : Nat) :
    (op.pass (shiftClosed op a k)).v = op.overflow a (k + 1) := by
  cases op with
  | shl | rol => rfl
  | shr | ashr => exact (overflow_shr_succ a k).symm
  | ror => exact (Bool.or_comm _ _).trans (overflow_shr_succ a k).symm

theorem pass_shiftClosed (op : ShiftOp) (a : Word) {k : Nat} (small : k + 1 < 16) :
    op.pass (shiftClosed op a k) = shiftClosed op a (k + 1) := by
  have word := (pass_op1 op (shiftClosed op a k)).trans (value_succ op a small).symm
  have carry := (pass_c op (shiftClosed op a k)).trans (carry_succ op a small).symm
  exact (ShiftLoop.mk.injEq _ _ _ _ _ _).mpr ⟨word, carry, pass_shiftClosed_v op a k⟩

theorem loop_shiftClosed (op : ShiftOp) (a : Word) {count k : Nat} (small : k + count < 16) :
    op.loop count (shiftClosed op a k) = shiftClosed op a (k + count) := by
  induction count generalizing k with
  | zero => rfl
  | succ count ih =>
    rw [ShiftOp.loop, pass_shiftClosed op a (by omega), ih (by omega), Nat.succ_add_eq_add_succ]

/-- From C and V clear, the passes of a count below 16 leave the closed forms. -/
theorem loop_eq_shiftClosed (op : ShiftOp) (a : Word) {count : Nat} (small : count < 16) :
    op.loop count { op1 := a, c := false, v := false } = shiftClosed op a count := by
  have passes := loop_shiftClosed op a (count := count) (k := 0) (by omega)
  rwa [shiftClosed_zero, Nat.zero_add] at passes

/-! ## The operands -/

/-- No shift or rotate has a pointer. -/
theorem shiftForm_noPointer {i : Instr} {op : ShiftOp} {n : RegNo} {src : Source}
    (h : shiftForm i = some (op, n, src)) (s : State) : noPreDec src = true ∧ sourcePointerPlain s src = true := by
  rcases shiftForm_operands h with ⟨m, rfl⟩ | ⟨v, rfl⟩ <;> exact ⟨rfl, rfl⟩

end Sys2Proof.Laws

namespace Sys2Proof.Proofs

open Sys2Proof.Machine Sys2Proof.Laws

/-- Settles O16: the template of the shifts, with the page's loop read as its closed forms (`loop_eq_shiftClosed`). -/
theorem shiftResult : Obligations.ShiftResult := by
  intro i op n src s form bank ready at1 writable count s1 r
  obtain ⟨noDec, pointer⟩ := shiftForm_noPointer form s
  have closed : r = shiftClosed op (peekWord s1 at1) count := loop_eq_shiftClosed op _ (Nat.mod_lt _ (by decide))
  rw [exec_shiftForm form, shift_of rfl noDec bank pointer ready writable, closed]
  rfl

end Sys2Proof.Proofs
end

section
/-! PROOFS. The statements of 45_data_movement: value, pointers and flags of the moves (R330 to R334), and what they leave
unchanged. -/

namespace Sys2Proof.Laws

open Sys2Proof.Machine

/-! ## The kinds of data movement in the one template (45_data_movement R334) -/

/-- Every kind is the template with the value written and the flags that its page spells out. -/
theorem moveOf_eq_move (kind : MoveKind) (dst : Loc) (src : Source) (s : State) :
    moveOf kind dst src s = move kind.src kind.dst kind.written kind.flags dst src s := by
  cases kind <;> rfl

/-- No kind changes V or C. -/
theorem moveKind_flags_keep_vc (kind : MoveKind) (v : BitVec kind.src.bits) (f : CondFlags) :
    (kind.flags v f).v = f.v ∧ (kind.flags v f).c = f.c := by
  cases kind <;> exact ⟨rfl, rfl⟩

/-! ## Operands in or through a GPR of a bank above FFE0H (10_state R21) -/

/-- An operand in a GPR, or one whose pointer is a GPR, is refused while CP is above FFE0H (log 10). -/
theorem locate_bank_refused {bank : Word} {w : Width} {l : Loc} {s : State} (above : 0xFFE0 < bank)
    (uses : l.isGpr = true ∨ ∃ p mode, l = .ind p mode) :
    locate bank w l s = .error (.refused .contextPointer) := by
  rcases uses with isGpr | ⟨p, mode, rfl⟩
  · exact locate_gpr_refused above isGpr
  · have stop : bankStop bank = some (.refused .contextPointer) := if_pos above
    simp only [locate, locateIndirect, stop]

section Refused

variable {wsrc wdst : Width} {ext : BitVec wsrc.bits → BitVec wdst.bits}
  {flags : BitVec wsrc.bits → CondFlags → CondFlags} {dst l : Loc} {s : State}

theorem move_source_refused (above : 0xFFE0 < s.cp) (uses : l.isGpr = true ∨ ∃ p mode, l = .ind p mode) :
    move wsrc wdst ext flags dst (.loc l) s = .error (.refused .contextPointer) := by
  simp only [move, readSource, readLoc, locate_bank_refused above uses, error_bind]

theorem move_destination_refused {d : Word} (above : 0xFFE0 < s.cp)
    (uses : dst.isGpr = true ∨ ∃ p mode, dst = .ind p mode) :
    move wsrc wdst ext flags dst (.imm d) s = .error (.refused .contextPointer) := by
  simp only [move, readSource, ok_bind, writeLoc, locate_bank_refused above uses, error_bind]

end Refused

end Sys2Proof.Laws

namespace Sys2Proof.Proofs

open Sys2Proof.Machine Sys2Proof.Laws

/-- Settles O20: every form is the move template, with the value and flags of its kind. -/
theorem moveResult : Obligations.MoveResult := by
  intro i kind dst src s form v s1 at1 s2 usesGpr
  rw [exec_moveForm form, moveOf_eq_move]
  refine ⟨fun bank source destination ready writable => ?result,
    fun above => ⟨fun l fromLoc uses => ?source, fun d constant uses => ?destination⟩⟩
  case result =>
    rw [move_of rfl rfl (moveForm_operands form) bank source destination ready writable]
    rfl
  case source => rw [fromLoc, move_source_refused above uses]; rfl
  case destination => rw [constant, move_destination_refused above uses]; rfl

/-- Settles O38: the frame of the move template, whose flags keep V and C. -/
theorem moveFrame : Obligations.MoveFrame := by
  intro i kind dst src s t form h
  rw [exec_moveForm form, moveOf_eq_move] at h
  refine (conclude_illopa h (onlyIllopa_move _ _ _ _ _ _ _)).imp_right fun effect v s1 at1 s2 read located => ?_
  obtain ⟨kept, -, mdriu⟩ := framed_move effect read located
  obtain ⟨ezn, ip⟩ := onlyEzn_move (moveKind_flags_keep_vc kind) effect read located
  exact ⟨kept, ezn, mdriu, ip⟩

end Sys2Proof.Proofs
end


section
/-! PROOFS. The statements of 46_jump_call: jumps (R382 to R390), calls (R391 to R395), the software trap (R396) and the
return from it (47_return R423), and what these, SCXT and the EXTend instructions with a register leave unchanged. -/

namespace Sys2Proof.Laws

open Sys2Proof.Machine

/-! ## Relative targets (46_jump_call R382) -/

theorem relTarget_eq_ofInt (s : State) (rel : Byte) :
    relTarget s rel = BitVec.ofInt 16 (s.ip.toNat + 2 * rel.toInt) := by
  have next : BitVec.ofInt 16 s.ip.toNat = s.ip := by rw [BitVec.ofInt_natCast, BitVec.ofNat_toNat, BitVec.setWidth_eq]
  rw [BitVec.ofInt_add, BitVec.ofInt_mul, next]
  rfl

/-- A displacement is even, so that the target has the parity of the following instruction's address. -/
theorem relTarget_parity (s : State) (rel : Byte) : (relTarget s rel).getLsbD 0 = s.ip.getLsbD 0 := by
  simp only [relTarget, BitVec.getLsbD, Nat.testBit_zero, BitVec.toNat_add, BitVec.toNat_mul, BitVec.ofNat_eq_ofNat,
    BitVec.toNat_ofNat, decide_eq_decide]
  omega

/-- A displacement of `-length` reaches the branch itself. -/
theorem relTarget_self {s : State} {rel : Byte} {here length : Word} (next : s.ip = here + length)
    (back : 2 * rel.signExtend 16 = -length) :
    relTarget s rel = here := by
  rw [relTarget, next, back]
  exact add_neg_cancel_right here length

/-! ## Instructions with a condition (46_jump_call R383, R384, R391, R392) -/

section Condition

variable {s : State} {c : Bool} {x : Exec State}

theorem conclude_ifTaken (h : c = true) : conclude s (if c then x else pure s) = conclude s x := by rw [if_pos h]

theorem conclude_ifNotTaken (h : c = false) : conclude s (if c then x else pure s) = .next s := by
  rw [if_neg (by simp [h])]
  rfl

theorem onlyIllopa_onCondition (h : onlyIllopa x) : onlyIllopa (if c then x else pure s) := by
  split
  · exact h
  · exact onlyIllopa_pure s

/-- An effect on a condition has the frame that it has where the condition holds. -/
theorem framed_onCondition {regs : List CpuReg} {stored : List Addr} {t : State} (h : (if c then x else pure s) = .ok t)
    (effect : x = .ok t → framed regs stored s t) : framed regs stored s t := by
  split at h
  · exact effect h
  · obtain rfl := pure_eq_ok.mp h
    exact framed_refl regs stored s

end Condition

/-! ## Segments with SGTDIS set (46_jump_call R398) -/

/-- Code in segment 0, or with segmentation enabled, is not refused. -/
theorem segment_allowed {s : State} {seg : Byte} (h : segmentationDisabled s = false ∨ seg = 0) :
    ¬ (segmentationDisabled s && seg != 0) = true := by
  rcases h with enabled | rfl
  · simp [enabled]
  · simp

theorem segment_refused {s : State} {seg : Byte} (disabled : segmentationDisabled s = true) (other : seg ≠ 0) :
    (segmentationDisabled s && seg != 0) = true := by
  rw [disabled, Bool.true_and]
  exact bne_iff_ne.mpr other

/-! ## Calls where their pushes take place (46_jump_call R391 to R395) -/

section Calls

variable {s : State}

theorem callNear_of {target : Word} (ready : pushReady s = true) :
    callNear target s = .ok (jumpNear target (pushed s.ip s)) := by
  rw [callNear, push_of ready]
  rfl

/-- A `reg` operand that needs no GPR of a bank above FFE0H (20_memory R82). -/
theorem locate_reg_of {bank : Word} {w : Width} {r : Byte} (short : shortStop bank r = none) :
    locate bank w (.reg r) s = .ok (regAddr bank s w r, s) := by
  rw [locate, short]

/-- PCALL where its three accesses take place. -/
theorem exec_pcall_of {r : Byte} {a : Word} {at1 : Addr} {s2 s3 : State} (hat : at1 = regAddr s.cp s .word r)
    (short : shortStop s.cp r = none) (readable : canRead s .word at1 = true)
    (first : push (peekWord s at1) (touch at1 s) = .ok s2) (second : push s.ip s2 = .ok s3) :
    exec (.pcall r a) s = .next (pushedFlags (peekWord s at1) (jumpNear a s3)) := by
  subst hat
  rw [show exec (.pcall r a) s = execPcall r a s from rfl, execPcall]
  simp only [locate_reg_of short, ok_bind, readMem_of readable, peek_word, first, second]
  rfl

end Calls

/-! ## Frames of what stores nothing (46_jump_call R384, R387, R389; 48_system_control R438 to R441) -/

section NoStore

variable {s t : State}

theorem framed_jumpOnBit {b : Bool} {qq : Byte} {q : BitVec 4} {rel : Byte} (h : jumpOnBit b qq q rel s = .ok t) :
    framed [.mdc] [] s t := by
  obtain ⟨x, hx, h⟩ := bind_ok.mp h
  obtain rfl := pure_eq_ok.mp h
  refine (framed_readBit hx).1.trans ?_
  split
  · exact framed_jumpNear _ _ _ _
  · exact framed_refl _ _ _

theorem conclude_jumpOnBit_framed {b : Bool} {qq : Byte} {q : BitVec 4} {rel : Byte}
    (h : conclude s (jumpOnBit b qq q rel s) = .next t) : raise .illopa s.ip s = .next t ∨ framed [.mdc] [] s t :=
  (conclude_illopa h (onlyIllopa_jumpOnBit _ _ _ _ _)).imp_right framed_jumpOnBit

theorem exec_jmpi_framed {cc : Cond} {n : RegNo} (h : exec (.jmpi cc n) s = .next t) :
    raise .illopa s.ip s = .next t ∨ framed [.mdc] [] s t := by
  refine (conclude_illopa h (onlyIllopa_onCondition ?trap)).imp_right fun effect =>
    framed_onCondition effect fun jumps => ?_
  case trap => exact onlyIllopa_bind (onlyIllopa_readGpr _ _ _) fun _ => onlyIllopa_pure _
  obtain ⟨x, hx, jumps⟩ := bind_ok.mp jumps
  obtain rfl := pure_eq_ok.mp jumps
  exact (framed_readGpr hx).trans (framed_jumpNear _ _ _ _)

/-- EXTP, EXTPR, EXTS and EXTSR with a register: after the read nothing changes but the sequence. -/
theorem exec_registerSequence_framed {i : Instr} {m : RegNo} {f : Word → Sequence}
    (form : registerSequenceForm i = some (m, f)) (h : exec i s = .next t) : raise .illopa s.ip s = .next t ∨
      ∃ v u, t = { u with seq := f v } ∧ framed [.mdc] [] s u ∧ u.ip = s.ip := by
  rw [exec_registerSequenceForm form] at h
  refine (conclude_illopa h ?trap).imp_right fun effect => ?_
  case trap => exact onlyIllopa_bind (onlyIllopa_readGpr _ _ _) fun _ => onlyIllopa_pure _
  obtain ⟨x, hx, effect⟩ := bind_ok.mp effect
  exact ⟨x.1, x.2, (pure_eq_ok.mp effect).symm, framed_readGpr hx, ip_readGpr hx⟩

end NoStore

/-! ## Frames of what pushes (46_jump_call R391 to R395, 49_stack_misc R461, R462) -/

section Pushes

variable {s t u : State}

theorem framed.sp_eq (h : framed [.mdc] [] s u) : u.sp = s.sp := by
  obtain ⟨⟨-, regs, -⟩, -, -⟩ := h
  exact regs .sp (by simp) (by simp)

/-- A push after reads: they do not move SP, so that it stores where a push from the start would. -/
theorem framed_readPush {v : Word} (read : framed [.mdc] [] s u) (h : push v u = .ok t) :
    framed [.sp, .mdc] (pushBytes s) s t := by
  have stores := framed_push h
  rw [pushBytes_congr read.sp_eq] at stores
  exact (read.mono (by simp) (by simp)).trans stores

/-- The read of a `reg` operand, as PUSH, PCALL and SCXT make it. -/
theorem framed_readReg {r : Byte} {x : Addr × State} {y : Word × State}
    (located : locate s.cp .word (.reg r) s = .ok x) (read : readMem .word x.1 x.2 = .ok y) : framed [.mdc] [] s y.2 := by
  obtain rfl := locate_reg located
  exact framed_readMem (w := .word) read

theorem exec_push_framed {r : Byte} (h : exec (.push r) s = .next t) : raise .illopa s.ip s = .next t ∨
    (framed [.sp, .psw, .mdc] (pushBytes s) s t ∧ onlyEzn (pushBytes s) s t ∧ t.ip = s.ip) := by
  refine (conclude_illopa h ?trap).imp_right fun effect => ?_
  case trap =>
    exact onlyIllopa_bind (onlyIllopa_locate _ _ _ _) fun _ => onlyIllopa_bind (onlyIllopa_readMem .word _ _) fun _ =>
      onlyIllopa_bind (onlyIllopa_push _ _) fun _ => onlyIllopa_pure _
  obtain ⟨x, hx, effect⟩ := bind_ok.mp effect
  obtain ⟨y, hy, effect⟩ := bind_ok.mp effect
  obtain ⟨u, hu, effect⟩ := bind_ok.mp effect
  obtain rfl := pure_eq_ok.mp effect
  have stores := framed_readPush (framed_readReg hx hy) hu
  exact ⟨(stores.mono (by simp) (by simp)).trans ((framed_setFlags _ _).mono (by simp) (by simp)),
    onlyEzn_setFlags stores (by simp) rfl rfl,
    (ip_push hu).trans ((ip_readMem (w := .word) hy).trans (ip_locate hx))⟩

/-- CALLA, CALLI and CALLR. -/
theorem exec_callNear_framed {i : Instr}
    (call : (∃ cc a, i = .calla cc a) ∨ (∃ cc n, i = .calli cc n) ∨ ∃ rel, i = .callr rel)
    (h : exec i s = .next t) :
    raise .illopa s.ip s = .next t ∨ framed [.sp, .mdc] (pushBytes s) s t := by
  rcases call with ⟨cc, a, rfl⟩ | ⟨cc, n, rfl⟩ | ⟨rel, rfl⟩
  case inl =>
    exact (conclude_illopa h (onlyIllopa_onCondition (onlyIllopa_callNear _ _))).imp_right fun effect =>
      framed_onCondition effect framed_callNear
  case inr.inl =>
    refine (conclude_illopa h (onlyIllopa_onCondition ?trap)).imp_right fun effect =>
      framed_onCondition effect fun calls => ?_
    case trap => exact onlyIllopa_bind (onlyIllopa_readGpr _ _ _) fun _ => onlyIllopa_callNear _ _
    obtain ⟨x, hx, calls⟩ := bind_ok.mp calls
    obtain ⟨u, hu, calls⟩ := bind_ok.mp calls
    obtain rfl := pure_eq_ok.mp calls
    exact (framed_readPush (framed_readGpr hx) hu).trans (framed_jumpNear _ _ _ _)
  case inr.inr => exact (conclude_illopa h (onlyIllopa_callNear _ _)).imp_right framed_callNear

/-- Both forms of SCXT: the register's word is exchanged for a constant or a word of memory (49_stack_misc R462). -/
def exchange (r : Byte) (src : Source) (s : State) : Exec State := do
  let (at1, s0) ← locate s.cp .word (.reg r) s
  let (old, s1) ← readMem .word at1 s0
  let (v, s2) ← readSource s.cp .word src s1
  let s3 ← push old s2
  writeMem .word at1 v s3

theorem exec_scxtRegData16 (r : Byte) (d : Word) (s : State) :
    exec (.scxtRegData16 r d) s = conclude s (exchange r (.imm d) s) := rfl

theorem exec_scxtRegMem (r : Byte) (a : Word) (s : State) :
    exec (.scxtRegMem r a) s = conclude s (exchange r (.loc (.mem a)) s) := rfl

theorem onlyIllopa_exchange (r : Byte) (src : Source) (s : State) : onlyIllopa (exchange r src s) :=
  onlyIllopa_bind (onlyIllopa_locate _ _ _ _) fun _ => onlyIllopa_bind (onlyIllopa_readMem .word _ _) fun _ =>
    onlyIllopa_bind (onlyIllopa_readSource _ .word _ _) fun _ => onlyIllopa_bind (onlyIllopa_push _ _) fun _ =>
      onlyIllopa_writeMem .word _ _ _

theorem framed_exchange {r : Byte} {src : Source} (pointer : sourcePointerBytes s.cp src = [])
    (h : exchange r src s = .ok t) {at1 : Addr} {s1 : State} (located : locate s.cp .word (.reg r) s = .ok (at1, s1)) :
    framed [.sp, .mdc] (pushBytes s ++ accessBytes .word at1) s t ∧ t.ip = s.ip := by
  obtain ⟨x, hx, h⟩ := bind_ok.mp h
  obtain rfl : x = (at1, s1) := Except.ok.inj (hx.symm.trans located)
  obtain ⟨y, hy, h⟩ := bind_ok.mp h
  obtain ⟨z, hz, h⟩ := bind_ok.mp h
  obtain ⟨u, hu, h⟩ := bind_ok.mp h
  have source := framed_readSource (w := .word) hz
  rw [pointer] at source
  have stores := framed_readPush ((framed_readReg hx hy).trans source) hu
  exact ⟨(stores.mono (by simp) (by simp)).trans ((framed_writeMem (w := .word) h).mono (by simp) (by simp)),
    (ip_writeMem (w := .word) h).trans ((ip_push hu).trans ((ip_readSource (w := .word) hz).trans
      ((ip_readMem (w := .word) hy).trans (ip_locate hx))))⟩

theorem exec_scxt_framed {r : Byte} {i : Instr} (form : (∃ d, i = .scxtRegData16 r d) ∨ ∃ a, i = .scxtRegMem r a)
    (h : exec i s = .next t) : raise .illopa s.ip s = .next t ∨
      ∀ at1 s1, locate s.cp .word (.reg r) s = .ok (at1, s1) →
        framed [.sp, .mdc] (pushBytes s ++ accessBytes .word at1) s t ∧ t.ip = s.ip := by
  obtain ⟨src, run, pointer⟩ : ∃ src, exec i s = conclude s (exchange r src s) ∧
      sourcePointerBytes s.cp src = [] := by
    rcases form with ⟨d, rfl⟩ | ⟨a, rfl⟩
    · exact ⟨_, exec_scxtRegData16 r d s, rfl⟩
    · exact ⟨_, exec_scxtRegMem r a s, rfl⟩
  rw [run] at h
  exact (conclude_illopa h (onlyIllopa_exchange _ _ _)).imp_right fun effect _ _ located =>
    framed_exchange pointer effect located

theorem exec_calls_framed {seg : Byte} {a : Word} (h : exec (.calls seg a) s = .next t) :
    raise .illopa s.ip s = .next t ∨
      ∀ s1, push s.csp s = .ok s1 → framed [.sp, .csp, .mdc] (pushBytes s ++ pushBytes s1) s t := by
  rw [show exec (.calls seg a) s = execCalls seg a s from rfl, execCalls] at h
  split at h
  case isTrue => cases h
  refine (conclude_illopa h ?trap).imp_right fun effect s1 first => ?_
  case trap =>
    exact onlyIllopa_bind (onlyIllopa_push _ _) fun _ => onlyIllopa_bind (onlyIllopa_push _ _) fun _ => onlyIllopa_pure _
  rw [first, ok_bind] at effect
  obtain ⟨u, hu, effect⟩ := bind_ok.mp effect
  obtain rfl := pure_eq_ok.mp effect
  exact (((framed_push first).mono (by simp) (by simp)).trans ((framed_push hu).mono (by simp) (by simp))).trans
    ((framed_jumpFar _ _ _).mono (by simp) (by simp))

theorem exec_pcall_framed {r : Byte} {a : Word} (h : exec (.pcall r a) s = .next t) :
    raise .illopa s.ip s = .next t ∨
      ∀ v s1 s2, readLoc s.cp .word (.reg r) s = .ok (v, s1) → push v s1 = .ok s2 →
        framed [.sp, .psw, .mdc] (pushBytes s ++ pushBytes s2) s t ∧ onlyEzn (pushBytes s ++ pushBytes s2) s t := by
  refine (conclude_illopa h ?trap).imp_right fun effect v s1 s2 read first => ?_
  case trap =>
    exact onlyIllopa_bind (onlyIllopa_locate _ _ _ _) fun _ => onlyIllopa_bind (onlyIllopa_readMem .word _ _) fun _ =>
      onlyIllopa_bind (onlyIllopa_push _ _) fun _ => onlyIllopa_bind (onlyIllopa_push _ _) fun _ => onlyIllopa_pure _
  obtain ⟨x, hx, effect⟩ := bind_ok.mp effect
  obtain ⟨y, hy, effect⟩ := bind_ok.mp effect
  have operand : readLoc s.cp .word (.reg r) s = .ok y := by
    simp only [readLoc, hx, ok_bind, hy]
    rfl
  obtain rfl : y = (v, s1) := Except.ok.inj (operand.symm.trans read)
  simp only [first, ok_bind] at effect
  obtain ⟨u, hu, effect⟩ := bind_ok.mp effect
  obtain rfl := pure_eq_ok.mp effect
  have stores : framed [.sp, .mdc] (pushBytes s ++ pushBytes s2) s (jumpNear a u) :=
    (((framed_readPush (framed_readReg hx hy) first).mono (by simp) (by simp)).trans
      ((framed_push hu).mono (by simp) (by simp))).trans (framed_jumpNear _ _ _ _)
  exact ⟨(stores.mono (by simp) (by simp)).trans ((framed_setFlags _ _).mono (by simp) (by simp)),
    onlyEzn_setFlags stores (by simp) rfl rfl⟩

end Pushes

/-! ## The software trap and the return from it (46_jump_call R396, 47_return R423) -/

section Entry

variable {s : State}

theorem stackPlain_mono {j k : Nat} (h : stackPlain s k = true) (le : j ≤ k) : stackPlain s j = true := by
  simp only [stackPlain, List.all_eq_true, List.mem_range]
  exact fun i below => stackPlain_slot h (Nat.lt_of_lt_of_le below le)

theorem slotBytes_mono {j k : Nat} (le : j ≤ k) : slotBytes s j ⊆ slotBytes s k := by
  intro a mem
  obtain ⟨i, below, here⟩ := List.mem_flatMap.mp mem
  exact List.mem_flatMap.mpr ⟨i, List.mem_range.mpr (Nat.lt_of_lt_of_le (List.mem_range.mp below) le), here⟩

/-- The state with `k` words on the stack since `s`, at the code address `csp`:`ip`; `m` is the memory that holds them. -/
def withPushed (s : State) (k : Nat) (ip csp : Word) (m : List Host.Cell) (target : Option (Addr × Nat)) : State :=
  { s with ip := ip, csp := csp, sp := spAfter s k, mem := m, branchTarget := target }

/-- The state that a software trap enters, as the one after its pushes. -/
theorem exec_trap_segmented (n : BitVec 7) (wf : Memory.wf s.mem = true) (plain : stackPlain s 3 = true)
    (enabled : segmentationDisabled s = false) :
    ∃ m target, exec (.trap n) s = .next (withPushed s 3 (4 * n.setWidth 16) 0 m target) ∧
      memWord m (slot s 1) = s.psw ∧ memWord m (slot s 2) = s.csp ∧ memWord m (slot s 3) = s.ip ∧
      ∀ b : Addr, b ∉ slotBytes s 3 → Memory.read m b.toNat = Memory.read s.mem b.toNat := by
  obtain ⟨m, target, entry, -, words⟩ := enter_segmented n s.ip none wf plain enabled
  exact ⟨m, target, congrArg (conclude s) entry, words⟩

theorem exec_trap_unsegmented (n : BitVec 7) (wf : Memory.wf s.mem = true) (plain : stackPlain s 2 = true)
    (disabled : segmentationDisabled s = true) :
    ∃ m target, exec (.trap n) s = .next (withPushed s 2 (4 * n.setWidth 16) s.csp m target) ∧
      memWord m (slot s 1) = s.psw ∧ memWord m (slot s 2) = s.ip ∧
      ∀ b : Addr, b ∉ slotBytes s 2 → Memory.read m b.toNat = Memory.read s.mem b.toNat := by
  obtain ⟨m, target, entry, -, words⟩ := enter_unsegmented n s.ip none wf plain disabled
  exact ⟨m, target, congrArg (conclude s) entry, words⟩

section WithPushed

variable {k : Nat} {ip csp : Word} {m : List Host.Cell} {target : Option (Addr × Nat)}

@[simp] theorem segmentationDisabled_withPushed :
    segmentationDisabled (withPushed s k ip csp m target) = segmentationDisabled s := rfl

/-- Pushes change memory at the stack words and of the registers SP, and an entry CSP. -/
theorem keeps_withPushed {regs : List CpuReg} {stored : List Addr}
    (other : ∀ b : Addr, b ∉ stored → Memory.read m b.toNat = Memory.read s.mem b.toNat)
    (hcsp : .csp ∈ regs ∨ csp = s.csp) (hsp : .sp ∈ regs ∨ k = 0) :
    keeps regs stored s (withPushed s k ip csp m target) := by
  refine ⟨fun a plain apart => ?_, fun r moved _ => ?_, rfl, rfl, rfl, rfl, rfl, rfl, rfl, rfl⟩
  · rw [peekByte_of_none plain, peekByte_of_none plain]
    exact other a apart
  · cases r
    case csp => exact hcsp.resolve_left moved
    case sp =>
      obtain rfl := hsp.resolve_left moved
      rfl
    all_goals rfl

theorem spAfter_stored (sp : CpuReg.sp.stored s.sp = s.sp) (k : Nat) :
    CpuReg.sp.stored (spAfter s k) = spAfter s k := by
  cases k with
  | zero => exact sp
  | succ k => exact spStored_idem _

/-- A pop undoes the last push. -/
theorem pop_withPushed (plain : plainWord s (slot s (k + 1)) = true) (sp : CpuReg.sp.stored s.sp = s.sp) :
    pop (withPushed s (k + 1) ip csp m target) =
      .ok (memWord m (slot s (k + 1)), withPushed s k ip csp m target) := by
  have back : CpuReg.sp.stored (spAfter s (k + 1) + 2) = spAfter s k := spStored_back (spAfter_stored sp k)
  refine (pop_plain (u := withPushed s (k + 1) ip csp m target) plain rfl rfl).trans ?_
  simp only [withPushed, back]

theorem popSegment_withPushed (plain : plainWord s (slot s (k + 1)) = true) (sp : CpuReg.sp.stored s.sp = s.sp) :
    popSegment (withPushed s (k + 1) ip csp m target) =
      .ok (withPushed s k ip ((lowByte (memWord m (slot s (k + 1)))).setWidth 16) m target) := by
  rw [popSegment, pop_withPushed plain sp]
  rfl

/-- The end of RETI: the popped PSW is refused with MULIP set (D15). -/
def restorePsw (psw ip : Word) (u : State) : Exec State :=
  if psw.getLsbD 5 then .error (.refused .mulip) else .ok (jumpNear ip { u with psw := CpuReg.psw.stored psw })

/-- RETI with three words on the stack, in ordinary memory, and segmentation enabled. -/
theorem returnFromEntry_segmented (plain : stackPlain s 3 = true) (sp : CpuReg.sp.stored s.sp = s.sp)
    (enabled : segmentationDisabled s = false) :
    returnFromEntry (withPushed s 3 ip csp m target) =
      restorePsw (memWord m (slot s 1)) (memWord m (slot s 3))
        (withPushed s 0 ip ((lowByte (memWord m (slot s 2))).setWidth 16) m target) := by
  have slots : ∀ {j}, j < 3 → plainWord s (slot s (j + 1)) = true := stackPlain_slot plain
  simp only [returnFromEntry, segmentationDisabled_withPushed, enabled, Bool.false_eq_true, if_false, ok_bind,
    pop_withPushed (slots (j := 2) (by decide)) sp, popSegment_withPushed (slots (j := 1) (by decide)) sp,
    pop_withPushed (slots (j := 0) (by decide)) sp]
  rfl

/-- RETI with two words on the stack, in ordinary memory, and segmentation disabled. -/
theorem returnFromEntry_unsegmented (plain : stackPlain s 2 = true) (sp : CpuReg.sp.stored s.sp = s.sp)
    (disabled : segmentationDisabled s = true) :
    returnFromEntry (withPushed s 2 ip csp m target) =
      restorePsw (memWord m (slot s 1)) (memWord m (slot s 2)) (withPushed s 0 ip csp m target) := by
  have slots : ∀ {j}, j < 2 → plainWord s (slot s (j + 1)) = true := stackPlain_slot plain
  simp only [returnFromEntry, segmentationDisabled_withPushed, disabled, if_true, ok_bind, pure_bind_exec,
    pop_withPushed (slots (j := 1) (by decide)) sp, pop_withPushed (slots (j := 0) (by decide)) sp]
  rfl

end WithPushed

/-- CSP holds a segment number, which comes back from its byte. -/
theorem csp_of_lowByte {v : Word} (stored : CpuReg.csp.stored v = v) : (lowByte v).setWidth 16 = v := by
  have high : highByte v = 0 := by
    rw [← stored, CpuReg.stored, highByte, BitVec.extractLsb'_and]
    exact BitVec.and_zero
  rw [setWidth_eq_wordOf, ← high, wordOf_bytes]

/-- After a software trap, whatever IP has become, RETI pops what the trap pushed. -/
theorem exec_reti_of_trap {t : State} {n : BitVec 7} (wf : Memory.wf s.mem = true) (plain : stackPlain s 3 = true)
    (stored : ∀ r : CpuReg, r.stored (getReg s r) = getReg s r) (trapped : exec (.trap n) s = .next t) (here : Word) :
    ∃ m target, exec .reti { t with ip := here } = conclude { t with ip := here }
        (restorePsw s.psw s.ip (withPushed s 0 here s.csp m target)) ∧
      ∀ b : Addr, b ∉ slotBytes s 3 → Memory.read m b.toNat = Memory.read s.mem b.toNat := by
  have csp_back : (lowByte s.csp).setWidth 16 = s.csp := csp_of_lowByte (stored .csp)
  cases sgtdis : segmentationDisabled s with
  | false =>
    obtain ⟨m, target, entry, psw, csp, ip, other⟩ := exec_trap_segmented n wf plain sgtdis
    obtain rfl := Host.Outcome.next.inj (entry.symm.trans trapped)
    have back := returnFromEntry_segmented (ip := here) (csp := 0) (m := m) (target := target) plain (stored .sp) sgtdis
    rw [psw, csp, ip, csp_back] at back
    exact ⟨m, target, congrArg (conclude _) back, other⟩
  | true =>
    have plain2 := stackPlain_mono plain (j := 2) (by decide)
    obtain ⟨m, target, entry, psw, ip, other⟩ := exec_trap_unsegmented n wf plain2 sgtdis
    obtain rfl := Host.Outcome.next.inj (entry.symm.trans trapped)
    have back := returnFromEntry_unsegmented (ip := here) (csp := s.csp) (m := m) (target := target) plain2 (stored .sp)
      sgtdis
    rw [psw, ip] at back
    exact ⟨m, target, congrArg (conclude _) back, fun b apart =>
      other b fun mem => apart (slotBytes_mono (by decide) mem)⟩

end Entry

end Sys2Proof.Laws

namespace Sys2Proof.Proofs

open Sys2Proof.Machine Sys2Proof.Laws

/-- Settles O21: a taken jump is `jumpNear` or `jumpFar`, whose note of the target is the model's own. -/
theorem jumpResult : Obligations.JumpResult := by
  intro cc rel seg target n s an
  refine ⟨fun holds => ⟨?rel, ?abs, fun bank readable => ?ind⟩, fun fails => ⟨?relNot, ?absNot, ?indNot⟩,
    fun allowed => ?far, fun disabled other => ?refused⟩
  case rel => exact ⟨_, congrArg _ (if_pos holds)⟩
  case abs => exact ⟨_, congrArg _ (if_pos holds)⟩
  case ind =>
    have jumps : exec (.jmpi cc n) s = .next (jumpNear (peekWord s an) (touch an s)) := by
      refine (conclude_ifTaken holds).trans ?_
      rw [readGpr_of bank readable, ok_bind]
      rfl
    exact ⟨_, jumps⟩
  case relNot => exact congrArg _ (if_neg (by simp [fails]))
  case absNot => exact congrArg _ (if_neg (by simp [fails]))
  case indNot => exact conclude_ifNotTaken fails
  case far => exact ⟨_, if_neg (segment_allowed allowed)⟩
  case refused => exact if_pos (segment_refused disabled other)

/-- Settles O22, by the arithmetic modulo 2^16 of the target. -/
theorem relativeTargets : Obligations.RelativeTargets := fun s rel =>
  ⟨relTarget_eq_ofInt s rel, fun even => (relTarget_parity s rel).trans even,
    fun _ next => relTarget_self next (by decide), fun _ next => relTarget_self next (by decide)⟩

/-- Settles O23: the templates of JB and JNB and of JBC and JNBS, and the bits of the word these write. -/
theorem bitJumpResult : Obligations.BitJumpResult := by
  intro b qq q rel s at1 old bit target short
  refine ⟨fun readable => ?jump, fun writable => ?flip⟩
  case jump =>
    have run := congrArg (conclude s) (jumpOnBit_of (b := b) (q := q) (rel := rel) rfl short readable)
    simp only [beq_iff_eq] at run
    cases b <;> exact run
  case flip =>
    have run := congrArg (conclude s) (jumpAndFlip_of (b := b) (q := q) (rel := rel) rfl short writable)
    simp only [beq_iff_eq] at run
    refine ⟨setBit old q (!b), fun j below => setBit_getLsbD old q (!b) below, ?_⟩
    cases b <;> exact run

/-- Settles O24: a taken call is `callNear`, after the read of the pointer in CALLI. -/
theorem callResult : Obligations.CallResult := by
  intro cc a n rel s an
  refine ⟨fun holds ready => ?abs, fun holds ready bank readable => ?ind, fun ready => ?rel,
    fun fails => ⟨?absNot, ?indNot⟩⟩
  case abs => exact (conclude_ifTaken holds).trans (congrArg (conclude s) (callNear_of ready))
  case ind =>
    have call := callNear_of (s := touch an s) (target := peekWord s an) (by simpa using ready)
    rw [touch_ip] at call
    refine (conclude_ifTaken holds).trans ?_
    rw [readGpr_of bank readable, ok_bind]
    exact congrArg (conclude s) call
  case rel => exact congrArg (conclude s) (callNear_of ready)
  case absNot => exact conclude_ifNotTaken fails
  case indNot => exact conclude_ifNotTaken fails

/-- Settles O25: both pushes in turn; SGTDIS is tested before those of CALLS. -/
theorem longCallResult : Obligations.LongCallResult := by
  intro seg r a s
  refine ⟨fun allowed ready1 ready2 => ?calls, fun disabled other => ?refused, ?pcall⟩
  case calls =>
    refine (if_neg (segment_allowed allowed)).trans ?_
    rw [push_of ready1, ok_bind, push_of ready2]
    rfl
  case refused => exact if_pos (segment_refused disabled other)
  case pcall =>
    intro at1 v s1 s2 short readable ready1 ready2 s4
    exact exec_pcall_of rfl short readable (push_of ((pushReady_touch at1 s).trans ready1)) (push_of ready2)

/-- Settles O26: the entry without a new level, with segmentation enabled or disabled. -/
theorem softwareTrapResult : Obligations.SoftwareTrapResult := by
  intro n s wf plain
  have word : ∀ {j : Nat}, j < 3 → ∀ t, peekWord t (slot s (j + 1)) = memWord t.mem (slot s (j + 1)) :=
    fun below t => peekWord_plain (stackPlain_slot plain below) t
  refine ⟨fun enabled => ?segmented, fun disabled => ?unsegmented⟩
  case segmented =>
    obtain ⟨m, target, entry, psw, csp, ip, other⟩ := exec_trap_segmented n wf plain enabled
    exact ⟨_, entry, rfl, rfl, rfl, (word (by decide) _).trans psw, (word (by decide) _).trans csp,
      (word (by decide) _).trans ip, keeps_withPushed other (by simp) (by simp)⟩
  case unsegmented =>
    obtain ⟨m, target, entry, psw, ip, other⟩ :=
      exec_trap_unsegmented n wf (stackPlain_mono plain (by decide)) disabled
    exact ⟨_, entry, rfl, rfl, rfl, (word (by decide) _).trans psw, (word (by decide) _).trans ip,
      keeps_withPushed other (.inr rfl) (by simp)⟩

/-- Settles O40: reads change at most MDRIU, and a jump or a sequence begins after them. -/
theorem noStoreFrame : Obligations.NoStoreFrame := by
  refine fun s t => ⟨fun i form h => ?jump, fun i m f form h => ?sequence⟩
  case jump =>
    have framed : raise .illopa s.ip s = .next t ∨ framed [.mdc] [] s t := by
      rcases form with ⟨qq, q, rel, rfl | rfl⟩ | ⟨cc, n, rfl⟩
      · exact conclude_jumpOnBit_framed h
      · exact conclude_jumpOnBit_framed h
      · exact exec_jmpi_framed h
    exact framed.imp_right fun ⟨kept, _, mdriu⟩ => ⟨kept, mdriu⟩
  case sequence =>
    refine (exec_registerSequence_framed form h).imp_right fun effect => ?_
    obtain ⟨v, u, rfl, ⟨kept, -, mdriu⟩, ip⟩ := effect
    have seq : u.seq = s.seq := by
      obtain ⟨-, -, seq, -⟩ := kept
      exact seq
    refine ⟨?_, mdriu, ip, v, rfl⟩
    show keeps [.mdc] [] s { u with seq := s.seq }
    rw [← seq]
    exact kept

/-- Settles O41, by the frame of each instruction that pushes. -/
theorem pushFrame : Obligations.PushFrame := by
  refine fun s t => ⟨fun r h => ?push, fun i call h => ?call, fun r i form h => ?scxt, fun seg a h => ?calls,
    fun r a h => ?pcall⟩
  case push => exact (exec_push_framed h).imp_right fun ⟨⟨kept, _, mdriu⟩, ezn, ip⟩ => ⟨kept, ezn, mdriu, ip⟩
  case call => exact (exec_callNear_framed call h).imp_right fun ⟨kept, _, mdriu⟩ => ⟨kept, mdriu⟩
  case scxt =>
    refine (exec_scxt_framed form h).imp_right fun effect at1 s1 located => ?_
    obtain ⟨⟨kept, -, mdriu⟩, ip⟩ := effect at1 s1 located
    exact ⟨kept, mdriu, ip⟩
  case calls =>
    refine (exec_calls_framed h).imp_right fun effect s1 first => ?_
    obtain ⟨kept, -, mdriu⟩ := effect s1 first
    exact ⟨kept, mdriu⟩
  case pcall =>
    refine (exec_pcall_framed h).imp_right fun effect v s1 s2 read first => ?_
    obtain ⟨⟨kept, -, mdriu⟩, ezn⟩ := effect v s1 s2 read first
    exact ⟨kept, ezn, mdriu⟩

/-- Settles O46: RETI pops what the entry pushed, and the registers hold what comes back (the invariant). -/
theorem entryThenReturn : Obligations.EntryThenReturn := by
  intro n s t inv plain trapped here
  obtain ⟨⟨wf, -, stored⟩, -⟩ := stateInv_iff.mp inv
  obtain ⟨m, target, run, other⟩ := exec_reti_of_trap wf plain stored trapped here
  have psw : CpuReg.psw.stored s.psw = s.psw := stored .psw
  refine ⟨fun clear => ⟨jumpNear s.ip (withPushed s 0 here s.csp m target), ?_, rfl, rfl, rfl, rfl,
    keeps_withPushed (k := 0) other (.inr rfl) (.inr rfl)⟩, fun set => ?_⟩
  · rw [run, restorePsw, clear, psw]
    rfl
  · rw [run, restorePsw, set]
    rfl

end Sys2Proof.Proofs
end

section
/-! PROOFS. The statements of 47_return: what RET, RETS, RETP and RETI pop (R420 to R424), and what they and POP
(49_stack_misc R460) leave unchanged. -/

namespace Sys2Proof.Laws

open Sys2Proof.Machine

/-! ## The pop into a register that RETP and POP share (47_return R422, 49_stack_misc R460) -/

section PopTo

variable {s t u : State} {dst : Addr}

theorem canWrite_popped (s : State) : canWrite (popped s) = canWrite s := (sameControl_popped s).canWrite

theorem popTo_of (top : popReady s = true) (writable : canWrite s .word dst = true) :
    popTo dst s = .ok (flagsUnlessPsw dst (moveFlags (topWord s) (pokeWord dst (topWord s) (popped s)).flags)
      (pokeWord dst (topWord s) (popped s))) := by
  rw [← canWrite_popped] at writable
  simp only [popTo, pop_of top, ok_bind, writeMem_of (w := .word) writable]
  rfl

/-- The flags of a pop into a register are E, Z and N of the word, also where a return address was popped before. -/
theorem onlyEzn_popTo (before : framed [.sp, .mdc] [] s u) (h : popTo dst u = .ok t) :
    onlyEzn (accessBytes .word dst) s t := by
  obtain ⟨x, hx, h⟩ := bind_ok.mp h
  obtain ⟨y, hy, h⟩ := bind_ok.mp h
  obtain rfl := pure_eq_ok.mp h
  have stores : framed [.sp, .mdc] (accessBytes .word dst) s y :=
    ((before.trans (framed_pop hx)).mono (by simp) (by simp)).trans
      ((framed_writeMem (w := .word) hy).mono (by simp) (by simp))
  exact onlyEzn_flagsUnlessPsw stores (by simp) dst rfl rfl

theorem ip_popTo (h : popTo dst s = .ok t) : t.ip = s.ip := by
  obtain ⟨x, hx, h⟩ := bind_ok.mp h
  obtain ⟨y, hy, h⟩ := bind_ok.mp h
  obtain rfl := pure_eq_ok.mp h
  exact (ip_flagsUnlessPsw _ _ _).trans ((ip_writeMem (w := .word) hy).trans (ip_pop hx))

end PopTo

/-! ## Returns where their pops take place (47_return R420 to R423) -/

section Returns

variable {s : State}

theorem exec_ret_of (first : popReady s = true) : exec .ret s = .next (jumpNear (topWord s) (popped s)) := by
  rw [show exec .ret s = execRet s from rfl, execRet, pop_of first]
  rfl

/-- RETS up to its test of SGTDIS, which reads SYSCON as it was before the pops. -/
theorem exec_rets_of (first : popReady s = true) (second : popReady (popped s) = true) :
    exec .rets s =
      if segmentationDisabled s && lowByte (topWord (popped s)) != 0 then .refused .segmentation
      else .next (jumpFar (lowByte (topWord (popped s))) (topWord s) (popped (popped s))) := by
  rw [show exec .rets s = execRets s from rfl, execRets]
  simp only [pop_of first, pop_of second, ok_bind]
  split <;> rfl

theorem exec_retp_of {r : Byte} {u : State} (short : shortStop s.cp r = none) (first : popReady s = true)
    (second : popTo (regAddr s.cp s .word r) (popped s) = .ok u) :
    exec (.retp r) s = .next (jumpNear (topWord s) u) := by
  rw [show exec (.retp r) s = execRetp r s from rfl, execRetp]
  simp only [locate_reg_of short, ok_bind, pop_of first, second]
  rfl

/-- RETI pop by pop, with the test of MULIP at its end (D15). -/
theorem returnFromEntry_eq (s : State) :
    returnFromEntry s = (pop s >>= fun x =>
      (if segmentationDisabled s then pure x.2 else popSegment x.2) >>= fun u =>
      pop u >>= fun y => restorePsw y.1 x.1 y.2) := by
  rw [returnFromEntry]
  cases segmentationDisabled s <;> rfl

/-- RETI with segmentation disabled: the second word popped is PSW. -/
theorem returnFromEntry_disabled (disabled : segmentationDisabled s = true) (first : popReady s = true)
    (second : popReady (popped s) = true) :
    returnFromEntry s = restorePsw (topWord (popped s)) (topWord s) (popped (popped s)) := by
  simp only [returnFromEntry_eq, disabled, if_true, pop_of first, ok_bind, pure_bind_exec, pop_of second]

/-- RETI with segmentation enabled: CSP is popped between IP and PSW. -/
theorem returnFromEntry_enabled {u : State} (enabled : segmentationDisabled s = false) (first : popReady s = true)
    (second : popSegment (popped s) = .ok u) (third : popReady u = true) :
    returnFromEntry s = restorePsw (topWord u) (topWord s) (popped u) := by
  simp only [returnFromEntry_eq, enabled, Bool.false_eq_true, if_false, pop_of first, ok_bind, second, pop_of third]

theorem restorePsw_ok {psw ip : Word} {u t : State} (h : restorePsw psw ip u = .ok t) :
    t = jumpNear ip (setReg .psw psw u) := by
  unfold restorePsw at h
  split at h
  · cases h
  · exact (Except.ok.inj h).symm

theorem onlyIllopa_restorePsw (psw ip : Word) (u : State) : onlyIllopa (restorePsw psw ip u) := by
  unfold restorePsw
  split
  · exact fun _ refused => nomatch refused
  · exact onlyIllopa_ok _

/-- A popped PSW with MULIP set refuses RETI; otherwise it is the last that is written before the jump (D15). -/
theorem exec_reti_of {psw ip : Word} {u : State} (pops : returnFromEntry s = restorePsw psw ip u) :
    (psw.getLsbD 5 = false → exec .reti s = .next (jumpNear ip (setReg .psw psw u))) ∧
    (psw.getLsbD 5 = true → exec .reti s = .refused .mulip) := by
  rw [show exec .reti s = conclude s (returnFromEntry s) from rfl, pops, restorePsw]
  exact ⟨fun clear => by rw [clear]; rfl, fun set => by rw [set]; rfl⟩

end Returns

/-! ## Frames of what pops (47_return R420 to R423, 49_stack_misc R460) -/

section Pops

variable {s t : State}

theorem exec_ret_framed (h : exec .ret s = .next t) : raise .illopa s.ip s = .next t ∨ framed [.sp, .mdc] [] s t := by
  refine (conclude_illopa h ?trap).imp_right fun effect => ?_
  case trap => exact onlyIllopa_bind (onlyIllopa_pop _) fun _ => onlyIllopa_pure _
  obtain ⟨x, hx, effect⟩ := bind_ok.mp effect
  obtain rfl := pure_eq_ok.mp effect
  exact (framed_pop hx).trans (framed_jumpNear _ _ _ _)

theorem exec_rets_framed (h : exec .rets s = .next t) :
    raise .illopa s.ip s = .next t ∨ framed [.sp, .csp, .mdc] [] s t := by
  refine (conclude_illopa h ?trap).imp_right fun effect => ?_
  case trap =>
    refine onlyIllopa_bind (onlyIllopa_pop _) fun _ => onlyIllopa_bind (onlyIllopa_pop _) fun _ => ?_
    dsimp only
    split
    · exact fun _ refused => nomatch refused
    · exact onlyIllopa_pure _
  obtain ⟨x, hx, effect⟩ := bind_ok.mp effect
  obtain ⟨y, hy, effect⟩ := bind_ok.mp effect
  dsimp only at effect
  split at effect
  case isTrue => cases effect
  obtain rfl := pure_eq_ok.mp effect
  exact (((framed_pop hx).trans (framed_pop hy)).mono (by simp) (by simp)).trans
    ((framed_jumpFar _ _ _).mono (by simp) (by simp))

/-- POP and RETP: the word goes to the register that the instruction found, and RETP jumps. -/
theorem exec_popTo_framed {r : Byte} {i : Instr} (form : i ∈ [Instr.pop r, .retp r]) (h : exec i s = .next t) :
    raise .illopa s.ip s = .next t ∨ ∀ at1 s1, locate s.cp .word (.reg r) s = .ok (at1, s1) →
      framed [.sp, .psw, .mdc] (accessBytes .word at1) s t ∧ onlyEzn (accessBytes .word at1) s t ∧
        (i = .pop r → t.ip = s.ip) := by
  obtain rfl | rfl : i = .pop r ∨ i = .retp r := by simpa using form
  case inl =>
    refine (conclude_illopa h ?trap).imp_right fun effect at1 s1 located => ?_
    case trap => exact onlyIllopa_bind (onlyIllopa_locate _ _ _ _) fun _ => onlyIllopa_popTo _ _
    obtain ⟨rfl, rfl⟩ := Prod.mk.inj (locate_reg located)
    rw [located, ok_bind] at effect
    exact ⟨framed_popTo effect, onlyEzn_popTo (framed_refl _ _ _) effect, fun _ => ip_popTo effect⟩
  case inr =>
    refine (conclude_illopa h ?trap).imp_right fun effect at1 s1 located => ?_
    case trap =>
      exact onlyIllopa_bind (onlyIllopa_locate _ _ _ _) fun _ => onlyIllopa_bind (onlyIllopa_pop _) fun _ =>
        onlyIllopa_bind (onlyIllopa_popTo _ _) fun _ => onlyIllopa_pure _
    obtain ⟨rfl, rfl⟩ := Prod.mk.inj (locate_reg located)
    rw [located, ok_bind] at effect
    obtain ⟨x, hx, effect⟩ := bind_ok.mp effect
    obtain ⟨u, hu, effect⟩ := bind_ok.mp effect
    obtain rfl := pure_eq_ok.mp effect
    have ezn : onlyEzn (accessBytes .word _) _ u := onlyEzn_popTo (framed_pop hx) hu
    exact ⟨(((framed_pop hx).mono (by simp) (by simp)).trans (framed_popTo hu)).trans (framed_jumpNear _ _ _ _),
      ezn, fun other => nomatch other⟩

/-- RETI: its pops change SP and CSP, and then only PSW and IP are written. -/
theorem returnFromEntry_ok (h : returnFromEntry s = .ok t) :
    ∃ u psw ip, t = jumpNear ip (setReg .psw psw u) ∧ framed [.sp, .csp, .mdc] [] s u := by
  rw [returnFromEntry_eq] at h
  obtain ⟨x, hx, h⟩ := bind_ok.mp h
  obtain ⟨u, hu, h⟩ := bind_ok.mp h
  obtain ⟨y, hy, h⟩ := bind_ok.mp h
  refine ⟨y.2, y.1, x.1, restorePsw_ok h, ?_⟩
  have segment : framed [.sp, .csp, .mdc] [] x.2 u := by
    split at hu
    · obtain rfl := pure_eq_ok.mp hu
      exact framed_refl _ _ _
    · exact (framed_popSegment hu).mono (by simp) (by simp)
  exact (((framed_pop hx).mono (by simp) (by simp)).trans segment).trans ((framed_pop hy).mono (by simp) (by simp))

theorem onlyIllopa_returnFromEntry (s : State) : onlyIllopa (returnFromEntry s) := by
  rw [returnFromEntry_eq]
  refine onlyIllopa_bind (onlyIllopa_pop _) fun _ => onlyIllopa_bind ?segment fun _ =>
    onlyIllopa_bind (onlyIllopa_pop _) fun _ => onlyIllopa_restorePsw _ _ _
  split
  · exact onlyIllopa_pure _
  · exact onlyIllopa_popSegment _

/-- What differs from the end of a frame only in registers that may change, or in what no frame regards, is in the frame. -/
theorem keeps_of_same {regs : List CpuReg} {stored : List Addr} {u : State} (h : keeps regs stored s t)
    (mem : u.mem = t.mem) (same : ∀ r, r ∉ regs → getReg u r = getReg t r)
    (rest : u.seq = t.seq ∧ u.wdt = t.wdt ∧ u.initDone = t.initDone ∧ u.run = t.run ∧ u.resetCause = t.resetCause ∧
      u.memMap = t.memMap ∧ u.nmiPinLow = t.nmiPinLow ∧ u.pending = t.pending) : keeps regs stored s u := by
  obtain ⟨bytes, registers, kept⟩ := h
  obtain ⟨seq, wdt, initDone, run, cause, memMap, nmi, pending⟩ := rest
  refine ⟨fun a plain apart => ?_, fun r other apart => (same r other).trans (registers r other apart), ?_⟩
  · rw [← bytes a plain apart, peekByte_of_none plain, peekByte_of_none plain, mem]
  · rwa [seq, wdt, initDone, run, cause, memMap, nmi, pending]

theorem exec_reti_framed (h : exec .reti s = .next t) : raise .illopa s.ip s = .next t ∨
    (keeps [.sp, .csp, .psw, .mdc] [] s t ∧ onlyMdriu [] s t) := by
  refine (conclude_illopa h (onlyIllopa_returnFromEntry s)).imp_right fun effect => ?_
  obtain ⟨u, psw, ip, rfl, pops⟩ := returnFromEntry_ok effect
  obtain ⟨kept, -, mdriu⟩ := pops.mono (regs' := [.sp, .csp, .psw, .mdc]) (by simp) (List.Subset.refl [])
  refine ⟨keeps_of_same kept rfl (fun r other => ?_) ⟨rfl, rfl, rfl, rfl, rfl, rfl, rfl, rfl⟩, mdriu⟩
  cases r
  case psw => exact absurd (by simp) other
  all_goals rfl

end Pops

end Sys2Proof.Laws

namespace Sys2Proof.Proofs

open Sys2Proof.Machine Sys2Proof.Laws

/-- Settles O27: each pop in turn; RETS tests SGTDIS after both, RETP stores after its second. -/
theorem returnResult : Obligations.ReturnResult := by
  intro r s s1 s2 first
  refine ⟨exec_ret_of first, fun second => ⟨fun allowed => ?far, fun disabled other => ?refused, ?retp⟩⟩
  case far => exact (exec_rets_of first second).trans (if_neg (segment_allowed allowed))
  case refused => exact (exec_rets_of first second).trans (if_pos (segment_refused disabled other))
  case retp =>
    intro dst v s3 short writable
    rw [← canWrite_popped] at writable
    exact exec_retp_of short first (popTo_of second writable)

/-- Settles O28: the pops in turn, then the test of MULIP in the PSW word. -/
theorem returnFromInterruptResult : Obligations.ReturnFromInterruptResult := by
  intro s s1 s2 first second
  refine ⟨fun disabled => ?disabled, fun enabled third => ?enabled⟩
  case disabled => exact exec_reti_of (returnFromEntry_disabled disabled first second)
  case enabled => exact exec_reti_of (returnFromEntry_enabled enabled first (popSegment_of second) third)

/-- Settles O42, by the frame of each instruction that pops. -/
theorem popFrame : Obligations.PopFrame := by
  refine fun s t => ⟨fun r i form h => ?pop, fun h => ?ret, fun h => ?rets, exec_reti_framed⟩
  case pop =>
    refine (exec_popTo_framed form h).imp_right fun effect at1 s1 located => ?_
    obtain ⟨⟨kept, -, mdriu⟩, ezn, ip⟩ := effect at1 s1 located
    exact ⟨kept, ezn, mdriu, ip⟩
  case ret => exact (exec_ret_framed h).imp_right fun ⟨kept, _, mdriu⟩ => ⟨kept, mdriu⟩
  case rets => exact (exec_rets_framed h).imp_right fun ⟨kept, _, mdriu⟩ => ⟨kept, mdriu⟩

end Sys2Proof.Proofs
end

section
/-! PROOFS. The statements of 48_system_control: the protected instructions (R430 to R435), the ATOMIC/EXTend instructions
(R436 to R441, R450), the sequence counter (R452) and what ends or suspends a sequence (R453). -/

namespace Sys2Proof.Laws

open Sys2Proof.Machine

/-! ## The watchdog and the reset (48_system_control R430, R434) -/

theorem exec_diswdt_allowed {s : State} (allowed : s.wdt.canDisable = true) :
    exec .diswdt s = .next { s with wdt := ⟨false, true, s.wdt.counter⟩ } := by
  rw [show exec .diswdt s = execDiswdt s from rfl, execDiswdt]
  simp only [allowed, Bool.not_true, Bool.and_false]

theorem exec_diswdt_locked {s : State} (locked : s.wdt.canDisable = false) : exec .diswdt s = .next s := by
  rw [show exec .diswdt s = execDiswdt s from rfl, execDiswdt]
  simp only [locked, Bool.not_false, Bool.and_true]
  rw [← locked]

theorem resetTaken_resetWith (cause : ResetCause) (s : State) : resetTaken cause s (resetWith cause s) :=
  ⟨rfl, rfl, rfl, rfl, rfl, rfl, rfl, rfl, rfl, rfl, rfl, rfl,
    rfl, rfl, rfl, rfl, rfl, rfl, rfl, rfl, rfl, rfl, rfl, rfl⟩

/-! ## The sequence counter (48_system_control R452) -/

section Counter

variable {i : Instr} {s : State}

theorem countDown_outside (h : s.seq.count = 0) : countDown s = s := if_pos h

theorem countDown_last (h : s.seq.count = 1) : countDown s = { s with seq := Sequence.idle } := by
  rw [countDown, if_neg (by omega), if_pos h]

theorem countDown_more (h : 2 ≤ s.seq.count) :
    countDown s = { s with seq := { s.seq with count := s.seq.count - 1 } } := by
  rw [countDown, if_neg (by omega), if_neg (by omega)]

theorem afterInstr_outside (h : s.seq.count = 0) : afterInstr i s = s := by
  unfold afterInstr
  split_ifs
  · rfl
  · rw [countDown_outside h]; rfl
  · exact countDown_outside h

/-- The last covered instruction restores the standard condition, but IDLE leaves the lock (log 21). -/
theorem afterInstr_last (counts : beginsSequence i = false) (h : s.seq.count = 1) :
    afterInstr i s = { s with seq := ⟨0, i == .idle && s.seq.lock, .none, false⟩ } := by
  by_cases idle : i = .idle
  · rw [idle, afterInstr_idle, countDown_last h]
    rfl
  · rw [afterInstr_counts counts idle, countDown_last h, beq_eq_false_iff_ne.mpr idle]
    rfl

theorem afterInstr_more (counts : beginsSequence i = false) (h : 2 ≤ s.seq.count) :
    afterInstr i s = { s with seq := { s.seq with count := s.seq.count - 1 } } := by
  by_cases idle : i = .idle
  · rw [idle, afterInstr_idle, countDown_more h]
    rfl
  · rw [afterInstr_counts counts idle, countDown_more h]

end Counter

/-! ## What ends or suspends a sequence (48_system_control R453) -/

/-- The entry of a trap leaves the sequence as `trapped` says. -/
theorem seq_raise {trap : HwTrap} {ret : Word} {s t : State} (h : raise trap ret s = .next t) :
    t.seq = if trap.classB then Sequence.idle else s.seq :=
  (kept_enter (entryOutcome_next h)).2

/-- While a class B trap flag is set the DPPs count, whatever the override (20_memory R93). -/
theorem dataAddr_suspended {s : State} (a : Word) (suspended : overrideActive s = false) :
    dataAddr s a = pageAddr ((dppOf s a).extractLsb' 0 10) a := by
  unfold dataAddr
  rw [suspended]
  cases s.seq.override <;> rfl

end Sys2Proof.Laws

namespace Sys2Proof.Proofs

open Sys2Proof.Machine Sys2Proof.Laws

/-- Settles O45: an entry keeps the sequence but for a class B trap, and the lock keeps an NMI waiting. -/
theorem classBEndsSequence : Obligations.ClassBEndsSequence := by
  refine ⟨fun trap ret s t classB raised => ?ends, fun s a set => ?suspends, fun n s wf plain => ?software,
    fun s locked offered => ?waits⟩
  case ends =>
    rw [seq_raise raised, if_pos classB]
    exact ⟨rfl, rfl, rfl, rfl⟩
  case suspends => exact dataAddr_suspended a (Bool.eq_false_iff.mpr (mt overrideActive_iff.mp set))
  case software =>
    obtain ⟨segmented, unsegmented⟩ := softwareTrapResult n s wf plain
    cases sgtdis : segmentationDisabled s with
    | false =>
      obtain ⟨t, run, -, -, -, -, -, -, -, -, seq, -⟩ := segmented sgtdis
      exact ⟨t, run, seq⟩
    | true =>
      obtain ⟨t, run, -, -, -, -, -, -, -, seq, -⟩ := unsegmented sgtdis
      exact ⟨t, run, seq⟩
  case waits =>
    rcases open_of_acceptable (acceptable_of_nextEvent offered) with other | other | unlocked
    · cases other
    · cases other
    · rw [locked] at unlocked; cases unlocked

/-- Settles O50: nothing is covered, one instruction is, or more are. -/
theorem sequenceCountsDown : Obligations.SequenceCountsDown := by
  refine fun i s => ⟨fun begins => ?begins, fun form registerForm ok => ?counts⟩
  case begins => exact afterInstr_begins (by simpa [beginsSequence_eq] using begins)
  case counts =>
    have counts : beginsSequence i = false := by rw [beginsSequence_eq, form, registerForm]; rfl
    obtain ⟨-, lock, standard⟩ := sequenceOk_iff.mp ok
    obtain zero | one | more : s.seq.count = 0 ∨ s.seq.count = 1 ∨ 2 ≤ s.seq.count := by omega
    · rw [afterInstr_outside zero]
      refine ⟨by omega, fun _ => ?_, fun _ => ok, by omega, rfl⟩
      rw [standard zero]
      simp [Sequence.idle]
    · rw [afterInstr_last counts one]
      have locked : s.seq.lock = true := lock.mpr (by omega)
      refine ⟨by simp [one], fun _ => by simp [one, locked], fun other => ?_, by omega, rfl⟩
      have notIdle : i ≠ .idle := other.resolve_right (by simp [one])
      simp only [beq_eq_false_iff_ne.mpr notIdle]
      rfl
    · rw [afterInstr_more counts more]
      exact ⟨rfl, by omega, fun _ => sequenceOk_pred ok more, fun _ => ⟨lock.mpr (by omega), rfl, rfl⟩, rfl⟩

/-- Settles O30: DISWDT by whether it still may act, the others by their definitions. -/
theorem systemControlResult : Obligations.SystemControlResult := by
  refine fun s => ⟨rfl, rfl, rfl, ?_, rfl⟩
  split
  case isTrue allowed => exact exec_diswdt_allowed allowed
  case isFalse locked => exact exec_diswdt_locked (Bool.eq_false_iff.mpr locked)

/-- Settles O31: SRST is the reset whose cause is the program. -/
theorem softwareResetResult : Obligations.SoftwareResetResult := fun s =>
  ⟨_, rfl, resetTaken_resetWith .software s, rfl⟩

/-- Settles O32: every form begins its sequence, those with a register after its read. -/
theorem sequenceResult : Obligations.SequenceResult := by
  refine fun i s => ⟨fun q form => exec_sequenceForm form s, fun m f form bank readable => ?_⟩
  rw [exec_registerSequenceForm form, readGpr_of bank readable]
  rfl

end Sys2Proof.Proofs
end

section
/-! PROOFS. The statements of 49_stack_misc: PUSH, POP and SCXT (R460 to R462), and NOP (R463). -/

namespace Sys2Proof.Laws

open Sys2Proof.Machine

/-! ## PUSH, POP and SCXT where their accesses take place (49_stack_misc R460 to R462) -/

section StackMoves

variable {s : State} {r : Byte} {at1 : Addr} (hat : at1 = regAddr s.cp s .word r) (short : shortStop s.cp r = none)
include hat short

theorem exec_push_of (readable : canRead s .word at1 = true) (ready : pushReady s = true) :
    exec (.push r) s = .next (pushedFlags (peekWord s at1) (pushed (peekWord s at1) (touch at1 s))) := by
  subst hat
  rw [← pushReady_touch (regAddr s.cp s .word r)] at ready
  rw [show exec (.push r) s = execPush r s from rfl, execPush]
  simp only [locate_reg_of short, ok_bind, readMem_of readable, peek_word, push_of ready]
  rfl

theorem exec_pop_of {t : State} (pops : popTo at1 s = .ok t) : exec (.pop r) s = .next t := by
  subst hat
  rw [show exec (.pop r) s = execPop r s from rfl, execPop]
  simp only [locate_reg_of short, ok_bind, pops]
  rfl

/-- SCXT: the source is read after the register and before the push. -/
theorem exchange_of {src : Source} {v : Word} {u : State} (writable : canWrite s .word at1 = true)
    (source : readSource s.cp .word src (touch at1 s) = .ok (v, u)) (control : sameControl s u)
    (ready : pushReady u = true) :
    exchange r src s = .ok (pokeWord at1 v (pushed (peekWord s at1) u)) := by
  have stores : canWrite (pushed (peekWord s at1) u) .word at1 = true := by
    rwa [(sameControl_pushed ready).canWrite, control.canWrite]
  subst hat
  simp only [exchange, locate_reg_of short, ok_bind, readMem_of (canRead_of_canWrite writable), source, peek_word,
    push_of ready, writeMem_of (w := .word) stores, poke_word]

end StackMoves

end Sys2Proof.Laws

namespace Sys2Proof.Proofs

open Sys2Proof.Machine Sys2Proof.Laws

/-- Settles O33: each access in turn; reads move neither SP nor what the stores are checked against. -/
theorem stackMoveResult : Obligations.StackMoveResult := by
  intro r new a s at1 old s1 short
  refine ⟨fun readable ready => ?push, fun top writable => ?pop,
    fun writable ready => ⟨?immediate, fun readable => ?memory⟩⟩
  case push => exact exec_push_of rfl short readable ready
  case pop => exact exec_pop_of rfl short (popTo_of top writable)
  case immediate =>
    have run := exchange_of rfl short (src := .imm new) writable (by rw [readSource, BitVec.setWidth_eq])
      (sameControl_touch at1 s) (by rwa [pushReady_touch])
    exact (exec_scxtRegData16 r new s).trans (congrArg (conclude s) run)
  case memory =>
    have source : readSource s.cp .word (.loc (.mem a)) s1 =
        .ok (peekWord s1 (dataAddr s1 a), touch (dataAddr s1 a) s1) := by
      have read : readMem .word (dataAddr s1 a) s1 = _ := readMem_of (by rwa [canRead_touch])
      simp only [readSource, readLoc, locate, ok_bind, read]
      rfl
    have run := exchange_of rfl short writable source ((sameControl_touch _ s).trans (sameControl_touch _ s1))
      (by rwa [pushReady_touch, pushReady_touch])
    exact (exec_scxtRegMem r a s).trans (congrArg (conclude s) run)

/-- Settles O29: NOP is decoded from its word, has no effect, and is counted. -/
theorem nopResult : Obligations.NopResult :=
  ⟨by decide, by decide, fun _ => rfl, fun _ => afterInstr_counts rfl (by decide)⟩

end Sys2Proof.Proofs
end

section
/-! PROOFS. The statements of 60_exceptions: the entry of a hardware trap, an interrupt and the NMI (R508, R510, R522), which
event is accepted (R513, R521, R524) and what it does (R523, R530, R532, R533). -/

namespace Sys2Proof.Laws

open Sys2Proof.Machine

/-! ## The entry of a trap or interrupt routine (60_exceptions R510) -/

theorem entryPsw_level (psw : Word) (level : BitVec 4) : (entryPsw psw level).extractLsb' 12 4 = level := by
  refine BitVec.eq_of_getLsbD_eq fun i hi => ?_
  simp only [entryPsw, BitVec.getLsbD_extractLsb', BitVec.getLsbD_or, BitVec.getLsbD_and, BitVec.getLsbD_shiftLeft,
    BitVec.getLsbD_setWidth]
  interval_cases i <;> simp

/-- An entry clears MULIP and leaves the rest of PSW below ILVL. -/
theorem entryPsw_rest (psw : Word) (level : BitVec 4) : entryPsw psw level &&& 0x0FFF = psw &&& 0x0FDF := by
  refine BitVec.eq_of_getLsbD_eq fun i hi => ?_
  simp only [entryPsw, BitVec.getLsbD_or, BitVec.getLsbD_and, BitVec.getLsbD_shiftLeft, BitVec.getLsbD_setWidth]
  interval_cases i <;> simp

/-- The state in which an entry begins that interrupts `s`: by then a class B trap has ended the sequence, a hardware trap
has set its flag, and an accepted event has ended idle mode and is offered no more. -/
def entryStart (s : State) (seq : Sequence) (tfr : Word) (run : RunMode) (pending : List Event) : State :=
  { s with seq := seq, tfr := tfr, run := run, pending := pending }

section Entry

variable {s : State} {seq : Sequence} {tfr : Word} {run : RunMode} {pending : List Event}

theorem trapped_entryStart (trap : HwTrap) : trapped trap (entryStart s seq tfr run pending) =
    entryStart s (if trap.classB then Sequence.idle else seq) (tfr ||| trap.flag) run pending := rfl

@[simp] theorem spAfter_entryStart : spAfter (entryStart s seq tfr run pending) = spAfter s := by
  funext k
  induction k with
  | zero => rfl
  | succ k ih => simp only [spAfter, ih]

@[simp] theorem slot_entryStart : slot (entryStart s seq tfr run pending) = slot s := by
  funext k
  rw [slot, spAfter_entryStart, slot]

@[simp] theorem slotBytes_entryStart : slotBytes (entryStart s seq tfr run pending) = slotBytes s := by
  funext k
  rw [slotBytes, slot_entryStart, slotBytes]

@[simp] theorem stackPlain_entryStart : stackPlain (entryStart s seq tfr run pending) = stackPlain s := by
  funext k
  rw [stackPlain, slot_entryStart, stackPlain]
  rfl

/-- Pushes, and writes of registers that may change: the frame of an entry, what has no address apart. -/
theorem keeps_entry {regs : List CpuReg} {stored : List Addr} {k : Nat} {ip csp psw tfr : Word} {m : List Host.Cell}
    {target : Option (Addr × Nat)}
    (other : ∀ b : Addr, b ∉ stored → Memory.read m b.toNat = Memory.read s.mem b.toNat)
    (hcsp : .csp ∈ regs ∨ csp = s.csp) (sub : [.psw, .sp, .tfr] ⊆ regs) :
    keeps regs stored s { withPushed s k ip csp m target with psw := psw, tfr := tfr } := by
  simp only [List.cons_subset, List.nil_subset, and_true] at sub
  obtain ⟨hpsw, hsp, htfr⟩ := sub
  refine keeps_of_same (keeps_withPushed (k := k) (ip := ip) (target := target) other hcsp (.inl hsp)) rfl
    (fun r moved => ?_) ⟨rfl, rfl, rfl, rfl, rfl, rfl, rfl, rfl⟩
  cases r
  case psw => exact absurd hpsw moved
  case tfr => exact absurd htfr moved
  all_goals rfl

/-- With its pushes in ordinary memory an entry takes place, and touches neither the trap flags nor what has no address. -/
theorem enter_entered (number : BitVec 7) (ret : Word) (level : BitVec 4) (wf : Memory.wf s.mem = true)
    (plain : stackPlain s 3 = true) :
    ∃ t, enter number ret (some level) (entryStart s seq tfr run pending) = .ok t ∧ entered number ret level s t ∧
      t.tfr = tfr ∧ t.seq = seq ∧ t.run = run ∧ t.pending = pending := by
  have word : ∀ {j : Nat}, j < 3 → ∀ t, peekWord t (slot s (j + 1)) = memWord t.mem (slot s (j + 1)) :=
    fun below t => peekWord_plain (stackPlain_slot plain below) t
  cases sgtdis : segmentationDisabled s with
  | false =>
    obtain ⟨m, target, entry, -, psw, csp, ip, other⟩ :=
      enter_segmented number ret (some level) (s := entryStart s seq tfr run pending) wf (by simpa using plain) sgtdis
    simp only [slot_entryStart, slotBytes_entryStart, spAfter_entryStart] at entry psw csp ip other
    refine ⟨_, entry, ⟨rfl, (word (by decide) _).trans psw, entryPsw_level _ _, entryPsw_rest _ _, ?_⟩,
      rfl, rfl, rfl, rfl⟩
    rw [sgtdis]
    exact ⟨rfl, rfl, (word (by decide) _).trans csp, (word (by decide) _).trans ip,
      keeps_entry (k := 3) (target := target) other (.inl (by simp)) (by simp)⟩
  | true =>
    obtain ⟨m, target, entry, -, psw, ip, other⟩ :=
      enter_unsegmented number ret (some level) (s := entryStart s seq tfr run pending) wf
        (by simpa using stackPlain_mono plain (by decide)) sgtdis
    simp only [slot_entryStart, slotBytes_entryStart, spAfter_entryStart] at entry psw ip other
    refine ⟨_, entry, ⟨rfl, (word (by decide) _).trans psw, entryPsw_level _ _, entryPsw_rest _ _, ?_⟩,
      rfl, rfl, rfl, rfl⟩
    rw [sgtdis]
    exact ⟨rfl, rfl, (word (by decide) _).trans ip,
      keeps_entry (k := 2) (target := target) other (.inr rfl) (by simp)⟩

/-- The entry of a hardware trap, which begins with its flag set and, for class B, the sequence ended. -/
theorem raise_entered (trap : HwTrap) (ret : Word) (wf : Memory.wf s.mem = true) (plain : stackPlain s 3 = true) :
    ∃ t, raise trap ret (entryStart s seq tfr run pending) = .next t ∧ entered trap.number ret 15 s t ∧
      t.tfr = tfr ||| trap.flag ∧ t.seq = (if trap.classB then Sequence.idle else seq) ∧ t.run = run ∧
      t.pending = pending := by
  obtain ⟨t, entry, taken⟩ := enter_entered trap.number ret trapIlvl wf plain
  refine ⟨t, ?_, taken⟩
  rw [raise, trapped_entryStart, entry]
  rfl

end Entry

/-! ## Which offered event is accepted (60_exceptions R513, R521, R524) -/

section Acceptance

variable {s : State} {event : Event}

theorem mem_pending_of_nextEvent (h : nextEvent s = some event) : event ∈ s.pending := by
  obtain ⟨rank, -, found⟩ := List.exists_of_findSome?_eq_some h
  exact List.mem_of_find?_eq_some found

/-- No event is taken exactly when none is acceptable: the four ranks cover every event. -/
theorem nextEvent_eq_none_iff : nextEvent s = none ↔ ∀ event ∈ s.pending, acceptable s event = false := by
  simp only [nextEvent, List.findSome?_eq_none_iff, List.find?_eq_none, Bool.and_eq_true, not_and, beq_iff_eq]
  refine ⟨fun h event offered => Bool.eq_false_iff.mpr fun accepted => ?_, fun h _ _ event offered accepted => ?_⟩
  · exact h event.rank (by cases event <;> simp [Event.rank]) event offered accepted rfl
  · rw [h event offered] at accepted; cases accepted

/-- The one event that is offered is taken exactly when it is acceptable. -/
theorem nextEvent_single (offered : s.pending = [event]) : nextEvent s = some event ↔ acceptable s event = true := by
  refine ⟨acceptable_of_nextEvent, fun accepted => ?_⟩
  cases taken : nextEvent s with
  | none => rw [nextEvent_eq_none_iff.mp taken event (by simp [offered])] at accepted; cases accepted
  | some other =>
    have mem := mem_pending_of_nextEvent taken
    rw [offered, List.mem_singleton] at mem
    rw [mem]

/-- An interrupt request, and in the same way that of a PEC transfer, needs no lock, IEN and a level above ILVL. -/
theorem acceptable_request_iff {level : BitVec 4}
    (request : (∃ number, event = .irq level number) ∨ ∃ w a v, event = .pec level w a v) :
    acceptable s event = true ↔ (s.run ≠ .powerdown ∧ s.seq.lock = false) ∧
      s.psw.getLsbD 11 = true ∧ (s.psw.extractLsb' 12 4).toNat < level.toNat := by
  have same : acceptable s event =
      (!s.seq.lock && s.run != .powerdown && s.psw.getLsbD 11 && decide (s.psw.extractLsb' 12 4 < level)) := by
    rcases request with ⟨number, rfl⟩ | ⟨w, a, v, rfl⟩ <;> rfl
  simp only [same, Bool.and_eq_true, Bool.not_eq_true', bne_iff_ne, decide_eq_true_eq, BitVec.lt_def]
  tauto

theorem acceptable_nmi_iff : acceptable s .nmi = true ↔ s.run ≠ .powerdown ∧ s.seq.lock = false := by
  simp only [acceptable, Bool.and_eq_true, Bool.not_eq_true', bne_iff_ne, and_comm]

theorem acceptable_wdtOverflow_iff :
    acceptable s .wdtOverflow = true ↔ s.run ≠ .powerdown ∧ s.wdt.enabled = true := by
  simp only [acceptable, Bool.and_eq_true, bne_iff_ne, and_comm]

/-- A hardware reset is acceptable always, and of the first rank, which no other event has. -/
theorem nextEvent_hardwareReset (offered : .hardwareReset ∈ s.pending) : nextEvent s = some .hardwareReset := by
  have found : (s.pending.find? fun event => acceptable s event && event.rank == 0) = some .hardwareReset := by
    cases first : s.pending.find? fun event => acceptable s event && event.rank == 0 with
    | none => exact absurd rfl (List.find?_eq_none.mp first .hardwareReset offered)
    | some event =>
      have rank := List.find?_some first
      cases event
      case hardwareReset => rfl
      all_goals simp [Event.rank] at rank
  rw [nextEvent, List.findSome?_cons, found]

theorem hardwareReset_of_powerdown (down : s.run = .powerdown) (accepted : acceptable s event = true) :
    event = .hardwareReset := by
  cases event <;> simp_all [acceptable]

theorem step_event (h : nextEvent s = some event) :
    step s = takeEvent event { s with pending := s.pending.erase event } := by
  simp only [step, h]

theorem step_waiting (h : nextEvent s = none) (waiting : s.run = .idle ∨ s.run = .powerdown) : step s = .next s := by
  rcases waiting with run | run <;> simp only [step, h, run]

/-- A reset by an event gives every register its value, and uses up the event. -/
theorem step_reset {cause : ResetCause} (h : nextEvent s = some event)
    (resets : ∀ u, takeEvent event u = .next (resetWith cause u)) :
    ∃ t, step s = .next t ∧ resetTaken cause s t ∧ t.pending = s.pending.erase event := by
  rw [step_event h, resets]
  exact ⟨_, rfl, resetTaken_resetWith cause { s with pending := s.pending.erase event }, rfl⟩

end Acceptance

end Sys2Proof.Laws

namespace Sys2Proof.Proofs

open Sys2Proof.Machine Sys2Proof.Laws

/-- Settles O43: the entry of a trap that interrupts `s` as it stands. -/
theorem hardwareTrapEntry : Obligations.HardwareTrapEntry := by
  intro trap ret s wf plain
  obtain ⟨t, entry, taken, tfr, seq, -, -⟩ :=
    raise_entered (seq := s.seq) (tfr := s.tfr) (run := s.run) (pending := s.pending) trap ret wf plain
  exact ⟨t, entry, taken, tfr, seq⟩

/-- Settles O48: the entry with the request's level, begun running and with the request used up. -/
theorem interruptEntry : Obligations.InterruptEntry := by
  intro s level number accepted wf plain
  obtain ⟨t, entry, taken, other⟩ := enter_entered (seq := s.seq) (tfr := s.tfr) (run := .running)
    (pending := s.pending.erase (.irq level number)) number s.ip level wf plain
  exact ⟨t, (step_event accepted).trans (congrArg entryOutcome entry), taken, other⟩

/-- Settles O60, event by event. -/
theorem eventEffects : Obligations.EventEffects := by
  intro s
  refine ⟨fun accepted wf plain => ?nmi, fun level w a v accepted => ⟨fun writable => ?pec, fun word odd => ?oddPec⟩,
    fun accepted => step_reset accepted fun _ => rfl, fun accepted => step_reset accepted fun _ => rfl⟩
  case nmi =>
    obtain ⟨t, entry, taken, other⟩ := raise_entered (seq := s.seq) (tfr := s.tfr) (run := .running)
      (pending := s.pending.erase .nmi) .nmi s.ip wf plain
    exact ⟨t, (step_event accepted).trans entry, taken, other⟩
  case pec =>
    have writable' : canWrite { s with pending := s.pending.erase (.pec level w a v) } w a = true :=
      (canWrite_congr (by rfl) (by rfl) (by rfl) (by rfl) w a).trans writable
    exact (step_event accepted).trans (congrArg entryOutcome (writeMem_of writable'))
  case oddPec =>
    subst word
    exact (step_event accepted).trans (congrArg entryOutcome (writeMem_misaligned _ _ (misaligned_word odd)))

/-- Settles O47: the one event offered is accepted when it is acceptable. -/
theorem eventAcceptance : Obligations.EventAcceptance := by
  intro s level number w a v isOpen enabled
  refine ⟨fun offered => ?irq, fun offered => ?pec, fun offered => ?nmi, fun offered => ?wdt, fun offered => ?reset⟩
  case irq => exact (nextEvent_single offered).trans (acceptable_request_iff (.inl ⟨number, rfl⟩))
  case pec => exact (nextEvent_single offered).trans (acceptable_request_iff (.inr ⟨w, a, v, rfl⟩))
  case nmi => exact (nextEvent_single offered).trans acceptable_nmi_iff
  case wdt => exact (nextEvent_single offered).trans acceptable_wdtOverflow_iff
  case reset => exact nextEvent_hardwareReset (by simp [offered])

/-- Settles O49: in power down only a hardware reset is acceptable, and without an event a waiting CPU stays. -/
theorem poweredDownWaits : Obligations.PoweredDownWaits := by
  refine fun s => ⟨fun down noReset => ?stays, fun down reset => ?resets,
    fun idle quiet => step_waiting quiet (.inl idle)⟩
  case stays =>
    have quiet : nextEvent s = none := nextEvent_eq_none_iff.mpr fun event offered => Bool.eq_false_iff.mpr
      fun accepted => noReset (hardwareReset_of_powerdown down accepted ▸ offered)
    exact step_waiting quiet (.inr down)
  case resets => exact step_event (nextEvent_hardwareReset reset)

end Sys2Proof.Proofs
end
